-- ==== Sys2Proof/Word.lean ====
section
/-! DEFINITION. The two word widths of the block: a host word of 32 bits (10_state.md R20) and a byte
of 8 bits (00_scope.md R11). All wider arithmetic of the spec is on unbounded naturals (R12). -/

namespace Sys2Proof

/-- A host word: every register is 32 bits wide (R20). -/
abbrev Word := BitVec 32

/-- A byte, `b[7]` its most significant bit (R11). -/
abbrev Byte := BitVec 8

end Sys2Proof
end

