-- ==== Sys2Proof/Config.lean ====
section
/-! DEFINITION. What one build fixes (00_scope.md R7 to R10), the constants of the address map and of
the container, and the free values: the ONE opaque constant `Config.freeBits`, from which every value
the spec leaves unspecified is taken (93_implementation_defined.md U5 to U15; log entries 1 to 3). -/

namespace Sys2Proof.Config

/-- The legal values of SYM_LIMIT (R7): "128 (the original's values ≤127) or 256". -/
inductive SymLimit where
  | limit128
  | limit256
deriving DecidableEq, Repr

/-- SYM_LIMIT as a number (R7). -/
def SymLimit.value : SymLimit → Nat
  | .limit128 => 128
  | .limit256 => 256

/-- The build-time parameters (R7, R9): SYM_LIMIT, IN_MAX and OUT_MAX. The State of a machine carries
the parameters it was built with, so a statement for all states is a statement for all builds. -/
structure Params where
  symLimit : SymLimit
  inMax : Nat
  outMax : Nat
deriving DecidableEq, Repr

/-- The number of byte values below SYM_LIMIT (R7). -/
def Params.limit (p : Params) : Nat := p.symLimit.value

/-- NMAX, the size of the supported alphabet: SYM_LIMIT − 1 (R8). -/
def Params.nMax (p : Params) : Nat := p.limit - 1

/-- NODE_MAX = 2·SYM_LIMIT − 1 (R10). -/
def Params.nodeMax (p : Params) : Nat := 2 * p.limit - 1

/-- HEAP_MAX = SYM_LIMIT (R10). -/
def Params.heapMax (p : Params) : Nat := p.limit

/-- MAX_CODE_LEN = SYM_LIMIT − 2 (R10). -/
def Params.maxCodeLen (p : Params) : Nat := p.limit - 2

/-- The parameters of the machine `State.reset` stands for. SYM_LIMIT = 128 is R7's default.
DESIGN CHOICE (log entry 1): R9 leaves IN_MAX and OUT_MAX open; 4096 is the size
95_test_vectors.md takes for its vectors. -/
def defaultParams : Params := { symLimit := .limit128, inMax := 4096, outMax := 4096 }

/-- IN_BASE (20_memory.md R62). -/
def inBase : Nat := 0x10000000

/-- OUT_BASE (20_memory.md R62). -/
def outBase : Nat := 0x20000000

/-- The constant the ID register reads: "HUF1" (10_state.md R21). -/
def idValue : Word := 0x48554631

/-- end_of_header_sentinel (30_encoding.md R90, R92). -/
def sentinel : Byte := 0x07

/-- ASCII '0', the character of a 0 code bit (30_encoding.md R90). -/
def asciiZero : Byte := 0x30

/-- ASCII '1', the character of a 1 code bit (30_encoding.md R90). -/
def asciiOne : Byte := 0x31

/-- The terminator of a header entry (30_encoding.md R90). -/
def terminator : Byte := 0x00

/-- The places whose content the spec leaves unspecified, one constructor a place. Two places never
share a free value. -/
inductive FreeSlot where
  /-- IN_MEM offset, never written since power-up (20_memory.md R70; U8, U11) -/
  | inByte (ofs : Nat)
  /-- OUT_MEM offset after a reset or an error, or read while BUSY (R71, R69; U7, U9, U10) -/
  | outByte (ofs : Nat)
  /-- FREQ entry (R54, R284; U12) -/
  | freq (s : Nat)
  /-- NODE_COUNT after an error (R284; U12) -/
  | nodeCount
  /-- TAG of a NODE entry (R54, R284; U12) -/
  | nodeTag (i : Nat)
  /-- FREQ field of a NODE entry -/
  | nodeFreq (i : Nat)
  /-- SYM field of a NODE entry -/
  | nodeSym (i : Nat)
  /-- LEFT field of a NODE entry -/
  | nodeLeft (i : Nat)
  /-- RIGHT field of a NODE entry -/
  | nodeRight (i : Nat)
  /-- ROOT (R54, R284; U12) -/
  | root
  /-- HEAP_SIZE after an error (R284; U12) -/
  | heapSize
  /-- HEAP entry (R54, R284; U12, U15) -/
  | heapEntry (i : Nat)
  /-- CODE_LEN entry (R54, R284; U12) -/
  | codeLen (s : Nat)
  /-- CODE_BITS entry (R54, R284; U12) -/
  | codeBits (s : Nat)
  /-- ORDER_LEN after an error (R284; U12) -/
  | orderLen
  /-- ORDER entry (R54, R284; U12) -/
  | orderEntry (i : Nat)
  /-- number of TSTACK entries between commands (R54; U12) -/
  | tstackSize
  /-- node index of a TSTACK entry -/
  | tstackNode (i : Nat)
  /-- depth of a TSTACK entry -/
  | tstackDepth (i : Nat)
  /-- PATH between commands (R54; U12) -/
  | path
  /-- ACC between commands (R49; U13) -/
  | acc
  /-- ACC_N between commands (R49; U13) -/
  | accN
  /-- CAND between commands (R50; U13) -/
  | cand
  /-- CAND_LEN between commands (R50; U13) -/
  | candLen
  /-- DEC_COUNT between commands (R50; U13) -/
  | decCount
  /-- RD_PTR between commands (R44; U13) -/
  | rdPtr
  /-- WR_PTR between commands (R44; U13) -/
  | wrPtr
  /-- Q between commands (R44; U13) -/
  | q
  /-- which of the running command's phases a read while BUSY shows (R26; U6) -/
  | phaseChoice
  /-- the four valid flags read while BUSY (R27; U7) -/
  | busyFlags
  /-- a result register or a window read while BUSY (R69, R59; U7) -/
  | busyWord
deriving DecidableEq, Repr

/-- The free values. `freeBits slot epoch w` is the `w`-bit content of `slot` that the spec leaves open
for the `epoch`-th time; `State.freeIdx` supplies the epoch and is advanced at every use, so no two
uses are forced to agree. It has no body: nothing is provable of any of its values. -/
opaque freeBits (slot : FreeSlot) (epoch w : Nat) : BitVec w

end Sys2Proof.Config
end

