-- ==== Sys2Proof/Syntax.lean ====
section
/-! DEFINITION. The syntax: the ten host commands of spec/opcode_table.json (30_encoding.md R81) and
the host's bus transactions (30_encoding.md R87), through which a command reaches the block. -/

namespace Sys2Proof

/-- The ten commands, one constructor per row of the opcode table. "A command has no immediate or
operand fields" (30_encoding.md R80), so no constructor has an argument. -/
inductive Instr where
  /-- OP 0x0 (47_control.md R265) -/
  | nop
  /-- OP 0x1 (47_control.md R266) -/
  | compress
  /-- OP 0x2 (47_control.md R267) -/
  | decompress
  /-- OP 0x3 (40_frequency_counter.md R112) -/
  | count
  /-- OP 0x4 (42_tree_builder.md R150) -/
  | buildTree
  /-- OP 0x5 (43_code_table.md R170) -/
  | buildTable
  /-- OP 0x6 (44_serializer.md R190) -/
  | serialize
  /-- OP 0x7 (45_parser.md R210) -/
  | parseHeader
  /-- OP 0x8 (46_decoder.md R240) -/
  | decodePayload
  /-- OP 0xF (47_control.md R269) -/
  | softReset
deriving DecidableEq, Repr

/-- One host event, the unit in which the outside world acts on the block: a bus transaction of any
width (20_memory.md R63, R64; 30_encoding.md R87), a POLL (R87), or the hardware reset input
(70_reset_and_hazards.md R310). `size` is the access width in bytes; `WR32` and `RD32` have size 4,
`WR8` and `RD8` size 1. -/
inductive HostOp where
  | write (size : Nat) (addr data : Word)
  | read (size : Nat) (addr : Word)
  | poll (addr mask value : Word)
  | hwReset
deriving DecidableEq, Repr

end Sys2Proof
end

