-- ==== Sys2Proof/WellFormed.lean ====
section
/-! DEFINITION. Well-formedness. A command has no field that could be ill formed (30_encoding.md R80);
what a build may get wrong are its parameters (00_scope.md R9), and what a host event may get wrong
is its width, which is at least one byte. -/

namespace Sys2Proof

/-- Every command is well formed: it has no field (30_encoding.md R80). -/
def Instr.wellFormed : Instr → Bool
  | .nop | .compress | .decompress | .count | .buildTree | .buildTable | .serialize | .parseHeader
  | .decodePayload | .softReset => true

/-- The parameters are legal: 1 ≤ IN_MAX ≤ 2^28 and 1 ≤ OUT_MAX ≤ 2^28 (R9). SYM_LIMIT is legal by its
type (R7). -/
def Config.Params.wellFormed (p : Config.Params) : Bool :=
  decide (1 ≤ p.inMax) && decide (p.inMax ≤ 2 ^ 28) && decide (1 ≤ p.outMax) && decide (p.outMax ≤ 2 ^ 28)

/-- A host access is at least one byte wide. -/
def HostOp.wellFormed : HostOp → Bool
  | .write size _ _ => decide (1 ≤ size)
  | .read size _ => decide (1 ≤ size)
  | .poll _ _ _ => true
  | .hwReset => true

end Sys2Proof
end

