-- ==== Sys2Proof/Decode.lean ====
section
/-! DEFINITION. The command decoder (30_encoding.md R80 to R82), total on every 32-bit value, and the
encoder. A decoder "matches value[3:0] against the OP column and ignores bits [31:4]" (R81). -/

namespace Sys2Proof

/-- Why a CMD value names no command. -/
inductive DecodeReject where
  /-- OP 0x9 to 0xE: reserved, answered with IllegalCommand (R82). -/
  | reservedOpcode (op : BitVec 4)
deriving DecidableEq, Repr

/-- Field OP = bits [3:0] of a CMD value (10_state.md R23, R80). -/
def opField (v : Word) : BitVec 4 := v.extractLsb' 0 4

/-- The opcode map (R81). -/
def decodeOp (op : BitVec 4) : Except DecodeReject Instr :=
  match op.toNat with
  | 0x0 => .ok .nop
  | 0x1 => .ok .compress
  | 0x2 => .ok .decompress
  | 0x3 => .ok .count
  | 0x4 => .ok .buildTree
  | 0x5 => .ok .buildTable
  | 0x6 => .ok .serialize
  | 0x7 => .ok .parseHeader
  | 0x8 => .ok .decodePayload
  | 0xF => .ok .softReset
  | _ => .error (.reservedOpcode op)

/-- The decoder: bits [31:4] are ignored (R80). -/
def decode (v : Word) : Except DecodeReject Instr := decodeOp (opField v)

/-- The OP value of a command (R81). -/
def Instr.opcode : Instr → BitVec 4
  | .nop => 0x0
  | .compress => 0x1
  | .decompress => 0x2
  | .count => 0x3
  | .buildTree => 0x4
  | .buildTable => 0x5
  | .serialize => 0x6
  | .parseHeader => 0x7
  | .decodePayload => 0x8
  | .softReset => 0xF

/-- The CMD value of a command with reserved bits `hi` in [31:4] (R80). -/
def encodeWith (hi : BitVec 28) (i : Instr) : Word := hi ++ i.opcode

/-- The CMD value a host writes for a command (30_encoding.md R88, `CMD <mnemonic>`): bits [31:4] zero. -/
def encode (i : Instr) : Word := encodeWith 0 i

/-- The instruction the decoder reads from an instruction word numbered as the opcode table numbers
it: one 32-bit CMD value, every bit from `nbits` up being 0. -/
def decodeTableWord (nbits w : Nat) : Option Instr :=
  match decode (BitVec.ofNat 32 (w % 2 ^ nbits)) with
  | .ok i => some i
  | .error _ => none

end Sys2Proof
end

