-- ==== Sys2Proof/Machine/State.lean ====
section
/-! DEFINITION. The state of the block (10_state.md R20 to R54), as plain data, its reset value, and the
reasons a step can stop. The last block of fields (`outStale`, `freeIdx`, `env`) is the model's own:
where free values come from, and the host's side of the port. -/

namespace Sys2Proof.Machine

open Sys2Proof.Config (Params)

/-- The values of STATUS.PHASE and of the phase register (30_encoding.md R85). Codes 9 to 15 are "never
shown" and have no constructor (U22). -/
inductive Phase where
  | idle
  | count
  | heapLoad
  | merge
  | traverse
  | emitHeader
  | emitPayload
  | parseHeader
  | decode
deriving DecidableEq, Repr

/-- The STATUS register (10_state.md R24), less PHASE, which is the phase register's own field. The
reserved bits read 0 and ignore writes (R20), so they are not stored. -/
structure Status where
  busy : Bool
  done : Bool
  err : Bool
  errCode : BitVec 4
  freqValid : Bool
  treeValid : Bool
  tableValid : Bool
  hdrValid : Bool
deriving DecidableEq, Repr

/-- The host-visible registers other than STATUS (10_state.md R23, R28 to R38). Reserved bits are not
stored: CMD holds OP, ERR_SUB its bits [3:0], MAXLEN its bits [7:0], INT_EN its bit IE. ID, CFG,
IN_MAX_R and OUT_MAX_R are constants of the build. -/
structure Regs where
  cmdOp : BitVec 4
  errPos : Word
  errSub : BitVec 4
  inLen : Word
  outCap : Word
  outLen : Word
  unique : Word
  total : Word
  payloadOfs : Word
  payloadBits : Word
  maxLen : BitVec 8
  intEn : Bool
deriving DecidableEq, Repr

/-- One NODE entry (10_state.md R43). TAG is the constructor; a field the tag does not use is not
stored, as "no rule reads it" (U14). -/
inductive Node where
  | leaf (freq : Word) (sym : Byte)
  | internal (freq : Word) (left right : BitVec 9)
deriving DecidableEq, Repr

/-- The internal memories (10_state.md R42 to R47).
`freq`, `codeLen` and `codeBits` have SYM_LIMIT entries. `nodes` is NODE[0 .. NODE_COUNT − 1], `heap` is
HEAP[0 .. HEAP_SIZE − 1] and `order` is ORDER[0 .. ORDER_LEN − 1]: their lengths ARE the registers
NODE_COUNT, HEAP_SIZE and ORDER_LEN, and entries past them "hold unspecified values" (R45; log entry 6). -/
structure Tables where
  freq : List Word
  nodes : List Node
  root : BitVec 9
  heap : List (BitVec 9)
  codeLen : List (BitVec 8)
  codeBits : List (BitVec 256)
  order : List Byte
deriving DecidableEq, Repr

/-- The traversal stack with its path register, the packer, the decoder's registers and the cursors
(10_state.md R44, R48 to R50). The head of `tstack` is its top. -/
structure Datapath where
  tstack : List (BitVec 9 × BitVec 8)
  path : BitVec 256
  acc : BitVec 8
  accN : BitVec 3
  cand : BitVec 256
  candLen : BitVec 9
  decCount : Word
  rdPtr : Word
  wrPtr : Word
  q : Word
deriving DecidableEq, Repr

/-- IN_MEM and OUT_MEM (10_state.md R51) in the host address map (20_memory.md R62): the bytes that
something has written, by address, addresses strictly rising. An unlisted address has no value of
its own; what a read of it gives is a free value (log entry 3). -/
abbrev Memory := List Host.Cell

/-- The host's side of the port, the model's own fields (log entries 7 and 8): the events still to come,
what the reads gave (newest first), how many host events the next accepted commands stay busy for, and
how many of them are left of the running command. -/
structure Env where
  host : List HostOp
  readLog : List Word
  latencies : List Nat
  busyLeft : Nat
deriving DecidableEq, Repr

/-- The whole machine. `build` is what the constant registers CFG, IN_MAX_R and OUT_MAX_R read (R22,
R39). `outStale` says which free value an unlisted OUT_MEM byte reads: the first pair (n, e) with the
offset below n gives the epoch e, no pair gives epoch 0. `freeIdx` is the next epoch. -/
structure State where
  build : Params
  regs : Regs
  status : Status
  phase : Phase
  curOp : BitVec 4
  mem : Memory
  tables : Tables
  dp : Datapath
  outStale : List (Nat × Nat)
  freeIdx : Nat
  env : Env
deriving DecidableEq, Repr

/-- Why a step can stop. The block itself never stops: "No access raises an error, stalls or sets a
status bit" (20_memory.md R65). Every fault here is of a state no run from reset reaches. -/
inductive Fault where
  /-- HeapExtractMin with HEAP_SIZE = 0: "A model may fault on HEAP_SIZE = 0 as a case no run reaches"
  (41_priority_queue.md R133; U17). Raised by MergeStep. Safe. -/
  | heapEmpty
  /-- Traverse would put more than MAX_CODE_LEN + 1 entries on TSTACK (10_state.md R48). Raised by
  BUILD_TABLE on a NODE memory that is not a tree of BUILD_TREE's (R154). Safe. -/
  | tstackOverflow
  /-- BUSY = 1 with CUR_OP naming no busy command. Raised by the completion step. Safe. -/
  | noRunningCommand
deriving DecidableEq, Repr

/-- Why an instruction has no meaning in the model. -/
inductive Refusal where
  /-- An instruction of the opcode table whose meaning the model does not have. Raised by `exec`'s arm;
  no arm raises it in this model. Safe. -/
  | notModelled (mnemonic : String)
deriving DecidableEq, Repr

/-- STATUS after reset: all fields 0 (R54). -/
def Status.reset : Status :=
  { busy := false, done := false, err := false, errCode := 0, freqValid := false, treeValid := false,
    tableValid := false, hdrValid := false }

/-- The host-visible registers after reset: all 0 (R54). -/
def Regs.reset : Regs :=
  { cmdOp := 0, errPos := 0, errSub := 0, inLen := 0, outCap := 0, outLen := 0, unique := 0, total := 0,
    payloadOfs := 0, payloadBits := 0, maxLen := 0, intEn := false }

/-- The internal memories at power-up. HEAP_SIZE, NODE_COUNT and ORDER_LEN are 0 (R54). DESIGN CHOICE (log
entry 4): R54 leaves FREQ, ROOT, CODE_LEN and CODE_BITS unspecified; the model names 0. -/
def Tables.powerUp (p : Params) : Tables :=
  { freq := List.replicate p.limit 0, nodes := [], root := 0, heap := [],
    codeLen := List.replicate p.limit 0, codeBits := List.replicate p.limit 0, order := [] }

/-- The datapath registers at power-up. DESIGN CHOICE (log entry 5): R54 leaves them unspecified; the
model names 0 and an empty TSTACK. -/
def Datapath.powerUp : Datapath :=
  { tstack := [], path := 0, acc := 0, accN := 0, cand := 0, candLen := 0, decCount := 0, rdPtr := 0,
    wrPtr := 0, q := 0 }

/-- The host's side with nothing to come. -/
def Env.empty : Env := { host := [], readLog := [], latencies := [], busyLeft := 0 }

/-- The block of build `p` right after power-up and reset (R54, R310, R313). -/
def State.resetOf (p : Params) : State :=
  { build := p, regs := Regs.reset, status := Status.reset, phase := .idle, curOp := 0, mem := [],
    tables := Tables.powerUp p, dp := Datapath.powerUp, outStale := [], freeIdx := 1, env := Env.empty }

/-- The machine right after reset, for the parameters of `Config.defaultParams` (log entry 1). -/
def State.reset : State := State.resetOf Config.defaultParams

end Sys2Proof.Machine
end

