-- ==== Sys2Proof/Machine/Ops.lean ====
section
/-! DEFINITION. The named operations over memory and registers: the byte memory (20_memory.md R60 to R71),
the free values, and what stands in this block for taking an exception: the raise (00_scope.md R14), the
error entry ErrorCommit (60_exceptions.md R284), the immediate error (47_control.md R270), the successful
completion (R263), and the reset action (70_reset_and_hazards.md R310). The "return" from an error is the
write-one-to-clear of STATUS (R289), `State.clearReport`. -/

namespace Sys2Proof.Machine

open Sys2Proof.Config (Params FreeSlot freeBits)

/-! ### Memory -/

/-- The canonical form: addresses strictly rising. An unlisted address has no value, so no entry can
equal what an unlisted address reads as (log entry 3). -/
abbrev Memory.wf (m : Memory) : Prop := m.Pairwise (fun x y => x.1 < y.1)

/-- The byte written last at address `a`, if any. -/
def Memory.get (m : Memory) (a : Nat) : Option Byte :=
  match m with
  | [] => none
  | c :: rest => if c.1 = a then some c.2 else Memory.get rest a

/-- Store byte `b` at address `a`, keeping the addresses rising. -/
def Memory.set (m : Memory) (a : Nat) (b : Byte) : Memory :=
  match m with
  | [] => [(a, b)]
  | c :: rest =>
    if a < c.1 then (a, b) :: c :: rest
    else if c.1 = a then (a, b) :: rest
    else c :: Memory.set rest a b

/-- Forget the bytes at the addresses `lo ≤ a < hi`: they are unlisted again. -/
def Memory.forget (m : Memory) (lo hi : Nat) : Memory :=
  m.filter (fun c => !(decide (lo ≤ c.1) && decide (c.1 < hi)))

/-- `IN[a]` (R14, R61): the byte at IN_MEM offset `a`. A byte never written since power-up is a free
value, "the same on every read until a host write stores one" (R70). -/
def State.inByte (s : State) (a : Nat) : Byte :=
  match s.mem.get (Config.inBase + a) with
  | some b => b
  | none => freeBits (.inByte a) 0 8

/-- The epoch of the free value an unlisted OUT_MEM offset reads: that of the latest event that left
the offset unspecified (R71, R311). -/
def outEpoch (stale : List (Nat × Nat)) (a : Nat) : Nat :=
  match stale.find? (fun p => decide (a < p.1)) with
  | some p => p.2
  | none => 0

/-- The byte at OUT_MEM offset `a`. -/
def State.outByte (s : State) (a : Nat) : Byte :=
  match s.mem.get (Config.outBase + a) with
  | some b => b
  | none => freeBits (.outByte a) (outEpoch s.outStale a) 8

/-- `OUT[a] <- v` (R14, R61). Past OUT_MAX there is no byte and the write is ignored (R65; log entry 10). -/
def State.outWrite (s : State) (a : Nat) (v : Byte) : State :=
  if a < s.build.outMax then { s with mem := s.mem.set (Config.outBase + a) v } else s

/-- A host byte store to IN_MEM offset `a` (R67): the byte alone, not the flags. -/
def State.inWrite (s : State) (a : Nat) (v : Byte) : State :=
  { s with mem := s.mem.set (Config.inBase + a) v }

/-- The effective output capacity `cap = min(OUT_CAP, OUT_MAX)` (10_state.md R31). -/
def State.cap (s : State) : Nat := min s.regs.outCap.toNat s.build.outMax

/-- OUT_MEM offsets below `n` become unspecified in epoch `e`; a pair covering fewer offsets is then
covered itself and drops out. -/
def staleBelow (n e : Nat) (stale : List (Nat × Nat)) : List (Nat × Nat) :=
  if n = 0 then stale else (n, e) :: stale.filter (fun p => decide (n < p.1))

/-- `for a in 0 .. n − 1: OUT_MEM[a] <- unspecified byte` (60_exceptions.md R284), in epoch `e`. -/
def State.forgetOut (n e : Nat) (s : State) : State :=
  { s with
    mem := s.mem.forget Config.outBase (Config.outBase + n)
    outStale := staleBelow n e s.outStale }

/-! ### Free values of the internal state -/

/-- An unspecified NODE entry (10_state.md R54, R43). -/
def freeNode (e i : Nat) : Node :=
  if freeBits (.nodeTag i) e 1 = 0 then
    .leaf (freeBits (.nodeFreq i) e 32) (freeBits (.nodeSym i) e 8)
  else
    .internal (freeBits (.nodeFreq i) e 32) (freeBits (.nodeLeft i) e 9) (freeBits (.nodeRight i) e 9)

/-- The internal tables left unspecified by a reset (10_state.md R54): HEAP_SIZE, NODE_COUNT and ORDER_LEN
are 0 there. -/
def resetTables (p : Params) (e : Nat) : Tables :=
  { freq := (List.range p.limit).map (fun i => freeBits (.freq i) e 32)
    nodes := []
    root := freeBits .root e 9
    heap := []
    codeLen := (List.range p.limit).map (fun i => freeBits (.codeLen i) e 8)
    codeBits := (List.range p.limit).map (fun i => freeBits (.codeBits i) e 256)
    order := [] }

/-- The internal tables left unspecified by an error (60_exceptions.md R284): the three counts too, each
within the size of its table (00_scope.md R10). -/
def freeTables (p : Params) (e : Nat) : Tables :=
  { resetTables p e with
    nodes := (List.range (min p.nodeMax (freeBits .nodeCount e 10).toNat)).map (freeNode e)
    heap := (List.range (min p.heapMax (freeBits .heapSize e 9).toNat)).map
      (fun i => freeBits (.heapEntry i) e 9)
    order := (List.range (min p.limit (freeBits .orderLen e 9).toNat)).map
      (fun i => freeBits (.orderEntry i) e 8) }

/-- The datapath registers between commands: unspecified (10_state.md R44, R49, R50, R54), TSTACK within its
MAX_CODE_LEN + 1 entries (R48). -/
def freeDatapath (p : Params) (e : Nat) : Datapath :=
  { tstack := (List.range (min (p.maxCodeLen + 1) (freeBits .tstackSize e 8).toNat)).map
      (fun i => (freeBits (.tstackNode i) e 9, freeBits (.tstackDepth i) e 8))
    path := freeBits .path e 256
    acc := freeBits .acc e 8
    accN := freeBits .accN e 3
    cand := freeBits .cand e 256
    candLen := freeBits .candLen e 9
    decCount := freeBits .decCount e 32
    rdPtr := freeBits .rdPtr e 32
    wrPtr := freeBits .wrPtr e 32
    q := freeBits .q e 32 }

/-! ### Errors -/

/-- The error kinds (30_encoding.md R83). -/
inductive ErrKind where
  | emptyInput
  | unsupportedSymbol
  | corruptContainer
  | capacityExceeded
  | illegalCommand
  | sequenceError
deriving DecidableEq, Repr

/-- STATUS.ERRCODE of an error kind (R83). -/
def ErrKind.code : ErrKind → BitVec 4
  | .emptyInput => 1
  | .unsupportedSymbol => 2
  | .corruptContainer => 3
  | .capacityExceeded => 4
  | .illegalCommand => 5
  | .sequenceError => 6

/-- `raise E(sub, pos)` (00_scope.md R14): the kind, ERR_SUB and ERR_POS of an error. -/
structure Raised where
  kind : ErrKind
  sub : BitVec 4
  pos : Word
deriving DecidableEq, Repr

/-- Why a command's pseudocode ends before its last statement: a raise, or a fault of the model. -/
inductive Halt where
  | raised (r : Raised)
  | fault (f : Fault)
deriving DecidableEq, Repr

/-- The outcome of a command's pseudocode: the state at its end, or why it ended early. -/
abbrev Run := Except Halt State

/-- `raise E(sub, pos)`. -/
def raise {α : Type} (kind : ErrKind) (sub pos : Nat) : Except Halt α :=
  .error (.raised { kind := kind, sub := BitVec.ofNat 4 sub, pos := BitVec.ofNat 32 pos })

/-- All four valid flags cleared (10_state.md R27). -/
def Status.clearValid (t : Status) : Status :=
  { t with freqValid := false, treeValid := false, tableValid := false, hdrValid := false }

/-- ErrorCommit(code, sub, pos), the error entry of a busy command (R284). -/
def errorCommit (r : Raised) (s : State) : State :=
  let e := s.freeIdx
  { s.forgetOut s.cap e with
    regs := { s.regs with
      unique := 0, total := 0, payloadOfs := 0, payloadBits := 0, maxLen := 0, outLen := 0
      errSub := r.sub, errPos := r.pos }
    status := { s.status.clearValid with errCode := r.kind.code, busy := false, done := false, err := true }
    phase := .idle
    curOp := 0
    tables := freeTables s.build e
    dp := freeDatapath s.build e
    freeIdx := e + 1
    env := { s.env with busyLeft := 0 } }

/-- ImmediateError(code, sub) (47_control.md R270): "No other state changes". -/
def immediateError (kind : ErrKind) (sub : BitVec 4) (s : State) : State :=
  { s with
    status := { s.status with err := true, errCode := kind.code }
    regs := { s.regs with errSub := sub, errPos := 0 } }

/-- Successful completion (47_control.md R263). The datapath registers "hold unspecified values" between
commands (10_state.md R44, R49, R50). -/
def successCommit (s : State) : State :=
  { s with
    status := { s.status with busy := false, done := true }
    phase := .idle
    curOp := 0
    dp := freeDatapath s.build s.freeIdx
    freeIdx := s.freeIdx + 1
    env := { s.env with busyLeft := 0 } }

/-- The report of an error or of a completion is withdrawn by a host write of STATUS with bit [1] or [2]
set (10_state.md R25): ERRCODE, ERR_SUB and ERR_POS stay (R289). -/
def State.clearReport (v : Word) (s : State) : State :=
  { s with
    status := { s.status with
      done := s.status.done && !v.getLsbD 1
      err := s.status.err && !v.getLsbD 2 } }

/-! ### Reset -/

/-- The reset action of both resets (R310, R54, R311, R312): every register at its reset value, IN_MEM
unchanged, OUT_MEM and the internal tables unspecified, a running command abandoned. -/
def resetAction (s : State) : State :=
  let e := s.freeIdx
  { s.forgetOut s.build.outMax e with
    regs := Regs.reset
    status := Status.reset
    phase := .idle
    curOp := 0
    tables := resetTables s.build e
    dp := freeDatapath s.build e
    freeIdx := e + 1
    env := { s.env with busyLeft := 0 } }

end Sys2Proof.Machine
end

