-- ==== Sys2Proof/Machine/Operands.lean ====
section
/-! DEFINITION. The operands of the commands (30_encoding.md R86): the entries of the internal tables, code
strings (00_scope.md R13), and the little-endian counts (20_memory.md R72). -/

namespace Sys2Proof.Machine

open Sys2Proof.Config (freeBits)

/-! ### Tables -/

/-- SYM_LIMIT of this build (00_scope.md R7). -/
def State.limit (s : State) : Nat := s.build.limit

/-- `FREQ[i]` (10_state.md R42). -/
def State.freqAt (s : State) (i : Nat) : Nat := (s.tables.freq.getD i 0).toNat

/-- `FREQ[i] <- v`. -/
def State.setFreq (s : State) (i v : Nat) : State :=
  { s with tables := { s.tables with freq := s.tables.freq.set i (BitVec.ofNat 32 v) } }

/-- `NODE[k]` (R43); an entry past NODE_COUNT is a free value (R54; log entry 6). -/
def State.nodeAt (s : State) (k : Nat) : Node := s.tables.nodes.getD k (freeNode 0 k)

/-- The FREQ field of a node (R43). -/
def Node.freq : Node → Nat
  | .leaf f _ => f.toNat
  | .internal f _ _ => f.toNat

/-- `CODE_LEN[i]` (R46). -/
def State.codeLenAt (s : State) (i : Nat) : Nat := (s.tables.codeLen.getD i 0).toNat

/-- `CODE_BITS[i]` (R46). -/
def State.codeBitsAt (s : State) (i : Nat) : BitVec 256 := s.tables.codeBits.getD i 0

/-- The phase register (R44): `phase <- P`. -/
def State.enterPhase (s : State) (p : Phase) : State := { s with phase := p }

/-! ### Codes -/

/-- The first `len` bits of a stored code, bit 0 first (R46, 00_scope.md R13). -/
def bitString (len : Nat) (bits : BitVec 256) : List Bool := (List.range len).map (fun k => bits.getLsbD k)

/-- "the 256-bit value with bit k = c[k] for k < len(c), 0 elsewhere" (43_code_table.md R173). -/
def packCode (c : List Bool) : BitVec 256 :=
  BitVec.ofNat 256 (c.foldr (fun b acc => b.toNat + 2 * acc) 0)

/-- The code string of symbol `i` (45_parser.md R215). -/
def State.codeOf (s : State) (i : Nat) : List Bool := bitString (s.codeLenAt i) (s.codeBitsAt i)

/-- BindCode(sym, c) (43_code_table.md R173, and the end of 45_parser.md R213). -/
def State.bindCode (s : State) (sym : Byte) (c : List Bool) : State :=
  { s with
    tables := { s.tables with
      codeLen := s.tables.codeLen.set sym.toNat (BitVec.ofNat 8 c.length)
      codeBits := s.tables.codeBits.set sym.toNat (packCode c)
      order := s.tables.order ++ [sym] } }

/-- `for s: CODE_LEN[s] <- 0; CODE_BITS[s] <- 0` and `ORDER_LEN <- 0` (43_code_table.md R170, 45_parser.md
R210). -/
def State.clearCodes (s : State) : State :=
  { s with
    tables := { s.tables with
      codeLen := List.replicate s.limit 0
      codeBits := List.replicate s.limit 0
      order := [] } }

/-- The greatest CODE_LEN (43_code_table.md R174). -/
def State.greatestLen (s : State) : Nat := s.tables.codeLen.foldl (fun m l => max m l.toNat) 0

/-- `sum over s of FREQ[s] · CODE_LEN[s]` (43_code_table.md R174). -/
def State.bitCount (s : State) : Nat :=
  ((List.range s.limit).map (fun i => s.freqAt i * s.codeLenAt i)).sum

/-- The number of symbols with a nonzero count (40_frequency_counter.md R112). -/
def State.distinctCount (s : State) : Nat := s.tables.freq.countP (fun f => f != 0)

/-! ### Little-endian counts -/

/-- `LE32(b0, b1, b2, b3)` (00_scope.md R12). -/
def le32 (b0 b1 b2 b3 : Byte) : Nat := b0.toNat + 256 * b1.toNat + 65536 * b2.toNat + 16777216 * b3.toNat

/-- `v[8*j+7 : 8*j]`: byte j of a count (44_serializer.md R194). -/
def byteOf (v : Word) (j : Nat) : Byte := v.extractLsb' (8 * j) 8

/-- The 32-bit little-endian count at IN_MEM offset `p` (20_memory.md R72). -/
def State.inCount (s : State) (p : Nat) : Nat :=
  le32 (s.inByte p) (s.inByte (p + 1)) (s.inByte (p + 2)) (s.inByte (p + 3))

end Sys2Proof.Machine
end

