-- ==== Sys2Proof/Machine/Flags.lean ====
section
/-! DEFINITION. STATUS: the valid flags' updates (47_control.md R268), the prerequisites read from them
(R264), the phases a command shows (30_encoding.md R85), the register's layout (10_state.md R24) and the
interrupt output (R41). -/

namespace Sys2Proof.Machine

/-! ### Valid flags -/

/-- COUNT success: FREQ 1, TREE 0, TABLE 0, HDR 0 (R268). -/
def Status.afterCount (t : Status) : Status :=
  { t with freqValid := true, treeValid := false, tableValid := false, hdrValid := false }

/-- BUILD_TREE success: TREE 1, TABLE 0, HDR 0 (R268). -/
def Status.afterBuildTree (t : Status) : Status :=
  { t with treeValid := true, tableValid := false, hdrValid := false }

/-- BUILD_TABLE success: TABLE 1 (R268). -/
def Status.afterBuildTable (t : Status) : Status := { t with tableValid := true }

/-- PARSE_HEADER success: FREQ 0, TREE 0, TABLE 1, HDR 1 (R268). -/
def Status.afterParse (t : Status) : Status :=
  { t with freqValid := false, treeValid := false, tableValid := true, hdrValid := true }

/-- Prereq(op) (R264): 0 when the command may start, else the SequenceError subcause. -/
def prereq (op : BitVec 4) (t : Status) : BitVec 4 :=
  match op.toNat with
  | 0x4 => if t.freqValid then 0 else 1
  | 0x5 => if t.treeValid then 0 else 2
  | 0x6 => if t.freqValid then (if t.tableValid then 0 else 3) else 1
  | 0x8 => if t.hdrValid then 0 else 4
  | _ => 0

/-! ### Phases -/

/-- The STATUS.PHASE code of a phase (30_encoding.md R85). -/
def Phase.code : Phase → BitVec 4
  | .idle => 0
  | .count => 1
  | .heapLoad => 2
  | .merge => 3
  | .traverse => 4
  | .emitHeader => 5
  | .emitPayload => 6
  | .parseHeader => 7
  | .decode => 8

/-- The phases of a busy command, in the order it passes through them (30_encoding.md R85). -/
def phasesOf (op : BitVec 4) : List Phase :=
  match op.toNat with
  | 0x1 => [.count, .heapLoad, .merge, .traverse, .emitHeader, .emitPayload]
  | 0x2 => [.parseHeader, .decode]
  | 0x3 => [.count]
  | 0x4 => [.heapLoad, .merge]
  | 0x5 => [.traverse]
  | 0x6 => [.emitHeader, .emitPayload]
  | 0x7 => [.parseHeader]
  | 0x8 => [.decode]
  | _ => []

/-! ### The register -/

/-- The STATUS word (10_state.md R24) from the flags and a PHASE code. -/
def Status.word (t : Status) (phase : BitVec 4) : Word :=
  0#12 ++ BitVec.ofBool t.hdrValid ++ BitVec.ofBool t.tableValid ++ BitVec.ofBool t.treeValid
    ++ BitVec.ofBool t.freqValid ++ 0#4 ++ phase ++ t.errCode ++ 0#1 ++ BitVec.ofBool t.err
    ++ BitVec.ofBool t.done ++ BitVec.ofBool t.busy

/-- `irq = INT_EN.IE AND (DONE OR ERR)` (10_state.md R41). -/
def State.irq (s : State) : Bool := s.regs.intEn && (s.status.done || s.status.err)

end Sys2Proof.Machine
end

