-- ==== Sys2Proof/Machine/Command.lean ====
section
/-! DEFINITION. How a command runs (47_control.md R260 to R263): the request at the CMD write, the
acceptance of a busy command, and its completion by success or by error. `runCommand` is the whole
transition from acceptance state to completion state ("A model may therefore treat each command as one
atomic transition", 00_scope.md R6); `Machine/Bus.lean` puts the busy interval between the two. -/

namespace Sys2Proof.Machine

/-- The first lines of OnCmdWrite (R260): the opcode is kept in CMD and the earlier report cleared. -/
def request (op : BitVec 4) (s : State) : State :=
  { s with
    regs := { s.regs with cmdOp := op, errSub := 0, errPos := 0 }
    status := { s.status with done := false, err := false, errCode := 0 } }

/-- Accept(op) (R262): `CUR_OP <- op`, `BUSY <- 1`, and the phase register enters the command's first phase. -/
def accept (op : BitVec 4) (s : State) : State :=
  { s with
    curOp := op
    status := { s.status with busy := true }
    phase := (phasesOf op).headD .idle }

/-- The end of a busy command accepted in state `s` whose pseudocode gave `r`: success commits what the
pseudocode wrote (R263), a raise discards it and enters the error (60_exceptions.md R283). -/
def finish (r : Run) (s : State) : Host.Outcome State Fault Refusal :=
  match r with
  | .ok t => .next (successCommit t)
  | .error (.raised e) => .next (errorCommit e s)
  | .error (.fault f) => .fault f

/-- A CMD write of a busy command with pseudocode `body` (R260 to R263, R266, R267): ignored while BUSY (20_memory.md
R66), SequenceError when a prerequisite fails (R264, R270), else run from acceptance to completion. -/
def runCommand (op : BitVec 4) (body : State → Run) (s : State) : Host.Outcome State Fault Refusal :=
  if s.status.busy then .next s
  else
    let r := request op s
    let m := prereq op r.status
    if m = 0 then finish (body (accept op r)) (accept op r)
    else .next (immediateError .sequenceError m r)

/-- A CMD write of a reserved opcode (30_encoding.md R82): IllegalCommand when idle, ignored while BUSY. -/
def illegalCommand (op : BitVec 4) (s : State) : State :=
  if s.status.busy then s else immediateError .illegalCommand 0 (request op s)

end Sys2Proof.Machine
end

