-- ==== Sys2Proof/Machine/Counter.lean ====
section
/-! DEFINITION. The frequency counter: COUNT (40_frequency_counter.md R110 to R114). -/

namespace Sys2Proof.Machine

/-- CountGuard() (R111), and ParseGuard() (45_parser.md R211), which makes the same two checks. -/
def lengthGuard (s : State) : Except Halt Unit :=
  if s.regs.inLen = 0 then raise .emptyInput 0 0
  else if s.build.inMax < s.regs.inLen.toNat then raise .capacityExceeded 1 0
  else .ok ()

/-- `for s: FREQ[s] <- 0` (R112). -/
def State.clearFreq (s : State) : State :=
  { s with tables := { s.tables with freq := List.replicate s.limit 0 } }

/-- CountByte(i) (R113). -/
def countByte (s : State) (i : Nat) : Run :=
  let b := s.inByte i
  if s.limit ≤ b.toNat then raise .unsupportedSymbol 1 i
  else if b = Config.sentinel then raise .unsupportedSymbol 2 i
  else .ok (s.setFreq b.toNat (s.freqAt b.toNat + 1))

/-- The results of COUNT (R112). -/
def countResults (s : State) : State :=
  { s with
    regs := { s.regs with
      unique := BitVec.ofNat 32 s.distinctCount, total := s.regs.inLen
      maxLen := 0, payloadOfs := 0, payloadBits := 0 }
    status := s.status.afterCount }

/-- The pseudocode of COUNT (R112). -/
def countBody (s : State) : Run := do
  let s := s.enterPhase .count
  lengthGuard s
  let s ← (List.range s.regs.inLen.toNat).foldlM countByte s.clearFreq
  return countResults s

/-- COUNT, OP 0x3 (R112). -/
def execCount (s : State) : Host.Outcome State Fault Refusal := runCommand 0x3 countBody s

end Sys2Proof.Machine
end

