-- ==== Sys2Proof/Machine/Heap.lean ====
section
/-! DEFINITION. The priority queue: a binary min-heap of NODE indices (41_priority_queue.md R130 to R137).
The heap is HEAP[0 .. HEAP_SIZE − 1] as a list; `key` gives NODE[k].FREQ of an index k. -/

namespace Sys2Proof.Machine

/-- A heap: HEAP[0 .. HEAP_SIZE − 1]. -/
abbrev Heap := List (BitVec 9)

/-- `key(i) = NODE[HEAP[i]].FREQ` (R130). -/
def Heap.keyAt (key : BitVec 9 → Nat) (h : Heap) (i : Nat) : Nat := key (h.getD i 0)

/-- `swap HEAP[i], HEAP[j]`. -/
def Heap.swap (h : Heap) (i j : Nat) : Heap := (h.set i (h.getD j 0)).set j (h.getD i 0)

/-- `parent(i) = floor((i − 1) / 2)` (R130). -/
def Heap.parent (i : Nat) : Nat := (i - 1) / 2

/-- `left(i) = 2·i + 1` (R130). -/
def Heap.left (i : Nat) : Nat := 2 * i + 1

/-- `right(i) = 2·i + 2` (R130). -/
def Heap.right (i : Nat) : Nat := 2 * i + 2

/-- SiftUp(i) (R132), with at most `n` rounds; `i` rounds are enough, as each round lowers `i`. -/
def Heap.siftUp (key : BitVec 9 → Nat) : Nat → Heap → Nat → Heap
  | 0, h, _ => h
  | n + 1, h, i =>
    if 0 < i then
      let p := Heap.parent i
      if h.keyAt key i < h.keyAt key p then Heap.siftUp key n (h.swap i p) p else h
    else h

/-- HeapInsert(k) (R131). -/
def Heap.insert (key : BitVec 9 → Nat) (h : Heap) (k : BitVec 9) : Heap :=
  Heap.siftUp key h.length (h ++ [k]) h.length

/-- The place SiftDown swaps entry `i` with, or `i` itself to stop (R134). -/
def Heap.smallest (key : BitVec 9 → Nat) (h : Heap) (i : Nat) : Nat :=
  let l := Heap.left i
  let r := Heap.right i
  let s := if l < h.length ∧ h.keyAt key l < h.keyAt key i then l else i
  if r < h.length ∧ h.keyAt key r < h.keyAt key s then r else s

/-- SiftDown(i) (R134), with at most `n` rounds; HEAP_SIZE rounds are enough, as each round raises `i`. -/
def Heap.siftDown (key : BitVec 9 → Nat) : Nat → Heap → Nat → Heap
  | 0, h, _ => h
  | n + 1, h, i =>
    let s := h.smallest key i
    if s = i then h else Heap.siftDown key n (h.swap i s) s

/-- HeapExtractMin() (R133): the entry returned and the heap left; none on an empty heap. -/
def Heap.extractMin (key : BitVec 9 → Nat) (h : Heap) : Option (BitVec 9 × Heap) :=
  match h with
  | [] => none
  | m :: _ =>
    let h' := (h.swap 0 (h.length - 1)).dropLast
    some (m, Heap.siftDown key h'.length h' 0)

/-- The heap property (R130): `key(parent(i)) ≤ key(i)` for every i with 1 ≤ i < HEAP_SIZE. -/
abbrev Heap.ordered (key : BitVec 9 → Nat) (h : Heap) : Prop :=
  ∀ i, 1 ≤ i → i < h.length → h.keyAt key (Heap.parent i) ≤ h.keyAt key i

end Sys2Proof.Machine
end

