-- ==== Sys2Proof/Machine/Tree.lean ====
section
/-! DEFINITION. The tree builder: BUILD_TREE (42_tree_builder.md R150 to R155). -/

namespace Sys2Proof.Machine

/-- The key of the heap: `NODE[k].FREQ` (41_priority_queue.md R130). -/
def State.nodeKey (s : State) (k : BitVec 9) : Nat := (s.nodeAt k.toNat).freq

/-- `NODE[NODE_COUNT] <- n; HeapInsert(NODE_COUNT); NODE_COUNT <- NODE_COUNT + 1` (R151, R152). -/
def State.addNode (s : State) (n : Node) : State :=
  let k := BitVec.ofNat 9 s.tables.nodes.length
  let t := { s with tables := { s.tables with nodes := s.tables.nodes ++ [n] } }
  { t with tables := { t.tables with heap := Heap.insert t.nodeKey s.tables.heap k } }

/-- One round of HeapLoad's loop (R151). -/
def loadSymbol (s : State) (i : Nat) : State :=
  if 0 < s.freqAt i then s.addNode (.leaf (BitVec.ofNat 32 (s.freqAt i)) (BitVec.ofNat 8 i)) else s

/-- HeapLoad() (R151): leaves in ascending symbol value. -/
def heapLoad (s : State) : State :=
  (List.range s.limit).foldl loadSymbol { s with tables := { s.tables with heap := [], nodes := [] } }

/-- `HeapExtractMin()` on the state (41_priority_queue.md R133); a fault on an empty heap (U17). -/
def State.extractMin (s : State) : Except Halt (BitVec 9 × State) :=
  match Heap.extractMin s.nodeKey s.tables.heap with
  | none => .error (.fault .heapEmpty)
  | some (m, h) => .ok (m, { s with tables := { s.tables with heap := h } })

/-- MergeStep() (R152): the first node extracted is the left child, the second the right. -/
def mergeStep (s : State) : Run := do
  let (a, s) ← s.extractMin
  let (b, s) ← s.extractMin
  return s.addNode (.internal (BitVec.ofNat 32 (s.nodeKey a + s.nodeKey b)) a b)

/-- `while HEAP_SIZE > 1: MergeStep()` (R150), with at most `n` rounds; HEAP_SIZE rounds are enough, as "each
step lowers HEAP_SIZE by one" (R152). -/
def mergeLoop : Nat → State → Run
  | 0, s => .ok s
  | n + 1, s => if 1 < s.tables.heap.length then mergeStep s >>= mergeLoop n else .ok s

/-- `ROOT <- HEAP[0]` (R153). With HEAP_SIZE = 0, which R153 excludes, HEAP[0] is a free value (10_state.md
R45; log entry 6). -/
def State.takeRoot (s : State) : State :=
  { s with
    tables := { s.tables with
      root := s.tables.heap.headD (Config.freeBits (.heapEntry 0) 0 9) } }

/-- The results of BUILD_TREE (R150). -/
def buildTreeResults (s : State) : State :=
  { s with
    regs := { s.regs with maxLen := 0, payloadBits := 0 }
    status := s.status.afterBuildTree }

/-- The pseudocode of BUILD_TREE (R150). -/
def buildTreeBody (s : State) : Run := do
  let s := heapLoad (s.enterPhase .heapLoad)
  let s ← mergeLoop s.tables.heap.length (s.enterPhase .merge)
  return buildTreeResults s.takeRoot

/-- BUILD_TREE, OP 0x4 (R150). -/
def execBuildTree (s : State) : Host.Outcome State Fault Refusal := runCommand 0x4 buildTreeBody s

end Sys2Proof.Machine
end

