-- ==== Sys2Proof/Machine/CodeTable.lean ====
section
/-! DEFINITION. The code table builder: BUILD_TABLE (43_code_table.md R170 to R175). -/

namespace Sys2Proof.Machine

/-- Push the call `Traverse(n, p)` with p of length `depth` on TSTACK (10_state.md R48). -/
def State.pushCall (s : State) (n : BitVec 9) (depth : BitVec 8) : State :=
  { s with dp := { s.dp with tstack := (n, depth) :: s.dp.tstack } }

/-- The call on top of TSTACK returns. -/
def State.popCall (s : State) : State := { s with dp := { s.dp with tstack := s.dp.tstack.tail } }

/-- `p ++ (x)` in PATH, p being its first `depth` bits (R171). -/
def State.setPath (s : State) (depth : BitVec 8) (x : Bool) : State :=
  let bit : BitVec 256 := 1#256 <<< depth.toNat
  { s with dp := { s.dp with path := if x then s.dp.path ||| bit else s.dp.path &&& ~~~bit } }

/-- Traverse(n, p) (R171): the call on top of TSTACK gives n and the length of p, PATH its bits. TSTACK is
the stack of the active calls; `room` is how many entries it can still take beyond this call's, plus one,
so that running out of it is an overflow of its MAX_CODE_LEN + 1 entries (10_state.md R48). -/
def traverse : Nat → State → Run
  | 0, _ => .error (.fault .tstackOverflow)
  | room + 1, s =>
    match s.dp.tstack with
    | [] => .ok s
    | (n, depth) :: _ =>
      match s.nodeAt n.toNat with
      | .leaf _ sym => .ok (s.bindCode sym (bitString depth.toNat s.dp.path)).popCall
      | .internal _ left right => do
        let s ← traverse room ((s.setPath depth false).pushCall left (depth + 1))
        let s ← traverse room ((s.setPath depth true).pushCall right (depth + 1))
        return s.popCall

/-- The walk of R170: code "0" for a single leaf (R172), else `Traverse(ROOT, ε)`. -/
def walkTree (s : State) : Run :=
  match s.nodeAt s.tables.root.toNat with
  | .leaf _ sym => .ok (s.bindCode sym [false])
  | .internal _ _ _ =>
    traverse (s.build.maxCodeLen + 1)
      { s with dp := { s.dp with tstack := [(s.tables.root, 0)], path := 0 } }

/-- The results of BUILD_TABLE (R170, R174). -/
def buildTableResults (s : State) : State :=
  { s with
    regs := { s.regs with
      maxLen := BitVec.ofNat 8 s.greatestLen, payloadBits := BitVec.ofNat 32 s.bitCount }
    status := s.status.afterBuildTable }

/-- The pseudocode of BUILD_TABLE (R170). -/
def buildTableBody (s : State) : Run := do
  let s ← walkTree (s.enterPhase .traverse).clearCodes
  return buildTableResults s

/-- BUILD_TABLE, OP 0x5 (R170). -/
def execBuildTable (s : State) : Host.Outcome State Fault Refusal := runCommand 0x5 buildTableBody s

end Sys2Proof.Machine
end

