-- ==== Sys2Proof/Machine/Serializer.lean ====
section
/-! DEFINITION. The container serializer and bit packer: SERIALIZE (44_serializer.md R190 to R199). -/

namespace Sys2Proof.Machine

/-- The container length `need` of SerializeCapCheck (R191), in unbounded naturals. -/
def State.containerLen (s : State) : Nat :=
  9 + (s.tables.order.map (fun c => 2 + s.codeLenAt c.toNat)).sum + (s.bitCount + 7) / 8

/-- SerializeCapCheck() (R191). -/
def serializeCapCheck (s : State) : Except Halt Unit :=
  if s.cap < s.containerLen then raise .capacityExceeded 2 0 else .ok ()

/-- EmitByte(v) (R192). -/
def emitByte (s : State) (v : Byte) : State :=
  let t := s.outWrite s.dp.wrPtr.toNat v
  { t with dp := { t.dp with wrPtr := s.dp.wrPtr + 1 } }

/-- The ASCII character of a code bit (R193). -/
def codeChar (x : Bool) : Byte := if x then Config.asciiOne else Config.asciiZero

/-- EmitEntry(s) (R193). -/
def emitEntry (s : State) (sym : Byte) : State :=
  let t := (s.codeOf sym.toNat).foldl (fun u x => emitByte u (codeChar x)) (emitByte s sym)
  emitByte t Config.terminator

/-- EmitCounts() (R194). -/
def emitCounts (s : State) : State :=
  let t := emitByte s Config.sentinel
  let t := (List.range 4).foldl (fun u j => emitByte u (byteOf s.regs.unique j)) t
  (List.range 4).foldl (fun u j => emitByte u (byteOf s.regs.total j)) t

/-- PackBit(x) (R196). -/
def packBit (s : State) (x : Bool) : State :=
  let acc : BitVec 8 := (s.dp.acc <<< 1) ||| (BitVec.ofBool x).setWidth 8
  let n := s.dp.accN.toNat + 1
  if n = 8 then
    let t := emitByte s acc
    { t with dp := { t.dp with acc := 0, accN := 0 } }
  else { s with dp := { s.dp with acc := acc, accN := BitVec.ofNat 3 n } }

/-- `for k in 0 .. CODE_LEN[s] − 1: PackBit(CODE_BITS[s][k])` for the input byte at offset `i` (R190). -/
def packSymbol (s : State) (i : Nat) : State := (s.codeOf (s.inByte i).toNat).foldl packBit s

/-- Flush() (R197). -/
def flushBits (s : State) : State :=
  if 0 < s.dp.accN.toNat then
    let t := emitByte s (s.dp.acc <<< (8 - s.dp.accN.toNat))
    { t with dp := { t.dp with acc := 0, accN := 0 } }
  else s

/-- The header: `WR_PTR <- 0`, the entries in ORDER order, the sentinel and the counts (R190). -/
def emitHeader (s : State) : State :=
  emitCounts (s.tables.order.foldl emitEntry { s with dp := { s.dp with wrPtr := 0 } })

/-- The payload: the code bits of the input bytes in offset order, then the padding (R190, R195). -/
def emitPayload (s : State) : State :=
  flushBits ((List.range s.regs.inLen.toNat).foldl packSymbol
    { s with dp := { s.dp with acc := 0, accN := 0 } })

/-- `reg[OUT_LEN] <- WR_PTR` (R190). -/
def serializeResults (s : State) : State := { s with regs := { s.regs with outLen := s.dp.wrPtr } }

/-- The pseudocode of SERIALIZE (R190). -/
def serializeBody (s : State) : Run := do
  let s := s.enterPhase .emitHeader
  serializeCapCheck s
  return serializeResults (emitPayload ((emitHeader s).enterPhase .emitPayload))

/-- SERIALIZE, OP 0x6 (R190). -/
def execSerialize (s : State) : Host.Outcome State Fault Refusal := runCommand 0x6 serializeBody s

end Sys2Proof.Machine
end

