-- ==== Sys2Proof/Machine/Parser.lean ====
section
/-! DEFINITION. The container parser: PARSE_HEADER (45_parser.md R210 to R216). -/

namespace Sys2Proof.Machine

/-- `IN[RD_PTR]`, and the state with RD_PTR advanced past it. -/
def State.readNext (s : State) : Byte × State :=
  (s.inByte s.dp.rdPtr.toNat, { s with dp := { s.dp with rdPtr := s.dp.rdPtr + 1 } })

/-- The container ends at RD_PTR: `RD_PTR >= reg[IN_LEN]`. -/
def State.atEnd (s : State) : Bool := decide (s.regs.inLen.toNat ≤ s.dp.rdPtr.toNat)

/-- HDR_TRUNC (R212, R213). -/
def hdrTrunc {α : Type} (s : State) : Except Halt α := raise .corruptContainer 1 s.regs.inLen.toNat

/-- ParseEntryStart() (R212): none for the sentinel, else the entry's symbol. -/
def parseEntryStart (s : State) : Except Halt (Option Byte × State) :=
  if s.atEnd then hdrTrunc s
  else
    let (b, t) := s.readNext
    if b = Config.sentinel then .ok (none, t)
    else if s.limit ≤ b.toNat then raise .corruptContainer 5 s.dp.rdPtr.toNat
    else if t.codeLenAt b.toNat ≠ 0 then raise .corruptContainer 6 s.dp.rdPtr.toNat
    else .ok (some b, t)

/-- ParseCode(sym) (R213), `c` being the code read so far and `n` no less than the number of bytes left, so
that at n = 0 the container has ended. -/
def parseCode (sym : Byte) : Nat → List Bool → State → Run
  | 0, _, s => hdrTrunc s
  | n + 1, c, s =>
    if s.atEnd then hdrTrunc s
    else
      let (x, t) := s.readNext
      if x = Config.terminator then
        if c = [] then raise .corruptContainer 3 s.dp.rdPtr.toNat else .ok (t.bindCode sym c)
      else if x = Config.asciiZero ∨ x = Config.asciiOne then
        let c' := c ++ [decide (x = Config.asciiOne)]
        if s.build.maxCodeLen < c'.length then raise .corruptContainer 4 s.dp.rdPtr.toNat
        else parseCode sym n c' t
      else raise .corruptContainer 2 s.dp.rdPtr.toNat

/-- The entry loop of R210, ending behind the sentinel; `n` is more than the number of bytes left. -/
def parseEntries : Nat → State → Run
  | 0, s => hdrTrunc s
  | n + 1, s => do
    let (r, t) ← parseEntryStart s
    match r with
    | none => return t
    | some sym =>
      let u ← parseCode sym (t.regs.inLen.toNat - t.dp.rdPtr.toNat) [] t
      parseEntries n u

/-- ParseCounts() (R214): U, T and the state with RD_PTR behind them. -/
def parseCounts (s : State) : Except Halt (Nat × Nat × State) :=
  let p := s.dp.rdPtr.toNat
  if s.regs.inLen.toNat < p + 8 then raise .corruptContainer 7 s.regs.inLen.toNat
  else .ok (s.inCount p, s.inCount (p + 4), { s with dp := { s.dp with rdPtr := s.dp.rdPtr + 8 } })

/-- The symbols with a bound code, ascending (10_state.md R46: CODE_LEN 0 "means no code is bound"). -/
def State.boundSymbols (s : State) : List Nat :=
  (List.range s.limit).filter (fun i => decide (s.codeLenAt i ≠ 0))

/-- "exists bound s != t with code(s) a prefix of code(t)" (R215); equal codes count (00_scope.md R13). -/
def State.prefixClash (s : State) : Bool :=
  s.boundSymbols.any fun i => s.boundSymbols.any fun j =>
    decide (i ≠ j) && (s.codeOf i).isPrefixOf (s.codeOf j)

/-- HeaderCheck(ps, U, T) (R215). -/
def headerCheck (ps u t : Nat) (s : State) : Except Halt Unit :=
  if s.tables.order.length = 0 then raise .corruptContainer 8 (ps + 1)
  else if u ≠ s.tables.order.length then raise .corruptContainer 9 (ps + 1)
  else if t = 0 then raise .corruptContainer 10 (ps + 1)
  else if s.prefixClash then raise .corruptContainer 11 (ps + 1)
  else if s.cap < t then raise .capacityExceeded 3 0
  else .ok ()

/-- ParseCommit(U, T) (R216). -/
def parseCommit (u t : Nat) (s : State) : State :=
  { s with
    regs := { s.regs with
      unique := BitVec.ofNat 32 u, total := BitVec.ofNat 32 t, payloadOfs := s.dp.rdPtr
      maxLen := BitVec.ofNat 8 s.greatestLen, payloadBits := 0 }
    status := s.status.afterParse }

/-- The pseudocode of PARSE_HEADER (R210). -/
def parseHeaderBody (s : State) : Run := do
  let s := s.enterPhase .parseHeader
  lengthGuard s
  let s := s.clearCodes
  let s ← parseEntries (s.regs.inLen.toNat + 1) { s with dp := { s.dp with rdPtr := 0 } }
  let ps := s.dp.rdPtr.toNat - 1
  let (u, t, s) ← parseCounts s
  headerCheck ps u t s
  return parseCommit u t s

/-- PARSE_HEADER, OP 0x7 (R210). -/
def execParseHeader (s : State) : Host.Outcome State Fault Refusal := runCommand 0x7 parseHeaderBody s

end Sys2Proof.Machine
end

