-- ==== Sys2Proof/Machine/Decoder.lean ====
section
/-! DEFINITION. The deserializer and code matcher: DECODE_PAYLOAD (46_decoder.md R240 to R247). -/

namespace Sys2Proof.Machine

/-- DecodeCapCheck() (R241). -/
def decodeCapCheck (s : State) : Except Halt Unit :=
  if s.cap < s.regs.total.toNat then raise .capacityExceeded 3 0 else .ok ()

/-- PAYLOAD_EXHAUSTED (R242). -/
def payloadExhausted {α : Type} (s : State) : Except Halt α :=
  raise .corruptContainer 12 s.regs.inLen.toNat

/-- FetchBit() (R242): the bit, its byte's offset, and the state with Q advanced. -/
def fetchBit (s : State) : Except Halt (Bool × Nat × State) :=
  let a := s.regs.payloadOfs.toNat + s.dp.q.toNat / 8
  if s.regs.inLen.toNat ≤ a then payloadExhausted s
  else
    let x := (s.inByte a).getLsbD (7 - s.dp.q.toNat % 8)
    .ok (x, a, { s with dp := { s.dp with q := s.dp.q + 1 } })

/-- The candidate as a bit string: the first CAND_LEN bits of CAND (10_state.md R50). -/
def State.candidate (s : State) : List Bool := bitString s.dp.candLen.toNat s.dp.cand

/-- The symbol whose code is the candidate (R243, R246); the least one if several are. -/
def State.matchSymbol (s : State) : Option Nat :=
  (List.range s.limit).find? fun i =>
    decide (s.codeLenAt i = s.dp.candLen.toNat) && decide (s.codeOf i = s.candidate)

/-- `CAND[CAND_LEN] <- x; CAND_LEN <- CAND_LEN + 1` (R243). -/
def State.growCandidate (s : State) (x : Bool) : State :=
  let bit : BitVec 256 := 1#256 <<< s.dp.candLen.toNat
  { s with
    dp := { s.dp with
      cand := if x then s.dp.cand ||| bit else s.dp.cand &&& ~~~bit
      candLen := s.dp.candLen + 1 } }

/-- EmitSymbol(s) (R244). -/
def emitSymbol (s : State) (sym : Nat) : State :=
  let t := s.outWrite s.dp.decCount.toNat (BitVec.ofNat 8 sym)
  { t with dp := { t.dp with decCount := s.dp.decCount + 1, cand := 0, candLen := 0 } }

/-- MatchStep(x, a) (R243). -/
def matchStep (x : Bool) (a : Nat) (s : State) : Run :=
  let t := s.growCandidate x
  if t.regs.maxLen.toNat < t.dp.candLen.toNat then raise .corruptContainer 13 a
  else
    match t.matchSymbol with
    | some sym => .ok (emitSymbol t sym)
    | none => .ok t

/-- `while DEC_COUNT < reg[TOTAL]` (R240), with at most `n` rounds; `n` is more than the number of payload
bits left, so that at n = 0 they are exhausted (R245). -/
def decodeLoop : Nat → State → Run
  | n, s =>
    if s.dp.decCount.toNat < s.regs.total.toNat then
      match n with
      | 0 => payloadExhausted s
      | n + 1 => do
        let (x, a, t) ← fetchBit s
        let u ← matchStep x a t
        decodeLoop n u
    else .ok s

/-- The results of DECODE_PAYLOAD (R240). -/
def decodeResults (s : State) : State :=
  { s with regs := { s.regs with outLen := s.regs.total, payloadBits := s.dp.q } }

/-- The pseudocode of DECODE_PAYLOAD (R240). -/
def decodePayloadBody (s : State) : Run := do
  let s := s.enterPhase .decode
  decodeCapCheck s
  let bits := 8 * (s.regs.inLen.toNat - s.regs.payloadOfs.toNat)
  let s ← decodeLoop (bits + 1)
    { s with dp := { s.dp with q := 0, decCount := 0, cand := 0, candLen := 0 } }
  return decodeResults s

/-- DECODE_PAYLOAD, OP 0x8 (R240). -/
def execDecodePayload (s : State) : Host.Outcome State Fault Refusal := runCommand 0x8 decodePayloadBody s

end Sys2Proof.Machine
end

