-- ==== Sys2Proof/Machine/Control.lean ====
section
/-! DEFINITION. The control commands (47_control.md R265 to R269): NOP, SOFT_RESET, and the composite commands
COMPRESS and DECOMPRESS; and the completion of a command that was accepted earlier. -/

namespace Sys2Proof.Machine

/-- NOP, OP 0x0 (R265): DONE, no other effect; ignored while BUSY (20_memory.md R66). -/
def execNop (s : State) : Host.Outcome State Fault Refusal :=
  if s.status.busy then .next s
  else
    let r := request 0x0 s
    .next { r with status := { r.status with done := true } }

/-- SOFT_RESET, OP 0xF (R269): the reset action, BUSY or not. "CMD reads 0" after it. -/
def execSoftReset (s : State) : Host.Outcome State Fault Refusal := .next (resetAction s)

/-- The pseudocode of COMPRESS (R266): the bodies of the four stages. -/
def compressBody (s : State) : Run := do
  let s ← countBody s
  let s ← buildTreeBody s
  let s ← buildTableBody s
  serializeBody s

/-- COMPRESS, OP 0x1 (R266). -/
def execCompress (s : State) : Host.Outcome State Fault Refusal := runCommand 0x1 compressBody s

/-- The pseudocode of DECOMPRESS (R267): the bodies of the two stages. -/
def decompressBody (s : State) : Run := do
  let s ← parseHeaderBody s
  decodePayloadBody s

/-- DECOMPRESS, OP 0x2 (R267). -/
def execDecompress (s : State) : Host.Outcome State Fault Refusal := runCommand 0x2 decompressBody s

/-- The pseudocode of the busy command with opcode `op` (R262); none if there is no such command. -/
def bodyOf (op : BitVec 4) : Option (State → Run) :=
  match op.toNat with
  | 0x1 => some compressBody
  | 0x2 => some decompressBody
  | 0x3 => some countBody
  | 0x4 => some buildTreeBody
  | 0x5 => some buildTableBody
  | 0x6 => some serializeBody
  | 0x7 => some parseHeaderBody
  | 0x8 => some decodePayloadBody
  | _ => none

/-- The completion of the running command, CUR_OP (R262, R263): one atomic event, a function of the state at
acceptance, which nothing can have changed since (00_scope.md R6). -/
def completeRunning (s : State) : Host.Outcome State Fault Refusal :=
  match bodyOf s.curOp with
  | some body => finish (body s) s
  | none => .fault .noRunningCommand

end Sys2Proof.Machine
end

