-- ==== Sys2Proof/Machine/Dispatch.lean ====
section
/-! DEFINITION. One arm per command of the opcode table. -/

namespace Sys2Proof.Machine

def exec (i : Instr) (s : State) : Host.Outcome State Fault Refusal :=
  match i with
  | .nop => Sys2Proof.Machine.execNop s
  | .compress => Sys2Proof.Machine.execCompress s
  | .decompress => Sys2Proof.Machine.execDecompress s
  | .count => Sys2Proof.Machine.execCount s
  | .buildTree => Sys2Proof.Machine.execBuildTree s
  | .buildTable => Sys2Proof.Machine.execBuildTable s
  | .serialize => Sys2Proof.Machine.execSerialize s
  | .parseHeader => Sys2Proof.Machine.execParseHeader s
  | .decodePayload => Sys2Proof.Machine.execDecodePayload s
  | .softReset => Sys2Proof.Machine.execSoftReset s

end Sys2Proof.Machine
end

