-- ==== Sys2Proof/Machine/Bus.lean ====
section
/-! DEFINITION. The host port (20_memory.md R60 to R78): the address map, reads and writes, the CMD write, the
busy interval, and one host event or completion at a time (60_exceptions.md R287). -/

namespace Sys2Proof.Machine

open Sys2Proof.Config (FreeSlot freeBits)

/-! ### Address map -/

/-- The registers (10_state.md R20). -/
inductive Reg where
  | id
  | cfg
  | cmd
  | status
  | errPos
  | errSub
  | inLen
  | outCap
  | outLen
  | unique
  | total
  | payloadOfs
  | payloadBits
  | maxLen
  | intEn
  | inMax
  | outMax
deriving DecidableEq, Repr

/-- The offset of a register (10_state.md R20). -/
def Reg.offset : Reg → Nat
  | .id => 0x00
  | .cfg => 0x04
  | .cmd => 0x08
  | .status => 0x0C
  | .errPos => 0x10
  | .errSub => 0x14
  | .inLen => 0x18
  | .outCap => 0x1C
  | .outLen => 0x20
  | .unique => 0x24
  | .total => 0x28
  | .payloadOfs => 0x2C
  | .payloadBits => 0x30
  | .maxLen => 0x34
  | .intEn => 0x38
  | .inMax => 0x3C
  | .outMax => 0x40

/-- All registers, by offset. -/
def allRegs : List Reg :=
  [.id, .cfg, .cmd, .status, .errPos, .errSub, .inLen, .outCap, .outLen, .unique, .total, .payloadOfs,
    .payloadBits, .maxLen, .intEn, .inMax, .outMax]

/-- What a host access reaches. `reserved` is everything that reads 0 and ignores writes: the reserved ranges
and offsets (20_memory.md R65), and an access of a wrong width or alignment (R63, R64). -/
inductive Target where
  | register (r : Reg)
  | freqWin (s : Nat)
  | codeLenWin (s : Nat)
  | orderWin (i : Nat)
  | codeBitsWin (s w : Nat)
  | inByte (ofs : Nat)
  | outByte (ofs : Nat)
  | reserved
deriving DecidableEq, Repr

/-- The target of an aligned 32-bit access below 0x6000 (R62, 10_state.md R55 to R58). -/
def wordTarget (a : Nat) : Target :=
  if a < 0x1000 then
    match allRegs.find? (fun r => decide (r.offset = a)) with
    | some r => .register r
    | none => .reserved
  else if a < 0x1400 then .freqWin ((a - 0x1000) / 4)
  else if a < 0x2000 then .reserved
  else if a < 0x2400 then .codeLenWin ((a - 0x2000) / 4)
  else if a < 0x3000 then .reserved
  else if a < 0x3400 then .orderWin ((a - 0x3000) / 4)
  else if a < 0x4000 then .reserved
  else .codeBitsWin ((a - 0x4000) / 32) ((a - 0x4000) % 32 / 4)

/-- The target of a byte access at 0x6000 and above (R62). -/
def byteTarget (p : Config.Params) (a : Nat) : Target :=
  if a < Config.inBase then .reserved
  else if a < Config.inBase + p.inMax then .inByte (a - Config.inBase)
  else if a < Config.outBase then .reserved
  else if a < Config.outBase + p.outMax then .outByte (a - Config.outBase)
  else .reserved

/-- The host address map with its access rules (R62 to R65). -/
def target (p : Config.Params) (size : Nat) (addr : Word) : Target :=
  let a := addr.toNat
  if a < 0x6000 then
    if size = 4 ∧ a % 4 = 0 then wordTarget a else .reserved
  else if size = 1 then byteTarget p a
  else .reserved

/-! ### Reads -/

/-- The value of a register that reads the same BUSY or not (20_memory.md R69, first group): none for a
result register and for STATUS. -/
def State.steadyReg (s : State) (r : Reg) : Option Word :=
  match r with
  | .id => some Config.idValue
  | .cfg => some (BitVec.ofNat 32 s.build.limit)
  | .cmd => some (s.regs.cmdOp.setWidth 32)
  | .inLen => some s.regs.inLen
  | .outCap => some s.regs.outCap
  | .intEn => some ((BitVec.ofBool s.regs.intEn).setWidth 32)
  | .inMax => some (BitVec.ofNat 32 s.build.inMax)
  | .outMax => some (BitVec.ofNat 32 s.build.outMax)
  | .status | .errPos | .errSub | .outLen | .unique | .total | .payloadOfs | .payloadBits | .maxLen => none

/-- A register read while BUSY = 0 (10_state.md R21 to R39); PHASE reads IDLE (R26). -/
def State.idleReg (s : State) (r : Reg) : Word :=
  match r with
  | .status => s.status.word Phase.idle.code
  | .errPos => s.regs.errPos
  | .errSub => s.regs.errSub.setWidth 32
  | .outLen => s.regs.outLen
  | .unique => s.regs.unique
  | .total => s.regs.total
  | .payloadOfs => s.regs.payloadOfs
  | .payloadBits => s.regs.payloadBits
  | .maxLen => s.regs.maxLen.setWidth 32
  | .id | .cfg | .cmd | .inLen | .outCap | .intEn | .inMax | .outMax => (s.steadyReg r).getD 0

/-- The word W of R58: `W[31 − j] = c[32·w + j]` when that bit exists, 0 otherwise. -/
def codeWord (c : List Bool) (w : Nat) : Word :=
  BitVec.ofNat 32 ((List.range 32).foldl (fun acc j => 2 * acc + (c.getD (32 * w + j) false).toNat) 0)

/-- A host read while BUSY = 0 (10_state.md R55 to R58, 20_memory.md R69 to R71). A byte reads zero-extended. -/
def State.idleRead (s : State) (t : Target) : Word :=
  match t with
  | .register r => s.idleReg r
  | .freqWin i => if i < s.limit ∧ s.status.freqValid then BitVec.ofNat 32 (s.freqAt i) else 0
  | .codeLenWin i => if i < s.limit ∧ s.status.tableValid then BitVec.ofNat 32 (s.codeLenAt i) else 0
  | .orderWin i => if s.status.tableValid then (s.tables.order.getD i 0).setWidth 32 else 0
  | .codeBitsWin i w => if i < s.limit ∧ s.status.tableValid then codeWord (s.codeOf i) w else 0
  | .inByte a => (s.inByte a).setWidth 32
  | .outByte a => (s.outByte a).setWidth 32
  | .reserved => 0

/-- The phase a STATUS read while BUSY shows: any phase of the running command (10_state.md R26). -/
def State.shownPhase (s : State) : Phase :=
  let ps := phasesOf s.curOp
  ps.getD ((freeBits .phaseChoice s.freeIdx 8).toNat % ps.length) s.phase

/-- STATUS read while BUSY: BUSY = 1, DONE = ERR = 0, ERRCODE = 0, PHASE as `shownPhase`, the valid flags
unspecified (20_memory.md R69, 10_state.md R27). -/
def State.busyStatus (s : State) : Word :=
  let f := freeBits .busyFlags s.freeIdx 4
  Status.word
    { busy := true, done := false, err := false, errCode := 0, freqValid := f.getLsbD 0
      treeValid := f.getLsbD 1, tableValid := f.getLsbD 2, hdrValid := f.getLsbD 3 }
    s.shownPhase.code

/-- A host read while BUSY = 1 (20_memory.md R69, 10_state.md R59). -/
def State.busyRead (s : State) (t : Target) : Word :=
  match t with
  | .register .status => s.busyStatus
  | .register .errSub => (freeBits .busyWord s.freeIdx 4).setWidth 32
  | .register .maxLen => (freeBits .busyWord s.freeIdx 8).setWidth 32
  | .register r => (s.steadyReg r).getD (freeBits .busyWord s.freeIdx 32)
  | .freqWin _ | .codeLenWin _ | .orderWin _ | .codeBitsWin _ _ => freeBits .busyWord s.freeIdx 32
  | .inByte a => (s.inByte a).setWidth 32
  | .outByte a => (freeBits (.outByte a) s.freeIdx 8).setWidth 32
  | .reserved => 0

/-- The value a host read of `size` bytes at `addr` returns. -/
def State.readValue (s : State) (size : Nat) (addr : Word) : Word :=
  let t := target s.build size addr
  if s.status.busy then s.busyRead t else s.idleRead t

/-- After a read: "A read has no side effect anywhere in the map" (20_memory.md R69). Only the model's own epoch
of free values moves on while BUSY, so that two unspecified reads need not agree. -/
def State.afterRead (s : State) : State :=
  if s.status.busy then { s with freeIdx := s.freeIdx + 1 } else s

/-! ### Writes -/

/-- A write to IN_MEM or IN_LEN clears the four valid flags (20_memory.md R67). -/
def State.inputChanged (s : State) : State := { s with status := s.status.clearValid }

/-- A host write other than to CMD while BUSY = 0 (10_state.md R25, R30, R31, R38, 20_memory.md R67, R68). Read-only
registers, windows, OUT_MEM and reserved places ignore it. -/
def State.idleWrite (s : State) (t : Target) (v : Word) : State :=
  match t with
  | .register .status => s.clearReport v
  | .register .inLen => State.inputChanged { s with regs := { s.regs with inLen := v } }
  | .register .outCap => { s with regs := { s.regs with outCap := v } }
  | .register .intEn => { s with regs := { s.regs with intEn := v.getLsbD 0 } }
  | .inByte a => (s.inWrite a (v.setWidth 8)).inputChanged
  | .register .id | .register .cfg | .register .cmd | .register .errPos | .register .errSub
  | .register .outLen | .register .unique | .register .total | .register .payloadOfs
  | .register .payloadBits | .register .maxLen | .register .inMax | .register .outMax => s
  | .freqWin _ | .codeLenWin _ | .orderWin _ | .codeBitsWin _ _ | .outByte _ | .reserved => s

/-- The state in which a CMD write of `i` leaves a busy command running for `n` more host events; none when the
write is not the acceptance of a busy command (47_control.md R260, R261, R262). -/
def acceptFor (n : Nat) (i : Instr) (s : State) : Option State :=
  let op := i.opcode
  let r := request op s
  if !s.status.busy && (bodyOf op).isSome && decide (prereq op r.status = 0) then
    let a := accept op r
    some { a with env := { a.env with busyLeft := n } }
  else none

/-- A CMD write of command `i`: with no latency to come for it the command completes within the write
(70_reset_and_hazards.md R322, "including at once"), else it is accepted and stays busy. -/
def startCommand (i : Instr) (s : State) : Host.Outcome State Fault Refusal :=
  match acceptFor (s.env.latencies.headD 0) i s with
  | none => exec i s
  | some a =>
    let rest := s.env.latencies.tail
    if s.env.latencies.headD 0 = 0 then exec i { s with env := { s.env with latencies := rest } }
    else .next { a with env := { a.env with latencies := rest } }

/-- OnCmdWrite(v) (47_control.md R260). -/
def onCmdWrite (v : Word) (s : State) : Host.Outcome State Fault Refusal :=
  match decode v with
  | .ok i => startCommand i s
  | .error (.reservedOpcode op) => .next (illegalCommand op s)

/-- A host write of `size` bytes at `addr` (20_memory.md R63 to R68): while BUSY every write but CMD is ignored
(R66). -/
def hostWrite (size : Nat) (addr v : Word) (s : State) : Host.Outcome State Fault Refusal :=
  match target s.build size addr with
  | .register .cmd => onCmdWrite v s
  | t => .next (if s.status.busy then s else s.idleWrite t v)

/-! ### Events -/

/-- One host event. A POLL that does not match stays at the head of the script and reads again (30_encoding.md R87). -/
def hostEvent (op : HostOp) (s : State) : Host.Outcome State Fault Refusal :=
  match op with
  | .write size addr v => hostWrite size addr v s
  | .read size addr =>
    let v := s.readValue size addr
    let t := s.afterRead
    .next { t with env := { t.env with readLog := v :: t.env.readLog } }
  | .poll addr mask value =>
    let v := s.readValue 4 addr
    let t := s.afterRead
    if v &&& mask = value then .next t else .next { t with env := { t.env with host := op :: t.env.host } }
  | .hwReset => .next (resetAction s)

/-- One host event's worth of a running command's time passes. -/
def State.tick (s : State) : State :=
  if s.status.busy then { s with env := { s.env with busyLeft := s.env.busyLeft - 1 } } else s

/-- One event (60_exceptions.md R287): the completion of the running command when its time has come, else the
next host event, else nothing ("Idle (BUSY = 0) is its only waiting state", R295). -/
def advance (s : State) : Host.Outcome State Fault Refusal :=
  if s.status.busy = true ∧ s.env.busyLeft = 0 then completeRunning s
  else
    match s.env.host with
    | [] => .next s.tick
    | op :: rest => hostEvent op { s.tick with env := { s.tick.env with host := rest } }

/-- The CMD write that carries the instruction word `w` of `nbits` bits. -/
def cmdWriteOf (nbits w : Nat) : HostOp :=
  .write 4 (BitVec.ofNat 32 Reg.cmd.offset) (BitVec.ofNat 32 (w % 2 ^ nbits))

/-- `s` with that CMD write as its next event; a running command is given one more event, so that its completion
does not come first. -/
def State.fetchNext (s : State) (nbits w : Nat) : State :=
  { s with
    env := { s.env with
      host := cmdWriteOf nbits w :: s.env.host
      busyLeft := if s.status.busy then s.env.busyLeft + 1 else s.env.busyLeft } }

end Sys2Proof.Machine
end

