-- ==== Sys2Proof/Machine/Step.lean ====
section
/-! DEFINITION. One step. "The block fetches no instructions. The command is the value of the CMD write itself"
(20_memory.md R77): the step's fetch is the host's next bus transaction. -/

namespace Sys2Proof.Machine

/-- One event of the machine (60_exceptions.md R287). -/
def step (s : State) : Host.Outcome State Fault Refusal := advance s

/-- `s` with the instruction word stored where `step` takes its next instruction from: as the host's next CMD
write (log entry 8). -/
def State.withFetchWord (s : State) (nbits w : Nat) : State := s.fetchNext nbits w

end Sys2Proof.Machine
end

