-- ==== Sys2Proof/Machine/Script.lean ====
section
/-! DEFINITION. Host bus scripts (30_encoding.md R87, R88): the pseudo-instructions as lists of host events, and a
machine with a script to run (70_reset_and_hazards.md R314). -/

namespace Sys2Proof.Machine

/-- The address of a register as a bus operand (R87). -/
def Reg.addr (r : Reg) : Word := BitVec.ofNat 32 r.offset

/-- `CMD <mnemonic>` (R88). -/
def Script.cmd (i : Instr) : List HostOp := [.write 4 Reg.cmd.addr (encode i)]

/-- `LOADIN b0, b1, …` (R88). -/
def Script.loadIn (bytes : List Byte) : List HostOp :=
  bytes.zipIdx.map (fun p => .write 1 (BitVec.ofNat 32 (Config.inBase + p.2)) (p.1.setWidth 32))
    ++ [.write 4 Reg.inLen.addr (BitVec.ofNat 32 bytes.length)]

/-- `SETCAP n` (R88). -/
def Script.setCap (n : Word) : List HostOp := [.write 4 Reg.outCap.addr n]

/-- `WAIT` (R88): `POLL STATUS, 0x1, 0x0`. -/
def Script.wait : List HostOp := [.poll Reg.status.addr 1 0]

/-- `CLEAR` (R88): `WR32 STATUS, 0x6`. -/
def Script.clear : List HostOp := [.write 4 Reg.status.addr 6]

/-- `RD32 reg` (R87). -/
def Script.readReg (r : Reg) : List HostOp := [.read 4 r.addr]

/-- `READOUT n` (R88). -/
def Script.readOut (n : Nat) : List HostOp :=
  (List.range n).map (fun a => .read 1 (BitVec.ofNat 32 (Config.outBase + a)))

/-- `s` with `script` as what the host does next. -/
def State.withScript (s : State) (script : List HostOp) : State :=
  { s with env := { s.env with host := script ++ s.env.host } }

end Sys2Proof.Machine
end

