-- ==== Sys2Proof/Safety.lean ====
section
/-! DEFINITION. The vocabulary of the claims: what an outcome, an input, a tree, a code table and a container are,
written from the rules and not from the commands' pseudocode; and `State.Inv`, the invariant of the
machine. -/

namespace Sys2Proof.Machine

open Sys2Proof.Config (Params)

/-! ### Outcomes -/

/-- A command that ended without error: BUSY = 0, DONE = 1, ERR = 0, ERRCODE = 0, ERR_SUB = 0, ERR_POS = 0 and
phase IDLE (47_control.md R263). -/
abbrev State.completed (t : State) : Prop :=
  t.status.busy = false ∧ t.status.done = true ∧ t.status.err = false ∧ t.status.errCode = 0
    ∧ t.regs.errSub = 0 ∧ t.regs.errPos = 0 ∧ t.phase = .idle ∧ t.curOp = 0

/-- An error report: BUSY = 0, DONE = 0, ERR = 1 with the given ERRCODE, ERR_SUB and ERR_POS (60_exceptions.md
R284). -/
abbrev State.reports (t : State) (code sub : BitVec 4) (pos : Word) : Prop :=
  t.status.busy = false ∧ t.status.done = false ∧ t.status.err = true ∧ t.status.errCode = code
    ∧ t.regs.errSub = sub ∧ t.regs.errPos = pos

/-- The command ends in that error. -/
def failsWith (o : Host.Outcome State Fault Refusal) (code sub : BitVec 4) (pos : Word) : Prop :=
  ∃ t, o = .next t ∧ t.reports code sub pos

/-- An idle block: BUSY = 0. -/
abbrev State.idle (s : State) : Prop := s.status.busy = false

/-- What no command touches: IN_MEM, the host's own registers IN_LEN, OUT_CAP and INT_EN, the build parameters, and
the host's side of the port (10_state.md R30, R31, R38, R51). The IN_MEM window is the 2^28 offsets below OUT_BASE
(20_memory.md R62). -/
abbrev State.sameInput (s t : State) : Prop :=
  (∀ a < 2 ^ 28, t.inByte a = s.inByte a) ∧ t.regs.inLen = s.regs.inLen ∧ t.regs.outCap = s.regs.outCap
    ∧ t.regs.intEn = s.regs.intEn ∧ t.build = s.build ∧ t.env.host = s.env.host
    ∧ t.env.readLog = s.env.readLog ∧ t.env.latencies = s.env.latencies

/-- The four valid flags. -/
abbrev Status.flags (t : Status) : Bool × Bool × Bool × Bool :=
  (t.freqValid, t.treeValid, t.tableValid, t.hdrValid)

/-! ### Input -/

/-- The input: IN_MEM[0 .. IN_LEN − 1] (40_frequency_counter.md R110). -/
def State.input (s : State) : List Byte := (List.range s.regs.inLen.toNat).map s.inByte

/-- A byte of the supported alphabet: b < SYM_LIMIT and b ≠ 0x07 (00_scope.md R8). -/
abbrev Params.symbol (p : Params) (b : Byte) : Prop := b.toNat < p.limit ∧ b ≠ Config.sentinel

/-- IN_LEN passes the length guard: 1 ≤ IN_LEN ≤ IN_MAX (40_frequency_counter.md R111). -/
abbrev State.lenOk (s : State) : Prop := 1 ≤ s.regs.inLen.toNat ∧ s.regs.inLen.toNat ≤ s.build.inMax

/-- FREQ, UNIQUE and TOTAL are the counts of the input (40_frequency_counter.md R112, R114). -/
abbrev State.counted (s : State) : Prop :=
  s.lenOk ∧ (∀ b ∈ s.input, Params.symbol s.build b)
    ∧ (∀ i < s.limit, s.freqAt i = s.input.count (BitVec.ofNat 8 i))
    ∧ s.regs.unique.toNat = s.distinctCount ∧ s.regs.total = s.regs.inLen

/-! ### Trees -/

/-- The symbols with a nonzero count, ascending (42_tree_builder.md R151). -/
def State.countedSymbols (s : State) : List Nat :=
  (List.range s.limit).filter (fun i => decide (0 < s.freqAt i))

/-- The children of a node. -/
def Node.children : Node → List Nat
  | .leaf _ _ => []
  | .internal _ l r => [l.toNat, r.toNat]

/-- Node `i` is internal, stands behind its children, and its FREQ is their sum (42_tree_builder.md R154). -/
def mergedNode (nodes : List Node) (i : Nat) : Node → Bool
  | .leaf _ _ => false
  | .internal f l r =>
    decide (l.toNat < i) && decide (r.toNat < i)
      && match nodes[l.toNat]?, nodes[r.toNat]? with
        | some a, some b => decide (f.toNat = a.freq + b.freq)
        | _, _ => false

/-- The tree invariants of R154 for the current FREQ, N being the number of its nonzero entries: 2N − 1 nodes, the
first N the leaves of the counted symbols in ascending order, the others merged nodes, every node but the root
the child of exactly one node, and the root's FREQ the sum of FREQ. -/
abbrev State.treeOk (s : State) : Prop :=
  1 ≤ s.countedSymbols.length
    ∧ s.tables.nodes.length = 2 * s.countedSymbols.length - 1
    ∧ s.tables.nodes.take s.countedSymbols.length
        = s.countedSymbols.map (fun i => .leaf (BitVec.ofNat 32 (s.freqAt i)) (BitVec.ofNat 8 i))
    ∧ (∀ p ∈ s.tables.nodes.zipIdx, s.countedSymbols.length ≤ p.2 → mergedNode s.tables.nodes p.2 p.1 = true)
    ∧ s.tables.root.toNat = 2 * s.countedSymbols.length - 2
    ∧ (s.tables.nodes.flatMap Node.children).Perm (List.range (2 * s.countedSymbols.length - 2))
    ∧ (s.nodeAt s.tables.root.toNat).freq = (s.tables.freq.map (·.toNat)).sum

/-- FREQ of node `k`; 0 past the last node. -/
def nodeFreq (nodes : List Node) (k : Nat) : Nat := (nodes[k]?.map Node.freq).getD 0

/-- The nodes below `i` that no node below `i` has as a child: those in the heap when node `i` is made
(42_tree_builder.md R151, R152). -/
def unjoined (nodes : List Node) (i : Nat) : List Nat :=
  (List.range i).filter (fun j => !((nodes.take i).flatMap Node.children).contains j)

/-- Node `i` joins two unjoined nodes: its left child has the least FREQ of them, its right child the least of the
others ("extract the two minimum-frequency nodes", 42_tree_builder.md R152). -/
def joinsLeast (nodes : List Node) (i : Nat) : Node → Bool
  | .leaf _ _ => false
  | .internal _ l r =>
    (unjoined nodes i).contains l.toNat && (unjoined nodes i).contains r.toNat && decide (l ≠ r)
      && (unjoined nodes i).all (fun j =>
        decide (nodeFreq nodes l.toNat ≤ nodeFreq nodes j)
          && (decide (j = l.toNat) || decide (nodeFreq nodes r.toNat ≤ nodeFreq nodes j)))

/-- The tree is one that the greedy merging of the two least nodes builds: a Huffman tree (42_tree_builder.md R152). -/
abbrev State.huffman (s : State) : Prop :=
  ∀ p ∈ s.tables.nodes.zipIdx, s.countedSymbols.length ≤ p.2 → joinsLeast s.tables.nodes p.2 p.1 = true

/-- Node `i` of a tree with the `n` leaves first: a leaf below `n`, or an internal node behind its children. -/
def shapedNode (n i : Nat) : Node → Bool
  | .leaf _ _ => decide (i < n)
  | .internal _ l r => decide (n ≤ i) && decide (l.toNat < i) && decide (r.toNat < i)

/-- What a walk needs of NODE so that TSTACK cannot overflow: n ≤ NMAX leaves below index n, internal nodes above,
each behind its children, and 2n − 1 nodes in all. -/
abbrev Tables.treeShape (p : Params) (t : Tables) : Prop :=
  ∃ n, n < p.nMax + 1 ∧ t.nodes.length + 1 = 2 * n ∧ t.root.toNat < t.nodes.length
    ∧ ∀ q ∈ t.nodes.zipIdx, shapedNode n q.2 q.1 = true

/-- The leaves under node `k` from left to right, each with the path to it behind `p` (43_code_table.md R171);
`fuel` bounds the depth. -/
def leafCodes (nodes : List Node) : Nat → Nat → List Bool → List (Byte × List Bool)
  | 0, _, _ => []
  | fuel + 1, k, p =>
    match nodes[k]? with
    | none => []
    | some (.leaf _ sym) => [(sym, p)]
    | some (.internal _ l r) =>
      leafCodes nodes fuel l.toNat (p ++ [false]) ++ leafCodes nodes fuel r.toNat (p ++ [true])

/-! ### Code tables -/

/-- Symbol `i` has a code (10_state.md R46). -/
abbrev State.bound (s : State) (i : Nat) : Prop := i < s.limit ∧ s.codeLenAt i ≠ 0

/-- "for all pairs of distinct symbols in a generated code table, neither code is a prefix of the other"
(43_code_table.md R175). -/
abbrev State.prefixFree (s : State) : Prop :=
  ∀ i ∈ s.boundSymbols, ∀ j ∈ s.boundSymbols, i ≠ j → ¬ s.codeOf i <+: s.codeOf j

/-- The table is exactly `entries`: ORDER lists their symbols and each symbol is bound to its code; no other
symbol is bound. -/
abbrev State.tableIs (s : State) (entries : List (Byte × List Bool)) : Prop :=
  s.tables.order = entries.map Prod.fst
    ∧ (∀ e ∈ entries, s.codeOf e.1.toNat = e.2)
    ∧ (∀ i < s.limit, s.codeLenAt i ≠ 0 → BitVec.ofNat 8 i ∈ entries.map Prod.fst)

/-- The header entries of the table, in ORDER order (30_encoding.md R91). -/
def State.entries (s : State) : List (Byte × List Bool) :=
  s.tables.order.map (fun b => (b, s.codeOf b.toNat))

/-! ### Containers (30_encoding.md R90) -/

/-- One header entry: symbol, ASCII code, terminator (R91). -/
def entryBytes (e : Byte × List Bool) : List Byte :=
  e.1 :: (e.2.map codeChar ++ [Config.terminator])

/-- A count field: four bytes, little-endian (20_memory.md R72). -/
def countBytes (n : Nat) : List Byte := (List.range 4).map (fun j => BitVec.ofNat 8 (n / 256 ^ j))

/-- The header: entries, sentinel, unique count, total count (R90). -/
def headerBytes (entries : List (Byte × List Bool)) (unique total : Nat) : List Byte :=
  entries.flatMap entryBytes ++ Config.sentinel :: (countBytes unique ++ countBytes total)

/-- Byte `j` of a packed bit string: its first bit is bit 7, missing bits are 0 (R94). -/
def packedByte (bits : List Bool) (j : Nat) : Byte :=
  BitVec.ofNat 8 ((List.range 8).foldl (fun acc k => 2 * acc + (bits.getD (8 * j + k) false).toNat) 0)

/-- A bit string packed MSB first and zero-padded to a byte boundary: ⌈B/8⌉ bytes (R94). -/
def packedBytes (bits : List Bool) : List Byte := (List.range ((bits.length + 7) / 8)).map (packedByte bits)

/-- The payload bits of an input under the table of `s`: the codes in input order (44_serializer.md R195). -/
def State.payloadOf (s : State) (input : List Byte) : List Bool := input.flatMap (fun b => s.codeOf b.toNat)

/-- The payload bits from PAYLOAD_OFS to the end of the container, in reading order (46_decoder.md R242). -/
def State.payloadBitList (s : State) : List Bool :=
  (List.range (8 * (s.regs.inLen.toNat - s.regs.payloadOfs.toNat))).map
    (fun q => (s.inByte (s.regs.payloadOfs.toNat + q / 8)).getLsbD (7 - q % 8))

/-- Entries the parser reads one by one without an error: symbols of the alphabet without repetition, codes of
legal length (45_parser.md R212, R213). -/
abbrev Params.readableEntries (p : Params) (entries : List (Byte × List Bool)) : Prop :=
  (∀ e ∈ entries, Params.symbol p e.1) ∧ (entries.map Prod.fst).Nodup
    ∧ (∀ e ∈ entries, 1 ≤ e.2.length ∧ e.2.length ≤ p.maxCodeLen)

/-- No code of the entries is a prefix of another's (45_parser.md R215). -/
abbrev clashFree (entries : List (Byte × List Bool)) : Prop :=
  entries.Pairwise (fun x y => ¬ x.2 <+: y.2 ∧ ¬ y.2 <+: x.2)

/-- A header the parser accepts: at least one entry, all readable, none clashing (45_parser.md R212 to R215). -/
abbrev Params.legalEntries (p : Params) (entries : List (Byte × List Bool)) : Prop :=
  entries ≠ [] ∧ Params.readableEntries p entries ∧ clashFree entries

/-- IN_MEM holds `bytes` from offset `ofs` on, and the container reaches at least to their end. -/
abbrev State.holds (s : State) (ofs : Nat) (bytes : List Byte) : Prop :=
  ofs + bytes.length ≤ s.regs.inLen.toNat ∧ (List.range bytes.length).map (fun k => s.inByte (ofs + k)) = bytes

/-- OUT_MEM holds `bytes` from offset 0 on. -/
abbrev State.outHolds (s : State) (bytes : List Byte) : Prop := (List.range bytes.length).map s.outByte = bytes

/-! ### The invariant -/

/-- "At most one of them is 1 at any time" (10_state.md R25). -/
abbrev Status.exclusive (t : Status) : Prop :=
  ¬ (t.busy = true ∧ t.done = true) ∧ ¬ (t.busy = true ∧ t.err = true) ∧ ¬ (t.done = true ∧ t.err = true)

/-- "HDR = 1 implies TABLE = 1; TABLE = 1 with FREQ = 1 implies TREE = 1 and HDR = 0; TREE = 1 implies FREQ = 1"
(47_control.md R268). -/
abbrev Status.coherent (t : Status) : Prop :=
  (t.hdrValid = true → t.tableValid = true)
    ∧ (t.tableValid = true → t.freqValid = true → t.treeValid = true ∧ t.hdrValid = false)
    ∧ (t.treeValid = true → t.freqValid = true)

/-- While BUSY a busy command runs whose prerequisites hold, in one of its phases; otherwise the phase is IDLE and
CUR_OP 0 (47_control.md R262, R263). -/
abbrev State.runningOk (s : State) : Prop :=
  (s.status.busy = true →
    (bodyOf s.curOp).isSome = true ∧ prereq s.curOp s.status = 0 ∧ s.phase ∈ phasesOf s.curOp)
    ∧ (s.status.busy = false → s.phase = .idle ∧ s.curOp = 0)

/-- The tables have the sizes of R42 to R46 (10_state.md). -/
abbrev Tables.sized (p : Params) (t : Tables) : Prop :=
  t.freq.length = p.limit ∧ t.codeLen.length = p.limit ∧ t.codeBits.length = p.limit
    ∧ t.nodes.length ≤ p.nodeMax ∧ t.heap.length ≤ p.heapMax

/-- Memory is in canonical form and lists bytes of IN_MEM and OUT_MEM only (20_memory.md R62). -/
abbrev State.memOk (s : State) : Prop :=
  s.mem.wf ∧ ∀ c ∈ s.mem,
    (Config.inBase ≤ c.1 ∧ c.1 < Config.inBase + s.build.inMax)
      ∨ (Config.outBase ≤ c.1 ∧ c.1 < Config.outBase + s.build.outMax)

/-- The invariant of the machine. -/
structure State.Inv (s : State) : Prop where
  build : s.build.wellFormed = true
  exclusive : s.status.exclusive
  coherent : s.status.coherent
  running : s.runningOk
  sized : s.tables.sized s.build
  mem : s.memOk
  counted : s.status.freqValid = true → s.counted
  tree : s.status.treeValid = true → s.tables.treeShape s.build

/-- The code table is one that BUILD_TABLE or PARSE_HEADER leaves: ORDER lists the bound symbols, each once and of the
alphabet; the codes are prefix-free and of legal length; MAXLEN is the greatest (43_code_table.md R173 to R175,
45_parser.md R212, R213, R215, R216). -/
abbrev State.codesOk (s : State) : Prop :=
  s.prefixFree ∧ s.tables.order ≠ [] ∧ s.tables.order.Nodup
    ∧ (∀ b ∈ s.tables.order, Params.symbol s.build b)
    ∧ (∀ i < s.limit, s.codeLenAt i ≠ 0 ↔ BitVec.ofNat 8 i ∈ s.tables.order)
    ∧ (∀ i < s.limit, s.codeLenAt i ≤ s.build.maxCodeLen)
    ∧ s.regs.maxLen.toNat = s.greatestLen

/-- The table was built from the current FREQ: it binds the counted symbols, and PAYLOAD_BITS is the number of code bits
of the input (43_code_table.md R174, R175, 44_serializer.md R198). -/
abbrev State.tableOfCounts (s : State) : Prop :=
  (∀ i < s.limit, s.codeLenAt i ≠ 0 ↔ 0 < s.freqAt i) ∧ s.tables.order.length = s.regs.unique.toNat
    ∧ s.bitCount = (s.payloadOf s.input).length ∧ s.regs.payloadBits = BitVec.ofNat 32 s.bitCount

/-- "the code table, UNIQUE, TOTAL and PAYLOAD_OFS come from a parsed container in IN_MEM" (10_state.md R24,
45_parser.md R216). -/
abbrev State.tableOfHeader (s : State) : Prop :=
  s.lenOk ∧ s.regs.unique.toNat = s.tables.order.length ∧ 1 ≤ s.regs.total.toNat
    ∧ s.holds 0 (headerBytes s.entries s.regs.unique.toNat s.regs.total.toNat)
    ∧ s.regs.payloadOfs.toNat = (headerBytes s.entries s.regs.unique.toNat s.regs.total.toNat).length

/-- What the valid flags say of the results they stand for (10_state.md R24, R27, 47_control.md R264, R268). It is kept
apart from `State.Inv`, from which alone no step stops. -/
structure State.Current (s : State) : Prop where
  tree : s.status.treeValid = true →
    s.treeOk ∧ s.huffman ∧ s.countedSymbols.length = s.regs.unique.toNat
  codes : s.status.tableValid = true → s.codesOk
  built : s.status.tableValid = true → s.status.freqValid = true → s.tableOfCounts
  parsed : s.status.hdrValid = true → s.tableOfHeader

end Sys2Proof.Machine
end

