-- ==== Sys2Proof/Certificates/Slice0/Obligations.lean ====
section
/-! DEFINITION. The statements for the provers. Each docstring names the rule it formalises; a hypothesis
`s.idle` is "BUSY = 0" and `t.completed` is the STATUS of a command that ended without error. -/

open Sys2Proof Sys2Proof.Machine
open Sys2Proof.Config (Params)

/-! ### Encoding and the step -/

/-- R81: value[3:0] selects the row, bits [31:4] are ignored. -/
def Obligations.DecoderFollowsOpcodeMap : Prop :=
  ∀ hi : BitVec 28,
    decode (hi ++ 0x0#4) = .ok .nop ∧ decode (hi ++ 0x1#4) = .ok .compress
      ∧ decode (hi ++ 0x2#4) = .ok .decompress ∧ decode (hi ++ 0x3#4) = .ok .count
      ∧ decode (hi ++ 0x4#4) = .ok .buildTree ∧ decode (hi ++ 0x5#4) = .ok .buildTable
      ∧ decode (hi ++ 0x6#4) = .ok .serialize ∧ decode (hi ++ 0x7#4) = .ok .parseHeader
      ∧ decode (hi ++ 0x8#4) = .ok .decodePayload ∧ decode (hi ++ 0xF#4) = .ok .softReset
      ∧ ∀ op : BitVec 4, 9 ≤ op.toNat → op.toNat ≤ 14 → decode (hi ++ op) = .error (.reservedOpcode op)

/-- R80, R81: decoding an encoded command gives it back whatever the reserved bits are, and every word that
decodes to a command is an encoding of it. -/
def Obligations.DecodeAndEncodeAgree : Prop :=
  (∀ (hi : BitVec 28) (i : Instr), decode (encodeWith hi i) = .ok i)
    ∧ ∀ (v : Word) (i : Instr), decode v = .ok i → ∃ hi, v = encodeWith hi i

/-- Command words of the spec's programs and vectors (95_test_vectors.md P1, P3, P4, P5, VK2, VK4). -/
def Obligations.CommandWordsOfThePrograms : Prop :=
  decode 0x00000001 = .ok .compress ∧ decode 0x00000002 = .ok .decompress ∧ decode 0xFFFFFFF3 = .ok .count
    ∧ decode 0x00000008 = .ok .decodePayload ∧ decode 0x0000000F = .ok .softReset
    ∧ decode 0x00000009 = .error (.reservedOpcode 0x9)

/-- R77, R260: the command is the value of the CMD write. The step that takes a CMD write whose value decodes to `i`
runs `i` on the state less that event, unless the write is the acceptance of a busy command that is to stay busy
(DESIGN CHOICE, log entries 7 and 8). -/
def Obligations.StepRunsTheWrittenCommand : Prop :=
  ∀ (s : State) (v : Word) (i : Instr) (rest : List HostOp),
    ¬ (s.status.busy = true ∧ s.env.busyLeft = 0) → s.env.host = .write 4 0x08 v :: rest → decode v = .ok i →
    let s₁ := { s.tick with env := { s.tick.env with host := rest } }
    step s =
      match acceptFor (s.env.latencies.headD 0) i s₁ with
      | none => exec i s₁
      | some a =>
        if s.env.latencies.headD 0 = 0 then
          exec i { s₁ with env := { s₁.env with latencies := s.env.latencies.tail } }
        else .next { a with env := { a.env with latencies := s.env.latencies.tail } }

/-- R6: the result of a busy command is a function of the state at acceptance alone: however long it stays busy and
whatever the host's side is by then, its completion gives what the atomic transition from acceptance gives. -/
def Obligations.CompletionAfterBusyIsTheAtomicTransition : Prop :=
  ∀ (i : Instr) (s a : State) (n : Nat) (e : Env), acceptFor n i s = some a → e.busyLeft = 0 →
    step { a with env := e } =
      match exec i s with
      | .next t => .next { t with env := e }
      | .fault f => .fault f
      | .refused r => .refused r

/-- R262, R322: a busy command ends after a finite time. That the time is counted in events, so that with `n` of them left
and a silent host step n + 1 is the completion, is the model's choice (DESIGN CHOICE, log entry 7). -/
def Obligations.BusyCommandCompletesInTime : Prop :=
  ∀ (n : Nat) (s : State), s.status.busy = true → s.env.host = [] → s.env.busyLeft = n →
    Host.Core.run Sys2Proof.core (n + 1) s = completeRunning { s with env := { s.env with busyLeft := 0 } }

/-- R88, R316: WAIT. The host that polls STATUS for BUSY = 0 gets on after the completion. The number of steps, n + 2 with
`n` events left, is the model's choice (DESIGN CHOICE, log entry 7), and so is that a POLL records nothing (DESIGN CHOICE,
log entry 8). -/
def Obligations.WaitEndsAfterCompletion : Prop :=
  ∀ (n : Nat) (s : State) (rest : List HostOp), s.Inv → s.status.busy = true → s.env.busyLeft = n →
    s.env.host = Script.wait ++ rest →
    ∃ t, Host.Core.run Sys2Proof.core (n + 2) s = .next t ∧ t.idle ∧ t.env.host = rest
      ∧ t.env.readLog = s.env.readLog

/-! ### Control commands and errors at the CMD write -/

/-- R265: while BUSY = 0 NOP clears the report, sets DONE and changes no other state; while BUSY = 1 it is ignored. -/
def Obligations.NopSetsDoneOnly : Prop :=
  ∀ s : State,
    (s.idle →
      exec .nop s = .next { s with
        regs := { s.regs with cmdOp := 0, errSub := 0, errPos := 0 }
        status := { s.status with done := true, err := false, errCode := 0 } })
    ∧ (s.status.busy = true → exec .nop s = .next s)

/-- R269, R310, R311: SOFT_RESET, and the hardware reset input as the next event, leave every register at its reset
value and IN_MEM unchanged, BUSY or not. -/
def Obligations.ResetsGiveTheResetState : Prop :=
  ∀ s : State,
    ∃ t, exec .softReset s = .next t ∧ hostEvent .hwReset s = .next t
      ∧ t.status = { busy := false, done := false, err := false, errCode := 0, freqValid := false
                     treeValid := false, tableValid := false, hdrValid := false }
      ∧ t.regs = { cmdOp := 0, errPos := 0, errSub := 0, inLen := 0, outCap := 0, outLen := 0, unique := 0
                   total := 0, payloadOfs := 0, payloadBits := 0, maxLen := 0, intEn := false }
      ∧ t.phase = .idle ∧ t.curOp = 0 ∧ t.irq = false
      ∧ t.tables.heap = [] ∧ t.tables.nodes = [] ∧ t.tables.order = []
      ∧ (∀ a < 2 ^ 28, t.inByte a = s.inByte a)
      ∧ t.build = s.build ∧ t.env.host = s.env.host ∧ t.env.readLog = s.env.readLog
      ∧ t.env.latencies = s.env.latencies

/-- R82: a reserved opcode is IllegalCommand when idle and ignored while BUSY. -/
def Obligations.ReservedOpcodeIsIllegalCommand : Prop :=
  ∀ (s : State) (v : Word), 9 ≤ (opField v).toNat → (opField v).toNat ≤ 14 →
    (s.idle → onCmdWrite v s = .next { s with
      regs := { s.regs with cmdOp := opField v, errSub := 0, errPos := 0 }
      status := { s.status with done := false, err := true, errCode := 5 } })
    ∧ (s.status.busy = true → onCmdWrite v s = .next s)

/-- R264, R270: a command whose prerequisite fails reports SequenceError with the subcause of the first failing check
and changes nothing else. -/
def Obligations.MissingPrerequisiteIsSequenceError : Prop :=
  ∀ s : State, s.idle →
    let report (op sub : BitVec 4) : State :=
      { s with
        regs := { s.regs with cmdOp := op, errSub := sub, errPos := 0 }
        status := { s.status with done := false, err := true, errCode := 6 } }
    (s.status.freqValid = false → exec .buildTree s = .next (report 4 1))
      ∧ (s.status.treeValid = false → exec .buildTable s = .next (report 5 2))
      ∧ (s.status.freqValid = false → exec .serialize s = .next (report 6 1))
      ∧ (s.status.freqValid = true → s.status.tableValid = false → exec .serialize s = .next (report 6 3))
      ∧ (s.status.hdrValid = false → exec .decodePayload s = .next (report 8 4))

/-- R66, R271: while BUSY every host write is ignored, but a CMD write with OP 0xF, which resets. -/
def Obligations.BusyIgnoresHostWrites : Prop :=
  ∀ (s : State) (size : Nat) (addr v : Word), s.status.busy = true →
    hostWrite size addr v s =
      if size = 4 ∧ addr = 0x08 ∧ v.extractLsb' 0 4 = 0xF then .next (resetAction s) else .next s

/-- R284: the state after a busy command that ends in an error of code 1 to 4. -/
def Obligations.ErrorEntryOfBusyCommands : Prop :=
  ∀ (i : Instr) (s t : State), s.idle → exec i s = .next t → t.status.err = true → t.status.errCode ≠ 5 →
    t.status.errCode ≠ 6 →
    (t.status.errCode = 1 ∨ t.status.errCode = 2 ∨ t.status.errCode = 3 ∨ t.status.errCode = 4)
      ∧ t.status.busy = false ∧ t.status.done = false ∧ t.status.flags = (false, false, false, false)
      ∧ t.regs.unique = 0 ∧ t.regs.total = 0 ∧ t.regs.payloadOfs = 0 ∧ t.regs.payloadBits = 0
      ∧ t.regs.maxLen = 0 ∧ t.regs.outLen = 0 ∧ t.regs.cmdOp = i.opcode ∧ t.phase = .idle ∧ t.curOp = 0
      ∧ s.sameInput t ∧ ∀ a, s.cap ≤ a → t.outByte a = s.outByte a

/-! ### COUNT -/

/-- R112, R113: COUNT of an input over the alphabet. -/
def Obligations.CountCountsTheInput : Prop :=
  ∀ s : State, s.idle → s.lenOk → (∀ b ∈ s.input, Params.symbol s.build b) →
    ∃ t, exec .count s = .next t ∧ t.completed ∧ t.regs.cmdOp = 3
      ∧ t.tables.freq.length = s.limit
      ∧ (∀ i < s.limit, t.freqAt i = s.input.count (BitVec.ofNat 8 i))
      ∧ t.regs.unique.toNat
          = (List.range s.limit).countP (fun i => decide (0 < s.input.count (BitVec.ofNat 8 i)))
      ∧ t.regs.total = s.regs.inLen ∧ t.regs.maxLen = 0 ∧ t.regs.payloadOfs = 0 ∧ t.regs.payloadBits = 0
      ∧ t.status.flags = (true, false, false, false)

/-- R114: what holds after a successful COUNT. -/
def Obligations.CountInvariants : Prop :=
  ∀ s t : State, s.idle → exec .count s = .next t → t.status.done = true →
    (t.tables.freq.map (·.toNat)).sum = t.regs.total.toNat ∧ t.regs.total = t.regs.inLen
      ∧ 1 ≤ t.regs.unique.toNat ∧ t.regs.unique.toNat ≤ t.build.nMax
      ∧ t.freqAt 0x07 = 0 ∧ ∀ b : Byte, ¬ Params.symbol t.build b → t.freqAt b.toNat = 0

/-- R111, R211: the length guard of the four commands that read IN_MEM from offset 0. -/
def Obligations.LengthGuardErrors : Prop :=
  ∀ (s : State) (i : Instr), s.idle → i = .count ∨ i = .compress ∨ i = .parseHeader ∨ i = .decompress →
    (s.regs.inLen = 0 → failsWith (exec i s) 1 0 0)
      ∧ (s.build.inMax < s.regs.inLen.toNat → failsWith (exec i s) 4 1 0)

/-- R113: the lowest offset whose byte is outside the alphabet is reported, with subcause 1 for a byte ≥ SYM_LIMIT
and 2 for 0x07. -/
def Obligations.CountReportsTheFirstBadByte : Prop :=
  ∀ (s : State) (i : Instr) (k : Nat), s.idle → i = .count ∨ i = .compress → s.lenOk →
    k < s.regs.inLen.toNat → (∀ j < k, Params.symbol s.build (s.inByte j)) →
    (s.limit ≤ (s.inByte k).toNat → failsWith (exec i s) 2 1 (BitVec.ofNat 32 k))
      ∧ (s.inByte k = 0x07 → failsWith (exec i s) 2 2 (BitVec.ofNat 32 k))

/-! ### The heap -/

/-- R137: each operation keeps the heap property, and the entries change only as it says. -/
def Obligations.HeapOperationsKeepTheHeap : Prop :=
  ∀ (key : BitVec 9 → Nat) (h : Heap), Heap.ordered key h →
    (∀ k, Heap.ordered key (Heap.insert key h k) ∧ (Heap.insert key h k).Perm (k :: h))
      ∧ ∀ m h', Heap.extractMin key h = some (m, h') → Heap.ordered key h' ∧ h.Perm (m :: h')

/-- R133: "The returned entry has the least key, and among entries with equal least key it is the one at index 0";
only an empty heap gives nothing. -/
def Obligations.HeapExtractReturnsTheLeast : Prop :=
  ∀ (key : BitVec 9 → Nat) (h : Heap), Heap.ordered key h →
    (Heap.extractMin key h = none ↔ h = [])
      ∧ ∀ m h', Heap.extractMin key h = some (m, h') → h[0]? = some m ∧ ∀ x ∈ h, key m ≤ key x

/-! ### BUILD_TREE -/

/-- R150: BUILD_TREE completes from every idle state with FREQ_VALID = 1; what it writes besides the tree. -/
def Obligations.BuildTreeCompletes : Prop :=
  ∀ s : State, s.idle → s.status.freqValid = true →
    ∃ t, exec .buildTree s = .next t ∧ t.completed ∧ t.regs.cmdOp = 4 ∧ t.regs.maxLen = 0
      ∧ t.regs.payloadBits = 0 ∧ t.status.flags = (true, true, false, false)

/-- R154, the tree invariants with N = UNIQUE, and R152: BUILD_TREE leaves a tree in which every internal node joins the
two least nodes not joined before it, and MergeStep makes the first node extracted the left child and the second the
right child. -/
def Obligations.BuildTreeBuildsAHuffmanTree : Prop :=
  (∀ s : State, s.idle → s.status.freqValid = true → s.tables.freq.length = s.limit →
    1 ≤ s.regs.unique.toNat → s.regs.unique.toNat = s.distinctCount →
    (s.tables.freq.map (·.toNat)).sum = s.regs.total.toNat →
    ∃ t, exec .buildTree s = .next t ∧ t.completed ∧ t.treeOk ∧ t.huffman ∧ t.tables.freq = s.tables.freq
      ∧ t.tables.nodes.length = 2 * s.regs.unique.toNat - 1
      ∧ (t.nodeAt t.tables.root.toNat).freq = s.regs.total.toNat)
  ∧ ∀ (s : State) (a b : BitVec 9) (h₁ h₂ : Heap), Heap.extractMin s.nodeKey s.tables.heap = some (a, h₁) →
    Heap.extractMin s.nodeKey h₁ = some (b, h₂) →
    ∃ t, mergeStep s = .ok t
      ∧ t.tables.nodes = s.tables.nodes ++ [.internal (BitVec.ofNat 32 (s.nodeKey a + s.nodeKey b)) a b]
      ∧ t.tables.heap = Heap.insert t.nodeKey h₂ (BitVec.ofNat 9 s.tables.nodes.length)
      ∧ t = { s with tables := { s.tables with nodes := t.tables.nodes, heap := t.tables.heap } }

/-! ### BUILD_TABLE -/

/-- R170, R174: BUILD_TABLE completes on every tree shape; MAXLEN and PAYLOAD_BITS from the table it leaves. -/
def Obligations.BuildTableCompletes : Prop :=
  ∀ s : State, s.idle → s.status.treeValid = true → s.tables.treeShape s.build →
    ∃ t, exec .buildTable s = .next t ∧ t.completed ∧ t.regs.cmdOp = 5
      ∧ t.status.flags = (s.status.freqValid, true, true, s.status.hdrValid)
      ∧ (∀ i < s.limit, t.codeLenAt i ≤ t.regs.maxLen.toNat)
      ∧ (∃ i < 256, t.codeLenAt i = t.regs.maxLen.toNat)
      ∧ t.regs.payloadBits
          = BitVec.ofNat 32 ((List.range s.limit).map (fun i => s.freqAt i * t.codeLenAt i)).sum

/-- R172: a tree of one leaf gives its symbol the code "0". -/
def Obligations.SingleLeafGetsCodeZero : Prop :=
  ∀ (s : State) (f : Word) (sym : Byte), s.idle → s.status.treeValid = true →
    s.tables.nodes[s.tables.root.toNat]? = some (.leaf f sym) → sym.toNat < s.limit →
    ∃ t, exec .buildTable s = .next t ∧ t.completed ∧ t.tableIs [(sym, [false])] ∧ t.codeLenAt sym.toNat = 1
      ∧ t.regs.maxLen = 1

/-- R171: on a tree of two or more leaves the table binds each leaf to its path, 0 for left and 1 for right, and ORDER
lists the leaves from left to right. -/
def Obligations.BuildTableBindsLeavesToTheirPaths : Prop :=
  ∀ s : State, s.idle → s.status.treeValid = true → s.treeOk → 2 ≤ s.countedSymbols.length →
    s.countedSymbols.length ≤ s.build.nMax →
    ∃ t, exec .buildTable s = .next t ∧ t.completed
      ∧ t.tableIs (leafCodes s.tables.nodes (s.build.maxCodeLen + 1) s.tables.root.toNat [])

/-- R175, first, second and fourth property: prefix-free, code lengths, and which symbols are bound. -/
def Obligations.BuiltTableIsPrefixFree : Prop :=
  ∀ s : State, s.idle → s.status.treeValid = true → s.treeOk → s.countedSymbols.length ≤ s.build.nMax →
    ∃ t, exec .buildTable s = .next t ∧ t.completed ∧ t.prefixFree
      ∧ (∀ i, t.bound i → t.codeLenAt i ≤ max 1 (s.countedSymbols.length - 1))
      ∧ (∀ i < s.limit, t.codeLenAt i ≠ 0 ↔ 0 < s.freqAt i)
      ∧ t.tables.order.length = s.countedSymbols.length

/-- R175, third property: for two or more symbols every infinite bit string has a prefix in the table, and the Kraft
sum is 1. -/
def Obligations.BuiltTableIsComplete : Prop :=
  ∀ s : State, s.idle → s.status.treeValid = true → s.treeOk → 2 ≤ s.countedSymbols.length →
    s.countedSymbols.length ≤ s.build.nMax →
    ∃ t, exec .buildTable s = .next t ∧ t.completed
      ∧ (∀ stream : Nat → Bool, ∃ i, t.bound i ∧ t.codeOf i = (List.range (t.codeLenAt i)).map stream)
      ∧ (t.boundSymbols.map (fun i => 2 ^ (s.build.maxCodeLen - t.codeLenAt i))).sum = 2 ^ s.build.maxCodeLen

/-! ### Frame of the stage commands that write no output -/

/-- R71, R112, R150, R170, R210: a COUNT, BUILD_TREE, BUILD_TABLE or PARSE_HEADER that completes leaves every byte of
memory, OUT_LEN and the host's registers as they were, and writes only the tables and registers its rule names. -/
def Obligations.StageCommandsFrame : Prop :=
  ∀ s t : State, s.idle → t.status.done = true →
    (exec .count s = .next t →
      s.sameInput t ∧ (∀ a, t.outByte a = s.outByte a) ∧ t.regs.outLen = s.regs.outLen
        ∧ t.tables = { s.tables with freq := t.tables.freq })
    ∧ (exec .buildTree s = .next t →
      s.sameInput t ∧ (∀ a, t.outByte a = s.outByte a) ∧ t.regs.outLen = s.regs.outLen
        ∧ t.tables = { s.tables with nodes := t.tables.nodes, heap := t.tables.heap, root := t.tables.root }
        ∧ t.regs.unique = s.regs.unique ∧ t.regs.total = s.regs.total
        ∧ t.regs.payloadOfs = s.regs.payloadOfs)
    ∧ (exec .buildTable s = .next t →
      s.sameInput t ∧ (∀ a, t.outByte a = s.outByte a) ∧ t.regs.outLen = s.regs.outLen
        ∧ t.tables = { s.tables with
            codeLen := t.tables.codeLen, codeBits := t.tables.codeBits, order := t.tables.order }
        ∧ t.regs.unique = s.regs.unique ∧ t.regs.total = s.regs.total
        ∧ t.regs.payloadOfs = s.regs.payloadOfs)
    ∧ (exec .parseHeader s = .next t →
      s.sameInput t ∧ (∀ a, t.outByte a = s.outByte a) ∧ t.regs.outLen = s.regs.outLen
        ∧ t.tables = { s.tables with
            codeLen := t.tables.codeLen, codeBits := t.tables.codeBits, order := t.tables.order })

/-! ### SERIALIZE -/

/-- R191, R241, R266: a container or a TOTAL larger than the capacity is CapacityExceeded, in SERIALIZE, in DECODE_PAYLOAD,
and in COMPRESS, whose first three stages give the table (DECOMPRESS checks TOTAL in its first stage: HeaderCheckErrors). -/
def Obligations.CapacityIsCheckedFirst : Prop :=
  let tooLong (s : State) : Prop :=
    min s.regs.outCap.toNat s.build.outMax
      < 9 + (s.tables.order.map (fun b => 2 + s.codeLenAt b.toNat)).sum
          + (((List.range s.limit).map (fun i => s.freqAt i * s.codeLenAt i)).sum + 7) / 8
  ∀ s : State, s.idle →
    (s.status.freqValid = true → s.status.tableValid = true → tooLong s → failsWith (exec .serialize s) 4 2 0)
    ∧ (s.status.hdrValid = true → min s.regs.outCap.toNat s.build.outMax < s.regs.total.toNat →
      failsWith (exec .decodePayload s) 4 3 0)
    ∧ ∀ a b c, exec .count s = .next a → a.status.done = true → exec .buildTree a = .next b → b.status.done = true →
      exec .buildTable b = .next c → c.status.done = true → tooLong c → failsWith (exec .compress s) 4 2 0

/-- R190, R90: SERIALIZE writes the container, and nothing else of memory, tables or registers but OUT_LEN. -/
def Obligations.SerializeWritesTheContainer : Prop :=
  ∀ s : State, s.idle → s.status.freqValid = true → s.status.tableValid = true → s.build.wellFormed = true →
    s.regs.inLen.toNat ≤ 2 ^ 28 → s.bitCount = (s.payloadOf s.input).length → s.containerLen ≤ s.cap →
    let container := headerBytes s.entries s.regs.unique.toNat s.regs.total.toNat
      ++ packedBytes (s.payloadOf s.input)
    ∃ t, exec .serialize s = .next t ∧ t.completed ∧ t.outHolds container
      ∧ t.regs = { s.regs with
          cmdOp := 6, errSub := 0, errPos := 0, outLen := BitVec.ofNat 32 container.length }
      ∧ t.status.flags = s.status.flags ∧ t.tables = s.tables ∧ s.sameInput t
      ∧ ∀ a, container.length ≤ a → t.outByte a = s.outByte a

/-- R196, R197: eight bits packed into an empty accumulator are emitted as one byte, the first of them bit 7; a partial
byte of `n` bits, 1 ≤ n ≤ 7, is emitted with zero bits on the low end; an empty accumulator emits nothing. -/
def Obligations.PackerFillsBytesFromTheTop : Prop :=
  ∀ s : State,
    (s.dp.accN = 0 → flushBits s = s)
    ∧ (∀ b₀ b₁ b₂ b₃ b₄ b₅ b₆ b₇ : Bool, s.dp.acc = 0 → s.dp.accN = 0 →
      [b₀, b₁, b₂, b₃, b₄, b₅, b₆, b₇].foldl packBit s
        = emitByte s (BitVec.ofBool b₀ ++ BitVec.ofBool b₁ ++ BitVec.ofBool b₂ ++ BitVec.ofBool b₃
            ++ BitVec.ofBool b₄ ++ BitVec.ofBool b₅ ++ BitVec.ofBool b₆ ++ BitVec.ofBool b₇))
    ∧ ∀ n : Nat, 1 ≤ n → n ≤ 7 → s.dp.accN.toNat = n →
      ∃ v : Byte, flushBits s
          = { emitByte s v with dp := { (emitByte s v).dp with acc := 0, accN := 0 } }
        ∧ (∀ k < 8 - n, v.getLsbD k = false) ∧ ∀ k < n, v.getLsbD (8 - n + k) = s.dp.acc.getLsbD k

/-! ### PARSE_HEADER -/

/-- R210 to R216: PARSE_HEADER of a legal header. -/
def Obligations.ParseReadsALegalHeader : Prop :=
  ∀ (s : State) (entries : List (Byte × List Bool)) (total : Nat), s.idle → s.lenOk →
    Params.legalEntries s.build entries → 1 ≤ total → total ≤ s.cap →
    s.holds 0 (headerBytes entries entries.length total) →
    ∃ t, exec .parseHeader s = .next t ∧ t.completed ∧ t.regs.cmdOp = 7 ∧ t.tableIs entries
      ∧ t.regs.unique.toNat = entries.length ∧ t.regs.total.toNat = total
      ∧ t.regs.payloadOfs.toNat = (headerBytes entries entries.length total).length
      ∧ t.regs.maxLen.toNat = (entries.map (·.2.length)).foldl max 0 ∧ t.regs.payloadBits = 0
      ∧ t.status.flags = (false, false, true, true)

/-- R212: the errors at an entry's start, behind entries read without an error. -/
def Obligations.EntryStartErrors : Prop :=
  ∀ (s : State) (i : Instr) (entries : List (Byte × List Bool)), s.idle →
    i = .parseHeader ∨ i = .decompress → s.lenOk → Params.readableEntries s.build entries →
    s.holds 0 (entries.flatMap entryBytes) →
    let o := (entries.flatMap entryBytes).length
    (o = s.regs.inLen.toNat → failsWith (exec i s) 3 1 s.regs.inLen)
      ∧ (o < s.regs.inLen.toNat → s.limit ≤ (s.inByte o).toNat → failsWith (exec i s) 3 5 (BitVec.ofNat 32 o))
      ∧ (o < s.regs.inLen.toNat → s.inByte o ∈ entries.map Prod.fst →
          failsWith (exec i s) 3 6 (BitVec.ofNat 32 o))

/-- R213: the errors inside a code string, behind entries read without an error and the first characters `c` of the
code of `sym`. -/
def Obligations.CodeStringErrors : Prop :=
  ∀ (s : State) (i : Instr) (entries : List (Byte × List Bool)) (sym : Byte) (c : List Bool), s.idle →
    i = .parseHeader ∨ i = .decompress → s.lenOk → Params.readableEntries s.build entries →
    Params.symbol s.build sym → sym ∉ entries.map Prod.fst → c.length ≤ s.build.maxCodeLen →
    s.holds 0 (entries.flatMap entryBytes ++ sym :: c.map codeChar) →
    let o := (entries.flatMap entryBytes).length + 1 + c.length
    (o = s.regs.inLen.toNat → failsWith (exec i s) 3 1 s.regs.inLen)
      ∧ (o < s.regs.inLen.toNat → s.inByte o = 0x00 → c = [] → failsWith (exec i s) 3 3 (BitVec.ofNat 32 o))
      ∧ (o < s.regs.inLen.toNat → s.inByte o ≠ 0x00 → s.inByte o ≠ 0x30 → s.inByte o ≠ 0x31 →
          failsWith (exec i s) 3 2 (BitVec.ofNat 32 o))
      ∧ (o < s.regs.inLen.toNat → s.inByte o = 0x30 ∨ s.inByte o = 0x31 → c.length = s.build.maxCodeLen →
          failsWith (exec i s) 3 4 (BitVec.ofNat 32 o))

/-- R214, R215: the errors behind the sentinel, in the order of the checks; `ps` is the sentinel's offset. -/
def Obligations.HeaderCheckErrors : Prop :=
  ∀ (s : State) (i : Instr) (entries : List (Byte × List Bool)), s.idle →
    i = .parseHeader ∨ i = .decompress → s.lenOk → Params.readableEntries s.build entries →
    s.holds 0 (entries.flatMap entryBytes ++ [0x07]) →
    let ps := (entries.flatMap entryBytes).length
    let u := s.inCount (ps + 1)
    let t := s.inCount (ps + 5)
    let at' : Word := BitVec.ofNat 32 (ps + 1)
    (s.regs.inLen.toNat < ps + 9 → failsWith (exec i s) 3 7 s.regs.inLen)
      ∧ (ps + 9 ≤ s.regs.inLen.toNat →
        (entries = [] → failsWith (exec i s) 3 8 at')
          ∧ (entries ≠ [] → u ≠ entries.length → failsWith (exec i s) 3 9 at')
          ∧ (entries ≠ [] → u = entries.length → t = 0 → failsWith (exec i s) 3 10 at')
          ∧ (entries ≠ [] → u = entries.length → t ≠ 0 → ¬ clashFree entries → failsWith (exec i s) 3 11 at')
          ∧ (entries ≠ [] → u = entries.length → clashFree entries → s.cap < t → failsWith (exec i s) 4 3 0))

/-! ### DECODE_PAYLOAD -/

/-- R240 to R245: DECODE_PAYLOAD of the packed codes of TOTAL bound symbols; nothing behind them is examined. -/
def Obligations.DecodeWritesTheSymbols : Prop :=
  ∀ (s : State) (symbols : List Byte), s.idle → s.status.hdrValid = true → s.build.wellFormed = true →
    s.regs.inLen.toNat ≤ 2 ^ 28 → symbols.length = s.regs.total.toNat → s.regs.total.toNat ≤ s.cap →
    s.prefixFree →
    (∀ b ∈ symbols, s.bound b.toNat ∧ s.codeLenAt b.toNat ≤ s.regs.maxLen.toNat) →
    s.regs.payloadOfs.toNat ≤ s.regs.inLen.toNat → s.payloadOf symbols <+: s.payloadBitList →
    ∃ t, exec .decodePayload s = .next t ∧ t.completed ∧ t.outHolds symbols
      ∧ t.regs = { s.regs with
          cmdOp := 8, errSub := 0, errPos := 0, outLen := s.regs.total
          payloadBits := BitVec.ofNat 32 (s.payloadOf symbols).length }
      ∧ t.status.flags = s.status.flags ∧ t.tables = s.tables ∧ s.sameInput t
      ∧ ∀ a, symbols.length ≤ a → t.outByte a = s.outByte a

/-- R242, R243, R267: the payload bits are the codes of fewer than TOTAL symbols and a rest that no code is a prefix of. A
rest of at most MAXLEN bits is PAYLOAD_EXHAUSTED at IN_LEN; a longer one is NO_MATCH at the byte of its bit MAXLEN. Both
end DECODE_PAYLOAD, and DECOMPRESS when its first stage leaves that state. -/
def Obligations.DecodeErrors : Prop :=
  ∀ (s : State) (symbols : List Byte) (rest : List Bool), s.idle → s.status.hdrValid = true →
    s.build.wellFormed = true → s.regs.inLen.toNat ≤ 2 ^ 28 → symbols.length < s.regs.total.toNat →
    s.regs.total.toNat ≤ s.cap → s.prefixFree →
    (∀ b ∈ symbols, s.bound b.toNat ∧ s.codeLenAt b.toNat ≤ s.regs.maxLen.toNat) →
    s.regs.payloadOfs.toNat ≤ s.regs.inLen.toNat → s.payloadBitList = s.payloadOf symbols ++ rest →
    (∀ i < s.limit, s.codeLenAt i ≠ 0 → ¬ s.codeOf i <+: rest) →
    let bothFail (sub : BitVec 4) (pos : Word) : Prop :=
      failsWith (exec .decodePayload s) 3 sub pos
        ∧ ∀ s₀ : State, s₀.idle → exec .parseHeader s₀ = .next s → s.status.done = true →
          failsWith (exec .decompress s₀) 3 sub pos
    (rest.length ≤ s.regs.maxLen.toNat → bothFail 12 s.regs.inLen)
      ∧ (s.regs.maxLen.toNat < rest.length →
          bothFail 13 (BitVec.ofNat 32 (s.regs.payloadOfs.toNat
            + ((s.payloadOf symbols).length + s.regs.maxLen.toNat) / 8)))

/-! ### COMPRESS and DECOMPRESS -/

/-- R266: COMPRESS gives the same final state as COUNT, BUILD_TREE, BUILD_TABLE and SERIALIZE issued one after another,
but for CMD, which shows its own opcode, and the registers the spec leaves unspecified between commands. -/
def Obligations.CompressIsItsFourStages : Prop :=
  ∀ s a b c d : State, s.idle →
    exec .count s = .next a → a.status.done = true → exec .buildTree a = .next b → b.status.done = true →
    exec .buildTable b = .next c → c.status.done = true → exec .serialize c = .next d → d.status.done = true →
    ∃ t, exec .compress s = .next t ∧ t.regs.cmdOp = 1
      ∧ { t with regs := { t.regs with cmdOp := d.regs.cmdOp }, dp := d.dp, freeIdx := d.freeIdx } = d

/-- R267: DECOMPRESS is PARSE_HEADER followed by DECODE_PAYLOAD, but for CMD and the registers the spec leaves
unspecified between commands. -/
def Obligations.DecompressIsItsTwoStages : Prop :=
  ∀ s a b : State, s.idle →
    exec .parseHeader s = .next a → a.status.done = true →
    exec .decodePayload a = .next b → b.status.done = true →
    ∃ t, exec .decompress s = .next t ∧ t.regs.cmdOp = 2
      ∧ { t with regs := { t.regs with cmdOp := b.regs.cmdOp }, dp := b.dp, freeIdx := b.freeIdx } = b

/-- R266: COMPRESS of an input over the alphabet whose container fits: U distinct symbols have codes of at most U bits, so
9 + U·(2 + U) + ⌈IN_LEN·U/8⌉ bytes are enough. -/
def Obligations.CompressProducesAContainer : Prop :=
  ∀ s : State, s.idle → s.build.wellFormed = true → s.lenOk → (∀ b ∈ s.input, Params.symbol s.build b) →
    let u := s.input.dedup.length
    9 + u * (2 + u) + (s.regs.inLen.toNat * u + 7) / 8 ≤ s.cap →
    ∃ t, exec .compress s = .next t ∧ t.completed ∧ t.regs.cmdOp = 1
      ∧ t.status.flags = (true, true, true, false) ∧ t.counted ∧ t.prefixFree
      ∧ (∀ b ∈ s.input, t.bound b.toNat) ∧ t.regs.unique.toNat = u ∧ t.regs.payloadOfs = 0
      ∧ t.regs.payloadBits.toNat = (t.payloadOf s.input).length
      ∧ (let container := headerBytes t.entries u s.regs.inLen.toNat ++ packedBytes (t.payloadOf s.input)
        t.regs.outLen.toNat = container.length ∧ t.outHolds container
          ∧ ∀ a, container.length ≤ a → t.outByte a = s.outByte a)
      ∧ s.sameInput t

/-- R267: DECOMPRESS of a container: a legal header, then the packed codes of the symbols `picks` chooses among its
entries. -/
def Obligations.DecompressDecodesAContainer : Prop :=
  ∀ (s : State) (entries picks : List (Byte × List Bool)), s.idle → s.build.wellFormed = true → s.lenOk →
    Params.legalEntries s.build entries → (∀ e ∈ picks, e ∈ entries) → 1 ≤ picks.length →
    picks.length ≤ s.cap →
    s.holds 0 (headerBytes entries entries.length picks.length ++ packedBytes (picks.flatMap Prod.snd)) →
    ∃ t, exec .decompress s = .next t ∧ t.completed ∧ t.regs.cmdOp = 2
      ∧ t.status.flags = (false, false, true, true) ∧ t.tableIs entries
      ∧ t.outHolds (picks.map Prod.fst) ∧ t.regs.outLen.toNat = picks.length
      ∧ t.regs.unique.toNat = entries.length ∧ t.regs.total.toNat = picks.length
      ∧ t.regs.payloadBits.toNat = (picks.flatMap Prod.snd).length
      ∧ (∀ a, picks.length ≤ a → t.outByte a = s.outByte a) ∧ s.sameInput t

/-- R199: the round trip. What COMPRESS left in OUT_MEM, copied into the IN_MEM of a block of the same build, is turned
by DECOMPRESS into the original input, with the same table and counts. -/
def Obligations.DecompressInvertsCompress : Prop :=
  ∀ s t v : State, s.idle → s.build.wellFormed = true → exec .compress s = .next t → t.status.done = true →
    v.idle → v.build = s.build → v.lenOk → v.regs.inLen = t.regs.outLen →
    v.input = (List.range t.regs.outLen.toNat).map t.outByte → s.regs.inLen.toNat ≤ v.cap →
    ∃ w, exec .decompress v = .next w ∧ w.completed ∧ w.outHolds s.input
      ∧ w.regs.outLen = s.regs.inLen ∧ w.regs.unique = t.regs.unique ∧ w.regs.total = t.regs.total
      ∧ w.regs.payloadBits = t.regs.payloadBits ∧ w.tables.order = t.tables.order
      ∧ ∀ i < s.limit, w.codeOf i = t.codeOf i

/-- R315: with OUT_CAP = 0, as reset leaves it, every command that writes OUT_MEM or checks TOTAL against the capacity ends
in an error. TOTAL = 0 with a parsed header, where DECODE_PAYLOAD has nothing to write, is a state that PARSE_HEADER
never leaves (R215). -/
def Obligations.ZeroCapacityCompletesNothing : Prop :=
  ∀ (s : State) (i : Instr), s.idle → s.regs.outCap = 0 →
    i = .serialize ∨ i = .compress ∨ i = .parseHeader ∨ i = .decodePayload ∨ i = .decompress →
    (i = .decodePayload → s.status.hdrValid = true → s.regs.total ≠ 0) →
    ∃ t, exec i s = .next t ∧ t.status.done = false ∧ t.status.err = true

/-! ### The host port -/

/-- R20 to R23, R28 to R39, R62, R69 to R71: what a read returns at each register's offset and at each byte of the two
buffers. The constants, CMD, IN_LEN, OUT_CAP, INT_EN and the bytes of IN_MEM read the same BUSY or not; the result
registers and the bytes of OUT_MEM are read while BUSY = 0. -/
def Obligations.RegistersReadAtTheirOffsets : Prop :=
  ∀ s : State,
    s.readValue 4 0x00 = 0x48554631 ∧ s.readValue 4 0x04 = BitVec.ofNat 32 s.build.limit
      ∧ s.readValue 4 0x3C = BitVec.ofNat 32 s.build.inMax ∧ s.readValue 4 0x40 = BitVec.ofNat 32 s.build.outMax
      ∧ (s.readValue 4 0x08).toNat = s.regs.cmdOp.toNat ∧ s.readValue 4 0x18 = s.regs.inLen
      ∧ s.readValue 4 0x1C = s.regs.outCap ∧ (s.readValue 4 0x38).toNat = s.regs.intEn.toNat
      ∧ (s.build.wellFormed = true → ∀ a < s.build.inMax,
        (s.readValue 1 (BitVec.ofNat 32 (0x10000000 + a))).toNat = (s.inByte a).toNat)
      ∧ (s.idle →
        s.readValue 4 0x10 = s.regs.errPos ∧ (s.readValue 4 0x14).toNat = s.regs.errSub.toNat
          ∧ s.readValue 4 0x20 = s.regs.outLen ∧ s.readValue 4 0x24 = s.regs.unique
          ∧ s.readValue 4 0x28 = s.regs.total ∧ s.readValue 4 0x2C = s.regs.payloadOfs
          ∧ s.readValue 4 0x30 = s.regs.payloadBits ∧ (s.readValue 4 0x34).toNat = s.regs.maxLen.toNat
          ∧ (s.build.wellFormed = true → ∀ a < s.build.outMax,
            (s.readValue 1 (BitVec.ofNat 32 (0x20000000 + a))).toNat = (s.outByte a).toNat))

/-- R24: the STATUS layout, read while BUSY = 0. -/
def Obligations.IdleStatusLayout : Prop :=
  ∀ s : State, s.idle →
    let v := s.readValue 4 0x0C
    v.getLsbD 0 = false ∧ v.getLsbD 1 = s.status.done ∧ v.getLsbD 2 = s.status.err ∧ v.getLsbD 3 = false
      ∧ v.extractLsb' 4 4 = s.status.errCode ∧ v.extractLsb' 8 4 = 0 ∧ v.extractLsb' 12 4 = 0
      ∧ v.getLsbD 16 = s.status.freqValid ∧ v.getLsbD 17 = s.status.treeValid
      ∧ v.getLsbD 18 = s.status.tableValid ∧ v.getLsbD 19 = s.status.hdrValid ∧ v.extractLsb' 20 12 = 0

/-- R69, R26: STATUS read while BUSY = 1: BUSY = 1, DONE = ERR = 0, ERRCODE = 0, reserved bits 0, and a phase of the
running command. -/
def Obligations.BusyStatusRead : Prop :=
  ∀ s : State, s.status.busy = true → (bodyOf s.curOp).isSome = true →
    let v := s.readValue 4 0x0C
    v.getLsbD 0 = true ∧ v.getLsbD 1 = false ∧ v.getLsbD 2 = false ∧ v.getLsbD 3 = false
      ∧ v.extractLsb' 4 4 = 0 ∧ v.extractLsb' 12 4 = 0 ∧ v.extractLsb' 20 12 = 0
      ∧ ∃ p ∈ phasesOf s.curOp, v.extractLsb' 8 4 = p.code

/-- R25, R31, R38: host writes to STATUS (write one to clear: bit [1] clears DONE, bit [2] clears ERR), OUT_CAP and
INT_EN change nothing else. -/
def Obligations.RegisterWrites : Prop :=
  ∀ (s : State) (v : Word), s.idle →
    hostWrite 4 0x0C v s = .next { s with
      status := { s.status with
        done := if v.getLsbD 1 then false else s.status.done
        err := if v.getLsbD 2 then false else s.status.err } }
    ∧ hostWrite 4 0x1C v s = .next { s with regs := { s.regs with outCap := v } }
    ∧ hostWrite 4 0x38 v s = .next { s with regs := { s.regs with intEn := v.getLsbD 0 } }

/-- R67: a write to IN_MEM or IN_LEN stores, clears the four valid flags and changes nothing else. That the byte stored is
the low 8 bits of the 32 bits of data a host event carries is the model's choice (DESIGN CHOICE, log entry 10). -/
def Obligations.InputWritesClearTheValidFlags : Prop :=
  ∀ (s : State) (v : Word), s.idle → s.build.wellFormed = true →
    hostWrite 4 0x18 v s = .next { s with
      regs := { s.regs with inLen := v }
      status := { s.status with
        freqValid := false, treeValid := false, tableValid := false, hdrValid := false } }
    ∧ ∀ a < s.build.inMax, ∃ t, hostWrite 1 (BitVec.ofNat 32 (0x10000000 + a)) v s = .next t
      ∧ t = { s with
          mem := t.mem
          status := { s.status with
            freqValid := false, treeValid := false, tableValid := false, hdrValid := false } }
      ∧ t.inByte a = v.setWidth 8 ∧ (∀ a' < 2 ^ 28, a' ≠ a → t.inByte a' = s.inByte a')
      ∧ ∀ a' < 2 ^ 28, t.outByte a' = s.outByte a'

/-- R40, R63, R64, R65, R68: a wrong width or alignment, a reserved place and OUT_MEM: the write is ignored; but for
OUT_MEM's bytes the read returns 0. A read-only register (R21, R22, R28, R29, R32 to R37, R39) or window (R55 to R58)
ignores the write. No access stops the block or sets a status bit, CMD writes apart. -/
def Obligations.OtherAccessesAreIgnored : Prop :=
  ∀ (s : State) (size : Nat) (addr v : Word), s.build.wellFormed = true →
    let a := addr.toNat
    let wrong := (a < 0x6000 ∧ (size ≠ 4 ∨ a % 4 ≠ 0)) ∨ (0x6000 ≤ a ∧ size ≠ 1)
    let reserved := (0x44 ≤ a ∧ a < 0x1000) ∨ (0x1400 ≤ a ∧ a < 0x2000) ∨ (0x2400 ≤ a ∧ a < 0x3000)
      ∨ (0x3400 ≤ a ∧ a < 0x4000) ∨ (0x6000 ≤ a ∧ a < 0x10000000)
      ∨ (0x10000000 + s.build.inMax ≤ a ∧ a < 0x20000000) ∨ 0x20000000 + s.build.outMax ≤ a
    let readOnly := a ∈ [0x00, 0x04, 0x10, 0x14, 0x20, 0x24, 0x28, 0x2C, 0x30, 0x34, 0x3C, 0x40]
      ∨ (0x1000 ≤ a ∧ a < 0x1400) ∨ (0x2000 ≤ a ∧ a < 0x2400) ∨ (0x3000 ≤ a ∧ a < 0x3400)
      ∨ (0x4000 ≤ a ∧ a < 0x6000)
    (wrong ∨ reserved → hostWrite size addr v s = .next s ∧ s.readValue size addr = 0)
      ∧ (readOnly ∨ 0x20000000 ≤ a → hostWrite size addr v s = .next s)
      ∧ (¬ (size = 4 ∧ addr = 0x08) → ∃ t, hostWrite size addr v s = .next t
        ∧ t.status.busy = s.status.busy ∧ t.status.errCode = s.status.errCode
        ∧ (t.status.done = true → s.status.done = true) ∧ (t.status.err = true → s.status.err = true)
        ∧ (t.status.flags = s.status.flags ∨ t.status.flags = (false, false, false, false)))
      ∧ ∃ t, hostEvent (.read size addr) s = .next t ∧ t.status = s.status

/-- R69, R74: a read changes nothing but the host's own record of it and, while BUSY, the model's epoch of free values,
both the model's own fields (DESIGN CHOICE, log entries 8 and 9). -/
def Obligations.ReadsHaveNoSideEffect : Prop :=
  ∀ (s : State) (size : Nat) (addr : Word), ∃ t, hostEvent (.read size addr) s = .next t
    ∧ t = { s with freeIdx := t.freeIdx, env := { s.env with readLog := s.readValue size addr :: s.env.readLog } }
    ∧ (s.idle → t.freeIdx = s.freeIdx) ∧ (s.status.busy = true → t.freeIdx = s.freeIdx + 1)

/-- R55 to R58: the four windows, read while BUSY = 0. In CODE_BITS_WIN the first code bit stands in bit 31 of word
0. -/
def Obligations.TableWindows : Prop :=
  ∀ (s : State) (k : Nat), s.idle → k < 256 →
    (s.readValue 4 (BitVec.ofNat 32 (0x1000 + 4 * k))).toNat
        = (if k < s.limit ∧ s.status.freqValid = true then s.freqAt k else 0)
      ∧ (s.readValue 4 (BitVec.ofNat 32 (0x2000 + 4 * k))).toNat
        = (if k < s.limit ∧ s.status.tableValid = true then s.codeLenAt k else 0)
      ∧ (s.readValue 4 (BitVec.ofNat 32 (0x3000 + 4 * k))).toNat
        = (if s.status.tableValid = true then ((s.tables.order.map (·.toNat)).getD k 0) else 0)
      ∧ ∀ w < 8, ∀ j < 32,
        (s.readValue 4 (BitVec.ofNat 32 (0x4000 + 32 * k + 4 * w))).getLsbD (31 - j)
          = (decide (k < s.limit) && s.status.tableValid && (s.codeOf k).getD (32 * w + j) false)

/-- R41: irq = INT_EN.IE AND (DONE OR ERR). -/
def Obligations.InterruptFollowsDoneAndErr : Prop :=
  ∀ s : State, s.irq = true ↔ s.regs.intEn = true ∧ (s.status.done = true ∨ s.status.err = true)

/-! ### Reset and invariants -/

/-- R54, R313: the reset state of every build, at the values the spec gives; `State.reset` is that of one build (DESIGN
CHOICE, log entry 1). -/
def Obligations.ResetState : Prop :=
  State.reset = State.resetOf Config.defaultParams
    ∧ ∀ p : Params, let s := State.resetOf p
      (∀ a ∈ [0x08, 0x0C, 0x10, 0x14, 0x18, 0x1C, 0x20, 0x24, 0x28, 0x2C, 0x30, 0x34, 0x38],
        s.readValue 4 (BitVec.ofNat 32 a) = 0)
      ∧ s.readValue 4 0x00 = 0x48554631 ∧ s.readValue 4 0x04 = BitVec.ofNat 32 p.limit
      ∧ s.readValue 4 0x3C = BitVec.ofNat 32 p.inMax ∧ s.readValue 4 0x40 = BitVec.ofNat 32 p.outMax
      ∧ s.irq = false ∧ s.phase = .idle ∧ s.curOp = 0 ∧ s.tables.heap.length = 0 ∧ s.tables.nodes.length = 0
      ∧ s.tables.order.length = 0

/-- R51, R30, R31, R38: IN_MEM is written only by the host: no command but SOFT_RESET changes anything of the input side,
and SOFT_RESET leaves IN_MEM alone. -/
def Obligations.CommandsNeverWriteTheInput : Prop :=
  ∀ (i : Instr) (s t : State), exec i s = .next t →
    (∀ a < 2 ^ 28, t.inByte a = s.inByte a) ∧ t.build = s.build ∧ (i ≠ .softReset → s.sameInput t)

/-- R25: "At most one of them is 1 at any time": every step keeps it, SOFT_RESET and completion included. -/
def Obligations.StepKeepsBusyDoneErrExclusive : Prop :=
  ∀ s t : State, s.status.exclusive → step s = .next t → t.status.exclusive

/-- R268, R264: every step keeps the relations between the valid flags, together with what is true of a running
command. -/
def Obligations.StepKeepsValidFlagsCoherent : Prop :=
  ∀ s t : State, s.status.coherent → s.runningOk → step s = .next t → t.status.coherent ∧ t.runningOk

/-- Every step keeps memory in its canonical form (the model's own form, log entry 3), and the build parameters. -/
def Obligations.StepKeepsMemoryCanonical : Prop :=
  ∀ s t : State, s.build.wellFormed = true → s.memOk → step s = .next t → t.memOk ∧ t.build = s.build

/-- The reset state of every legal build satisfies the invariant, and its valid flags stand for nothing. -/
def Obligations.ResetSatisfiesInv : Prop :=
  State.reset.Inv ∧ State.reset.Current
    ∧ ∀ p : Params, p.wellFormed = true → (State.resetOf p).Inv ∧ (State.resetOf p).Current

/-- R25, R42 to R47, R62, R114, R264, R268: every step keeps the invariant. Of the tree it keeps the shape that a walk needs;
what the tree and the code table hold is StepKeepsResultsCurrent. -/
def Obligations.StepKeepsInv : Prop := ∀ s t : State, s.Inv → step s = .next t → t.Inv

/-- R65, R133, R136: in a state of the invariant no step stops: no host access, no command and no completion faults. -/
def Obligations.StepNeverStops : Prop := ∀ s : State, s.Inv → ∃ t, step s = .next t

/-- R24, R27, R264, R268: every step keeps what the valid flags say. While TREE_VALID = 1, NODE is the Huffman tree of FREQ
(R152, R154); while TABLE_VALID = 1, the code table is prefix-free with ORDER and MAXLEN its own (R173 to R175, R213,
R215), with FREQ_VALID = 1 the table of the input's counts (R174, R198), with HDR_VALID = 1 that of the header in IN_MEM
(R216). -/
def Obligations.StepKeepsResultsCurrent : Prop :=
  ∀ s t : State, s.Inv → s.Current → step s = .next t → t.Current
end

