-- ==== Sys2Proof/Laws/State.lean ====
section
/-! SUPPORT. What each update of the state leaves and writes, one lemma per field, true by unfolding the update
alone. A proof cites these (they are simp lemmas) and never unfolds a record update. -/

namespace Sys2Proof.Machine

variable (s : State)

/-! ### State.setFreq -/

@[simp] theorem State.setFreq_build (i v : Nat) : (s.setFreq i v).build = s.build := rfl
@[simp] theorem State.setFreq_regs (i v : Nat) : (s.setFreq i v).regs = s.regs := rfl
@[simp] theorem State.setFreq_status (i v : Nat) : (s.setFreq i v).status = s.status := rfl
@[simp] theorem State.setFreq_phase (i v : Nat) : (s.setFreq i v).phase = s.phase := rfl
@[simp] theorem State.setFreq_curOp (i v : Nat) : (s.setFreq i v).curOp = s.curOp := rfl
@[simp] theorem State.setFreq_mem (i v : Nat) : (s.setFreq i v).mem = s.mem := rfl
@[simp] theorem State.setFreq_tables_freq (i v : Nat) :
    (s.setFreq i v).tables.freq = s.tables.freq.set i (BitVec.ofNat 32 v) := rfl
@[simp] theorem State.setFreq_tables_nodes (i v : Nat) : (s.setFreq i v).tables.nodes = s.tables.nodes := rfl
@[simp] theorem State.setFreq_tables_root (i v : Nat) : (s.setFreq i v).tables.root = s.tables.root := rfl
@[simp] theorem State.setFreq_tables_heap (i v : Nat) : (s.setFreq i v).tables.heap = s.tables.heap := rfl
@[simp] theorem State.setFreq_tables_codeLen (i v : Nat) : (s.setFreq i v).tables.codeLen = s.tables.codeLen := rfl
@[simp] theorem State.setFreq_tables_codeBits (i v : Nat) : (s.setFreq i v).tables.codeBits = s.tables.codeBits := rfl
@[simp] theorem State.setFreq_tables_order (i v : Nat) : (s.setFreq i v).tables.order = s.tables.order := rfl
@[simp] theorem State.setFreq_dp (i v : Nat) : (s.setFreq i v).dp = s.dp := rfl
@[simp] theorem State.setFreq_outStale (i v : Nat) : (s.setFreq i v).outStale = s.outStale := rfl
@[simp] theorem State.setFreq_freeIdx (i v : Nat) : (s.setFreq i v).freeIdx = s.freeIdx := rfl
@[simp] theorem State.setFreq_env (i v : Nat) : (s.setFreq i v).env = s.env := rfl
@[simp] theorem State.setFreq_limit (i v : Nat) : (s.setFreq i v).limit = s.limit := rfl
@[simp] theorem State.setFreq_cap (i v : Nat) : (s.setFreq i v).cap = s.cap := rfl
@[simp] theorem State.setFreq_inByte (i v : Nat) (o : Nat) : (s.setFreq i v).inByte o = s.inByte o := rfl
@[simp] theorem State.setFreq_outByte (i v : Nat) (o : Nat) : (s.setFreq i v).outByte o = s.outByte o := rfl
@[simp] theorem State.setFreq_nodeAt (i v : Nat) (k : Nat) : (s.setFreq i v).nodeAt k = s.nodeAt k := rfl
@[simp] theorem State.setFreq_codeLenAt (i v : Nat) (k : Nat) : (s.setFreq i v).codeLenAt k = s.codeLenAt k := rfl
@[simp] theorem State.setFreq_codeOf (i v : Nat) (k : Nat) : (s.setFreq i v).codeOf k = s.codeOf k := rfl

/-! ### State.enterPhase -/

@[simp] theorem State.enterPhase_build (p : Phase) : (s.enterPhase p).build = s.build := rfl
@[simp] theorem State.enterPhase_regs (p : Phase) : (s.enterPhase p).regs = s.regs := rfl
@[simp] theorem State.enterPhase_status (p : Phase) : (s.enterPhase p).status = s.status := rfl
@[simp] theorem State.enterPhase_phase (p : Phase) : (s.enterPhase p).phase = p := rfl
@[simp] theorem State.enterPhase_curOp (p : Phase) : (s.enterPhase p).curOp = s.curOp := rfl
@[simp] theorem State.enterPhase_mem (p : Phase) : (s.enterPhase p).mem = s.mem := rfl
@[simp] theorem State.enterPhase_tables (p : Phase) : (s.enterPhase p).tables = s.tables := rfl
@[simp] theorem State.enterPhase_dp (p : Phase) : (s.enterPhase p).dp = s.dp := rfl
@[simp] theorem State.enterPhase_outStale (p : Phase) : (s.enterPhase p).outStale = s.outStale := rfl
@[simp] theorem State.enterPhase_freeIdx (p : Phase) : (s.enterPhase p).freeIdx = s.freeIdx := rfl
@[simp] theorem State.enterPhase_env (p : Phase) : (s.enterPhase p).env = s.env := rfl
@[simp] theorem State.enterPhase_limit (p : Phase) : (s.enterPhase p).limit = s.limit := rfl
@[simp] theorem State.enterPhase_cap (p : Phase) : (s.enterPhase p).cap = s.cap := rfl
@[simp] theorem State.enterPhase_inByte (p : Phase) (o : Nat) : (s.enterPhase p).inByte o = s.inByte o := rfl
@[simp] theorem State.enterPhase_outByte (p : Phase) (o : Nat) : (s.enterPhase p).outByte o = s.outByte o := rfl
@[simp] theorem State.enterPhase_freqAt (p : Phase) (k : Nat) : (s.enterPhase p).freqAt k = s.freqAt k := rfl
@[simp] theorem State.enterPhase_nodeAt (p : Phase) (k : Nat) : (s.enterPhase p).nodeAt k = s.nodeAt k := rfl
@[simp] theorem State.enterPhase_codeLenAt (p : Phase) (k : Nat) : (s.enterPhase p).codeLenAt k = s.codeLenAt k := rfl
@[simp] theorem State.enterPhase_codeOf (p : Phase) (k : Nat) : (s.enterPhase p).codeOf k = s.codeOf k := rfl

/-! ### State.bindCode -/

@[simp] theorem State.bindCode_build (sym : Byte) (c : List Bool) : (s.bindCode sym c).build = s.build := rfl
@[simp] theorem State.bindCode_regs (sym : Byte) (c : List Bool) : (s.bindCode sym c).regs = s.regs := rfl
@[simp] theorem State.bindCode_status (sym : Byte) (c : List Bool) : (s.bindCode sym c).status = s.status := rfl
@[simp] theorem State.bindCode_phase (sym : Byte) (c : List Bool) : (s.bindCode sym c).phase = s.phase := rfl
@[simp] theorem State.bindCode_curOp (sym : Byte) (c : List Bool) : (s.bindCode sym c).curOp = s.curOp := rfl
@[simp] theorem State.bindCode_mem (sym : Byte) (c : List Bool) : (s.bindCode sym c).mem = s.mem := rfl
@[simp] theorem State.bindCode_tables_freq (sym : Byte) (c : List Bool) :
    (s.bindCode sym c).tables.freq = s.tables.freq := rfl
@[simp] theorem State.bindCode_tables_nodes (sym : Byte) (c : List Bool) :
    (s.bindCode sym c).tables.nodes = s.tables.nodes := rfl
@[simp] theorem State.bindCode_tables_root (sym : Byte) (c : List Bool) :
    (s.bindCode sym c).tables.root = s.tables.root := rfl
@[simp] theorem State.bindCode_tables_heap (sym : Byte) (c : List Bool) :
    (s.bindCode sym c).tables.heap = s.tables.heap := rfl
@[simp] theorem State.bindCode_tables_codeLen (sym : Byte) (c : List Bool) :
    (s.bindCode sym c).tables.codeLen = s.tables.codeLen.set sym.toNat (BitVec.ofNat 8 c.length) := rfl
@[simp] theorem State.bindCode_tables_codeBits (sym : Byte) (c : List Bool) :
    (s.bindCode sym c).tables.codeBits = s.tables.codeBits.set sym.toNat (packCode c) := rfl
@[simp] theorem State.bindCode_tables_order (sym : Byte) (c : List Bool) :
    (s.bindCode sym c).tables.order = s.tables.order ++ [sym] := rfl
@[simp] theorem State.bindCode_dp (sym : Byte) (c : List Bool) : (s.bindCode sym c).dp = s.dp := rfl
@[simp] theorem State.bindCode_outStale (sym : Byte) (c : List Bool) : (s.bindCode sym c).outStale = s.outStale := rfl
@[simp] theorem State.bindCode_freeIdx (sym : Byte) (c : List Bool) : (s.bindCode sym c).freeIdx = s.freeIdx := rfl
@[simp] theorem State.bindCode_env (sym : Byte) (c : List Bool) : (s.bindCode sym c).env = s.env := rfl
@[simp] theorem State.bindCode_limit (sym : Byte) (c : List Bool) : (s.bindCode sym c).limit = s.limit := rfl
@[simp] theorem State.bindCode_cap (sym : Byte) (c : List Bool) : (s.bindCode sym c).cap = s.cap := rfl
@[simp] theorem State.bindCode_inByte (sym : Byte) (c : List Bool) (o : Nat) :
    (s.bindCode sym c).inByte o = s.inByte o := rfl
@[simp] theorem State.bindCode_outByte (sym : Byte) (c : List Bool) (o : Nat) :
    (s.bindCode sym c).outByte o = s.outByte o := rfl
@[simp] theorem State.bindCode_freqAt (sym : Byte) (c : List Bool) (k : Nat) :
    (s.bindCode sym c).freqAt k = s.freqAt k := rfl
@[simp] theorem State.bindCode_nodeAt (sym : Byte) (c : List Bool) (k : Nat) :
    (s.bindCode sym c).nodeAt k = s.nodeAt k := rfl

/-! ### State.clearCodes -/

@[simp] theorem State.clearCodes_build : s.clearCodes.build = s.build := rfl
@[simp] theorem State.clearCodes_regs : s.clearCodes.regs = s.regs := rfl
@[simp] theorem State.clearCodes_status : s.clearCodes.status = s.status := rfl
@[simp] theorem State.clearCodes_phase : s.clearCodes.phase = s.phase := rfl
@[simp] theorem State.clearCodes_curOp : s.clearCodes.curOp = s.curOp := rfl
@[simp] theorem State.clearCodes_mem : s.clearCodes.mem = s.mem := rfl
@[simp] theorem State.clearCodes_tables_freq : s.clearCodes.tables.freq = s.tables.freq := rfl
@[simp] theorem State.clearCodes_tables_nodes : s.clearCodes.tables.nodes = s.tables.nodes := rfl
@[simp] theorem State.clearCodes_tables_root : s.clearCodes.tables.root = s.tables.root := rfl
@[simp] theorem State.clearCodes_tables_heap : s.clearCodes.tables.heap = s.tables.heap := rfl
@[simp] theorem State.clearCodes_tables_codeLen : s.clearCodes.tables.codeLen = List.replicate s.limit 0 := rfl
@[simp] theorem State.clearCodes_tables_codeBits : s.clearCodes.tables.codeBits = List.replicate s.limit 0 := rfl
@[simp] theorem State.clearCodes_tables_order : s.clearCodes.tables.order = [] := rfl
@[simp] theorem State.clearCodes_dp : s.clearCodes.dp = s.dp := rfl
@[simp] theorem State.clearCodes_outStale : s.clearCodes.outStale = s.outStale := rfl
@[simp] theorem State.clearCodes_freeIdx : s.clearCodes.freeIdx = s.freeIdx := rfl
@[simp] theorem State.clearCodes_env : s.clearCodes.env = s.env := rfl
@[simp] theorem State.clearCodes_limit : s.clearCodes.limit = s.limit := rfl
@[simp] theorem State.clearCodes_cap : s.clearCodes.cap = s.cap := rfl
@[simp] theorem State.clearCodes_inByte (o : Nat) : s.clearCodes.inByte o = s.inByte o := rfl
@[simp] theorem State.clearCodes_outByte (o : Nat) : s.clearCodes.outByte o = s.outByte o := rfl
@[simp] theorem State.clearCodes_freqAt (k : Nat) : s.clearCodes.freqAt k = s.freqAt k := rfl
@[simp] theorem State.clearCodes_nodeAt (k : Nat) : s.clearCodes.nodeAt k = s.nodeAt k := rfl

/-! ### State.clearFreq -/

@[simp] theorem State.clearFreq_build : s.clearFreq.build = s.build := rfl
@[simp] theorem State.clearFreq_regs : s.clearFreq.regs = s.regs := rfl
@[simp] theorem State.clearFreq_status : s.clearFreq.status = s.status := rfl
@[simp] theorem State.clearFreq_phase : s.clearFreq.phase = s.phase := rfl
@[simp] theorem State.clearFreq_curOp : s.clearFreq.curOp = s.curOp := rfl
@[simp] theorem State.clearFreq_mem : s.clearFreq.mem = s.mem := rfl
@[simp] theorem State.clearFreq_tables_freq : s.clearFreq.tables.freq = List.replicate s.limit 0 := rfl
@[simp] theorem State.clearFreq_tables_nodes : s.clearFreq.tables.nodes = s.tables.nodes := rfl
@[simp] theorem State.clearFreq_tables_root : s.clearFreq.tables.root = s.tables.root := rfl
@[simp] theorem State.clearFreq_tables_heap : s.clearFreq.tables.heap = s.tables.heap := rfl
@[simp] theorem State.clearFreq_tables_codeLen : s.clearFreq.tables.codeLen = s.tables.codeLen := rfl
@[simp] theorem State.clearFreq_tables_codeBits : s.clearFreq.tables.codeBits = s.tables.codeBits := rfl
@[simp] theorem State.clearFreq_tables_order : s.clearFreq.tables.order = s.tables.order := rfl
@[simp] theorem State.clearFreq_dp : s.clearFreq.dp = s.dp := rfl
@[simp] theorem State.clearFreq_outStale : s.clearFreq.outStale = s.outStale := rfl
@[simp] theorem State.clearFreq_freeIdx : s.clearFreq.freeIdx = s.freeIdx := rfl
@[simp] theorem State.clearFreq_env : s.clearFreq.env = s.env := rfl
@[simp] theorem State.clearFreq_limit : s.clearFreq.limit = s.limit := rfl
@[simp] theorem State.clearFreq_cap : s.clearFreq.cap = s.cap := rfl
@[simp] theorem State.clearFreq_inByte (o : Nat) : s.clearFreq.inByte o = s.inByte o := rfl
@[simp] theorem State.clearFreq_outByte (o : Nat) : s.clearFreq.outByte o = s.outByte o := rfl
@[simp] theorem State.clearFreq_nodeAt (k : Nat) : s.clearFreq.nodeAt k = s.nodeAt k := rfl
@[simp] theorem State.clearFreq_codeLenAt (k : Nat) : s.clearFreq.codeLenAt k = s.codeLenAt k := rfl
@[simp] theorem State.clearFreq_codeOf (k : Nat) : s.clearFreq.codeOf k = s.codeOf k := rfl

/-! ### State.addNode -/

@[simp] theorem State.addNode_build (n : Node) : (s.addNode n).build = s.build := rfl
@[simp] theorem State.addNode_regs (n : Node) : (s.addNode n).regs = s.regs := rfl
@[simp] theorem State.addNode_status (n : Node) : (s.addNode n).status = s.status := rfl
@[simp] theorem State.addNode_phase (n : Node) : (s.addNode n).phase = s.phase := rfl
@[simp] theorem State.addNode_curOp (n : Node) : (s.addNode n).curOp = s.curOp := rfl
@[simp] theorem State.addNode_mem (n : Node) : (s.addNode n).mem = s.mem := rfl
@[simp] theorem State.addNode_tables_freq (n : Node) : (s.addNode n).tables.freq = s.tables.freq := rfl
@[simp] theorem State.addNode_tables_nodes (n : Node) : (s.addNode n).tables.nodes = s.tables.nodes ++ [n] := rfl
@[simp] theorem State.addNode_tables_root (n : Node) : (s.addNode n).tables.root = s.tables.root := rfl
@[simp] theorem State.addNode_tables_codeLen (n : Node) : (s.addNode n).tables.codeLen = s.tables.codeLen := rfl
@[simp] theorem State.addNode_tables_codeBits (n : Node) : (s.addNode n).tables.codeBits = s.tables.codeBits := rfl
@[simp] theorem State.addNode_tables_order (n : Node) : (s.addNode n).tables.order = s.tables.order := rfl
@[simp] theorem State.addNode_dp (n : Node) : (s.addNode n).dp = s.dp := rfl
@[simp] theorem State.addNode_outStale (n : Node) : (s.addNode n).outStale = s.outStale := rfl
@[simp] theorem State.addNode_freeIdx (n : Node) : (s.addNode n).freeIdx = s.freeIdx := rfl
@[simp] theorem State.addNode_env (n : Node) : (s.addNode n).env = s.env := rfl
@[simp] theorem State.addNode_limit (n : Node) : (s.addNode n).limit = s.limit := rfl
@[simp] theorem State.addNode_cap (n : Node) : (s.addNode n).cap = s.cap := rfl
@[simp] theorem State.addNode_inByte (n : Node) (o : Nat) : (s.addNode n).inByte o = s.inByte o := rfl
@[simp] theorem State.addNode_outByte (n : Node) (o : Nat) : (s.addNode n).outByte o = s.outByte o := rfl
@[simp] theorem State.addNode_freqAt (n : Node) (k : Nat) : (s.addNode n).freqAt k = s.freqAt k := rfl
@[simp] theorem State.addNode_codeLenAt (n : Node) (k : Nat) : (s.addNode n).codeLenAt k = s.codeLenAt k := rfl
@[simp] theorem State.addNode_codeOf (n : Node) (k : Nat) : (s.addNode n).codeOf k = s.codeOf k := rfl

/-! ### State.takeRoot -/

@[simp] theorem State.takeRoot_build : s.takeRoot.build = s.build := rfl
@[simp] theorem State.takeRoot_regs : s.takeRoot.regs = s.regs := rfl
@[simp] theorem State.takeRoot_status : s.takeRoot.status = s.status := rfl
@[simp] theorem State.takeRoot_phase : s.takeRoot.phase = s.phase := rfl
@[simp] theorem State.takeRoot_curOp : s.takeRoot.curOp = s.curOp := rfl
@[simp] theorem State.takeRoot_mem : s.takeRoot.mem = s.mem := rfl
@[simp] theorem State.takeRoot_tables_freq : s.takeRoot.tables.freq = s.tables.freq := rfl
@[simp] theorem State.takeRoot_tables_nodes : s.takeRoot.tables.nodes = s.tables.nodes := rfl
@[simp] theorem State.takeRoot_tables_root :
    s.takeRoot.tables.root = s.tables.heap.headD (Config.freeBits (.heapEntry 0) 0 9) := rfl
@[simp] theorem State.takeRoot_tables_heap : s.takeRoot.tables.heap = s.tables.heap := rfl
@[simp] theorem State.takeRoot_tables_codeLen : s.takeRoot.tables.codeLen = s.tables.codeLen := rfl
@[simp] theorem State.takeRoot_tables_codeBits : s.takeRoot.tables.codeBits = s.tables.codeBits := rfl
@[simp] theorem State.takeRoot_tables_order : s.takeRoot.tables.order = s.tables.order := rfl
@[simp] theorem State.takeRoot_dp : s.takeRoot.dp = s.dp := rfl
@[simp] theorem State.takeRoot_outStale : s.takeRoot.outStale = s.outStale := rfl
@[simp] theorem State.takeRoot_freeIdx : s.takeRoot.freeIdx = s.freeIdx := rfl
@[simp] theorem State.takeRoot_env : s.takeRoot.env = s.env := rfl
@[simp] theorem State.takeRoot_limit : s.takeRoot.limit = s.limit := rfl
@[simp] theorem State.takeRoot_cap : s.takeRoot.cap = s.cap := rfl
@[simp] theorem State.takeRoot_inByte (o : Nat) : s.takeRoot.inByte o = s.inByte o := rfl
@[simp] theorem State.takeRoot_outByte (o : Nat) : s.takeRoot.outByte o = s.outByte o := rfl
@[simp] theorem State.takeRoot_freqAt (k : Nat) : s.takeRoot.freqAt k = s.freqAt k := rfl
@[simp] theorem State.takeRoot_nodeAt (k : Nat) : s.takeRoot.nodeAt k = s.nodeAt k := rfl
@[simp] theorem State.takeRoot_codeLenAt (k : Nat) : s.takeRoot.codeLenAt k = s.codeLenAt k := rfl
@[simp] theorem State.takeRoot_codeOf (k : Nat) : s.takeRoot.codeOf k = s.codeOf k := rfl

/-! ### State.pushCall -/

@[simp] theorem State.pushCall_build (n : BitVec 9) (d : BitVec 8) : (s.pushCall n d).build = s.build := rfl
@[simp] theorem State.pushCall_regs (n : BitVec 9) (d : BitVec 8) : (s.pushCall n d).regs = s.regs := rfl
@[simp] theorem State.pushCall_status (n : BitVec 9) (d : BitVec 8) : (s.pushCall n d).status = s.status := rfl
@[simp] theorem State.pushCall_phase (n : BitVec 9) (d : BitVec 8) : (s.pushCall n d).phase = s.phase := rfl
@[simp] theorem State.pushCall_curOp (n : BitVec 9) (d : BitVec 8) : (s.pushCall n d).curOp = s.curOp := rfl
@[simp] theorem State.pushCall_mem (n : BitVec 9) (d : BitVec 8) : (s.pushCall n d).mem = s.mem := rfl
@[simp] theorem State.pushCall_tables (n : BitVec 9) (d : BitVec 8) : (s.pushCall n d).tables = s.tables := rfl
@[simp] theorem State.pushCall_dp_tstack (n : BitVec 9) (d : BitVec 8) :
    (s.pushCall n d).dp.tstack = (n, d) :: s.dp.tstack := rfl
@[simp] theorem State.pushCall_dp_path (n : BitVec 9) (d : BitVec 8) : (s.pushCall n d).dp.path = s.dp.path := rfl
@[simp] theorem State.pushCall_dp_acc (n : BitVec 9) (d : BitVec 8) : (s.pushCall n d).dp.acc = s.dp.acc := rfl
@[simp] theorem State.pushCall_dp_accN (n : BitVec 9) (d : BitVec 8) : (s.pushCall n d).dp.accN = s.dp.accN := rfl
@[simp] theorem State.pushCall_dp_cand (n : BitVec 9) (d : BitVec 8) : (s.pushCall n d).dp.cand = s.dp.cand := rfl
@[simp] theorem State.pushCall_dp_candLen (n : BitVec 9) (d : BitVec 8) :
    (s.pushCall n d).dp.candLen = s.dp.candLen := rfl
@[simp] theorem State.pushCall_dp_decCount (n : BitVec 9) (d : BitVec 8) :
    (s.pushCall n d).dp.decCount = s.dp.decCount := rfl
@[simp] theorem State.pushCall_dp_rdPtr (n : BitVec 9) (d : BitVec 8) : (s.pushCall n d).dp.rdPtr = s.dp.rdPtr := rfl
@[simp] theorem State.pushCall_dp_wrPtr (n : BitVec 9) (d : BitVec 8) : (s.pushCall n d).dp.wrPtr = s.dp.wrPtr := rfl
@[simp] theorem State.pushCall_dp_q (n : BitVec 9) (d : BitVec 8) : (s.pushCall n d).dp.q = s.dp.q := rfl
@[simp] theorem State.pushCall_outStale (n : BitVec 9) (d : BitVec 8) : (s.pushCall n d).outStale = s.outStale := rfl
@[simp] theorem State.pushCall_freeIdx (n : BitVec 9) (d : BitVec 8) : (s.pushCall n d).freeIdx = s.freeIdx := rfl
@[simp] theorem State.pushCall_env (n : BitVec 9) (d : BitVec 8) : (s.pushCall n d).env = s.env := rfl
@[simp] theorem State.pushCall_limit (n : BitVec 9) (d : BitVec 8) : (s.pushCall n d).limit = s.limit := rfl
@[simp] theorem State.pushCall_cap (n : BitVec 9) (d : BitVec 8) : (s.pushCall n d).cap = s.cap := rfl
@[simp] theorem State.pushCall_inByte (n : BitVec 9) (d : BitVec 8) (o : Nat) :
    (s.pushCall n d).inByte o = s.inByte o := rfl
@[simp] theorem State.pushCall_outByte (n : BitVec 9) (d : BitVec 8) (o : Nat) :
    (s.pushCall n d).outByte o = s.outByte o := rfl
@[simp] theorem State.pushCall_freqAt (n : BitVec 9) (d : BitVec 8) (k : Nat) :
    (s.pushCall n d).freqAt k = s.freqAt k := rfl
@[simp] theorem State.pushCall_nodeAt (n : BitVec 9) (d : BitVec 8) (k : Nat) :
    (s.pushCall n d).nodeAt k = s.nodeAt k := rfl
@[simp] theorem State.pushCall_codeLenAt (n : BitVec 9) (d : BitVec 8) (k : Nat) :
    (s.pushCall n d).codeLenAt k = s.codeLenAt k := rfl
@[simp] theorem State.pushCall_codeOf (n : BitVec 9) (d : BitVec 8) (k : Nat) :
    (s.pushCall n d).codeOf k = s.codeOf k := rfl

/-! ### State.popCall -/

@[simp] theorem State.popCall_build : s.popCall.build = s.build := rfl
@[simp] theorem State.popCall_regs : s.popCall.regs = s.regs := rfl
@[simp] theorem State.popCall_status : s.popCall.status = s.status := rfl
@[simp] theorem State.popCall_phase : s.popCall.phase = s.phase := rfl
@[simp] theorem State.popCall_curOp : s.popCall.curOp = s.curOp := rfl
@[simp] theorem State.popCall_mem : s.popCall.mem = s.mem := rfl
@[simp] theorem State.popCall_tables : s.popCall.tables = s.tables := rfl
@[simp] theorem State.popCall_dp_tstack : s.popCall.dp.tstack = s.dp.tstack.tail := rfl
@[simp] theorem State.popCall_dp_path : s.popCall.dp.path = s.dp.path := rfl
@[simp] theorem State.popCall_dp_acc : s.popCall.dp.acc = s.dp.acc := rfl
@[simp] theorem State.popCall_dp_accN : s.popCall.dp.accN = s.dp.accN := rfl
@[simp] theorem State.popCall_dp_cand : s.popCall.dp.cand = s.dp.cand := rfl
@[simp] theorem State.popCall_dp_candLen : s.popCall.dp.candLen = s.dp.candLen := rfl
@[simp] theorem State.popCall_dp_decCount : s.popCall.dp.decCount = s.dp.decCount := rfl
@[simp] theorem State.popCall_dp_rdPtr : s.popCall.dp.rdPtr = s.dp.rdPtr := rfl
@[simp] theorem State.popCall_dp_wrPtr : s.popCall.dp.wrPtr = s.dp.wrPtr := rfl
@[simp] theorem State.popCall_dp_q : s.popCall.dp.q = s.dp.q := rfl
@[simp] theorem State.popCall_outStale : s.popCall.outStale = s.outStale := rfl
@[simp] theorem State.popCall_freeIdx : s.popCall.freeIdx = s.freeIdx := rfl
@[simp] theorem State.popCall_env : s.popCall.env = s.env := rfl
@[simp] theorem State.popCall_limit : s.popCall.limit = s.limit := rfl
@[simp] theorem State.popCall_cap : s.popCall.cap = s.cap := rfl
@[simp] theorem State.popCall_inByte (o : Nat) : s.popCall.inByte o = s.inByte o := rfl
@[simp] theorem State.popCall_outByte (o : Nat) : s.popCall.outByte o = s.outByte o := rfl
@[simp] theorem State.popCall_freqAt (k : Nat) : s.popCall.freqAt k = s.freqAt k := rfl
@[simp] theorem State.popCall_nodeAt (k : Nat) : s.popCall.nodeAt k = s.nodeAt k := rfl
@[simp] theorem State.popCall_codeLenAt (k : Nat) : s.popCall.codeLenAt k = s.codeLenAt k := rfl
@[simp] theorem State.popCall_codeOf (k : Nat) : s.popCall.codeOf k = s.codeOf k := rfl

/-! ### State.setPath -/

@[simp] theorem State.setPath_build (d : BitVec 8) (x : Bool) : (s.setPath d x).build = s.build := rfl
@[simp] theorem State.setPath_regs (d : BitVec 8) (x : Bool) : (s.setPath d x).regs = s.regs := rfl
@[simp] theorem State.setPath_status (d : BitVec 8) (x : Bool) : (s.setPath d x).status = s.status := rfl
@[simp] theorem State.setPath_phase (d : BitVec 8) (x : Bool) : (s.setPath d x).phase = s.phase := rfl
@[simp] theorem State.setPath_curOp (d : BitVec 8) (x : Bool) : (s.setPath d x).curOp = s.curOp := rfl
@[simp] theorem State.setPath_mem (d : BitVec 8) (x : Bool) : (s.setPath d x).mem = s.mem := rfl
@[simp] theorem State.setPath_tables (d : BitVec 8) (x : Bool) : (s.setPath d x).tables = s.tables := rfl
@[simp] theorem State.setPath_dp_tstack (d : BitVec 8) (x : Bool) : (s.setPath d x).dp.tstack = s.dp.tstack := rfl
@[simp] theorem State.setPath_dp_acc (d : BitVec 8) (x : Bool) : (s.setPath d x).dp.acc = s.dp.acc := rfl
@[simp] theorem State.setPath_dp_accN (d : BitVec 8) (x : Bool) : (s.setPath d x).dp.accN = s.dp.accN := rfl
@[simp] theorem State.setPath_dp_cand (d : BitVec 8) (x : Bool) : (s.setPath d x).dp.cand = s.dp.cand := rfl
@[simp] theorem State.setPath_dp_candLen (d : BitVec 8) (x : Bool) : (s.setPath d x).dp.candLen = s.dp.candLen := rfl
@[simp] theorem State.setPath_dp_decCount (d : BitVec 8) (x : Bool) :
    (s.setPath d x).dp.decCount = s.dp.decCount := rfl
@[simp] theorem State.setPath_dp_rdPtr (d : BitVec 8) (x : Bool) : (s.setPath d x).dp.rdPtr = s.dp.rdPtr := rfl
@[simp] theorem State.setPath_dp_wrPtr (d : BitVec 8) (x : Bool) : (s.setPath d x).dp.wrPtr = s.dp.wrPtr := rfl
@[simp] theorem State.setPath_dp_q (d : BitVec 8) (x : Bool) : (s.setPath d x).dp.q = s.dp.q := rfl
@[simp] theorem State.setPath_outStale (d : BitVec 8) (x : Bool) : (s.setPath d x).outStale = s.outStale := rfl
@[simp] theorem State.setPath_freeIdx (d : BitVec 8) (x : Bool) : (s.setPath d x).freeIdx = s.freeIdx := rfl
@[simp] theorem State.setPath_env (d : BitVec 8) (x : Bool) : (s.setPath d x).env = s.env := rfl
@[simp] theorem State.setPath_limit (d : BitVec 8) (x : Bool) : (s.setPath d x).limit = s.limit := rfl
@[simp] theorem State.setPath_cap (d : BitVec 8) (x : Bool) : (s.setPath d x).cap = s.cap := rfl
@[simp] theorem State.setPath_inByte (d : BitVec 8) (x : Bool) (o : Nat) :
    (s.setPath d x).inByte o = s.inByte o := rfl
@[simp] theorem State.setPath_outByte (d : BitVec 8) (x : Bool) (o : Nat) :
    (s.setPath d x).outByte o = s.outByte o := rfl
@[simp] theorem State.setPath_freqAt (d : BitVec 8) (x : Bool) (k : Nat) :
    (s.setPath d x).freqAt k = s.freqAt k := rfl
@[simp] theorem State.setPath_nodeAt (d : BitVec 8) (x : Bool) (k : Nat) :
    (s.setPath d x).nodeAt k = s.nodeAt k := rfl
@[simp] theorem State.setPath_codeLenAt (d : BitVec 8) (x : Bool) (k : Nat) :
    (s.setPath d x).codeLenAt k = s.codeLenAt k := rfl
@[simp] theorem State.setPath_codeOf (d : BitVec 8) (x : Bool) (k : Nat) :
    (s.setPath d x).codeOf k = s.codeOf k := rfl

/-! ### State.growCandidate -/

@[simp] theorem State.growCandidate_build (x : Bool) : (s.growCandidate x).build = s.build := rfl
@[simp] theorem State.growCandidate_regs (x : Bool) : (s.growCandidate x).regs = s.regs := rfl
@[simp] theorem State.growCandidate_status (x : Bool) : (s.growCandidate x).status = s.status := rfl
@[simp] theorem State.growCandidate_phase (x : Bool) : (s.growCandidate x).phase = s.phase := rfl
@[simp] theorem State.growCandidate_curOp (x : Bool) : (s.growCandidate x).curOp = s.curOp := rfl
@[simp] theorem State.growCandidate_mem (x : Bool) : (s.growCandidate x).mem = s.mem := rfl
@[simp] theorem State.growCandidate_tables (x : Bool) : (s.growCandidate x).tables = s.tables := rfl
@[simp] theorem State.growCandidate_dp_tstack (x : Bool) : (s.growCandidate x).dp.tstack = s.dp.tstack := rfl
@[simp] theorem State.growCandidate_dp_path (x : Bool) : (s.growCandidate x).dp.path = s.dp.path := rfl
@[simp] theorem State.growCandidate_dp_acc (x : Bool) : (s.growCandidate x).dp.acc = s.dp.acc := rfl
@[simp] theorem State.growCandidate_dp_accN (x : Bool) : (s.growCandidate x).dp.accN = s.dp.accN := rfl
@[simp] theorem State.growCandidate_dp_candLen (x : Bool) : (s.growCandidate x).dp.candLen = s.dp.candLen + 1 := rfl
@[simp] theorem State.growCandidate_dp_decCount (x : Bool) : (s.growCandidate x).dp.decCount = s.dp.decCount := rfl
@[simp] theorem State.growCandidate_dp_rdPtr (x : Bool) : (s.growCandidate x).dp.rdPtr = s.dp.rdPtr := rfl
@[simp] theorem State.growCandidate_dp_wrPtr (x : Bool) : (s.growCandidate x).dp.wrPtr = s.dp.wrPtr := rfl
@[simp] theorem State.growCandidate_dp_q (x : Bool) : (s.growCandidate x).dp.q = s.dp.q := rfl
@[simp] theorem State.growCandidate_outStale (x : Bool) : (s.growCandidate x).outStale = s.outStale := rfl
@[simp] theorem State.growCandidate_freeIdx (x : Bool) : (s.growCandidate x).freeIdx = s.freeIdx := rfl
@[simp] theorem State.growCandidate_env (x : Bool) : (s.growCandidate x).env = s.env := rfl
@[simp] theorem State.growCandidate_limit (x : Bool) : (s.growCandidate x).limit = s.limit := rfl
@[simp] theorem State.growCandidate_cap (x : Bool) : (s.growCandidate x).cap = s.cap := rfl
@[simp] theorem State.growCandidate_inByte (x : Bool) (o : Nat) : (s.growCandidate x).inByte o = s.inByte o := rfl
@[simp] theorem State.growCandidate_outByte (x : Bool) (o : Nat) : (s.growCandidate x).outByte o = s.outByte o := rfl
@[simp] theorem State.growCandidate_freqAt (x : Bool) (k : Nat) : (s.growCandidate x).freqAt k = s.freqAt k := rfl
@[simp] theorem State.growCandidate_nodeAt (x : Bool) (k : Nat) : (s.growCandidate x).nodeAt k = s.nodeAt k := rfl
@[simp] theorem State.growCandidate_codeLenAt (x : Bool) (k : Nat) :
    (s.growCandidate x).codeLenAt k = s.codeLenAt k := rfl
@[simp] theorem State.growCandidate_codeOf (x : Bool) (k : Nat) : (s.growCandidate x).codeOf k = s.codeOf k := rfl

/-! ### State.readNext -/

@[simp] theorem State.readNext_build : s.readNext.2.build = s.build := rfl
@[simp] theorem State.readNext_regs : s.readNext.2.regs = s.regs := rfl
@[simp] theorem State.readNext_status : s.readNext.2.status = s.status := rfl
@[simp] theorem State.readNext_phase : s.readNext.2.phase = s.phase := rfl
@[simp] theorem State.readNext_curOp : s.readNext.2.curOp = s.curOp := rfl
@[simp] theorem State.readNext_mem : s.readNext.2.mem = s.mem := rfl
@[simp] theorem State.readNext_tables : s.readNext.2.tables = s.tables := rfl
@[simp] theorem State.readNext_dp_tstack : s.readNext.2.dp.tstack = s.dp.tstack := rfl
@[simp] theorem State.readNext_dp_path : s.readNext.2.dp.path = s.dp.path := rfl
@[simp] theorem State.readNext_dp_acc : s.readNext.2.dp.acc = s.dp.acc := rfl
@[simp] theorem State.readNext_dp_accN : s.readNext.2.dp.accN = s.dp.accN := rfl
@[simp] theorem State.readNext_dp_cand : s.readNext.2.dp.cand = s.dp.cand := rfl
@[simp] theorem State.readNext_dp_candLen : s.readNext.2.dp.candLen = s.dp.candLen := rfl
@[simp] theorem State.readNext_dp_decCount : s.readNext.2.dp.decCount = s.dp.decCount := rfl
@[simp] theorem State.readNext_dp_rdPtr : s.readNext.2.dp.rdPtr = s.dp.rdPtr + 1 := rfl
@[simp] theorem State.readNext_dp_wrPtr : s.readNext.2.dp.wrPtr = s.dp.wrPtr := rfl
@[simp] theorem State.readNext_dp_q : s.readNext.2.dp.q = s.dp.q := rfl
@[simp] theorem State.readNext_outStale : s.readNext.2.outStale = s.outStale := rfl
@[simp] theorem State.readNext_freeIdx : s.readNext.2.freeIdx = s.freeIdx := rfl
@[simp] theorem State.readNext_env : s.readNext.2.env = s.env := rfl
@[simp] theorem State.readNext_limit : s.readNext.2.limit = s.limit := rfl
@[simp] theorem State.readNext_cap : s.readNext.2.cap = s.cap := rfl
@[simp] theorem State.readNext_inByte (o : Nat) : s.readNext.2.inByte o = s.inByte o := rfl
@[simp] theorem State.readNext_outByte (o : Nat) : s.readNext.2.outByte o = s.outByte o := rfl
@[simp] theorem State.readNext_freqAt (k : Nat) : s.readNext.2.freqAt k = s.freqAt k := rfl
@[simp] theorem State.readNext_nodeAt (k : Nat) : s.readNext.2.nodeAt k = s.nodeAt k := rfl
@[simp] theorem State.readNext_codeLenAt (k : Nat) : s.readNext.2.codeLenAt k = s.codeLenAt k := rfl
@[simp] theorem State.readNext_codeOf (k : Nat) : s.readNext.2.codeOf k = s.codeOf k := rfl

/-! ### State.outWrite -/

@[simp] theorem State.outWrite_build (a : Nat) (v : Byte) :
    (s.outWrite a v).build = s.build := by unfold State.outWrite; split <;> rfl
@[simp] theorem State.outWrite_regs (a : Nat) (v : Byte) :
    (s.outWrite a v).regs = s.regs := by unfold State.outWrite; split <;> rfl
@[simp] theorem State.outWrite_status (a : Nat) (v : Byte) :
    (s.outWrite a v).status = s.status := by unfold State.outWrite; split <;> rfl
@[simp] theorem State.outWrite_phase (a : Nat) (v : Byte) :
    (s.outWrite a v).phase = s.phase := by unfold State.outWrite; split <;> rfl
@[simp] theorem State.outWrite_curOp (a : Nat) (v : Byte) :
    (s.outWrite a v).curOp = s.curOp := by unfold State.outWrite; split <;> rfl
@[simp] theorem State.outWrite_tables (a : Nat) (v : Byte) :
    (s.outWrite a v).tables = s.tables := by unfold State.outWrite; split <;> rfl
@[simp] theorem State.outWrite_dp (a : Nat) (v : Byte) :
    (s.outWrite a v).dp = s.dp := by unfold State.outWrite; split <;> rfl
@[simp] theorem State.outWrite_outStale (a : Nat) (v : Byte) :
    (s.outWrite a v).outStale = s.outStale := by unfold State.outWrite; split <;> rfl
@[simp] theorem State.outWrite_freeIdx (a : Nat) (v : Byte) :
    (s.outWrite a v).freeIdx = s.freeIdx := by unfold State.outWrite; split <;> rfl
@[simp] theorem State.outWrite_env (a : Nat) (v : Byte) :
    (s.outWrite a v).env = s.env := by unfold State.outWrite; split <;> rfl
@[simp] theorem State.outWrite_limit (a : Nat) (v : Byte) : (s.outWrite a v).limit = s.limit := by simp [State.limit]
@[simp] theorem State.outWrite_cap (a : Nat) (v : Byte) : (s.outWrite a v).cap = s.cap := by simp [State.cap]
@[simp] theorem State.outWrite_freqAt (a : Nat) (v : Byte) (k : Nat) :
    (s.outWrite a v).freqAt k = s.freqAt k := by simp [State.freqAt]
@[simp] theorem State.outWrite_nodeAt (a : Nat) (v : Byte) (k : Nat) :
    (s.outWrite a v).nodeAt k = s.nodeAt k := by simp [State.nodeAt]
@[simp] theorem State.outWrite_codeLenAt (a : Nat) (v : Byte) (k : Nat) :
    (s.outWrite a v).codeLenAt k = s.codeLenAt k := by simp [State.codeLenAt]
@[simp] theorem State.outWrite_codeOf (a : Nat) (v : Byte) (k : Nat) :
    (s.outWrite a v).codeOf k = s.codeOf k := by simp [State.codeOf, State.codeLenAt, State.codeBitsAt]

/-! ### State.inWrite -/

@[simp] theorem State.inWrite_build (a : Nat) (v : Byte) : (s.inWrite a v).build = s.build := rfl
@[simp] theorem State.inWrite_regs (a : Nat) (v : Byte) : (s.inWrite a v).regs = s.regs := rfl
@[simp] theorem State.inWrite_status (a : Nat) (v : Byte) : (s.inWrite a v).status = s.status := rfl
@[simp] theorem State.inWrite_phase (a : Nat) (v : Byte) : (s.inWrite a v).phase = s.phase := rfl
@[simp] theorem State.inWrite_curOp (a : Nat) (v : Byte) : (s.inWrite a v).curOp = s.curOp := rfl
@[simp] theorem State.inWrite_mem (a : Nat) (v : Byte) : (s.inWrite a v).mem = s.mem.set (Config.inBase + a) v := rfl
@[simp] theorem State.inWrite_tables (a : Nat) (v : Byte) : (s.inWrite a v).tables = s.tables := rfl
@[simp] theorem State.inWrite_dp (a : Nat) (v : Byte) : (s.inWrite a v).dp = s.dp := rfl
@[simp] theorem State.inWrite_outStale (a : Nat) (v : Byte) : (s.inWrite a v).outStale = s.outStale := rfl
@[simp] theorem State.inWrite_freeIdx (a : Nat) (v : Byte) : (s.inWrite a v).freeIdx = s.freeIdx := rfl
@[simp] theorem State.inWrite_env (a : Nat) (v : Byte) : (s.inWrite a v).env = s.env := rfl
@[simp] theorem State.inWrite_limit (a : Nat) (v : Byte) : (s.inWrite a v).limit = s.limit := rfl
@[simp] theorem State.inWrite_cap (a : Nat) (v : Byte) : (s.inWrite a v).cap = s.cap := rfl
@[simp] theorem State.inWrite_freqAt (a : Nat) (v : Byte) (k : Nat) : (s.inWrite a v).freqAt k = s.freqAt k := rfl
@[simp] theorem State.inWrite_nodeAt (a : Nat) (v : Byte) (k : Nat) : (s.inWrite a v).nodeAt k = s.nodeAt k := rfl
@[simp] theorem State.inWrite_codeLenAt (a : Nat) (v : Byte) (k : Nat) :
    (s.inWrite a v).codeLenAt k = s.codeLenAt k := rfl
@[simp] theorem State.inWrite_codeOf (a : Nat) (v : Byte) (k : Nat) : (s.inWrite a v).codeOf k = s.codeOf k := rfl

/-! ### State.forgetOut -/

@[simp] theorem State.forgetOut_build (n e : Nat) : (s.forgetOut n e).build = s.build := rfl
@[simp] theorem State.forgetOut_regs (n e : Nat) : (s.forgetOut n e).regs = s.regs := rfl
@[simp] theorem State.forgetOut_status (n e : Nat) : (s.forgetOut n e).status = s.status := rfl
@[simp] theorem State.forgetOut_phase (n e : Nat) : (s.forgetOut n e).phase = s.phase := rfl
@[simp] theorem State.forgetOut_curOp (n e : Nat) : (s.forgetOut n e).curOp = s.curOp := rfl
@[simp] theorem State.forgetOut_mem (n e : Nat) :
    (s.forgetOut n e).mem = s.mem.forget Config.outBase (Config.outBase + n) := rfl
@[simp] theorem State.forgetOut_tables (n e : Nat) : (s.forgetOut n e).tables = s.tables := rfl
@[simp] theorem State.forgetOut_dp (n e : Nat) : (s.forgetOut n e).dp = s.dp := rfl
@[simp] theorem State.forgetOut_outStale (n e : Nat) : (s.forgetOut n e).outStale = staleBelow n e s.outStale := rfl
@[simp] theorem State.forgetOut_freeIdx (n e : Nat) : (s.forgetOut n e).freeIdx = s.freeIdx := rfl
@[simp] theorem State.forgetOut_env (n e : Nat) : (s.forgetOut n e).env = s.env := rfl
@[simp] theorem State.forgetOut_limit (n e : Nat) : (s.forgetOut n e).limit = s.limit := rfl
@[simp] theorem State.forgetOut_cap (n e : Nat) : (s.forgetOut n e).cap = s.cap := rfl
@[simp] theorem State.forgetOut_freqAt (n e : Nat) (k : Nat) : (s.forgetOut n e).freqAt k = s.freqAt k := rfl
@[simp] theorem State.forgetOut_nodeAt (n e : Nat) (k : Nat) : (s.forgetOut n e).nodeAt k = s.nodeAt k := rfl
@[simp] theorem State.forgetOut_codeLenAt (n e : Nat) (k : Nat) : (s.forgetOut n e).codeLenAt k = s.codeLenAt k := rfl
@[simp] theorem State.forgetOut_codeOf (n e : Nat) (k : Nat) : (s.forgetOut n e).codeOf k = s.codeOf k := rfl

/-! ### emitByte -/

@[simp] theorem emitByte_build (v : Byte) :
    (emitByte s v).build = s.build := by unfold emitByte State.outWrite; split <;> rfl
@[simp] theorem emitByte_regs (v : Byte) :
    (emitByte s v).regs = s.regs := by unfold emitByte State.outWrite; split <;> rfl
@[simp] theorem emitByte_status (v : Byte) :
    (emitByte s v).status = s.status := by unfold emitByte State.outWrite; split <;> rfl
@[simp] theorem emitByte_phase (v : Byte) :
    (emitByte s v).phase = s.phase := by unfold emitByte State.outWrite; split <;> rfl
@[simp] theorem emitByte_curOp (v : Byte) :
    (emitByte s v).curOp = s.curOp := by unfold emitByte State.outWrite; split <;> rfl
@[simp] theorem emitByte_mem (v : Byte) :
    (emitByte s v).mem = (s.outWrite s.dp.wrPtr.toNat v).mem := by unfold emitByte State.outWrite; split <;> rfl
@[simp] theorem emitByte_tables (v : Byte) :
    (emitByte s v).tables = s.tables := by unfold emitByte State.outWrite; split <;> rfl
@[simp] theorem emitByte_dp_tstack (v : Byte) :
    (emitByte s v).dp.tstack = s.dp.tstack := by unfold emitByte State.outWrite; split <;> rfl
@[simp] theorem emitByte_dp_path (v : Byte) :
    (emitByte s v).dp.path = s.dp.path := by unfold emitByte State.outWrite; split <;> rfl
@[simp] theorem emitByte_dp_acc (v : Byte) :
    (emitByte s v).dp.acc = s.dp.acc := by unfold emitByte State.outWrite; split <;> rfl
@[simp] theorem emitByte_dp_accN (v : Byte) :
    (emitByte s v).dp.accN = s.dp.accN := by unfold emitByte State.outWrite; split <;> rfl
@[simp] theorem emitByte_dp_cand (v : Byte) :
    (emitByte s v).dp.cand = s.dp.cand := by unfold emitByte State.outWrite; split <;> rfl
@[simp] theorem emitByte_dp_candLen (v : Byte) :
    (emitByte s v).dp.candLen = s.dp.candLen := by unfold emitByte State.outWrite; split <;> rfl
@[simp] theorem emitByte_dp_decCount (v : Byte) :
    (emitByte s v).dp.decCount = s.dp.decCount := by unfold emitByte State.outWrite; split <;> rfl
@[simp] theorem emitByte_dp_rdPtr (v : Byte) :
    (emitByte s v).dp.rdPtr = s.dp.rdPtr := by unfold emitByte State.outWrite; split <;> rfl
@[simp] theorem emitByte_dp_wrPtr (v : Byte) :
    (emitByte s v).dp.wrPtr = s.dp.wrPtr + 1 := by unfold emitByte State.outWrite; split <;> rfl
@[simp] theorem emitByte_dp_q (v : Byte) :
    (emitByte s v).dp.q = s.dp.q := by unfold emitByte State.outWrite; split <;> rfl
@[simp] theorem emitByte_outStale (v : Byte) :
    (emitByte s v).outStale = s.outStale := by unfold emitByte State.outWrite; split <;> rfl
@[simp] theorem emitByte_freeIdx (v : Byte) :
    (emitByte s v).freeIdx = s.freeIdx := by unfold emitByte State.outWrite; split <;> rfl
@[simp] theorem emitByte_env (v : Byte) :
    (emitByte s v).env = s.env := by unfold emitByte State.outWrite; split <;> rfl
@[simp] theorem emitByte_limit (v : Byte) : (emitByte s v).limit = s.limit := by simp [State.limit]
@[simp] theorem emitByte_cap (v : Byte) : (emitByte s v).cap = s.cap := by simp [State.cap]
@[simp] theorem emitByte_freqAt (v : Byte) (k : Nat) : (emitByte s v).freqAt k = s.freqAt k := by simp [State.freqAt]
@[simp] theorem emitByte_nodeAt (v : Byte) (k : Nat) : (emitByte s v).nodeAt k = s.nodeAt k := by simp [State.nodeAt]
@[simp] theorem emitByte_codeLenAt (v : Byte) (k : Nat) :
    (emitByte s v).codeLenAt k = s.codeLenAt k := by simp [State.codeLenAt]
@[simp] theorem emitByte_codeOf (v : Byte) (k : Nat) :
    (emitByte s v).codeOf k = s.codeOf k := by simp [State.codeOf, State.codeLenAt, State.codeBitsAt]

/-! ### emitSymbol -/

@[simp] theorem emitSymbol_build (i : Nat) :
    (emitSymbol s i).build = s.build := by unfold emitSymbol State.outWrite; split <;> rfl
@[simp] theorem emitSymbol_regs (i : Nat) :
    (emitSymbol s i).regs = s.regs := by unfold emitSymbol State.outWrite; split <;> rfl
@[simp] theorem emitSymbol_status (i : Nat) :
    (emitSymbol s i).status = s.status := by unfold emitSymbol State.outWrite; split <;> rfl
@[simp] theorem emitSymbol_phase (i : Nat) :
    (emitSymbol s i).phase = s.phase := by unfold emitSymbol State.outWrite; split <;> rfl
@[simp] theorem emitSymbol_curOp (i : Nat) :
    (emitSymbol s i).curOp = s.curOp := by unfold emitSymbol State.outWrite; split <;> rfl
@[simp] theorem emitSymbol_mem (i : Nat) :
    (emitSymbol s i).mem = (s.outWrite s.dp.decCount.toNat (BitVec.ofNat 8 i)).mem := by unfold emitSymbol State.outWrite; split <;> rfl
@[simp] theorem emitSymbol_tables (i : Nat) :
    (emitSymbol s i).tables = s.tables := by unfold emitSymbol State.outWrite; split <;> rfl
@[simp] theorem emitSymbol_dp_tstack (i : Nat) :
    (emitSymbol s i).dp.tstack = s.dp.tstack := by unfold emitSymbol State.outWrite; split <;> rfl
@[simp] theorem emitSymbol_dp_path (i : Nat) :
    (emitSymbol s i).dp.path = s.dp.path := by unfold emitSymbol State.outWrite; split <;> rfl
@[simp] theorem emitSymbol_dp_acc (i : Nat) :
    (emitSymbol s i).dp.acc = s.dp.acc := by unfold emitSymbol State.outWrite; split <;> rfl
@[simp] theorem emitSymbol_dp_accN (i : Nat) :
    (emitSymbol s i).dp.accN = s.dp.accN := by unfold emitSymbol State.outWrite; split <;> rfl
@[simp] theorem emitSymbol_dp_cand (i : Nat) :
    (emitSymbol s i).dp.cand = 0 := by unfold emitSymbol State.outWrite; split <;> rfl
@[simp] theorem emitSymbol_dp_candLen (i : Nat) :
    (emitSymbol s i).dp.candLen = 0 := by unfold emitSymbol State.outWrite; split <;> rfl
@[simp] theorem emitSymbol_dp_decCount (i : Nat) :
    (emitSymbol s i).dp.decCount = s.dp.decCount + 1 := by unfold emitSymbol State.outWrite; split <;> rfl
@[simp] theorem emitSymbol_dp_rdPtr (i : Nat) :
    (emitSymbol s i).dp.rdPtr = s.dp.rdPtr := by unfold emitSymbol State.outWrite; split <;> rfl
@[simp] theorem emitSymbol_dp_wrPtr (i : Nat) :
    (emitSymbol s i).dp.wrPtr = s.dp.wrPtr := by unfold emitSymbol State.outWrite; split <;> rfl
@[simp] theorem emitSymbol_dp_q (i : Nat) :
    (emitSymbol s i).dp.q = s.dp.q := by unfold emitSymbol State.outWrite; split <;> rfl
@[simp] theorem emitSymbol_outStale (i : Nat) :
    (emitSymbol s i).outStale = s.outStale := by unfold emitSymbol State.outWrite; split <;> rfl
@[simp] theorem emitSymbol_freeIdx (i : Nat) :
    (emitSymbol s i).freeIdx = s.freeIdx := by unfold emitSymbol State.outWrite; split <;> rfl
@[simp] theorem emitSymbol_env (i : Nat) :
    (emitSymbol s i).env = s.env := by unfold emitSymbol State.outWrite; split <;> rfl
@[simp] theorem emitSymbol_limit (i : Nat) : (emitSymbol s i).limit = s.limit := by simp [State.limit]
@[simp] theorem emitSymbol_cap (i : Nat) : (emitSymbol s i).cap = s.cap := by simp [State.cap]
@[simp] theorem emitSymbol_freqAt (i : Nat) (k : Nat) :
    (emitSymbol s i).freqAt k = s.freqAt k := by simp [State.freqAt]
@[simp] theorem emitSymbol_nodeAt (i : Nat) (k : Nat) :
    (emitSymbol s i).nodeAt k = s.nodeAt k := by simp [State.nodeAt]
@[simp] theorem emitSymbol_codeLenAt (i : Nat) (k : Nat) :
    (emitSymbol s i).codeLenAt k = s.codeLenAt k := by simp [State.codeLenAt]
@[simp] theorem emitSymbol_codeOf (i : Nat) (k : Nat) :
    (emitSymbol s i).codeOf k = s.codeOf k := by simp [State.codeOf, State.codeLenAt, State.codeBitsAt]

/-! ### packBit -/

@[simp] theorem packBit_build (x : Bool) :
    (packBit s x).build = s.build := by unfold packBit emitByte State.outWrite; dsimp only; split <;> (try split) <;> rfl
@[simp] theorem packBit_regs (x : Bool) :
    (packBit s x).regs = s.regs := by unfold packBit emitByte State.outWrite; dsimp only; split <;> (try split) <;> rfl
@[simp] theorem packBit_status (x : Bool) :
    (packBit s x).status = s.status := by unfold packBit emitByte State.outWrite; dsimp only; split <;> (try split) <;> rfl
@[simp] theorem packBit_phase (x : Bool) :
    (packBit s x).phase = s.phase := by unfold packBit emitByte State.outWrite; dsimp only; split <;> (try split) <;> rfl
@[simp] theorem packBit_curOp (x : Bool) :
    (packBit s x).curOp = s.curOp := by unfold packBit emitByte State.outWrite; dsimp only; split <;> (try split) <;> rfl
@[simp] theorem packBit_tables (x : Bool) :
    (packBit s x).tables = s.tables := by unfold packBit emitByte State.outWrite; dsimp only; split <;> (try split) <;> rfl
@[simp] theorem packBit_dp_tstack (x : Bool) :
    (packBit s x).dp.tstack = s.dp.tstack := by unfold packBit emitByte State.outWrite; dsimp only; split <;> (try split) <;> rfl
@[simp] theorem packBit_dp_path (x : Bool) :
    (packBit s x).dp.path = s.dp.path := by unfold packBit emitByte State.outWrite; dsimp only; split <;> (try split) <;> rfl
@[simp] theorem packBit_dp_cand (x : Bool) :
    (packBit s x).dp.cand = s.dp.cand := by unfold packBit emitByte State.outWrite; dsimp only; split <;> (try split) <;> rfl
@[simp] theorem packBit_dp_candLen (x : Bool) :
    (packBit s x).dp.candLen = s.dp.candLen := by unfold packBit emitByte State.outWrite; dsimp only; split <;> (try split) <;> rfl
@[simp] theorem packBit_dp_decCount (x : Bool) :
    (packBit s x).dp.decCount = s.dp.decCount := by unfold packBit emitByte State.outWrite; dsimp only; split <;> (try split) <;> rfl
@[simp] theorem packBit_dp_rdPtr (x : Bool) :
    (packBit s x).dp.rdPtr = s.dp.rdPtr := by unfold packBit emitByte State.outWrite; dsimp only; split <;> (try split) <;> rfl
@[simp] theorem packBit_dp_q (x : Bool) :
    (packBit s x).dp.q = s.dp.q := by unfold packBit emitByte State.outWrite; dsimp only; split <;> (try split) <;> rfl
@[simp] theorem packBit_outStale (x : Bool) :
    (packBit s x).outStale = s.outStale := by unfold packBit emitByte State.outWrite; dsimp only; split <;> (try split) <;> rfl
@[simp] theorem packBit_freeIdx (x : Bool) :
    (packBit s x).freeIdx = s.freeIdx := by unfold packBit emitByte State.outWrite; dsimp only; split <;> (try split) <;> rfl
@[simp] theorem packBit_env (x : Bool) :
    (packBit s x).env = s.env := by unfold packBit emitByte State.outWrite; dsimp only; split <;> (try split) <;> rfl
@[simp] theorem packBit_limit (x : Bool) : (packBit s x).limit = s.limit := by simp [State.limit]
@[simp] theorem packBit_cap (x : Bool) : (packBit s x).cap = s.cap := by simp [State.cap]
@[simp] theorem packBit_freqAt (x : Bool) (k : Nat) : (packBit s x).freqAt k = s.freqAt k := by simp [State.freqAt]
@[simp] theorem packBit_nodeAt (x : Bool) (k : Nat) : (packBit s x).nodeAt k = s.nodeAt k := by simp [State.nodeAt]
@[simp] theorem packBit_codeLenAt (x : Bool) (k : Nat) :
    (packBit s x).codeLenAt k = s.codeLenAt k := by simp [State.codeLenAt]
@[simp] theorem packBit_codeOf (x : Bool) (k : Nat) :
    (packBit s x).codeOf k = s.codeOf k := by simp [State.codeOf, State.codeLenAt, State.codeBitsAt]

/-! ### flushBits -/

@[simp] theorem flushBits_build :
    (flushBits s).build = s.build := by unfold flushBits emitByte State.outWrite; dsimp only; split <;> (try split) <;> rfl
@[simp] theorem flushBits_regs :
    (flushBits s).regs = s.regs := by unfold flushBits emitByte State.outWrite; dsimp only; split <;> (try split) <;> rfl
@[simp] theorem flushBits_status :
    (flushBits s).status = s.status := by unfold flushBits emitByte State.outWrite; dsimp only; split <;> (try split) <;> rfl
@[simp] theorem flushBits_phase :
    (flushBits s).phase = s.phase := by unfold flushBits emitByte State.outWrite; dsimp only; split <;> (try split) <;> rfl
@[simp] theorem flushBits_curOp :
    (flushBits s).curOp = s.curOp := by unfold flushBits emitByte State.outWrite; dsimp only; split <;> (try split) <;> rfl
@[simp] theorem flushBits_tables :
    (flushBits s).tables = s.tables := by unfold flushBits emitByte State.outWrite; dsimp only; split <;> (try split) <;> rfl
@[simp] theorem flushBits_dp_tstack :
    (flushBits s).dp.tstack = s.dp.tstack := by unfold flushBits emitByte State.outWrite; dsimp only; split <;> (try split) <;> rfl
@[simp] theorem flushBits_dp_path :
    (flushBits s).dp.path = s.dp.path := by unfold flushBits emitByte State.outWrite; dsimp only; split <;> (try split) <;> rfl
@[simp] theorem flushBits_dp_cand :
    (flushBits s).dp.cand = s.dp.cand := by unfold flushBits emitByte State.outWrite; dsimp only; split <;> (try split) <;> rfl
@[simp] theorem flushBits_dp_candLen :
    (flushBits s).dp.candLen = s.dp.candLen := by unfold flushBits emitByte State.outWrite; dsimp only; split <;> (try split) <;> rfl
@[simp] theorem flushBits_dp_decCount :
    (flushBits s).dp.decCount = s.dp.decCount := by unfold flushBits emitByte State.outWrite; dsimp only; split <;> (try split) <;> rfl
@[simp] theorem flushBits_dp_rdPtr :
    (flushBits s).dp.rdPtr = s.dp.rdPtr := by unfold flushBits emitByte State.outWrite; dsimp only; split <;> (try split) <;> rfl
@[simp] theorem flushBits_dp_q :
    (flushBits s).dp.q = s.dp.q := by unfold flushBits emitByte State.outWrite; dsimp only; split <;> (try split) <;> rfl
@[simp] theorem flushBits_outStale :
    (flushBits s).outStale = s.outStale := by unfold flushBits emitByte State.outWrite; dsimp only; split <;> (try split) <;> rfl
@[simp] theorem flushBits_freeIdx :
    (flushBits s).freeIdx = s.freeIdx := by unfold flushBits emitByte State.outWrite; dsimp only; split <;> (try split) <;> rfl
@[simp] theorem flushBits_env :
    (flushBits s).env = s.env := by unfold flushBits emitByte State.outWrite; dsimp only; split <;> (try split) <;> rfl
@[simp] theorem flushBits_limit : (flushBits s).limit = s.limit := by simp [State.limit]
@[simp] theorem flushBits_cap : (flushBits s).cap = s.cap := by simp [State.cap]
@[simp] theorem flushBits_freqAt (k : Nat) : (flushBits s).freqAt k = s.freqAt k := by simp [State.freqAt]
@[simp] theorem flushBits_nodeAt (k : Nat) : (flushBits s).nodeAt k = s.nodeAt k := by simp [State.nodeAt]
@[simp] theorem flushBits_codeLenAt (k : Nat) : (flushBits s).codeLenAt k = s.codeLenAt k := by simp [State.codeLenAt]
@[simp] theorem flushBits_codeOf (k : Nat) :
    (flushBits s).codeOf k = s.codeOf k := by simp [State.codeOf, State.codeLenAt, State.codeBitsAt]

/-! ### State.clearReport -/

@[simp] theorem State.clearReport_build (v : Word) : (s.clearReport v).build = s.build := rfl
@[simp] theorem State.clearReport_regs (v : Word) : (s.clearReport v).regs = s.regs := rfl
@[simp] theorem State.clearReport_status_busy (v : Word) : (s.clearReport v).status.busy = s.status.busy := rfl
@[simp] theorem State.clearReport_status_done (v : Word) :
    (s.clearReport v).status.done = (s.status.done && !v.getLsbD 1) := rfl
@[simp] theorem State.clearReport_status_err (v : Word) :
    (s.clearReport v).status.err = (s.status.err && !v.getLsbD 2) := rfl
@[simp] theorem State.clearReport_status_errCode (v : Word) :
    (s.clearReport v).status.errCode = s.status.errCode := rfl
@[simp] theorem State.clearReport_status_freqValid (v : Word) :
    (s.clearReport v).status.freqValid = s.status.freqValid := rfl
@[simp] theorem State.clearReport_status_treeValid (v : Word) :
    (s.clearReport v).status.treeValid = s.status.treeValid := rfl
@[simp] theorem State.clearReport_status_tableValid (v : Word) :
    (s.clearReport v).status.tableValid = s.status.tableValid := rfl
@[simp] theorem State.clearReport_status_hdrValid (v : Word) :
    (s.clearReport v).status.hdrValid = s.status.hdrValid := rfl
@[simp] theorem State.clearReport_phase (v : Word) : (s.clearReport v).phase = s.phase := rfl
@[simp] theorem State.clearReport_curOp (v : Word) : (s.clearReport v).curOp = s.curOp := rfl
@[simp] theorem State.clearReport_mem (v : Word) : (s.clearReport v).mem = s.mem := rfl
@[simp] theorem State.clearReport_tables (v : Word) : (s.clearReport v).tables = s.tables := rfl
@[simp] theorem State.clearReport_dp (v : Word) : (s.clearReport v).dp = s.dp := rfl
@[simp] theorem State.clearReport_outStale (v : Word) : (s.clearReport v).outStale = s.outStale := rfl
@[simp] theorem State.clearReport_freeIdx (v : Word) : (s.clearReport v).freeIdx = s.freeIdx := rfl
@[simp] theorem State.clearReport_env (v : Word) : (s.clearReport v).env = s.env := rfl
@[simp] theorem State.clearReport_limit (v : Word) : (s.clearReport v).limit = s.limit := rfl
@[simp] theorem State.clearReport_cap (v : Word) : (s.clearReport v).cap = s.cap := rfl
@[simp] theorem State.clearReport_inByte (v : Word) (o : Nat) : (s.clearReport v).inByte o = s.inByte o := rfl
@[simp] theorem State.clearReport_outByte (v : Word) (o : Nat) : (s.clearReport v).outByte o = s.outByte o := rfl
@[simp] theorem State.clearReport_freqAt (v : Word) (k : Nat) : (s.clearReport v).freqAt k = s.freqAt k := rfl
@[simp] theorem State.clearReport_nodeAt (v : Word) (k : Nat) : (s.clearReport v).nodeAt k = s.nodeAt k := rfl
@[simp] theorem State.clearReport_codeLenAt (v : Word) (k : Nat) :
    (s.clearReport v).codeLenAt k = s.codeLenAt k := rfl
@[simp] theorem State.clearReport_codeOf (v : Word) (k : Nat) : (s.clearReport v).codeOf k = s.codeOf k := rfl

/-! ### State.inputChanged -/

@[simp] theorem State.inputChanged_build : s.inputChanged.build = s.build := rfl
@[simp] theorem State.inputChanged_regs : s.inputChanged.regs = s.regs := rfl
@[simp] theorem State.inputChanged_status_busy : s.inputChanged.status.busy = s.status.busy := rfl
@[simp] theorem State.inputChanged_status_done : s.inputChanged.status.done = s.status.done := rfl
@[simp] theorem State.inputChanged_status_err : s.inputChanged.status.err = s.status.err := rfl
@[simp] theorem State.inputChanged_status_errCode : s.inputChanged.status.errCode = s.status.errCode := rfl
@[simp] theorem State.inputChanged_status_freqValid : s.inputChanged.status.freqValid = false := rfl
@[simp] theorem State.inputChanged_status_treeValid : s.inputChanged.status.treeValid = false := rfl
@[simp] theorem State.inputChanged_status_tableValid : s.inputChanged.status.tableValid = false := rfl
@[simp] theorem State.inputChanged_status_hdrValid : s.inputChanged.status.hdrValid = false := rfl
@[simp] theorem State.inputChanged_phase : s.inputChanged.phase = s.phase := rfl
@[simp] theorem State.inputChanged_curOp : s.inputChanged.curOp = s.curOp := rfl
@[simp] theorem State.inputChanged_mem : s.inputChanged.mem = s.mem := rfl
@[simp] theorem State.inputChanged_tables : s.inputChanged.tables = s.tables := rfl
@[simp] theorem State.inputChanged_dp : s.inputChanged.dp = s.dp := rfl
@[simp] theorem State.inputChanged_outStale : s.inputChanged.outStale = s.outStale := rfl
@[simp] theorem State.inputChanged_freeIdx : s.inputChanged.freeIdx = s.freeIdx := rfl
@[simp] theorem State.inputChanged_env : s.inputChanged.env = s.env := rfl
@[simp] theorem State.inputChanged_limit : s.inputChanged.limit = s.limit := rfl
@[simp] theorem State.inputChanged_cap : s.inputChanged.cap = s.cap := rfl
@[simp] theorem State.inputChanged_inByte (o : Nat) : s.inputChanged.inByte o = s.inByte o := rfl
@[simp] theorem State.inputChanged_outByte (o : Nat) : s.inputChanged.outByte o = s.outByte o := rfl
@[simp] theorem State.inputChanged_freqAt (k : Nat) : s.inputChanged.freqAt k = s.freqAt k := rfl
@[simp] theorem State.inputChanged_nodeAt (k : Nat) : s.inputChanged.nodeAt k = s.nodeAt k := rfl
@[simp] theorem State.inputChanged_codeLenAt (k : Nat) : s.inputChanged.codeLenAt k = s.codeLenAt k := rfl
@[simp] theorem State.inputChanged_codeOf (k : Nat) : s.inputChanged.codeOf k = s.codeOf k := rfl

/-! ### State.afterRead -/

@[simp] theorem State.afterRead_build : s.afterRead.build = s.build := by unfold State.afterRead; split <;> rfl
@[simp] theorem State.afterRead_regs : s.afterRead.regs = s.regs := by unfold State.afterRead; split <;> rfl
@[simp] theorem State.afterRead_status : s.afterRead.status = s.status := by unfold State.afterRead; split <;> rfl
@[simp] theorem State.afterRead_phase : s.afterRead.phase = s.phase := by unfold State.afterRead; split <;> rfl
@[simp] theorem State.afterRead_curOp : s.afterRead.curOp = s.curOp := by unfold State.afterRead; split <;> rfl
@[simp] theorem State.afterRead_mem : s.afterRead.mem = s.mem := by unfold State.afterRead; split <;> rfl
@[simp] theorem State.afterRead_tables : s.afterRead.tables = s.tables := by unfold State.afterRead; split <;> rfl
@[simp] theorem State.afterRead_dp : s.afterRead.dp = s.dp := by unfold State.afterRead; split <;> rfl
@[simp] theorem State.afterRead_outStale :
    s.afterRead.outStale = s.outStale := by unfold State.afterRead; split <;> rfl
@[simp] theorem State.afterRead_env : s.afterRead.env = s.env := by unfold State.afterRead; split <;> rfl
@[simp] theorem State.afterRead_limit : s.afterRead.limit = s.limit := by simp [State.limit]
@[simp] theorem State.afterRead_cap : s.afterRead.cap = s.cap := by simp [State.cap]
@[simp] theorem State.afterRead_inByte (o : Nat) : s.afterRead.inByte o = s.inByte o := by simp [State.inByte]
@[simp] theorem State.afterRead_outByte (o : Nat) : s.afterRead.outByte o = s.outByte o := by simp [State.outByte]
@[simp] theorem State.afterRead_freqAt (k : Nat) : s.afterRead.freqAt k = s.freqAt k := by simp [State.freqAt]
@[simp] theorem State.afterRead_nodeAt (k : Nat) : s.afterRead.nodeAt k = s.nodeAt k := by simp [State.nodeAt]
@[simp] theorem State.afterRead_codeLenAt (k : Nat) :
    s.afterRead.codeLenAt k = s.codeLenAt k := by simp [State.codeLenAt]
@[simp] theorem State.afterRead_codeOf (k : Nat) :
    s.afterRead.codeOf k = s.codeOf k := by simp [State.codeOf, State.codeLenAt, State.codeBitsAt]

/-! ### State.tick -/

@[simp] theorem State.tick_build : s.tick.build = s.build := by unfold State.tick; split <;> rfl
@[simp] theorem State.tick_regs : s.tick.regs = s.regs := by unfold State.tick; split <;> rfl
@[simp] theorem State.tick_status : s.tick.status = s.status := by unfold State.tick; split <;> rfl
@[simp] theorem State.tick_phase : s.tick.phase = s.phase := by unfold State.tick; split <;> rfl
@[simp] theorem State.tick_curOp : s.tick.curOp = s.curOp := by unfold State.tick; split <;> rfl
@[simp] theorem State.tick_mem : s.tick.mem = s.mem := by unfold State.tick; split <;> rfl
@[simp] theorem State.tick_tables : s.tick.tables = s.tables := by unfold State.tick; split <;> rfl
@[simp] theorem State.tick_dp : s.tick.dp = s.dp := by unfold State.tick; split <;> rfl
@[simp] theorem State.tick_outStale : s.tick.outStale = s.outStale := by unfold State.tick; split <;> rfl
@[simp] theorem State.tick_freeIdx : s.tick.freeIdx = s.freeIdx := by unfold State.tick; split <;> rfl
@[simp] theorem State.tick_env_host : s.tick.env.host = s.env.host := by unfold State.tick; split <;> rfl
@[simp] theorem State.tick_env_readLog : s.tick.env.readLog = s.env.readLog := by unfold State.tick; split <;> rfl
@[simp] theorem State.tick_env_latencies :
    s.tick.env.latencies = s.env.latencies := by unfold State.tick; split <;> rfl
@[simp] theorem State.tick_limit : s.tick.limit = s.limit := by simp [State.limit]
@[simp] theorem State.tick_cap : s.tick.cap = s.cap := by simp [State.cap]
@[simp] theorem State.tick_inByte (o : Nat) : s.tick.inByte o = s.inByte o := by simp [State.inByte]
@[simp] theorem State.tick_outByte (o : Nat) : s.tick.outByte o = s.outByte o := by simp [State.outByte]
@[simp] theorem State.tick_freqAt (k : Nat) : s.tick.freqAt k = s.freqAt k := by simp [State.freqAt]
@[simp] theorem State.tick_nodeAt (k : Nat) : s.tick.nodeAt k = s.nodeAt k := by simp [State.nodeAt]
@[simp] theorem State.tick_codeLenAt (k : Nat) : s.tick.codeLenAt k = s.codeLenAt k := by simp [State.codeLenAt]
@[simp] theorem State.tick_codeOf (k : Nat) :
    s.tick.codeOf k = s.codeOf k := by simp [State.codeOf, State.codeLenAt, State.codeBitsAt]

/-! ### request -/

@[simp] theorem request_build (op : BitVec 4) : (request op s).build = s.build := rfl
@[simp] theorem request_regs_cmdOp (op : BitVec 4) : (request op s).regs.cmdOp = op := rfl
@[simp] theorem request_regs_errPos (op : BitVec 4) : (request op s).regs.errPos = 0 := rfl
@[simp] theorem request_regs_errSub (op : BitVec 4) : (request op s).regs.errSub = 0 := rfl
@[simp] theorem request_regs_inLen (op : BitVec 4) : (request op s).regs.inLen = s.regs.inLen := rfl
@[simp] theorem request_regs_outCap (op : BitVec 4) : (request op s).regs.outCap = s.regs.outCap := rfl
@[simp] theorem request_regs_outLen (op : BitVec 4) : (request op s).regs.outLen = s.regs.outLen := rfl
@[simp] theorem request_regs_unique (op : BitVec 4) : (request op s).regs.unique = s.regs.unique := rfl
@[simp] theorem request_regs_total (op : BitVec 4) : (request op s).regs.total = s.regs.total := rfl
@[simp] theorem request_regs_payloadOfs (op : BitVec 4) : (request op s).regs.payloadOfs = s.regs.payloadOfs := rfl
@[simp] theorem request_regs_payloadBits (op : BitVec 4) : (request op s).regs.payloadBits = s.regs.payloadBits := rfl
@[simp] theorem request_regs_maxLen (op : BitVec 4) : (request op s).regs.maxLen = s.regs.maxLen := rfl
@[simp] theorem request_regs_intEn (op : BitVec 4) : (request op s).regs.intEn = s.regs.intEn := rfl
@[simp] theorem request_status_busy (op : BitVec 4) : (request op s).status.busy = s.status.busy := rfl
@[simp] theorem request_status_done (op : BitVec 4) : (request op s).status.done = false := rfl
@[simp] theorem request_status_err (op : BitVec 4) : (request op s).status.err = false := rfl
@[simp] theorem request_status_errCode (op : BitVec 4) : (request op s).status.errCode = 0 := rfl
@[simp] theorem request_status_freqValid (op : BitVec 4) : (request op s).status.freqValid = s.status.freqValid := rfl
@[simp] theorem request_status_treeValid (op : BitVec 4) : (request op s).status.treeValid = s.status.treeValid := rfl
@[simp] theorem request_status_tableValid (op : BitVec 4) :
    (request op s).status.tableValid = s.status.tableValid := rfl
@[simp] theorem request_status_hdrValid (op : BitVec 4) : (request op s).status.hdrValid = s.status.hdrValid := rfl
@[simp] theorem request_phase (op : BitVec 4) : (request op s).phase = s.phase := rfl
@[simp] theorem request_curOp (op : BitVec 4) : (request op s).curOp = s.curOp := rfl
@[simp] theorem request_mem (op : BitVec 4) : (request op s).mem = s.mem := rfl
@[simp] theorem request_tables (op : BitVec 4) : (request op s).tables = s.tables := rfl
@[simp] theorem request_dp (op : BitVec 4) : (request op s).dp = s.dp := rfl
@[simp] theorem request_outStale (op : BitVec 4) : (request op s).outStale = s.outStale := rfl
@[simp] theorem request_freeIdx (op : BitVec 4) : (request op s).freeIdx = s.freeIdx := rfl
@[simp] theorem request_env (op : BitVec 4) : (request op s).env = s.env := rfl
@[simp] theorem request_limit (op : BitVec 4) : (request op s).limit = s.limit := rfl
@[simp] theorem request_cap (op : BitVec 4) : (request op s).cap = s.cap := rfl
@[simp] theorem request_inByte (op : BitVec 4) (o : Nat) : (request op s).inByte o = s.inByte o := rfl
@[simp] theorem request_outByte (op : BitVec 4) (o : Nat) : (request op s).outByte o = s.outByte o := rfl
@[simp] theorem request_freqAt (op : BitVec 4) (k : Nat) : (request op s).freqAt k = s.freqAt k := rfl
@[simp] theorem request_nodeAt (op : BitVec 4) (k : Nat) : (request op s).nodeAt k = s.nodeAt k := rfl
@[simp] theorem request_codeLenAt (op : BitVec 4) (k : Nat) : (request op s).codeLenAt k = s.codeLenAt k := rfl
@[simp] theorem request_codeOf (op : BitVec 4) (k : Nat) : (request op s).codeOf k = s.codeOf k := rfl

/-! ### accept -/

@[simp] theorem accept_build (op : BitVec 4) : (accept op s).build = s.build := rfl
@[simp] theorem accept_regs (op : BitVec 4) : (accept op s).regs = s.regs := rfl
@[simp] theorem accept_status_busy (op : BitVec 4) : (accept op s).status.busy = true := rfl
@[simp] theorem accept_status_done (op : BitVec 4) : (accept op s).status.done = s.status.done := rfl
@[simp] theorem accept_status_err (op : BitVec 4) : (accept op s).status.err = s.status.err := rfl
@[simp] theorem accept_status_errCode (op : BitVec 4) : (accept op s).status.errCode = s.status.errCode := rfl
@[simp] theorem accept_status_freqValid (op : BitVec 4) : (accept op s).status.freqValid = s.status.freqValid := rfl
@[simp] theorem accept_status_treeValid (op : BitVec 4) : (accept op s).status.treeValid = s.status.treeValid := rfl
@[simp] theorem accept_status_tableValid (op : BitVec 4) :
    (accept op s).status.tableValid = s.status.tableValid := rfl
@[simp] theorem accept_status_hdrValid (op : BitVec 4) : (accept op s).status.hdrValid = s.status.hdrValid := rfl
@[simp] theorem accept_phase (op : BitVec 4) : (accept op s).phase = (phasesOf op).headD .idle := rfl
@[simp] theorem accept_curOp (op : BitVec 4) : (accept op s).curOp = op := rfl
@[simp] theorem accept_mem (op : BitVec 4) : (accept op s).mem = s.mem := rfl
@[simp] theorem accept_tables (op : BitVec 4) : (accept op s).tables = s.tables := rfl
@[simp] theorem accept_dp (op : BitVec 4) : (accept op s).dp = s.dp := rfl
@[simp] theorem accept_outStale (op : BitVec 4) : (accept op s).outStale = s.outStale := rfl
@[simp] theorem accept_freeIdx (op : BitVec 4) : (accept op s).freeIdx = s.freeIdx := rfl
@[simp] theorem accept_env (op : BitVec 4) : (accept op s).env = s.env := rfl
@[simp] theorem accept_limit (op : BitVec 4) : (accept op s).limit = s.limit := rfl
@[simp] theorem accept_cap (op : BitVec 4) : (accept op s).cap = s.cap := rfl
@[simp] theorem accept_inByte (op : BitVec 4) (o : Nat) : (accept op s).inByte o = s.inByte o := rfl
@[simp] theorem accept_outByte (op : BitVec 4) (o : Nat) : (accept op s).outByte o = s.outByte o := rfl
@[simp] theorem accept_freqAt (op : BitVec 4) (k : Nat) : (accept op s).freqAt k = s.freqAt k := rfl
@[simp] theorem accept_nodeAt (op : BitVec 4) (k : Nat) : (accept op s).nodeAt k = s.nodeAt k := rfl
@[simp] theorem accept_codeLenAt (op : BitVec 4) (k : Nat) : (accept op s).codeLenAt k = s.codeLenAt k := rfl
@[simp] theorem accept_codeOf (op : BitVec 4) (k : Nat) : (accept op s).codeOf k = s.codeOf k := rfl

/-! ### immediateError -/

@[simp] theorem immediateError_build (e : ErrKind) (sub : BitVec 4) : (immediateError e sub s).build = s.build := rfl
@[simp] theorem immediateError_regs_cmdOp (e : ErrKind) (sub : BitVec 4) :
    (immediateError e sub s).regs.cmdOp = s.regs.cmdOp := rfl
@[simp] theorem immediateError_regs_errPos (e : ErrKind) (sub : BitVec 4) :
    (immediateError e sub s).regs.errPos = 0 := rfl
@[simp] theorem immediateError_regs_errSub (e : ErrKind) (sub : BitVec 4) :
    (immediateError e sub s).regs.errSub = sub := rfl
@[simp] theorem immediateError_regs_inLen (e : ErrKind) (sub : BitVec 4) :
    (immediateError e sub s).regs.inLen = s.regs.inLen := rfl
@[simp] theorem immediateError_regs_outCap (e : ErrKind) (sub : BitVec 4) :
    (immediateError e sub s).regs.outCap = s.regs.outCap := rfl
@[simp] theorem immediateError_regs_outLen (e : ErrKind) (sub : BitVec 4) :
    (immediateError e sub s).regs.outLen = s.regs.outLen := rfl
@[simp] theorem immediateError_regs_unique (e : ErrKind) (sub : BitVec 4) :
    (immediateError e sub s).regs.unique = s.regs.unique := rfl
@[simp] theorem immediateError_regs_total (e : ErrKind) (sub : BitVec 4) :
    (immediateError e sub s).regs.total = s.regs.total := rfl
@[simp] theorem immediateError_regs_payloadOfs (e : ErrKind) (sub : BitVec 4) :
    (immediateError e sub s).regs.payloadOfs = s.regs.payloadOfs := rfl
@[simp] theorem immediateError_regs_payloadBits (e : ErrKind) (sub : BitVec 4) :
    (immediateError e sub s).regs.payloadBits = s.regs.payloadBits := rfl
@[simp] theorem immediateError_regs_maxLen (e : ErrKind) (sub : BitVec 4) :
    (immediateError e sub s).regs.maxLen = s.regs.maxLen := rfl
@[simp] theorem immediateError_regs_intEn (e : ErrKind) (sub : BitVec 4) :
    (immediateError e sub s).regs.intEn = s.regs.intEn := rfl
@[simp] theorem immediateError_status_busy (e : ErrKind) (sub : BitVec 4) :
    (immediateError e sub s).status.busy = s.status.busy := rfl
@[simp] theorem immediateError_status_done (e : ErrKind) (sub : BitVec 4) :
    (immediateError e sub s).status.done = s.status.done := rfl
@[simp] theorem immediateError_status_err (e : ErrKind) (sub : BitVec 4) :
    (immediateError e sub s).status.err = true := rfl
@[simp] theorem immediateError_status_errCode (e : ErrKind) (sub : BitVec 4) :
    (immediateError e sub s).status.errCode = e.code := rfl
@[simp] theorem immediateError_status_freqValid (e : ErrKind) (sub : BitVec 4) :
    (immediateError e sub s).status.freqValid = s.status.freqValid := rfl
@[simp] theorem immediateError_status_treeValid (e : ErrKind) (sub : BitVec 4) :
    (immediateError e sub s).status.treeValid = s.status.treeValid := rfl
@[simp] theorem immediateError_status_tableValid (e : ErrKind) (sub : BitVec 4) :
    (immediateError e sub s).status.tableValid = s.status.tableValid := rfl
@[simp] theorem immediateError_status_hdrValid (e : ErrKind) (sub : BitVec 4) :
    (immediateError e sub s).status.hdrValid = s.status.hdrValid := rfl
@[simp] theorem immediateError_phase (e : ErrKind) (sub : BitVec 4) : (immediateError e sub s).phase = s.phase := rfl
@[simp] theorem immediateError_curOp (e : ErrKind) (sub : BitVec 4) : (immediateError e sub s).curOp = s.curOp := rfl
@[simp] theorem immediateError_mem (e : ErrKind) (sub : BitVec 4) : (immediateError e sub s).mem = s.mem := rfl
@[simp] theorem immediateError_tables (e : ErrKind) (sub : BitVec 4) :
    (immediateError e sub s).tables = s.tables := rfl
@[simp] theorem immediateError_dp (e : ErrKind) (sub : BitVec 4) : (immediateError e sub s).dp = s.dp := rfl
@[simp] theorem immediateError_outStale (e : ErrKind) (sub : BitVec 4) :
    (immediateError e sub s).outStale = s.outStale := rfl
@[simp] theorem immediateError_freeIdx (e : ErrKind) (sub : BitVec 4) :
    (immediateError e sub s).freeIdx = s.freeIdx := rfl
@[simp] theorem immediateError_env (e : ErrKind) (sub : BitVec 4) : (immediateError e sub s).env = s.env := rfl
@[simp] theorem immediateError_limit (e : ErrKind) (sub : BitVec 4) : (immediateError e sub s).limit = s.limit := rfl
@[simp] theorem immediateError_cap (e : ErrKind) (sub : BitVec 4) : (immediateError e sub s).cap = s.cap := rfl
@[simp] theorem immediateError_inByte (e : ErrKind) (sub : BitVec 4) (o : Nat) :
    (immediateError e sub s).inByte o = s.inByte o := rfl
@[simp] theorem immediateError_outByte (e : ErrKind) (sub : BitVec 4) (o : Nat) :
    (immediateError e sub s).outByte o = s.outByte o := rfl
@[simp] theorem immediateError_freqAt (e : ErrKind) (sub : BitVec 4) (k : Nat) :
    (immediateError e sub s).freqAt k = s.freqAt k := rfl
@[simp] theorem immediateError_nodeAt (e : ErrKind) (sub : BitVec 4) (k : Nat) :
    (immediateError e sub s).nodeAt k = s.nodeAt k := rfl
@[simp] theorem immediateError_codeLenAt (e : ErrKind) (sub : BitVec 4) (k : Nat) :
    (immediateError e sub s).codeLenAt k = s.codeLenAt k := rfl
@[simp] theorem immediateError_codeOf (e : ErrKind) (sub : BitVec 4) (k : Nat) :
    (immediateError e sub s).codeOf k = s.codeOf k := rfl

/-! ### errorCommit -/

@[simp] theorem errorCommit_build (r : Raised) : (errorCommit r s).build = s.build := rfl
@[simp] theorem errorCommit_regs_cmdOp (r : Raised) : (errorCommit r s).regs.cmdOp = s.regs.cmdOp := rfl
@[simp] theorem errorCommit_regs_errPos (r : Raised) : (errorCommit r s).regs.errPos = r.pos := rfl
@[simp] theorem errorCommit_regs_errSub (r : Raised) : (errorCommit r s).regs.errSub = r.sub := rfl
@[simp] theorem errorCommit_regs_inLen (r : Raised) : (errorCommit r s).regs.inLen = s.regs.inLen := rfl
@[simp] theorem errorCommit_regs_outCap (r : Raised) : (errorCommit r s).regs.outCap = s.regs.outCap := rfl
@[simp] theorem errorCommit_regs_outLen (r : Raised) : (errorCommit r s).regs.outLen = 0 := rfl
@[simp] theorem errorCommit_regs_unique (r : Raised) : (errorCommit r s).regs.unique = 0 := rfl
@[simp] theorem errorCommit_regs_total (r : Raised) : (errorCommit r s).regs.total = 0 := rfl
@[simp] theorem errorCommit_regs_payloadOfs (r : Raised) : (errorCommit r s).regs.payloadOfs = 0 := rfl
@[simp] theorem errorCommit_regs_payloadBits (r : Raised) : (errorCommit r s).regs.payloadBits = 0 := rfl
@[simp] theorem errorCommit_regs_maxLen (r : Raised) : (errorCommit r s).regs.maxLen = 0 := rfl
@[simp] theorem errorCommit_regs_intEn (r : Raised) : (errorCommit r s).regs.intEn = s.regs.intEn := rfl
@[simp] theorem errorCommit_status_busy (r : Raised) : (errorCommit r s).status.busy = false := rfl
@[simp] theorem errorCommit_status_done (r : Raised) : (errorCommit r s).status.done = false := rfl
@[simp] theorem errorCommit_status_err (r : Raised) : (errorCommit r s).status.err = true := rfl
@[simp] theorem errorCommit_status_errCode (r : Raised) : (errorCommit r s).status.errCode = r.kind.code := rfl
@[simp] theorem errorCommit_status_freqValid (r : Raised) : (errorCommit r s).status.freqValid = false := rfl
@[simp] theorem errorCommit_status_treeValid (r : Raised) : (errorCommit r s).status.treeValid = false := rfl
@[simp] theorem errorCommit_status_tableValid (r : Raised) : (errorCommit r s).status.tableValid = false := rfl
@[simp] theorem errorCommit_status_hdrValid (r : Raised) : (errorCommit r s).status.hdrValid = false := rfl
@[simp] theorem errorCommit_phase (r : Raised) : (errorCommit r s).phase = .idle := rfl
@[simp] theorem errorCommit_curOp (r : Raised) : (errorCommit r s).curOp = 0 := rfl
@[simp] theorem errorCommit_mem (r : Raised) :
    (errorCommit r s).mem = s.mem.forget Config.outBase (Config.outBase + s.cap) := rfl
@[simp] theorem errorCommit_tables (r : Raised) : (errorCommit r s).tables = freeTables s.build s.freeIdx := rfl
@[simp] theorem errorCommit_dp (r : Raised) : (errorCommit r s).dp = freeDatapath s.build s.freeIdx := rfl
@[simp] theorem errorCommit_outStale (r : Raised) :
    (errorCommit r s).outStale = staleBelow s.cap s.freeIdx s.outStale := rfl
@[simp] theorem errorCommit_freeIdx (r : Raised) : (errorCommit r s).freeIdx = s.freeIdx + 1 := rfl
@[simp] theorem errorCommit_env_host (r : Raised) : (errorCommit r s).env.host = s.env.host := rfl
@[simp] theorem errorCommit_env_readLog (r : Raised) : (errorCommit r s).env.readLog = s.env.readLog := rfl
@[simp] theorem errorCommit_env_latencies (r : Raised) : (errorCommit r s).env.latencies = s.env.latencies := rfl
@[simp] theorem errorCommit_env_busyLeft (r : Raised) : (errorCommit r s).env.busyLeft = 0 := rfl
@[simp] theorem errorCommit_limit (r : Raised) : (errorCommit r s).limit = s.limit := rfl
@[simp] theorem errorCommit_cap (r : Raised) : (errorCommit r s).cap = s.cap := rfl

/-! ### successCommit -/

@[simp] theorem successCommit_build : (successCommit s).build = s.build := rfl
@[simp] theorem successCommit_regs : (successCommit s).regs = s.regs := rfl
@[simp] theorem successCommit_status_busy : (successCommit s).status.busy = false := rfl
@[simp] theorem successCommit_status_done : (successCommit s).status.done = true := rfl
@[simp] theorem successCommit_status_err : (successCommit s).status.err = s.status.err := rfl
@[simp] theorem successCommit_status_errCode : (successCommit s).status.errCode = s.status.errCode := rfl
@[simp] theorem successCommit_status_freqValid : (successCommit s).status.freqValid = s.status.freqValid := rfl
@[simp] theorem successCommit_status_treeValid : (successCommit s).status.treeValid = s.status.treeValid := rfl
@[simp] theorem successCommit_status_tableValid : (successCommit s).status.tableValid = s.status.tableValid := rfl
@[simp] theorem successCommit_status_hdrValid : (successCommit s).status.hdrValid = s.status.hdrValid := rfl
@[simp] theorem successCommit_phase : (successCommit s).phase = .idle := rfl
@[simp] theorem successCommit_curOp : (successCommit s).curOp = 0 := rfl
@[simp] theorem successCommit_mem : (successCommit s).mem = s.mem := rfl
@[simp] theorem successCommit_tables : (successCommit s).tables = s.tables := rfl
@[simp] theorem successCommit_dp : (successCommit s).dp = freeDatapath s.build s.freeIdx := rfl
@[simp] theorem successCommit_outStale : (successCommit s).outStale = s.outStale := rfl
@[simp] theorem successCommit_freeIdx : (successCommit s).freeIdx = s.freeIdx + 1 := rfl
@[simp] theorem successCommit_env_host : (successCommit s).env.host = s.env.host := rfl
@[simp] theorem successCommit_env_readLog : (successCommit s).env.readLog = s.env.readLog := rfl
@[simp] theorem successCommit_env_latencies : (successCommit s).env.latencies = s.env.latencies := rfl
@[simp] theorem successCommit_env_busyLeft : (successCommit s).env.busyLeft = 0 := rfl
@[simp] theorem successCommit_limit : (successCommit s).limit = s.limit := rfl
@[simp] theorem successCommit_cap : (successCommit s).cap = s.cap := rfl
@[simp] theorem successCommit_inByte (o : Nat) : (successCommit s).inByte o = s.inByte o := rfl
@[simp] theorem successCommit_outByte (o : Nat) : (successCommit s).outByte o = s.outByte o := rfl
@[simp] theorem successCommit_freqAt (k : Nat) : (successCommit s).freqAt k = s.freqAt k := rfl
@[simp] theorem successCommit_nodeAt (k : Nat) : (successCommit s).nodeAt k = s.nodeAt k := rfl
@[simp] theorem successCommit_codeLenAt (k : Nat) : (successCommit s).codeLenAt k = s.codeLenAt k := rfl
@[simp] theorem successCommit_codeOf (k : Nat) : (successCommit s).codeOf k = s.codeOf k := rfl

/-! ### resetAction -/

@[simp] theorem resetAction_build : (resetAction s).build = s.build := rfl
@[simp] theorem resetAction_regs : (resetAction s).regs = Regs.reset := rfl
@[simp] theorem resetAction_status : (resetAction s).status = Status.reset := rfl
@[simp] theorem resetAction_phase : (resetAction s).phase = .idle := rfl
@[simp] theorem resetAction_curOp : (resetAction s).curOp = 0 := rfl
@[simp] theorem resetAction_mem :
    (resetAction s).mem = s.mem.forget Config.outBase (Config.outBase + s.build.outMax) := rfl
@[simp] theorem resetAction_tables : (resetAction s).tables = resetTables s.build s.freeIdx := rfl
@[simp] theorem resetAction_dp : (resetAction s).dp = freeDatapath s.build s.freeIdx := rfl
@[simp] theorem resetAction_outStale :
    (resetAction s).outStale = staleBelow s.build.outMax s.freeIdx s.outStale := rfl
@[simp] theorem resetAction_freeIdx : (resetAction s).freeIdx = s.freeIdx + 1 := rfl
@[simp] theorem resetAction_env_host : (resetAction s).env.host = s.env.host := rfl
@[simp] theorem resetAction_env_readLog : (resetAction s).env.readLog = s.env.readLog := rfl
@[simp] theorem resetAction_env_latencies : (resetAction s).env.latencies = s.env.latencies := rfl
@[simp] theorem resetAction_env_busyLeft : (resetAction s).env.busyLeft = 0 := rfl
@[simp] theorem resetAction_limit : (resetAction s).limit = s.limit := rfl

/-! ### countResults -/

@[simp] theorem countResults_build : (countResults s).build = s.build := rfl
@[simp] theorem countResults_regs_cmdOp : (countResults s).regs.cmdOp = s.regs.cmdOp := rfl
@[simp] theorem countResults_regs_errPos : (countResults s).regs.errPos = s.regs.errPos := rfl
@[simp] theorem countResults_regs_errSub : (countResults s).regs.errSub = s.regs.errSub := rfl
@[simp] theorem countResults_regs_inLen : (countResults s).regs.inLen = s.regs.inLen := rfl
@[simp] theorem countResults_regs_outCap : (countResults s).regs.outCap = s.regs.outCap := rfl
@[simp] theorem countResults_regs_outLen : (countResults s).regs.outLen = s.regs.outLen := rfl
@[simp] theorem countResults_regs_unique : (countResults s).regs.unique = BitVec.ofNat 32 s.distinctCount := rfl
@[simp] theorem countResults_regs_total : (countResults s).regs.total = s.regs.inLen := rfl
@[simp] theorem countResults_regs_payloadOfs : (countResults s).regs.payloadOfs = 0 := rfl
@[simp] theorem countResults_regs_payloadBits : (countResults s).regs.payloadBits = 0 := rfl
@[simp] theorem countResults_regs_maxLen : (countResults s).regs.maxLen = 0 := rfl
@[simp] theorem countResults_regs_intEn : (countResults s).regs.intEn = s.regs.intEn := rfl
@[simp] theorem countResults_status_busy : (countResults s).status.busy = s.status.busy := rfl
@[simp] theorem countResults_status_done : (countResults s).status.done = s.status.done := rfl
@[simp] theorem countResults_status_err : (countResults s).status.err = s.status.err := rfl
@[simp] theorem countResults_status_errCode : (countResults s).status.errCode = s.status.errCode := rfl
@[simp] theorem countResults_status_freqValid : (countResults s).status.freqValid = true := rfl
@[simp] theorem countResults_status_treeValid : (countResults s).status.treeValid = false := rfl
@[simp] theorem countResults_status_tableValid : (countResults s).status.tableValid = false := rfl
@[simp] theorem countResults_status_hdrValid : (countResults s).status.hdrValid = false := rfl
@[simp] theorem countResults_phase : (countResults s).phase = s.phase := rfl
@[simp] theorem countResults_curOp : (countResults s).curOp = s.curOp := rfl
@[simp] theorem countResults_mem : (countResults s).mem = s.mem := rfl
@[simp] theorem countResults_tables : (countResults s).tables = s.tables := rfl
@[simp] theorem countResults_dp : (countResults s).dp = s.dp := rfl
@[simp] theorem countResults_outStale : (countResults s).outStale = s.outStale := rfl
@[simp] theorem countResults_freeIdx : (countResults s).freeIdx = s.freeIdx := rfl
@[simp] theorem countResults_env : (countResults s).env = s.env := rfl
@[simp] theorem countResults_limit : (countResults s).limit = s.limit := rfl
@[simp] theorem countResults_cap : (countResults s).cap = s.cap := rfl
@[simp] theorem countResults_inByte (o : Nat) : (countResults s).inByte o = s.inByte o := rfl
@[simp] theorem countResults_outByte (o : Nat) : (countResults s).outByte o = s.outByte o := rfl
@[simp] theorem countResults_freqAt (k : Nat) : (countResults s).freqAt k = s.freqAt k := rfl
@[simp] theorem countResults_nodeAt (k : Nat) : (countResults s).nodeAt k = s.nodeAt k := rfl
@[simp] theorem countResults_codeLenAt (k : Nat) : (countResults s).codeLenAt k = s.codeLenAt k := rfl
@[simp] theorem countResults_codeOf (k : Nat) : (countResults s).codeOf k = s.codeOf k := rfl

/-! ### buildTreeResults -/

@[simp] theorem buildTreeResults_build : (buildTreeResults s).build = s.build := rfl
@[simp] theorem buildTreeResults_regs_cmdOp : (buildTreeResults s).regs.cmdOp = s.regs.cmdOp := rfl
@[simp] theorem buildTreeResults_regs_errPos : (buildTreeResults s).regs.errPos = s.regs.errPos := rfl
@[simp] theorem buildTreeResults_regs_errSub : (buildTreeResults s).regs.errSub = s.regs.errSub := rfl
@[simp] theorem buildTreeResults_regs_inLen : (buildTreeResults s).regs.inLen = s.regs.inLen := rfl
@[simp] theorem buildTreeResults_regs_outCap : (buildTreeResults s).regs.outCap = s.regs.outCap := rfl
@[simp] theorem buildTreeResults_regs_outLen : (buildTreeResults s).regs.outLen = s.regs.outLen := rfl
@[simp] theorem buildTreeResults_regs_unique : (buildTreeResults s).regs.unique = s.regs.unique := rfl
@[simp] theorem buildTreeResults_regs_total : (buildTreeResults s).regs.total = s.regs.total := rfl
@[simp] theorem buildTreeResults_regs_payloadOfs : (buildTreeResults s).regs.payloadOfs = s.regs.payloadOfs := rfl
@[simp] theorem buildTreeResults_regs_payloadBits : (buildTreeResults s).regs.payloadBits = 0 := rfl
@[simp] theorem buildTreeResults_regs_maxLen : (buildTreeResults s).regs.maxLen = 0 := rfl
@[simp] theorem buildTreeResults_regs_intEn : (buildTreeResults s).regs.intEn = s.regs.intEn := rfl
@[simp] theorem buildTreeResults_status_busy : (buildTreeResults s).status.busy = s.status.busy := rfl
@[simp] theorem buildTreeResults_status_done : (buildTreeResults s).status.done = s.status.done := rfl
@[simp] theorem buildTreeResults_status_err : (buildTreeResults s).status.err = s.status.err := rfl
@[simp] theorem buildTreeResults_status_errCode : (buildTreeResults s).status.errCode = s.status.errCode := rfl
@[simp] theorem buildTreeResults_status_freqValid : (buildTreeResults s).status.freqValid = s.status.freqValid := rfl
@[simp] theorem buildTreeResults_status_treeValid : (buildTreeResults s).status.treeValid = true := rfl
@[simp] theorem buildTreeResults_status_tableValid : (buildTreeResults s).status.tableValid = false := rfl
@[simp] theorem buildTreeResults_status_hdrValid : (buildTreeResults s).status.hdrValid = false := rfl
@[simp] theorem buildTreeResults_phase : (buildTreeResults s).phase = s.phase := rfl
@[simp] theorem buildTreeResults_curOp : (buildTreeResults s).curOp = s.curOp := rfl
@[simp] theorem buildTreeResults_mem : (buildTreeResults s).mem = s.mem := rfl
@[simp] theorem buildTreeResults_tables : (buildTreeResults s).tables = s.tables := rfl
@[simp] theorem buildTreeResults_dp : (buildTreeResults s).dp = s.dp := rfl
@[simp] theorem buildTreeResults_outStale : (buildTreeResults s).outStale = s.outStale := rfl
@[simp] theorem buildTreeResults_freeIdx : (buildTreeResults s).freeIdx = s.freeIdx := rfl
@[simp] theorem buildTreeResults_env : (buildTreeResults s).env = s.env := rfl
@[simp] theorem buildTreeResults_limit : (buildTreeResults s).limit = s.limit := rfl
@[simp] theorem buildTreeResults_cap : (buildTreeResults s).cap = s.cap := rfl
@[simp] theorem buildTreeResults_inByte (o : Nat) : (buildTreeResults s).inByte o = s.inByte o := rfl
@[simp] theorem buildTreeResults_outByte (o : Nat) : (buildTreeResults s).outByte o = s.outByte o := rfl
@[simp] theorem buildTreeResults_freqAt (k : Nat) : (buildTreeResults s).freqAt k = s.freqAt k := rfl
@[simp] theorem buildTreeResults_nodeAt (k : Nat) : (buildTreeResults s).nodeAt k = s.nodeAt k := rfl
@[simp] theorem buildTreeResults_codeLenAt (k : Nat) : (buildTreeResults s).codeLenAt k = s.codeLenAt k := rfl
@[simp] theorem buildTreeResults_codeOf (k : Nat) : (buildTreeResults s).codeOf k = s.codeOf k := rfl

/-! ### buildTableResults -/

@[simp] theorem buildTableResults_build : (buildTableResults s).build = s.build := rfl
@[simp] theorem buildTableResults_regs_cmdOp : (buildTableResults s).regs.cmdOp = s.regs.cmdOp := rfl
@[simp] theorem buildTableResults_regs_errPos : (buildTableResults s).regs.errPos = s.regs.errPos := rfl
@[simp] theorem buildTableResults_regs_errSub : (buildTableResults s).regs.errSub = s.regs.errSub := rfl
@[simp] theorem buildTableResults_regs_inLen : (buildTableResults s).regs.inLen = s.regs.inLen := rfl
@[simp] theorem buildTableResults_regs_outCap : (buildTableResults s).regs.outCap = s.regs.outCap := rfl
@[simp] theorem buildTableResults_regs_outLen : (buildTableResults s).regs.outLen = s.regs.outLen := rfl
@[simp] theorem buildTableResults_regs_unique : (buildTableResults s).regs.unique = s.regs.unique := rfl
@[simp] theorem buildTableResults_regs_total : (buildTableResults s).regs.total = s.regs.total := rfl
@[simp] theorem buildTableResults_regs_payloadOfs : (buildTableResults s).regs.payloadOfs = s.regs.payloadOfs := rfl
@[simp] theorem buildTableResults_regs_payloadBits :
    (buildTableResults s).regs.payloadBits = BitVec.ofNat 32 s.bitCount := rfl
@[simp] theorem buildTableResults_regs_maxLen :
    (buildTableResults s).regs.maxLen = BitVec.ofNat 8 s.greatestLen := rfl
@[simp] theorem buildTableResults_regs_intEn : (buildTableResults s).regs.intEn = s.regs.intEn := rfl
@[simp] theorem buildTableResults_status_busy : (buildTableResults s).status.busy = s.status.busy := rfl
@[simp] theorem buildTableResults_status_done : (buildTableResults s).status.done = s.status.done := rfl
@[simp] theorem buildTableResults_status_err : (buildTableResults s).status.err = s.status.err := rfl
@[simp] theorem buildTableResults_status_errCode : (buildTableResults s).status.errCode = s.status.errCode := rfl
@[simp] theorem buildTableResults_status_freqValid :
    (buildTableResults s).status.freqValid = s.status.freqValid := rfl
@[simp] theorem buildTableResults_status_treeValid :
    (buildTableResults s).status.treeValid = s.status.treeValid := rfl
@[simp] theorem buildTableResults_status_tableValid : (buildTableResults s).status.tableValid = true := rfl
@[simp] theorem buildTableResults_status_hdrValid : (buildTableResults s).status.hdrValid = s.status.hdrValid := rfl
@[simp] theorem buildTableResults_phase : (buildTableResults s).phase = s.phase := rfl
@[simp] theorem buildTableResults_curOp : (buildTableResults s).curOp = s.curOp := rfl
@[simp] theorem buildTableResults_mem : (buildTableResults s).mem = s.mem := rfl
@[simp] theorem buildTableResults_tables : (buildTableResults s).tables = s.tables := rfl
@[simp] theorem buildTableResults_dp : (buildTableResults s).dp = s.dp := rfl
@[simp] theorem buildTableResults_outStale : (buildTableResults s).outStale = s.outStale := rfl
@[simp] theorem buildTableResults_freeIdx : (buildTableResults s).freeIdx = s.freeIdx := rfl
@[simp] theorem buildTableResults_env : (buildTableResults s).env = s.env := rfl
@[simp] theorem buildTableResults_limit : (buildTableResults s).limit = s.limit := rfl
@[simp] theorem buildTableResults_cap : (buildTableResults s).cap = s.cap := rfl
@[simp] theorem buildTableResults_inByte (o : Nat) : (buildTableResults s).inByte o = s.inByte o := rfl
@[simp] theorem buildTableResults_outByte (o : Nat) : (buildTableResults s).outByte o = s.outByte o := rfl
@[simp] theorem buildTableResults_freqAt (k : Nat) : (buildTableResults s).freqAt k = s.freqAt k := rfl
@[simp] theorem buildTableResults_nodeAt (k : Nat) : (buildTableResults s).nodeAt k = s.nodeAt k := rfl
@[simp] theorem buildTableResults_codeLenAt (k : Nat) : (buildTableResults s).codeLenAt k = s.codeLenAt k := rfl
@[simp] theorem buildTableResults_codeOf (k : Nat) : (buildTableResults s).codeOf k = s.codeOf k := rfl

/-! ### serializeResults -/

@[simp] theorem serializeResults_build : (serializeResults s).build = s.build := rfl
@[simp] theorem serializeResults_regs_cmdOp : (serializeResults s).regs.cmdOp = s.regs.cmdOp := rfl
@[simp] theorem serializeResults_regs_errPos : (serializeResults s).regs.errPos = s.regs.errPos := rfl
@[simp] theorem serializeResults_regs_errSub : (serializeResults s).regs.errSub = s.regs.errSub := rfl
@[simp] theorem serializeResults_regs_inLen : (serializeResults s).regs.inLen = s.regs.inLen := rfl
@[simp] theorem serializeResults_regs_outCap : (serializeResults s).regs.outCap = s.regs.outCap := rfl
@[simp] theorem serializeResults_regs_outLen : (serializeResults s).regs.outLen = s.dp.wrPtr := rfl
@[simp] theorem serializeResults_regs_unique : (serializeResults s).regs.unique = s.regs.unique := rfl
@[simp] theorem serializeResults_regs_total : (serializeResults s).regs.total = s.regs.total := rfl
@[simp] theorem serializeResults_regs_payloadOfs : (serializeResults s).regs.payloadOfs = s.regs.payloadOfs := rfl
@[simp] theorem serializeResults_regs_payloadBits : (serializeResults s).regs.payloadBits = s.regs.payloadBits := rfl
@[simp] theorem serializeResults_regs_maxLen : (serializeResults s).regs.maxLen = s.regs.maxLen := rfl
@[simp] theorem serializeResults_regs_intEn : (serializeResults s).regs.intEn = s.regs.intEn := rfl
@[simp] theorem serializeResults_status : (serializeResults s).status = s.status := rfl
@[simp] theorem serializeResults_phase : (serializeResults s).phase = s.phase := rfl
@[simp] theorem serializeResults_curOp : (serializeResults s).curOp = s.curOp := rfl
@[simp] theorem serializeResults_mem : (serializeResults s).mem = s.mem := rfl
@[simp] theorem serializeResults_tables : (serializeResults s).tables = s.tables := rfl
@[simp] theorem serializeResults_dp : (serializeResults s).dp = s.dp := rfl
@[simp] theorem serializeResults_outStale : (serializeResults s).outStale = s.outStale := rfl
@[simp] theorem serializeResults_freeIdx : (serializeResults s).freeIdx = s.freeIdx := rfl
@[simp] theorem serializeResults_env : (serializeResults s).env = s.env := rfl
@[simp] theorem serializeResults_limit : (serializeResults s).limit = s.limit := rfl
@[simp] theorem serializeResults_cap : (serializeResults s).cap = s.cap := rfl
@[simp] theorem serializeResults_inByte (o : Nat) : (serializeResults s).inByte o = s.inByte o := rfl
@[simp] theorem serializeResults_outByte (o : Nat) : (serializeResults s).outByte o = s.outByte o := rfl
@[simp] theorem serializeResults_freqAt (k : Nat) : (serializeResults s).freqAt k = s.freqAt k := rfl
@[simp] theorem serializeResults_nodeAt (k : Nat) : (serializeResults s).nodeAt k = s.nodeAt k := rfl
@[simp] theorem serializeResults_codeLenAt (k : Nat) : (serializeResults s).codeLenAt k = s.codeLenAt k := rfl
@[simp] theorem serializeResults_codeOf (k : Nat) : (serializeResults s).codeOf k = s.codeOf k := rfl

/-! ### parseCommit -/

@[simp] theorem parseCommit_build (u t : Nat) : (parseCommit u t s).build = s.build := rfl
@[simp] theorem parseCommit_regs_cmdOp (u t : Nat) : (parseCommit u t s).regs.cmdOp = s.regs.cmdOp := rfl
@[simp] theorem parseCommit_regs_errPos (u t : Nat) : (parseCommit u t s).regs.errPos = s.regs.errPos := rfl
@[simp] theorem parseCommit_regs_errSub (u t : Nat) : (parseCommit u t s).regs.errSub = s.regs.errSub := rfl
@[simp] theorem parseCommit_regs_inLen (u t : Nat) : (parseCommit u t s).regs.inLen = s.regs.inLen := rfl
@[simp] theorem parseCommit_regs_outCap (u t : Nat) : (parseCommit u t s).regs.outCap = s.regs.outCap := rfl
@[simp] theorem parseCommit_regs_outLen (u t : Nat) : (parseCommit u t s).regs.outLen = s.regs.outLen := rfl
@[simp] theorem parseCommit_regs_unique (u t : Nat) : (parseCommit u t s).regs.unique = BitVec.ofNat 32 u := rfl
@[simp] theorem parseCommit_regs_total (u t : Nat) : (parseCommit u t s).regs.total = BitVec.ofNat 32 t := rfl
@[simp] theorem parseCommit_regs_payloadOfs (u t : Nat) : (parseCommit u t s).regs.payloadOfs = s.dp.rdPtr := rfl
@[simp] theorem parseCommit_regs_payloadBits (u t : Nat) : (parseCommit u t s).regs.payloadBits = 0 := rfl
@[simp] theorem parseCommit_regs_maxLen (u t : Nat) :
    (parseCommit u t s).regs.maxLen = BitVec.ofNat 8 s.greatestLen := rfl
@[simp] theorem parseCommit_regs_intEn (u t : Nat) : (parseCommit u t s).regs.intEn = s.regs.intEn := rfl
@[simp] theorem parseCommit_status_busy (u t : Nat) : (parseCommit u t s).status.busy = s.status.busy := rfl
@[simp] theorem parseCommit_status_done (u t : Nat) : (parseCommit u t s).status.done = s.status.done := rfl
@[simp] theorem parseCommit_status_err (u t : Nat) : (parseCommit u t s).status.err = s.status.err := rfl
@[simp] theorem parseCommit_status_errCode (u t : Nat) : (parseCommit u t s).status.errCode = s.status.errCode := rfl
@[simp] theorem parseCommit_status_freqValid (u t : Nat) : (parseCommit u t s).status.freqValid = false := rfl
@[simp] theorem parseCommit_status_treeValid (u t : Nat) : (parseCommit u t s).status.treeValid = false := rfl
@[simp] theorem parseCommit_status_tableValid (u t : Nat) : (parseCommit u t s).status.tableValid = true := rfl
@[simp] theorem parseCommit_status_hdrValid (u t : Nat) : (parseCommit u t s).status.hdrValid = true := rfl
@[simp] theorem parseCommit_phase (u t : Nat) : (parseCommit u t s).phase = s.phase := rfl
@[simp] theorem parseCommit_curOp (u t : Nat) : (parseCommit u t s).curOp = s.curOp := rfl
@[simp] theorem parseCommit_mem (u t : Nat) : (parseCommit u t s).mem = s.mem := rfl
@[simp] theorem parseCommit_tables (u t : Nat) : (parseCommit u t s).tables = s.tables := rfl
@[simp] theorem parseCommit_dp (u t : Nat) : (parseCommit u t s).dp = s.dp := rfl
@[simp] theorem parseCommit_outStale (u t : Nat) : (parseCommit u t s).outStale = s.outStale := rfl
@[simp] theorem parseCommit_freeIdx (u t : Nat) : (parseCommit u t s).freeIdx = s.freeIdx := rfl
@[simp] theorem parseCommit_env (u t : Nat) : (parseCommit u t s).env = s.env := rfl
@[simp] theorem parseCommit_limit (u t : Nat) : (parseCommit u t s).limit = s.limit := rfl
@[simp] theorem parseCommit_cap (u t : Nat) : (parseCommit u t s).cap = s.cap := rfl
@[simp] theorem parseCommit_inByte (u t : Nat) (o : Nat) : (parseCommit u t s).inByte o = s.inByte o := rfl
@[simp] theorem parseCommit_outByte (u t : Nat) (o : Nat) : (parseCommit u t s).outByte o = s.outByte o := rfl
@[simp] theorem parseCommit_freqAt (u t : Nat) (k : Nat) : (parseCommit u t s).freqAt k = s.freqAt k := rfl
@[simp] theorem parseCommit_nodeAt (u t : Nat) (k : Nat) : (parseCommit u t s).nodeAt k = s.nodeAt k := rfl
@[simp] theorem parseCommit_codeLenAt (u t : Nat) (k : Nat) : (parseCommit u t s).codeLenAt k = s.codeLenAt k := rfl
@[simp] theorem parseCommit_codeOf (u t : Nat) (k : Nat) : (parseCommit u t s).codeOf k = s.codeOf k := rfl

/-! ### decodeResults -/

@[simp] theorem decodeResults_build : (decodeResults s).build = s.build := rfl
@[simp] theorem decodeResults_regs_cmdOp : (decodeResults s).regs.cmdOp = s.regs.cmdOp := rfl
@[simp] theorem decodeResults_regs_errPos : (decodeResults s).regs.errPos = s.regs.errPos := rfl
@[simp] theorem decodeResults_regs_errSub : (decodeResults s).regs.errSub = s.regs.errSub := rfl
@[simp] theorem decodeResults_regs_inLen : (decodeResults s).regs.inLen = s.regs.inLen := rfl
@[simp] theorem decodeResults_regs_outCap : (decodeResults s).regs.outCap = s.regs.outCap := rfl
@[simp] theorem decodeResults_regs_outLen : (decodeResults s).regs.outLen = s.regs.total := rfl
@[simp] theorem decodeResults_regs_unique : (decodeResults s).regs.unique = s.regs.unique := rfl
@[simp] theorem decodeResults_regs_total : (decodeResults s).regs.total = s.regs.total := rfl
@[simp] theorem decodeResults_regs_payloadOfs : (decodeResults s).regs.payloadOfs = s.regs.payloadOfs := rfl
@[simp] theorem decodeResults_regs_payloadBits : (decodeResults s).regs.payloadBits = s.dp.q := rfl
@[simp] theorem decodeResults_regs_maxLen : (decodeResults s).regs.maxLen = s.regs.maxLen := rfl
@[simp] theorem decodeResults_regs_intEn : (decodeResults s).regs.intEn = s.regs.intEn := rfl
@[simp] theorem decodeResults_status : (decodeResults s).status = s.status := rfl
@[simp] theorem decodeResults_phase : (decodeResults s).phase = s.phase := rfl
@[simp] theorem decodeResults_curOp : (decodeResults s).curOp = s.curOp := rfl
@[simp] theorem decodeResults_mem : (decodeResults s).mem = s.mem := rfl
@[simp] theorem decodeResults_tables : (decodeResults s).tables = s.tables := rfl
@[simp] theorem decodeResults_dp : (decodeResults s).dp = s.dp := rfl
@[simp] theorem decodeResults_outStale : (decodeResults s).outStale = s.outStale := rfl
@[simp] theorem decodeResults_freeIdx : (decodeResults s).freeIdx = s.freeIdx := rfl
@[simp] theorem decodeResults_env : (decodeResults s).env = s.env := rfl
@[simp] theorem decodeResults_limit : (decodeResults s).limit = s.limit := rfl
@[simp] theorem decodeResults_cap : (decodeResults s).cap = s.cap := rfl
@[simp] theorem decodeResults_inByte (o : Nat) : (decodeResults s).inByte o = s.inByte o := rfl
@[simp] theorem decodeResults_outByte (o : Nat) : (decodeResults s).outByte o = s.outByte o := rfl
@[simp] theorem decodeResults_freqAt (k : Nat) : (decodeResults s).freqAt k = s.freqAt k := rfl
@[simp] theorem decodeResults_nodeAt (k : Nat) : (decodeResults s).nodeAt k = s.nodeAt k := rfl
@[simp] theorem decodeResults_codeLenAt (k : Nat) : (decodeResults s).codeLenAt k = s.codeLenAt k := rfl
@[simp] theorem decodeResults_codeOf (k : Nat) : (decodeResults s).codeOf k = s.codeOf k := rfl

/-! ### State.fetchNext -/

@[simp] theorem State.fetchNext_build (nb w : Nat) : (s.fetchNext nb w).build = s.build := rfl
@[simp] theorem State.fetchNext_regs (nb w : Nat) : (s.fetchNext nb w).regs = s.regs := rfl
@[simp] theorem State.fetchNext_status (nb w : Nat) : (s.fetchNext nb w).status = s.status := rfl
@[simp] theorem State.fetchNext_phase (nb w : Nat) : (s.fetchNext nb w).phase = s.phase := rfl
@[simp] theorem State.fetchNext_curOp (nb w : Nat) : (s.fetchNext nb w).curOp = s.curOp := rfl
@[simp] theorem State.fetchNext_mem (nb w : Nat) : (s.fetchNext nb w).mem = s.mem := rfl
@[simp] theorem State.fetchNext_tables (nb w : Nat) : (s.fetchNext nb w).tables = s.tables := rfl
@[simp] theorem State.fetchNext_dp (nb w : Nat) : (s.fetchNext nb w).dp = s.dp := rfl
@[simp] theorem State.fetchNext_outStale (nb w : Nat) : (s.fetchNext nb w).outStale = s.outStale := rfl
@[simp] theorem State.fetchNext_freeIdx (nb w : Nat) : (s.fetchNext nb w).freeIdx = s.freeIdx := rfl
@[simp] theorem State.fetchNext_env_host (nb w : Nat) :
    (s.fetchNext nb w).env.host = cmdWriteOf nb w :: s.env.host := rfl
@[simp] theorem State.fetchNext_env_readLog (nb w : Nat) : (s.fetchNext nb w).env.readLog = s.env.readLog := rfl
@[simp] theorem State.fetchNext_env_latencies (nb w : Nat) : (s.fetchNext nb w).env.latencies = s.env.latencies := rfl
@[simp] theorem State.fetchNext_limit (nb w : Nat) : (s.fetchNext nb w).limit = s.limit := rfl
@[simp] theorem State.fetchNext_cap (nb w : Nat) : (s.fetchNext nb w).cap = s.cap := rfl
@[simp] theorem State.fetchNext_inByte (nb w : Nat) (o : Nat) : (s.fetchNext nb w).inByte o = s.inByte o := rfl
@[simp] theorem State.fetchNext_outByte (nb w : Nat) (o : Nat) : (s.fetchNext nb w).outByte o = s.outByte o := rfl
@[simp] theorem State.fetchNext_freqAt (nb w : Nat) (k : Nat) : (s.fetchNext nb w).freqAt k = s.freqAt k := rfl
@[simp] theorem State.fetchNext_nodeAt (nb w : Nat) (k : Nat) : (s.fetchNext nb w).nodeAt k = s.nodeAt k := rfl
@[simp] theorem State.fetchNext_codeLenAt (nb w : Nat) (k : Nat) :
    (s.fetchNext nb w).codeLenAt k = s.codeLenAt k := rfl
@[simp] theorem State.fetchNext_codeOf (nb w : Nat) (k : Nat) : (s.fetchNext nb w).codeOf k = s.codeOf k := rfl

/-! ### State.withScript -/

@[simp] theorem State.withScript_build (l : List HostOp) : (s.withScript l).build = s.build := rfl
@[simp] theorem State.withScript_regs (l : List HostOp) : (s.withScript l).regs = s.regs := rfl
@[simp] theorem State.withScript_status (l : List HostOp) : (s.withScript l).status = s.status := rfl
@[simp] theorem State.withScript_phase (l : List HostOp) : (s.withScript l).phase = s.phase := rfl
@[simp] theorem State.withScript_curOp (l : List HostOp) : (s.withScript l).curOp = s.curOp := rfl
@[simp] theorem State.withScript_mem (l : List HostOp) : (s.withScript l).mem = s.mem := rfl
@[simp] theorem State.withScript_tables (l : List HostOp) : (s.withScript l).tables = s.tables := rfl
@[simp] theorem State.withScript_dp (l : List HostOp) : (s.withScript l).dp = s.dp := rfl
@[simp] theorem State.withScript_outStale (l : List HostOp) : (s.withScript l).outStale = s.outStale := rfl
@[simp] theorem State.withScript_freeIdx (l : List HostOp) : (s.withScript l).freeIdx = s.freeIdx := rfl
@[simp] theorem State.withScript_env_host (l : List HostOp) : (s.withScript l).env.host = l ++ s.env.host := rfl
@[simp] theorem State.withScript_env_readLog (l : List HostOp) : (s.withScript l).env.readLog = s.env.readLog := rfl
@[simp] theorem State.withScript_env_latencies (l : List HostOp) :
    (s.withScript l).env.latencies = s.env.latencies := rfl
@[simp] theorem State.withScript_env_busyLeft (l : List HostOp) :
    (s.withScript l).env.busyLeft = s.env.busyLeft := rfl
@[simp] theorem State.withScript_limit (l : List HostOp) : (s.withScript l).limit = s.limit := rfl
@[simp] theorem State.withScript_cap (l : List HostOp) : (s.withScript l).cap = s.cap := rfl
@[simp] theorem State.withScript_inByte (l : List HostOp) (o : Nat) : (s.withScript l).inByte o = s.inByte o := rfl
@[simp] theorem State.withScript_outByte (l : List HostOp) (o : Nat) : (s.withScript l).outByte o = s.outByte o := rfl
@[simp] theorem State.withScript_freqAt (l : List HostOp) (k : Nat) : (s.withScript l).freqAt k = s.freqAt k := rfl
@[simp] theorem State.withScript_nodeAt (l : List HostOp) (k : Nat) : (s.withScript l).nodeAt k = s.nodeAt k := rfl
@[simp] theorem State.withScript_codeLenAt (l : List HostOp) (k : Nat) :
    (s.withScript l).codeLenAt k = s.codeLenAt k := rfl
@[simp] theorem State.withScript_codeOf (l : List HostOp) (k : Nat) : (s.withScript l).codeOf k = s.codeOf k := rfl

end Sys2Proof.Machine
end

