-- ==== Sys2Proof/Laws/Memory.lean ====
section
/-! SUPPORT. The laws of the byte memory: a read after a write, a read elsewhere, forgetting a range, and that
every memory operation keeps the canonical form (log entry 3). -/

namespace Sys2Proof.Machine

open Sys2Proof.Config (inBase outBase)

/-! ### Reads -/

@[simp] theorem Memory.get_nil (a : Nat) : Memory.get [] a = none := rfl

/-- An address below every listed one is unlisted. -/
theorem Memory.get_eq_none_of_lt {m : Memory} {a : Nat} (h : ∀ c ∈ m, a < c.1) : m.get a = none := by
  induction m with
  | nil => rfl
  | cons c m ih =>
    have hc := h c (by simp)
    rw [Memory.get, if_neg (by omega)]
    exact ih fun d hd => h d (by simp [hd])

/-- A write is read back. -/
@[simp] theorem Memory.get_set_same (m : Memory) (a : Nat) (b : Byte) : (m.set a b).get a = some b := by
  induction m with
  | nil => simp [Memory.set, Memory.get]
  | cons c m ih =>
    rw [Memory.set]
    split
    · simp [Memory.get]
    · split
      · simp [Memory.get]
      · rename_i _ hne
        rw [Memory.get, if_neg hne, ih]

/-- A write leaves every other address alone. -/
theorem Memory.get_set_other (m : Memory) {a a' : Nat} (b : Byte) (h : a' ≠ a) :
    (m.set a b).get a' = m.get a' := by
  induction m with
  | nil => simp [Memory.set, Memory.get, h.symm]
  | cons c m ih =>
    rw [Memory.set]
    split
    · rw [Memory.get, if_neg (fun e => h e.symm)]
    · split
      · rename_i _ hc
        rw [Memory.get, Memory.get, if_neg (fun e => h e.symm), if_neg (by omega)]
      · rw [Memory.get, Memory.get, ih]

/-- A forgotten address is unlisted. -/
theorem Memory.get_forget_inside (m : Memory) {lo hi a : Nat} (h₁ : lo ≤ a) (h₂ : a < hi) :
    (m.forget lo hi).get a = none := by
  induction m with
  | nil => rfl
  | cons c m ih =>
    rw [Memory.forget] at *
    by_cases hc : lo ≤ c.1 ∧ c.1 < hi
    · simpa [List.filter_cons, hc] using ih
    · rw [List.filter_cons_of_pos (by simp; omega), Memory.get, if_neg (by omega), ih]

/-- Addresses outside the forgotten range read as before. -/
theorem Memory.get_forget_outside (m : Memory) {lo hi a : Nat} (h : ¬ (lo ≤ a ∧ a < hi)) :
    (m.forget lo hi).get a = m.get a := by
  induction m with
  | nil => rfl
  | cons c m ih =>
    rw [Memory.forget] at *
    by_cases hc : lo ≤ c.1 ∧ c.1 < hi
    · rw [List.filter_cons_of_neg (by simpa using hc), ih, Memory.get, if_neg (by omega)]
    · rw [List.filter_cons_of_pos (by simp; omega), Memory.get, Memory.get, ih]

/-! ### The canonical form -/

/-- The addresses after a write are those before, and the one written. -/
theorem Memory.mem_set {m : Memory} {a : Nat} {b : Byte} {c : Host.Cell} (h : c ∈ m.set a b) :
    c = (a, b) ∨ c ∈ m := by
  induction m with
  | nil => simpa [Memory.set] using h
  | cons d m ih =>
    rw [Memory.set] at h
    split at h
    · simpa using h
    · split at h
      · rcases List.mem_cons.1 h with h | h
        · exact .inl h
        · exact .inr (List.mem_cons_of_mem _ h)
      · rcases List.mem_cons.1 h with h | h
        · exact .inr (h ▸ List.mem_cons_self)
        · exact (ih h).imp id (List.mem_cons_of_mem _)

/-- A write keeps the canonical form. -/
theorem Memory.set_wf {m : Memory} (hm : m.wf) (a : Nat) (b : Byte) : (m.set a b).wf := by
  induction m with
  | nil => simp [Memory.set, Memory.wf]
  | cons c m ih =>
    obtain ⟨hc, hm'⟩ := List.pairwise_cons.1 hm
    rw [Memory.set]
    split
    · rename_i hlt
      refine List.pairwise_cons.2 ⟨fun d hd => ?_, hm⟩
      rcases List.mem_cons.1 hd with rfl | hd
      · exact hlt
      · exact Nat.lt_trans hlt (hc d hd)
    · split
      · rename_i _ heq
        exact List.pairwise_cons.2 ⟨fun d hd => heq ▸ hc d hd, hm'⟩
      · refine List.pairwise_cons.2 ⟨fun d hd => ?_, ih hm'⟩
        rcases Memory.mem_set hd with rfl | hd
        · show c.1 < a
          omega
        · exact hc d hd

/-- Forgetting keeps the canonical form. -/
theorem Memory.forget_wf {m : Memory} (hm : m.wf) (lo hi : Nat) : (m.forget lo hi).wf := List.Pairwise.filter _ hm

/-- Forgetting adds nothing. -/
theorem Memory.mem_of_mem_forget {m : Memory} {lo hi : Nat} {c : Host.Cell} (h : c ∈ m.forget lo hi) : c ∈ m :=
  List.mem_of_mem_filter h

/-- Memory lists nothing after reset. -/
theorem State.reset_mem_wf : State.reset.mem.wf := List.Pairwise.nil

theorem State.outWrite_mem_wf {s : State} (h : s.mem.wf) (a : Nat) (v : Byte) : (s.outWrite a v).mem.wf := by
  unfold State.outWrite
  split
  · exact Memory.set_wf h _ _
  · exact h

theorem State.inWrite_mem_wf {s : State} (h : s.mem.wf) (a : Nat) (v : Byte) : (s.inWrite a v).mem.wf :=
  Memory.set_wf h _ _

theorem State.forgetOut_mem_wf {s : State} (h : s.mem.wf) (n e : Nat) : (s.forgetOut n e).mem.wf :=
  Memory.forget_wf h _ _

/-! ### The two buffers -/

/-- A byte written to OUT_MEM is read back. -/
theorem State.outWrite_outByte_same (s : State) {a : Nat} (h : a < s.build.outMax) (v : Byte) :
    (s.outWrite a v).outByte a = v := by simp [State.outWrite, h, State.outByte]

/-- The other bytes of OUT_MEM stay. -/
theorem State.outWrite_outByte_other (s : State) {a a' : Nat} (h : a' ≠ a) (v : Byte) :
    (s.outWrite a v).outByte a' = s.outByte a' := by
  unfold State.outWrite
  split
  · simp [State.outByte, Memory.get_set_other _ _ (show outBase + a' ≠ outBase + a by omega)]
  · rfl

/-- A write to OUT_MEM leaves IN_MEM, the 2^28 bytes below it, alone. -/
theorem State.outWrite_inByte (s : State) (a : Nat) (v : Byte) {a' : Nat} (h : a' < 2 ^ 28) :
    (s.outWrite a v).inByte a' = s.inByte a' := by
  unfold State.outWrite
  split
  · have : inBase + a' ≠ outBase + a := by simp only [inBase, outBase]; omega
    simp [State.inByte, Memory.get_set_other _ _ this]
  · rfl

/-- A byte written to IN_MEM is read back. -/
@[simp] theorem State.inWrite_inByte_same (s : State) (a : Nat) (v : Byte) : (s.inWrite a v).inByte a = v := by
  simp [State.inByte]

/-- The other bytes of IN_MEM stay. -/
theorem State.inWrite_inByte_other (s : State) {a a' : Nat} (h : a' ≠ a) (v : Byte) :
    (s.inWrite a v).inByte a' = s.inByte a' := by
  simp [State.inByte, Memory.get_set_other _ _ (show inBase + a' ≠ inBase + a by omega)]

/-- A host write to IN_MEM leaves OUT_MEM alone. -/
theorem State.inWrite_outByte (s : State) {a : Nat} (v : Byte) (h : a < 2 ^ 28) (a' : Nat) :
    (s.inWrite a v).outByte a' = s.outByte a' := by
  have : outBase + a' ≠ inBase + a := by simp only [inBase, outBase]; omega
  simp [State.outByte, Memory.get_set_other _ _ this]

/-- Forgetting OUT_MEM leaves IN_MEM alone. -/
theorem State.forgetOut_inByte (s : State) (n e : Nat) {a : Nat} (h : a < 2 ^ 28) :
    (s.forgetOut n e).inByte a = s.inByte a := by
  have : ¬ (outBase ≤ inBase + a ∧ inBase + a < outBase + n) := by simp only [inBase, outBase]; omega
  simp [State.inByte, Memory.get_forget_outside _ this]

/-- The epoch of an offset that has become unspecified. -/
theorem outEpoch_staleBelow_inside (stale : List (Nat × Nat)) {n a : Nat} (e : Nat) (h : a < n) :
    outEpoch (staleBelow n e stale) a = e := by
  simp [outEpoch, staleBelow, show n ≠ 0 by omega, h]

/-- The epoch of an offset that has not. -/
theorem outEpoch_staleBelow_outside (stale : List (Nat × Nat)) {n a : Nat} (e : Nat) (h : n ≤ a) :
    outEpoch (staleBelow n e stale) a = outEpoch stale a := by
  have hf : (stale.filter (fun p => decide (n < p.1))).find? (fun p => decide (a < p.1))
      = stale.find? (fun p => decide (a < p.1)) := by
    rw [List.find?_filter]
    congr 1
    funext p
    rw [Bool.eq_iff_iff]
    simp
    omega
  rw [staleBelow]
  split
  · rfl
  · rw [outEpoch, List.find?_cons_of_neg (by simpa using h), hf, outEpoch]

/-- A forgotten byte of OUT_MEM is the free value of that epoch. -/
theorem State.forgetOut_outByte_inside (s : State) {n a : Nat} (e : Nat) (h : a < n) :
    (s.forgetOut n e).outByte a = Config.freeBits (.outByte a) e 8 := by
  simp [State.outByte, Memory.get_forget_inside s.mem (show outBase ≤ outBase + a by omega)
    (show outBase + a < outBase + n by omega), outEpoch_staleBelow_inside _ _ h]

/-- The other bytes of OUT_MEM stay. -/
theorem State.forgetOut_outByte_outside (s : State) {n a : Nat} (e : Nat) (h : n ≤ a) :
    (s.forgetOut n e).outByte a = s.outByte a := by
  have : ¬ (outBase ≤ outBase + a ∧ outBase + a < outBase + n) := by omega
  simp [State.outByte, Memory.get_forget_outside _ this, outEpoch_staleBelow_outside _ _ h]

end Sys2Proof.Machine
end

