-- ==== Sys2Proof/Laws/Ops.lean ====
section
/-! SUPPORT. What each shared operation can do, said once: a command from its CMD write to its end, one event of
the machine, a code bound and read back, and the micro-operations that may raise. -/

namespace Sys2Proof.Machine

/-! ### Sequencing -/

/-- A sequence that ends well ran both parts. -/
theorem bind_ok {α β : Type} {x : Except Halt α} {f : α → Except Halt β} {b : β}
    (h : (x >>= f) = .ok b) : ∃ a, x = .ok a ∧ f a = .ok b := by
  cases x with
  | ok a => exact ⟨a, rfl, h⟩
  | error e => cases h

/-- A sequence that ends early ended in its first part, or in its second after the first. -/
theorem bind_error {α β : Type} {x : Except Halt α} {f : α → Except Halt β} {e : Halt}
    (h : (x >>= f) = .error e) : x = .error e ∨ ∃ a, x = .ok a ∧ f a = .error e := by
  cases x with
  | ok a => exact .inr ⟨a, rfl, h⟩
  | error e' => exact .inl (by cases h; rfl)

@[simp] theorem ok_bind {α β : Type} (a : α) (f : α → Except Halt β) : ((.ok a : Except Halt α) >>= f) = f a := rfl

@[simp] theorem error_bind {α β : Type} (e : Halt) (f : α → Except Halt β) :
    ((.error e : Except Halt α) >>= f) = .error e := rfl

@[simp] theorem raise_bind {α β : Type} (k : ErrKind) (sub pos : Nat) (f : α → Except Halt β) :
    ((raise k sub pos : Except Halt α) >>= f) = raise k sub pos := rfl

/-! ### A command -/

@[simp] theorem finish_ok (t s : State) : finish (.ok t) s = .next (successCommit t) := rfl

@[simp] theorem finish_raised (r : Raised) (s : State) : finish (.error (.raised r)) s = .next (errorCommit r s) := rfl

@[simp] theorem finish_fault (f : Fault) (s : State) : finish (.error (.fault f)) s = .fault f := rfl

@[simp] theorem finish_raise (k : ErrKind) (sub pos : Nat) (s : State) :
    finish (raise k sub pos) s
      = .next (errorCommit { kind := k, sub := BitVec.ofNat 4 sub, pos := BitVec.ofNat 32 pos } s) := rfl

/-- A command that gives a next state completed or raised. -/
theorem finish_cases {r : Run} {s t : State} (h : finish r s = .next t) :
    (∃ u, r = .ok u ∧ t = successCommit u) ∨ ∃ e, r = .error (.raised e) ∧ t = errorCommit e s := by
  match r, h with
  | .ok u, h => exact .inl ⟨u, rfl, by cases h; rfl⟩
  | .error (.raised e), h => exact .inr ⟨e, rfl, by cases h; rfl⟩

/-- While BUSY a CMD write of a busy command is ignored. -/
theorem runCommand_busy (op : BitVec 4) (body : State → Run) {s : State} (h : s.status.busy = true) :
    runCommand op body s = .next s := by simp [runCommand, h]

/-- An idle block whose prerequisite holds runs the command. -/
theorem runCommand_run (op : BitVec 4) (body : State → Run) {s : State} (h : s.status.busy = false)
    (hp : prereq op (request op s).status = 0) :
    runCommand op body s = finish (body (accept op (request op s))) (accept op (request op s)) := by
  simp [runCommand, h, hp]

/-- An idle block whose prerequisite fails reports SequenceError. -/
theorem runCommand_sequenceError (op : BitVec 4) (body : State → Run) {s : State} (h : s.status.busy = false)
    (hp : prereq op (request op s).status ≠ 0) :
    runCommand op body s
      = .next (immediateError .sequenceError (prereq op (request op s).status) (request op s)) := by
  unfold runCommand
  rw [if_neg (by simp [h])]
  exact if_neg hp

/-- Everything a CMD write of a busy command can do when it gives a next state. -/
theorem runCommand_cases {op : BitVec 4} {body : State → Run} {s t : State} (h : runCommand op body s = .next t) :
    (s.status.busy = true ∧ t = s)
    ∨ (s.status.busy = false ∧ prereq op (request op s).status ≠ 0
        ∧ t = immediateError .sequenceError (prereq op (request op s).status) (request op s))
    ∨ (s.status.busy = false ∧ prereq op (request op s).status = 0
        ∧ finish (body (accept op (request op s))) (accept op (request op s)) = .next t) := by
  cases hb : s.status.busy with
  | true => rw [runCommand_busy op body hb] at h; cases h; exact .inl ⟨rfl, rfl⟩
  | false =>
    by_cases hp : prereq op (request op s).status = 0
    · rw [runCommand_run op body hb hp] at h; exact .inr (.inr ⟨rfl, hp, h⟩)
    · rw [runCommand_sequenceError op body hb hp] at h; cases h; exact .inr (.inl ⟨rfl, hp, rfl⟩)

/-! ### Events -/

/-- Everything one event can be. -/
theorem advance_cases (s : State) :
    (s.status.busy = true ∧ s.env.busyLeft = 0 ∧ advance s = completeRunning s)
    ∨ (¬ (s.status.busy = true ∧ s.env.busyLeft = 0) ∧ s.env.host = [] ∧ advance s = .next s.tick)
    ∨ (¬ (s.status.busy = true ∧ s.env.busyLeft = 0) ∧ ∃ op rest, s.env.host = op :: rest
        ∧ advance s = hostEvent op { s.tick with env := { s.tick.env with host := rest } }) := by
  by_cases h : s.status.busy = true ∧ s.env.busyLeft = 0
  · exact .inl ⟨h.1, h.2, by simp [advance, h]⟩
  · cases he : s.env.host with
    | nil => exact .inr (.inl ⟨h, rfl, by simp [advance, h, he]⟩)
    | cons op rest => exact .inr (.inr ⟨h, op, rest, rfl, by simp [advance, h, he]⟩)

/-- When a CMD write is the acceptance of a busy command, and what state it leaves. -/
theorem acceptFor_cases {n : Nat} {i : Instr} {s a : State} (h : acceptFor n i s = some a) :
    s.status.busy = false ∧ (bodyOf i.opcode).isSome = true ∧ prereq i.opcode (request i.opcode s).status = 0
      ∧ a = { accept i.opcode (request i.opcode s) with
                env := { (accept i.opcode (request i.opcode s)).env with busyLeft := n } } := by
  unfold acceptFor at h
  dsimp only at h
  split at h
  · rename_i hc
    simp only [Bool.and_eq_true, Bool.not_eq_true', decide_eq_true_eq] at hc
    exact ⟨hc.1.1, hc.1.2, hc.2, by simpa using h.symm⟩
  · cases h

/-- A busy command is `runCommand` of its own pseudocode. -/
theorem exec_eq_runCommand {i : Instr} {body : State → Run} (h : bodyOf i.opcode = some body) (s : State) :
    exec i s = runCommand i.opcode body s := by
  cases i with
  | nop => cases h
  | softReset => cases h
  | compress => cases h; rfl
  | decompress => cases h; rfl
  | count => cases h; rfl
  | buildTree => cases h; rfl
  | buildTable => cases h; rfl
  | serialize => cases h; rfl
  | parseHeader => cases h; rfl
  | decodePayload => cases h; rfl

/-- What an accepted command does at its CMD write. -/
theorem startCommand_accepted {i : Instr} {s a : State} (h : acceptFor (s.env.latencies.headD 0) i s = some a) :
    startCommand i s =
      if s.env.latencies.headD 0 = 0 then
        exec i { s with env := { s.env with latencies := s.env.latencies.tail } }
      else .next { a with env := { a.env with latencies := s.env.latencies.tail } } := by
  unfold startCommand
  rw [h]

/-- A CMD write that accepts no busy command is its command alone. -/
theorem startCommand_other {i : Instr} {s : State} (h : acceptFor (s.env.latencies.headD 0) i s = none) :
    startCommand i s = exec i s := by
  unfold startCommand
  rw [h]

/-! ### Codes -/

@[simp] theorem bitString_length (n : Nat) (v : BitVec 256) : (bitString n v).length = n := by simp [bitString]

/-- The number a code packs to has the code's bits from the low end up. -/
theorem testBit_packed (c : List Bool) (k : Nat) :
    (c.foldr (fun (b : Bool) acc => b.toNat + 2 * acc) 0).testBit k = c.getD k false := by
  induction c generalizing k with
  | nil => simp
  | cons b c ih =>
    cases k with
    | zero => cases b <;> simp [Nat.testBit_zero]
    | succ k =>
      rw [List.foldr_cons, Nat.testBit_succ, List.getD_cons_succ, ← ih]
      congr 1
      cases b
      · simp
      · simp
        omega

/-- A stored code is read back. -/
theorem bitString_packCode {c : List Bool} (h : c.length ≤ 256) : bitString c.length (packCode c) = c := by
  apply List.ext_getElem (by simp)
  intro k h₁ h₂
  have : k < 256 := by omega
  simp only [bitString, List.getElem_map, List.getElem_range, packCode, BitVec.getLsbD_ofNat, testBit_packed]
  simp [this, h₂]

/-- BindCode binds its symbol to its code. -/
theorem bindCode_codeOf_same (s : State) {sym : Byte} {c : List Bool} (h₁ : sym.toNat < s.tables.codeLen.length)
    (h₂ : sym.toNat < s.tables.codeBits.length) (hc : c.length ≤ 255) :
    (s.bindCode sym c).codeLenAt sym.toNat = c.length ∧ (s.bindCode sym c).codeOf sym.toNat = c := by
  have hl : (s.bindCode sym c).codeLenAt sym.toNat = c.length := by
    simp [State.codeLenAt, h₁, Nat.mod_eq_of_lt (show c.length < 256 by omega)]
  refine ⟨hl, ?_⟩
  rw [State.codeOf, hl]
  simpa [State.codeBitsAt, h₂] using bitString_packCode (c := c) (by omega)

/-- BindCode leaves every other symbol as it was. -/
theorem bindCode_codeOf_other (s : State) {sym : Byte} {c : List Bool} {i : Nat} (h : i ≠ sym.toNat) :
    (s.bindCode sym c).codeLenAt i = s.codeLenAt i ∧ (s.bindCode sym c).codeOf i = s.codeOf i := by
  simp [State.codeOf, State.codeLenAt, State.codeBitsAt, List.getElem?_set_ne h.symm]

/-! ### Micro-operations that may raise -/

/-- The length guard passes exactly when 1 ≤ IN_LEN ≤ IN_MAX, and raises what R111 says otherwise. -/
theorem lengthGuard_spec (s : State) :
    (s.regs.inLen = 0 ∧ lengthGuard s = raise .emptyInput 0 0)
    ∨ (s.regs.inLen ≠ 0 ∧ s.build.inMax < s.regs.inLen.toNat ∧ lengthGuard s = raise .capacityExceeded 1 0)
    ∨ (s.regs.inLen ≠ 0 ∧ s.regs.inLen.toNat ≤ s.build.inMax ∧ lengthGuard s = .ok ()) := by
  by_cases h : s.regs.inLen = 0
  · exact .inl ⟨h, by simp [lengthGuard, h]⟩
  · by_cases h' : s.build.inMax < s.regs.inLen.toNat
    · exact .inr (.inl ⟨h, h', by rw [lengthGuard, if_neg h, if_pos h']⟩)
    · exact .inr (.inr ⟨h, by omega, by rw [lengthGuard, if_neg h, if_neg h']⟩)

/-- CountByte of a byte of the alphabet counts it. -/
theorem countByte_ok {s : State} {i : Nat} (h : (s.inByte i).toNat < s.limit) (h' : s.inByte i ≠ Config.sentinel) :
    countByte s i = .ok (s.setFreq (s.inByte i).toNat (s.freqAt (s.inByte i).toNat + 1)) := by
  simp [countByte, h', show ¬ s.limit ≤ (s.inByte i).toNat by omega]

/-- CountByte of any other byte raises at its offset. -/
theorem countByte_bad {s : State} {i : Nat} (h : s.limit ≤ (s.inByte i).toNat ∨ s.inByte i = Config.sentinel) :
    countByte s i = raise .unsupportedSymbol (if s.limit ≤ (s.inByte i).toNat then 1 else 2) i := by
  by_cases hl : s.limit ≤ (s.inByte i).toNat
  · simp [countByte, hl]
  · rw [countByte, if_neg hl, if_pos (h.resolve_left hl), if_neg hl]

/-- SerializeCapCheck. -/
theorem serializeCapCheck_spec (s : State) :
    serializeCapCheck s = if s.cap < s.containerLen then raise .capacityExceeded 2 0 else .ok () := rfl

/-- FetchBit inside the payload: the bit, its byte, and Q one further. -/
theorem fetchBit_ok {s : State} (h : s.regs.payloadOfs.toNat + s.dp.q.toNat / 8 < s.regs.inLen.toNat) :
    fetchBit s = .ok ((s.inByte (s.regs.payloadOfs.toNat + s.dp.q.toNat / 8)).getLsbD (7 - s.dp.q.toNat % 8),
      s.regs.payloadOfs.toNat + s.dp.q.toNat / 8, { s with dp := { s.dp with q := s.dp.q + 1 } }) := by
  simp [fetchBit, show ¬ s.regs.inLen.toNat ≤ s.regs.payloadOfs.toNat + s.dp.q.toNat / 8 by omega]

/-- FetchBit at the end of the container: PAYLOAD_EXHAUSTED. -/
theorem fetchBit_end {s : State} (h : s.regs.inLen.toNat ≤ s.regs.payloadOfs.toNat + s.dp.q.toNat / 8) :
    fetchBit s = raise .corruptContainer 12 s.regs.inLen.toNat := by simp [fetchBit, payloadExhausted, h]

/-- A symbol found by the matcher is within SYM_LIMIT and its code is the candidate. -/
theorem matchSymbol_some {s : State} {i : Nat} (h : s.matchSymbol = some i) :
    i < s.limit ∧ s.codeLenAt i = s.dp.candLen.toNat ∧ s.codeOf i = s.candidate := by
  have h₁ := List.mem_of_find?_eq_some h
  have h₂ := List.find?_some h
  simp only [Bool.and_eq_true, decide_eq_true_eq] at h₂
  exact ⟨by simpa using h₁, h₂.1, h₂.2⟩

/-- No symbol's code is the candidate when the matcher finds none. -/
theorem matchSymbol_none {s : State} (h : s.matchSymbol = none) {i : Nat} (hi : i < s.limit) :
    ¬ (s.codeLenAt i = s.dp.candLen.toNat ∧ s.codeOf i = s.candidate) := by
  have := List.find?_eq_none.1 h i (by simpa using hi)
  simpa using this

/-! ### The heap as a list -/

@[simp] theorem Heap.swap_length (h : Heap) (i j : Nat) : (h.swap i j).length = h.length := by simp [Heap.swap]

@[simp] theorem Heap.siftUp_length (key : BitVec 9 → Nat) (n : Nat) (h : Heap) (i : Nat) :
    (Heap.siftUp key n h i).length = h.length := by
  induction n generalizing h i with
  | zero => rfl
  | succ n ih =>
    rw [Heap.siftUp]
    split
    · show (if _ then _ else _ : Heap).length = _
      split
      · rw [ih, Heap.swap_length]
      · rfl
    · rfl

@[simp] theorem Heap.siftDown_length (key : BitVec 9 → Nat) (n : Nat) (h : Heap) (i : Nat) :
    (Heap.siftDown key n h i).length = h.length := by
  induction n generalizing h i with
  | zero => rfl
  | succ n ih =>
    rw [Heap.siftDown]
    show (if _ then _ else _ : Heap).length = _
    split
    · rfl
    · rw [ih, Heap.swap_length]

/-- HeapInsert adds one entry. -/
@[simp] theorem Heap.insert_length (key : BitVec 9 → Nat) (h : Heap) (k : BitVec 9) :
    (Heap.insert key h k).length = h.length + 1 := by simp [Heap.insert]

/-- HeapExtractMin takes one entry away. -/
theorem Heap.extractMin_length {key : BitVec 9 → Nat} {h h' : Heap} {m : BitVec 9}
    (e : Heap.extractMin key h = some (m, h')) : h'.length + 1 = h.length := by
  cases h with
  | nil => cases e
  | cons x h =>
    simp only [Heap.extractMin, Option.some.injEq, Prod.mk.injEq] at e
    rw [← e.2]
    simp

end Sys2Proof.Machine
end

