-- ==== Sys2Proof/Laws/PerInstr.lean ====
section
/-! SUPPORT. Laws made per instruction. `Encoding`: a CMD value decodes to the command exactly when its OP field is
the command's opcode (30_encoding.md R80, R81). -/

namespace Sys2Proof.Laws.Encoding

/-- A CMD value decodes to `i` exactly when its bits [3:0] are the opcode of `i`. -/
def Statement (i : Instr) : Prop := ∀ v : Word, decode v = .ok i ↔ opField v = i.opcode

/-- The opcode map, both ways round, over the sixteen OP values. -/
theorem decodeOp_eq_ok (op : BitVec 4) (i : Instr) : decodeOp op = .ok i ↔ op = i.opcode := by
  revert op
  cases i <;> decide

theorem nop : Statement .nop := fun _ => decodeOp_eq_ok _ _
theorem compress : Statement .compress := fun _ => decodeOp_eq_ok _ _
theorem decompress : Statement .decompress := fun _ => decodeOp_eq_ok _ _
theorem count : Statement .count := fun _ => decodeOp_eq_ok _ _
theorem buildTree : Statement .buildTree := fun _ => decodeOp_eq_ok _ _
theorem buildTable : Statement .buildTable := fun _ => decodeOp_eq_ok _ _
theorem serialize : Statement .serialize := fun _ => decodeOp_eq_ok _ _
theorem parseHeader : Statement .parseHeader := fun _ => decodeOp_eq_ok _ _
theorem decodePayload : Statement .decodePayload := fun _ => decodeOp_eq_ok _ _
theorem softReset : Statement .softReset := fun _ => decodeOp_eq_ok _ _

end Sys2Proof.Laws.Encoding
end

