-- ==== Sys2Proof/Tests/Slice0.lean ====
section
/-! SUPPORT. Tests whose expected results are the spec's own (95_test_vectors.md; the vector is named at each), and
for every obligation with hypotheses a state and operands that meet them all. -/

namespace Sys2Proof.Tests

set_option Elab.async false

open Sys2Proof Sys2Proof.Machine
open Sys2Proof.Config (Params SymLimit FreeSlot)

/-! ### Well-formedness: each check refuses an ill-formed term -/

theorem test_wellFormed_default : Config.defaultParams.wellFormed = true := by decide
theorem test_wellFormed_inMax_zero : Params.wellFormed ⟨.limit128, 0, 4096⟩ = false := by decide
theorem test_wellFormed_inMax_large : Params.wellFormed ⟨.limit128, 2 ^ 28 + 1, 4096⟩ = false := by decide
theorem test_wellFormed_outMax_zero : Params.wellFormed ⟨.limit256, 4096, 0⟩ = false := by decide
theorem test_wellFormed_outMax_large : Params.wellFormed ⟨.limit256, 4096, 2 ^ 28 + 1⟩ = false := by decide
theorem test_wellFormed_write_size : HostOp.wellFormed (.write 0 0 0) = false := by decide
theorem test_wellFormed_read_size : HostOp.wellFormed (.read 0 0) = false := by decide

/-! ### Decoding: every command's word, from 30_encoding.md R81; and the rejects of R82 -/

theorem test_decode_nop : decode 0b00000000000000000000000000000000 = .ok .nop := rfl
theorem test_decode_compress : decode 0b00000000000000000000000000000001 = .ok .compress := rfl
theorem test_decode_decompress : decode 0b00000000000000000000000000000010 = .ok .decompress := rfl
theorem test_decode_count : decode 0b00000000000000000000000000000011 = .ok .count := rfl
theorem test_decode_buildTree : decode 0b00000000000000000000000000000100 = .ok .buildTree := rfl
theorem test_decode_buildTable : decode 0b00000000000000000000000000000101 = .ok .buildTable := rfl
theorem test_decode_serialize : decode 0b00000000000000000000000000000110 = .ok .serialize := rfl
theorem test_decode_parseHeader : decode 0b00000000000000000000000000000111 = .ok .parseHeader := rfl
theorem test_decode_decodePayload : decode 0b00000000000000000000000000001000 = .ok .decodePayload := rfl
theorem test_decode_softReset : decode 0b00000000000000000000000000001111 = .ok .softReset := rfl
theorem test_decode_ignores_high_bits : decode 0b11111111111111111111111111110011 = .ok .count := rfl
theorem test_decode_first_reserved : decode 0b00000000000000000000000000001001 = .error (.reservedOpcode 0b1001) := rfl
theorem test_decode_last_reserved : decode 0b00000000000000000000000000001110 = .error (.reservedOpcode 0b1110) := rfl

/-! ### Small states -/

def bytes (l : List Nat) : List Byte := l.map (BitVec.ofNat 8)

/-- A block after reset with `input` written to IN_MEM, IN_LEN its length and OUT_CAP = `cap`. -/
def loaded (lim : SymLimit) (input : List Nat) (cap : Nat) : State :=
  let s := State.resetOf { symLimit := lim, inMax := 4096, outMax := 4096 }
  { s with
    mem := (bytes input).zipIdx.map (fun p => (Config.inBase + p.2, p.1))
    regs := { s.regs with inLen := BitVec.ofNat 32 input.length, outCap := BitVec.ofNat 32 cap } }

/-- `s` whose next host events are `script`. -/
def busy (op : BitVec 4) (n : Nat) (script : List HostOp) (s : State) : State :=
  let a := accept op s
  { a with env := { a.env with busyLeft := n, host := script } }

/-- "aaabbbbcc" (W1). -/
def text : List Nat := [0x61, 0x61, 0x61, 0x62, 0x62, 0x62, 0x62, 0x63, 0x63]

/-- The W1 container. -/
def container : List Nat :=
  [0x62, 0x30, 0x00, 0x63, 0x31, 0x30, 0x00, 0x61, 0x31, 0x31, 0x00, 0x07, 0x03, 0x00, 0x00, 0x00, 0x09, 0x00, 0x00,
    0x00, 0xFC, 0x28]

/-- A table of `n` entries, 0 but for the given ones. -/
def sparse {w : Nat} (n : Nat) (entries : List (Nat × Nat)) : List (BitVec w) :=
  entries.foldl (fun t e => t.set e.1 (BitVec.ofNat w e.2)) (List.replicate n 0)

/-- W1 after COUNT. -/
def counted (cap : Nat) : State :=
  let s := loaded .limit128 text cap
  { s with
    tables := { s.tables with freq := sparse 128 [(0x61, 3), (0x62, 4), (0x63, 2)] }
    regs := { s.regs with unique := 3, total := 9 }
    status := { s.status with done := true, freqValid := true } }

/-- W1 after BUILD_TREE (VT1). -/
def treed (cap : Nat) : State :=
  let s := counted cap
  { s with
    tables := { s.tables with
      nodes := [.leaf 3 0x61, .leaf 4 0x62, .leaf 2 0x63, .internal 5 2 0, .internal 9 1 3]
      heap := [4]
      root := 4 }
    status := { s.status with treeValid := true } }

/-- `s` with the W1 code table (VB1). -/
def withTable (s : State) : State :=
  { s with
    tables := { s.tables with
      codeLen := sparse 128 [(0x61, 2), (0x62, 1), (0x63, 2)]
      codeBits := sparse 128 [(0x61, 3), (0x62, 0), (0x63, 1)]
      order := [0x62, 0x63, 0x61] }
    regs := { s.regs with maxLen := 2 }
    status := { s.status with tableValid := true } }

/-- W1 after BUILD_TABLE. -/
def tabled (cap : Nat) : State :=
  let s := withTable (treed cap)
  { s with regs := { s.regs with payloadBits := 14 } }

/-- `bytes` loaded, and the state PARSE_HEADER leaves on a container with the W1 header (VP1). -/
def parsed (input : List Nat) (cap : Nat) : State :=
  let s := withTable (loaded .limit128 input cap)
  { s with
    regs := { s.regs with unique := 3, total := 9, payloadOfs := 20 }
    status := { s.status with done := true, hdrValid := true } }

/-- One leaf, 50 × 'x' (VT2). -/
def oneLeaf : State :=
  let s := counted 64
  { s with
    tables := { s.tables with freq := sparse 128 [(0x78, 50)], nodes := [.leaf 50 0x78], heap := [0], root := 0 }
    regs := { s.regs with unique := 1, total := 50 }
    status := { s.status with treeValid := true } }

/-! ### Reading an outcome -/

/-- `p` of the next state; false at a stop. -/
def nextIs (p : State → Bool) : Host.Outcome State Fault Refusal → Bool
  | .next t => p t
  | _ => false

/-- An outcome that `nextIs` accepts is a next state with the property. -/
theorem exists_next {o : Host.Outcome State Fault Refusal} {p : State → Bool} (h : nextIs p o = true) :
    ∃ t, o = .next t ∧ p t = true := by
  match o, h with
  | .next t, h => exact ⟨t, rfl, h⟩

/-- STATUS as read after completion, ERR_SUB and ERR_POS. -/
def report (t : State) : Nat × Nat × Nat :=
  ((t.readValue 4 0x0C).toNat, t.regs.errSub.toNat, t.regs.errPos.toNat)

/-- The values of the registers at these offsets. -/
def regsAt (t : State) (offsets : List Nat) : List Nat :=
  offsets.map (fun a => (t.readValue 4 (BitVec.ofNat 32 a)).toNat)

/-- The first `n` bytes of OUT_MEM. -/
def output (t : State) (n : Nat) : List Nat := (List.range n).map (fun a => (t.outByte a).toNat)

/-- The code of a symbol as a list of 0 and 1. -/
def code (t : State) (i : Nat) : List Nat := (t.codeOf i).map (·.toNat)

/-! ### NOP (VK1, R265) and SOFT_RESET (VK9, VK19) -/

theorem test_nop : nextIs (fun t => report t == (0x2, 0, 0) && regsAt t [0x08] == [0]) (exec .nop State.reset) := by
  decide +kernel
theorem test_nop_busy : nextIs (fun t => t == busy 3 1 [] State.reset) (exec .nop (busy 3 1 [] State.reset)) := by
  decide +kernel
theorem test_softReset :
    nextIs (fun t => regsAt t [0x08, 0x0C, 0x18, 0x1C, 0x20, 0x24, 0x28, 0x30, 0x34] == List.replicate 9 0
      && t.input == [] && (t.inByte 8).toNat == 0x63) (exec .softReset (tabled 64)) := by decide +kernel
theorem test_softReset_busy :
    nextIs (fun t => regsAt t [0x08, 0x0C] == [0, 0] && t.curOp == 0) (exec .softReset (busy 3 1 [] State.reset)) := by
  decide +kernel

/-! ### COUNT (VC1, VC6) -/

theorem test_count :
    nextIs (fun t => report t == (0x10002, 0, 0) && regsAt t [0x08, 0x24, 0x28] == [3, 3, 9]
      && [0x60, 0x61, 0x62, 0x63].map t.freqAt == [0, 3, 4, 2]) (exec .count (loaded .limit128 text 64)) := by
  decide +kernel
theorem test_count_lowest_offset :
    nextIs (fun t => report t == (0x24, 2, 0)) (exec .count (loaded .limit128 [0x07, 0x80] 64)) := by decide +kernel

/-! ### The heap (VH2, VH4) -/

/-- Insert indices 0 to n − 1, then extract once. -/
def heapTrace (keys : List Nat) : List Nat × Option (Nat × List Nat) :=
  let key : BitVec 9 → Nat := fun k => keys.getD k.toNat 0
  let h := (List.range keys.length).foldl (fun h k => Heap.insert key h (BitVec.ofNat 9 k)) []
  (h.map (·.toNat), (Heap.extractMin key h).map fun r => (r.1.toNat, r.2.map (·.toNat)))

theorem test_heap_ties_on_insert : heapTrace [5, 5, 5] = ([0, 1, 2], some (0, [2, 1])) := by decide +kernel
theorem test_heap_ties_of_children : heapTrace [1, 4, 4, 9] = ([0, 1, 2, 3], some (0, [1, 3, 2])) := by decide +kernel
theorem test_heap_two_swaps : heapTrace [4, 3, 2, 1] = ([3, 2, 1, 0], some (3, [2, 0, 1])) := by decide +kernel

/-! ### BUILD_TREE (VT1, VT8) -/

theorem test_buildTree :
    nextIs (fun t => report t == (0x30002, 0, 0) && t.tables == (treed 64).tables)
      (exec .buildTree (counted 64)) := by decide +kernel
theorem test_buildTree_needs_freq :
    nextIs (fun t => report t == (0x64, 1, 0)) (exec .buildTree State.reset) := by decide +kernel

/-! ### BUILD_TABLE (VB1, VB2) -/

theorem test_buildTable :
    nextIs (fun t => report t == (0x70002, 0, 0) && regsAt t [0x34, 0x30] == [2, 14]
      && [0x61, 0x62, 0x63].map (code t) == [[1, 1], [0], [1, 0]]
      && regsAt t [0x3000, 0x3004, 0x3008, 0x300C, 0x4C20, 0x4C40, 0x4C60, 0x4C64]
        == [0x62, 0x63, 0x61, 0, 0xC0000000, 0, 0x80000000, 0]) (exec .buildTable (treed 64)) := by decide +kernel
theorem test_buildTable_one_leaf :
    nextIs (fun t => code t 0x78 == [0] && regsAt t [0x34, 0x30] == [1, 50]) (exec .buildTable oneLeaf) := by
  decide +kernel

/-! ### SERIALIZE (VS1, VS2), PackBit and Flush (2.5) -/

theorem test_serialize :
    nextIs (fun t => report t == (0x70002, 0, 0) && regsAt t [0x20] == [22] && output t 22 == container)
      (exec .serialize (tabled 22)) := by decide +kernel
theorem test_serialize_capacity :
    nextIs (fun t => report t == (0x44, 2, 0) && regsAt t [0x20, 0x24] == [0, 0]) (exec .serialize (tabled 21)) := by
  decide +kernel
theorem test_packBit :
    output ([true, true, true, true, true, true, false, false].foldl packBit State.reset) 1 = [0xFC] := by decide +kernel
theorem test_flush :
    output (flushBits { State.reset with dp := { State.reset.dp with acc := 0b001010, accN := 6 } }) 1 = [0x28] := by
  decide +kernel

/-! ### PARSE_HEADER (VP1, VP17) -/

theorem test_parseHeader :
    nextIs (fun t => report t == (0xC0002, 0, 0) && regsAt t [0x24, 0x28, 0x2C, 0x30, 0x34] == [3, 9, 20, 0, 2]
      && [0x61, 0x62, 0x63].map (code t) == [[1, 1], [0], [1, 0]])
      (exec .parseHeader (loaded .limit128 container 4096)) := by decide +kernel
theorem test_parseHeader_little_endian :
    nextIs (fun t => report t == (0x34, 9, 4))
      (exec .parseHeader (loaded .limit128 [0x61, 0x30, 0, 7, 0, 0, 0, 1, 1, 0, 0, 0, 0] 4096)) := by decide +kernel

/-! ### DECODE_PAYLOAD (VD1, VD3) -/

theorem test_decodePayload :
    nextIs (fun t => report t == (0xC0002, 0, 0) && regsAt t [0x20, 0x30] == [9, 14] && output t 9 == text)
      (exec .decodePayload (parsed container 4096)) := by decide +kernel
theorem test_decodePayload_exhausted :
    nextIs (fun t => report t == (0x34, 12, 21) && regsAt t [0x20] == [0])
      (exec .decodePayload (parsed (container.take 21) 4096)) := by decide +kernel

/-! ### COMPRESS (P1) and DECOMPRESS (P3, VP12) -/

theorem test_compress :
    nextIs (fun t => report t == (0x70002, 0, 0)
      && regsAt t [0x08, 0x20, 0x24, 0x28, 0x2C, 0x30, 0x34] == [1, 22, 3, 9, 0, 14, 2] && output t 22 == container)
      (exec .compress (loaded .limit128 text 64)) := by decide +kernel
theorem test_compress_limit256 :
    nextIs (fun t => output t 16 == [0x80, 0x30, 0, 0xFF, 0x31, 0, 7, 2, 0, 0, 0, 3, 0, 0, 0, 0x60])
      (exec .compress (loaded .limit256 [0x80, 0xFF, 0xFF] 64)) := by decide +kernel
theorem test_decompress :
    nextIs (fun t => report t == (0xC0002, 0, 0) && regsAt t [0x20, 0x2C, 0x30, 0x1184, 0x2188] == [9, 20, 14, 0, 1]
      && output t 9 == text) (exec .decompress (loaded .limit128 container 9)) := by decide +kernel
theorem test_decompress_longest_code :
    nextIs (fun t => report t == (0x34, 12, 138))
      (exec .decompress (loaded .limit128
        (0x61 :: (List.replicate 126 0x30 ++ [0, 7, 1, 0, 0, 0, 1, 0, 0, 0, 0])) 4096)) := by decide +kernel

/-! ### The port (VK2, VK6, VK7, VK10, VK12, VK13, VK14, VK15, VK16, VK20) -/

/-- The state after the one host write. -/
def written (size addr v : Nat) (s : State) (p : State → Bool) : Bool :=
  nextIs p (hostWrite size (BitVec.ofNat 32 addr) (BitVec.ofNat 32 v) s)

theorem test_reserved_opcode :
    written 4 0x08 0x9 (tabled 22) fun t => report t == (0x70054, 0, 0) && regsAt t [0x08] == [9] := by decide +kernel
theorem test_clear_keeps_code :
    written 4 0x0C 0x4 { State.reset with status := { Status.reset with err := true, errCode := 4 } }
      fun t => report t == (0x40, 0, 0) := by decide +kernel
theorem test_irq : written 4 0x38 1 (tabled 22) State.irq := by decide +kernel
theorem test_inLen_clears_flags : written 4 0x18 9 (tabled 22) fun t => regsAt t [0x0C, 0x1184] == [2, 0] := by
  decide +kernel
theorem test_wrong_width_ignored : written 4 0x10000000 0x61 (tabled 22) fun t => t == tabled 22 := by decide +kernel
theorem test_out_write_ignored : written 1 0x20000000 0 (tabled 22) fun t => t == tabled 22 := by decide +kernel
theorem test_busy_write_ignored :
    written 4 0x08 3 (busy 1 1 [] State.reset) fun t => t == busy 1 1 [] State.reset := by decide +kernel
theorem test_byte_read_of_status : (tabled 22).readValue 1 0x0C = 0 := by decide +kernel
theorem test_reserved_reads : regsAt (tabled 22) [0x44, 0x1400, 0x6000] = [0, 0, 0] := by decide +kernel
theorem test_constants : regsAt State.reset [0x00, 0x04, 0x3C] = [0x48554631, 0x80, 4096] := by decide +kernel
theorem test_freq_window : regsAt (counted 22) [0x1184, 0x1188, 0x118C, 0x1200] = [3, 4, 2, 0] := by decide +kernel

/-! ### The step and the fetch -/

theorem test_fetch_runs_first :
    nextIs (fun t => report t == (0x2, 0, 0)) (step (State.reset.withFetchWord 32 0)) := by decide +kernel
theorem test_decodeTableWord : decodeTableWord 32 0xF = some .softReset ∧ decodeTableWord 32 0xA = none := by decide

/-! ### Witnesses: for each obligation with hypotheses, states and operands that meet them all, one for each clause -/

/-- What the hypothesis `o = .next t ∧ p t` needs, from one evaluation. -/
theorem reaches {o : Host.Outcome State Fault Refusal} (p : State → Prop) [DecidablePred p]
    (h : nextIs (fun t => decide (p t)) o = true) : ∃ t, o = .next t ∧ p t := by
  obtain ⟨t, ho, ht⟩ := exists_next h
  exact ⟨t, ho, of_decide_eq_true ht⟩

/-- The first characters of the code of 'a', as the first entry of a container (45_parser.md R213). -/
abbrev codeStarts (s : State) (c : List Bool) : Prop :=
  s.idle ∧ s.lenOk ∧ Params.readableEntries s.build [] ∧ Params.symbol s.build 0x61
    ∧ (0x61 : Byte) ∉ ([] : List (Byte × List Bool)).map Prod.fst ∧ c.length ≤ s.build.maxCodeLen
    ∧ s.holds 0 ([].flatMap entryBytes ++ 0x61 :: c.map codeChar)

/-- Entries and the sentinel, read without an error (45_parser.md R214, R215). -/
abbrev headerStarts (s : State) (entries : List (Byte × List Bool)) : Prop :=
  s.idle ∧ s.lenOk ∧ Params.readableEntries s.build entries ∧ s.holds 0 (entries.flatMap entryBytes ++ [0x07])

/-- A table of the one code "0", and TOTAL 8. -/
def oneCode (s : State) : State :=
  { s with
    tables := { s.tables with codeLen := sparse 128 [(0x61, 1)], codeBits := sparse 128 [], order := [0x61] }
    regs := { s.regs with maxLen := 1, unique := 1, total := 8, payloadOfs := 0 }
    status := { s.status with tableValid := true, hdrValid := true } }

theorem witness_DecoderFollowsOpcodeMap :
    ∀ op ∈ [0x9#4, 0xE#4], 9 ≤ op.toNat ∧ op.toNat ≤ 14 := by decide

theorem witness_DecodeAndEncodeAgree : decode 0xFFFFFFF3 = .ok .count := rfl

/-- NOP; COUNT completing at once; COUNT staying busy. -/
theorem witness_StepRunsTheWrittenCommand :
    let s (lat : List Nat) (v : Word) : State :=
      { loaded .limit128 text 64 with env := { Env.empty with host := [.write 4 0x08 v], latencies := lat } }
    ∀ p ∈ [(([] : List Nat), (0 : Word), Instr.nop), ([], 3, .count), ([2], 3, .count)],
      ¬ ((s p.1 p.2.1).status.busy = true ∧ (s p.1 p.2.1).env.busyLeft = 0)
        ∧ (s p.1 p.2.1).env.host = .write 4 0x08 p.2.1 :: [] ∧ decodeTableWord 32 p.2.1.toNat = some p.2.2 := by
  decide +kernel

theorem witness_CompletionAfterBusyIsTheAtomicTransition :
    (acceptFor 2 .count (loaded .limit128 text 64)).isSome = true ∧ Env.empty.busyLeft = 0 := by decide +kernel

theorem witness_BusyCommandCompletesInTime :
    ∀ n ∈ [0, 3], (busy 3 n [] State.reset).status.busy = true ∧ (busy 3 n [] State.reset).env.host = []
      ∧ (busy 3 n [] State.reset).env.busyLeft = n := by decide +kernel

theorem witness_WaitEndsAfterCompletion :
    ∀ n ∈ [0, 3], (busy 3 n Script.wait (loaded .limit128 text 64)).Inv
      ∧ (busy 3 n Script.wait (loaded .limit128 text 64)).status.busy = true
      ∧ (busy 3 n Script.wait (loaded .limit128 text 64)).env.busyLeft = n
      ∧ (busy 3 n Script.wait (loaded .limit128 text 64)).env.host = Script.wait ++ [] := by
  intro n hn
  rcases List.mem_cons.1 hn with rfl | hn
  · exact ⟨⟨by decide +kernel, by decide +kernel, by decide +kernel, by decide +kernel, by decide +kernel, by decide +kernel,
    by decide +kernel, by decide +kernel⟩, by decide +kernel⟩
  · obtain rfl := List.mem_singleton.1 hn
    exact ⟨⟨by decide +kernel, by decide +kernel, by decide +kernel, by decide +kernel, by decide +kernel, by decide +kernel,
    by decide +kernel, by decide +kernel⟩, by decide +kernel⟩

theorem witness_NopSetsDoneOnly : State.reset.idle ∧ (busy 3 1 [] State.reset).status.busy = true := ⟨rfl, rfl⟩

theorem witness_ReservedOpcodeIsIllegalCommand :
    (9 ≤ (opField 0x9).toNat ∧ (opField 0x9).toNat ≤ 14 ∧ 9 ≤ (opField 0xFFFFFFFE).toNat
      ∧ (opField 0xFFFFFFFE).toNat ≤ 14) ∧ State.reset.idle
      ∧ (busy 3 0 [] State.reset).status.busy = true := by decide +kernel

theorem witness_MissingPrerequisiteIsSequenceError :
    State.reset.idle ∧ State.reset.status.freqValid = false ∧ State.reset.status.treeValid = false
      ∧ State.reset.status.hdrValid = false
      ∧ (treed 64).idle ∧ (treed 64).status.freqValid = true ∧ (treed 64).status.tableValid = false := by
  decide +kernel

theorem witness_BusyIgnoresHostWrites : (busy 3 1 [] State.reset).status.busy = true := rfl

/-- Each of the four codes: no input, a byte outside the alphabet, a truncated header, no capacity. -/
theorem witness_ErrorEntryOfBusyCommands :
    ∀ p ∈ [(Instr.count, loaded .limit128 [] 64, (1 : BitVec 4)), (.count, loaded .limit128 [0x80] 64, 2),
      (.parseHeader, loaded .limit128 [7] 64, 3), (.serialize, tabled 21, 4)],
      p.2.1.idle ∧ ∃ t, exec p.1 p.2.1 = .next t
        ∧ (t.status.err = true ∧ t.status.errCode = p.2.2 ∧ t.status.errCode ≠ 5 ∧ t.status.errCode ≠ 6) := by
  intro p hp
  simp only [List.mem_cons, List.not_mem_nil, or_false] at hp
  rcases hp with rfl | rfl | rfl | rfl
  all_goals exact ⟨rfl, reaches _ (by decide +kernel)⟩

/-- IN_LEN = IN_MAX, and IN_LEN = 1. -/
theorem witness_CountCountsTheInput :
    let s := loaded .limit128 text 64
    let s' : State := { s with build := { s.build with inMax := 9 } }
    (s'.idle ∧ s'.lenOk ∧ s'.regs.inLen.toNat = s'.build.inMax ∧ ∀ b ∈ s'.input, Params.symbol s'.build b)
      ∧ (loaded .limit256 [0xFF] 0).idle ∧ (loaded .limit256 [0xFF] 0).lenOk
      ∧ ∀ b ∈ (loaded .limit256 [0xFF] 0).input, Params.symbol (loaded .limit256 [0xFF] 0).build b := by
  decide +kernel

theorem witness_CountInvariants :
    (loaded .limit128 text 64).idle
      ∧ ∃ t, exec .count (loaded .limit128 text 64) = .next t ∧ t.status.done = true :=
  ⟨rfl, reaches (fun t => t.status.done = true) (by decide +kernel)⟩

theorem witness_LengthGuardErrors :
    let s := loaded .limit128 [] 64
    let s' : State := { s with regs := { s.regs with inLen := 4097 } }
    s.idle ∧ s.regs.inLen = 0 ∧ s'.idle ∧ s'.build.inMax < s'.regs.inLen.toNat := by decide +kernel

/-- The bad byte first, and last. -/
theorem witness_CountReportsTheFirstBadByte :
    ∀ p ∈ [([0x80], 0), ([0x61, 0x62, 0xFF], 2), ([0x07, 0x61], 0), ([0x61, 0x62, 0x07], 2)],
      let s := loaded .limit128 p.1 64
      s.idle ∧ s.lenOk ∧ p.2 < s.regs.inLen.toNat ∧ (∀ j < p.2, Params.symbol s.build (s.inByte j))
        ∧ (s.limit ≤ (s.inByte p.2).toNat ∨ s.inByte p.2 = 0x07) := by decide +kernel

theorem witness_HeapOperationsKeepTheHeap :
    Heap.ordered (fun k => k.toNat / 2) [0, 1, 3, 2] ∧ Heap.ordered (fun k => k.toNat / 2) []
      ∧ (Heap.extractMin (fun k => k.toNat / 2) [0, 1, 3, 2]).isSome = true := by decide +kernel

theorem witness_HeapExtractReturnsTheLeast :
    Heap.ordered (fun _ => 5) [0, 1, 2] ∧ (Heap.extractMin (fun _ => 5) [0, 1, 2]).isSome = true := by decide +kernel

theorem witness_BuildTreeCompletes : (counted 64).idle ∧ (counted 64).status.freqValid = true := ⟨rfl, rfl⟩

/-- Three symbols, and one. -/
theorem witness_BuildTreeBuildsAHuffmanTree :
    ∀ s ∈ [counted 64, oneLeaf], s.idle ∧ s.status.freqValid = true ∧ s.tables.freq.length = s.limit
      ∧ 1 ≤ s.regs.unique.toNat ∧ s.regs.unique.toNat = s.distinctCount
      ∧ (s.tables.freq.map (·.toNat)).sum = s.regs.total.toNat := by decide +kernel

/-- Two extractions from a heap of three, as MergeStep makes them. -/
theorem witness_BuildTreeBuildsAHuffmanTree_mergeStep :
    let s := heapLoad (counted 64)
    (Heap.extractMin s.nodeKey s.tables.heap).any (fun p => (Heap.extractMin s.nodeKey p.2).isSome) = true := by
  decide +kernel

theorem witness_BuildTableCompletes :
    ∀ s ∈ [treed 64, oneLeaf], s.idle ∧ s.status.treeValid = true ∧ s.tables.treeShape s.build := by decide +kernel

theorem witness_SingleLeafGetsCodeZero :
    oneLeaf.idle ∧ oneLeaf.status.treeValid = true
      ∧ oneLeaf.tables.nodes[oneLeaf.tables.root.toNat]? = some (.leaf 50 0x78)
      ∧ (0x78 : Byte).toNat < oneLeaf.limit := by decide +kernel

theorem witness_BuildTableBindsLeavesToTheirPaths :
    (treed 64).idle ∧ (treed 64).status.treeValid = true ∧ (treed 64).treeOk
      ∧ 2 ≤ (treed 64).countedSymbols.length ∧ (treed 64).countedSymbols.length ≤ (treed 64).build.nMax := by
  decide +kernel

theorem witness_BuiltTableIsPrefixFree :
    ∀ s ∈ [treed 64, oneLeaf], s.idle ∧ s.status.treeValid = true ∧ s.treeOk
      ∧ s.countedSymbols.length ≤ s.build.nMax := by decide +kernel

theorem witness_BuiltTableIsComplete :
    (treed 64).idle ∧ (treed 64).status.treeValid = true ∧ (treed 64).treeOk
      ∧ 2 ≤ (treed 64).countedSymbols.length ∧ (treed 64).countedSymbols.length ≤ (treed 64).build.nMax := by
  decide +kernel

theorem witness_StageCommandsFrame :
    ∀ p ∈ [(Instr.count, loaded .limit128 text 64), (.buildTree, counted 64), (.buildTable, treed 64),
      (.parseHeader, loaded .limit128 container 9)],
      p.2.idle ∧ ∃ t, exec p.1 p.2 = .next t ∧ t.status.done = true := by
  intro p hp
  simp only [List.mem_cons, List.not_mem_nil, or_false] at hp
  rcases hp with rfl | rfl | rfl | rfl
  all_goals exact ⟨rfl, reaches (fun t => t.status.done = true) (by decide +kernel)⟩

/-- One byte less than each needs. -/
theorem witness_CapacityIsCheckedFirst :
    (tabled 21).idle ∧ (tabled 21).status.freqValid = true ∧ (tabled 21).status.tableValid = true
      ∧ min (tabled 21).regs.outCap.toNat (tabled 21).build.outMax
        < 9 + ((tabled 21).tables.order.map (fun b => 2 + (tabled 21).codeLenAt b.toNat)).sum
            + (((List.range (tabled 21).limit).map (fun i => (tabled 21).freqAt i * (tabled 21).codeLenAt i)).sum + 7) / 8
      ∧ (parsed container 8).idle ∧ (parsed container 8).status.hdrValid = true
      ∧ min (parsed container 8).regs.outCap.toNat (parsed container 8).build.outMax
        < (parsed container 8).regs.total.toNat := by decide +kernel

/-- The first three stages of COMPRESS end well, and the container is one byte too long. -/
theorem witness_CapacityIsCheckedFirst_compress :
    (loaded .limit128 text 21).idle ∧ ∃ a b c,
      (exec .count (loaded .limit128 text 21) = .next a ∧ a.status.done = true)
        ∧ (exec .buildTree a = .next b ∧ b.status.done = true)
        ∧ exec .buildTable b = .next c ∧ (c.status.done = true ∧ c.cap < c.containerLen) := by
  refine ⟨rfl, ?_⟩
  obtain ⟨a, ha, h⟩ := reaches (o := exec .count (loaded .limit128 text 21)) (fun a => a.status.done = true
    ∧ nextIs (fun b => decide (b.status.done = true ∧ nextIs (fun c => decide (c.status.done = true
      ∧ c.cap < c.containerLen)) (exec .buildTable b) = true)) (exec .buildTree a) = true) (by decide +kernel)
  obtain ⟨b, hb, h'⟩ := reaches _ h.2
  obtain ⟨c, hc, h''⟩ := reaches _ h'.2
  exact ⟨a, b, c, ⟨ha, h.1⟩, ⟨hb, h'.1⟩, hc, h''⟩

/-- The container fits exactly. -/
theorem witness_SerializeWritesTheContainer :
    let s := tabled 22
    s.idle ∧ s.status.freqValid = true ∧ s.status.tableValid = true ∧ s.build.wellFormed = true
      ∧ s.regs.inLen.toNat ≤ 2 ^ 28 ∧ s.bitCount = (s.payloadOf s.input).length ∧ s.containerLen ≤ s.cap := by
  decide +kernel

theorem witness_PackerFillsBytesFromTheTop :
    State.reset.dp.acc = 0 ∧ State.reset.dp.accN = 0
      ∧ ∀ n ∈ [1, 7], 1 ≤ n ∧ n ≤ 7 ∧ (BitVec.ofNat 3 n).toNat = n := by decide +kernel

/-- The W1 header with TOTAL = cap. -/
theorem witness_ParseReadsALegalHeader :
    let s := loaded .limit128 container 9
    let entries : List (Byte × List Bool) := [(0x62, [false]), (0x63, [true, false]), (0x61, [true, true])]
    s.idle ∧ s.lenOk ∧ Params.legalEntries s.build entries ∧ 1 ≤ 9 ∧ 9 ≤ s.cap
      ∧ s.holds 0 (headerBytes entries entries.length 9) := by decide +kernel

/-- VP3, VP5 and VP7. -/
theorem witness_EntryStartErrors :
    let a := loaded .limit128 [0x61, 0x30, 0x00] 64
    let b := loaded .limit128 [0x80, 0x30, 0x00] 64
    let c := loaded .limit128 [0x62, 0x30, 0x00, 0x62, 0x31, 0x00, 0x07] 64
    let one : List (Byte × List Bool) := [(0x61, [false])]
    let two : List (Byte × List Bool) := [(0x62, [false])]
    (a.idle ∧ a.lenOk ∧ Params.readableEntries a.build one ∧ a.holds 0 (one.flatMap entryBytes)
        ∧ (one.flatMap entryBytes).length = a.regs.inLen.toNat)
      ∧ (b.idle ∧ b.lenOk ∧ Params.readableEntries b.build [] ∧ b.holds 0 [] ∧ 0 < b.regs.inLen.toNat
        ∧ b.limit ≤ (b.inByte 0).toNat)
      ∧ c.idle ∧ c.lenOk ∧ Params.readableEntries c.build two ∧ c.holds 0 (two.flatMap entryBytes)
        ∧ (two.flatMap entryBytes).length < c.regs.inLen.toNat
        ∧ c.inByte (two.flatMap entryBytes).length ∈ two.map Prod.fst := by decide +kernel

/-- VP4: truncated. -/
theorem witness_CodeStringErrors_truncated :
    let s := loaded .limit128 [0x61, 0x30] 64
    codeStarts s [false] ∧ 2 = s.regs.inLen.toNat := by decide +kernel

/-- VP10: empty. -/
theorem witness_CodeStringErrors_empty :
    let s := loaded .limit128 [0x61, 0x00] 64
    codeStarts s [] ∧ 1 < s.regs.inLen.toNat ∧ s.inByte 1 = 0x00 := by decide +kernel

/-- VP8: a wrong character. -/
theorem witness_CodeStringErrors_character :
    let s := loaded .limit128 [0x61, 0x31, 0x32] 64
    codeStarts s [true] ∧ 2 < s.regs.inLen.toNat ∧ s.inByte 2 ≠ 0x00 ∧ s.inByte 2 ≠ 0x30 ∧ s.inByte 2 ≠ 0x31 := by
  decide +kernel

/-- VP11: one character too many. -/
theorem witness_CodeStringErrors_length :
    let s := loaded .limit128 (0x61 :: List.replicate 127 0x30) 64
    let c := List.replicate 126 false
    codeStarts s c ∧ 127 < s.regs.inLen.toNat ∧ s.inByte 127 = 0x30 ∧ c.length = s.build.maxCodeLen := by
  decide +kernel

/-- VP14, one byte short of the counts; VP15, no entry and exactly the counts. -/
theorem witness_HeaderCheckErrors_first :
    let a := loaded .limit128 [0x07, 0, 0, 0, 0, 1, 0, 0] 64
    let b := loaded .limit128 [0x07, 0, 0, 0, 0, 1, 0, 0, 0] 64
    (headerStarts a [] ∧ a.regs.inLen.toNat < 0 + 9) ∧ headerStarts b [] ∧ 0 + 9 ≤ b.regs.inLen.toNat := by
  decide +kernel

/-- VP16: UNIQUE is not the number of entries. -/
theorem witness_HeaderCheckErrors_unique :
    let s := loaded .limit128 [0x61, 0x30, 0, 7, 2, 0, 0, 0, 1, 0, 0, 0, 0] 64
    headerStarts s [(0x61, [false])] ∧ 3 + 9 ≤ s.regs.inLen.toNat ∧ s.inCount 4 ≠ 1 := by decide +kernel

/-- VP18: TOTAL is 0. -/
theorem witness_HeaderCheckErrors_total :
    let s := loaded .limit128 [0x61, 0x30, 0, 7, 1, 0, 0, 0, 0, 0, 0, 0] 64
    headerStarts s [(0x61, [false])] ∧ 3 + 9 ≤ s.regs.inLen.toNat ∧ s.inCount 4 = 1 ∧ s.inCount 8 = 0 := by
  decide +kernel

/-- VP20: equal codes. -/
theorem witness_HeaderCheckErrors_prefix :
    let s := loaded .limit128 [0x61, 0x30, 0, 0x62, 0x30, 0, 7, 2, 0, 0, 0, 1, 0, 0, 0, 0] 64
    let entries : List (Byte × List Bool) := [(0x61, [false]), (0x62, [false])]
    headerStarts s entries ∧ 6 + 9 ≤ s.regs.inLen.toNat ∧ s.inCount 7 = 2 ∧ s.inCount 11 ≠ 0
      ∧ ¬ clashFree entries := by decide +kernel

/-- TOTAL is one more than the capacity. -/
theorem witness_HeaderCheckErrors_capacity :
    let s := loaded .limit128 [0x61, 0x30, 0, 7, 1, 0, 0, 0, 9, 0, 0, 0, 0] 8
    let entries : List (Byte × List Bool) := [(0x61, [false])]
    headerStarts s entries ∧ 3 + 9 ≤ s.regs.inLen.toNat ∧ s.inCount 4 = 1 ∧ clashFree entries
      ∧ s.cap < s.inCount 8 := by decide +kernel

/-- VD1 with TOTAL = cap. -/
theorem witness_DecodeWritesTheSymbols :
    let s := parsed container 9
    s.idle ∧ s.status.hdrValid = true ∧ s.build.wellFormed = true ∧ s.regs.inLen.toNat ≤ 2 ^ 28
      ∧ (bytes text).length = s.regs.total.toNat ∧ s.regs.total.toNat ≤ s.cap ∧ s.prefixFree
      ∧ (∀ b ∈ bytes text, s.bound b.toNat ∧ s.codeLenAt b.toNat ≤ s.regs.maxLen.toNat)
      ∧ s.regs.payloadOfs.toNat ≤ s.regs.inLen.toNat ∧ s.payloadOf (bytes text) <+: s.payloadBitList := by
  decide +kernel

/-- A table of the one code "0" and TOTAL 8: the payload 0x01 is seven symbols and a rest of MAXLEN bits; the payload
0x03 six symbols and a rest of MAXLEN + 1. -/
theorem witness_DecodeErrors :
    ∀ p ∈ [(oneCode (loaded .limit128 [0x01] 64), 7, [true]), (oneCode (loaded .limit128 [0x03] 64), 6, [true, true])],
      let s := p.1
      let symbols : List Byte := List.replicate p.2.1 0x61
      s.idle ∧ s.status.hdrValid = true ∧ s.build.wellFormed = true ∧ s.regs.inLen.toNat ≤ 2 ^ 28
        ∧ symbols.length < s.regs.total.toNat ∧ s.regs.total.toNat ≤ s.cap ∧ s.prefixFree
        ∧ (∀ b ∈ symbols, s.bound b.toNat ∧ s.codeLenAt b.toNat ≤ s.regs.maxLen.toNat)
        ∧ s.regs.payloadOfs.toNat ≤ s.regs.inLen.toNat
        ∧ s.payloadBitList = s.payloadOf symbols ++ p.2.2
        ∧ (∀ i < s.limit, s.codeLenAt i ≠ 0 → ¬ s.codeOf i <+: p.2.2)
        ∧ s.regs.maxLen.toNat = 1 := by decide +kernel

/-- The state that PARSE_HEADER leaves on the container of one code "0" with TOTAL 8 and the payload byte `b`. -/
abbrev afterOneCodeHeader (s : State) (n : Nat) (rest : List Bool) : Prop :=
  s.status.done = true ∧ s.idle ∧ s.status.hdrValid = true ∧ s.build.wellFormed = true ∧ s.regs.inLen.toNat ≤ 2 ^ 28
    ∧ n < s.regs.total.toNat ∧ s.regs.total.toNat ≤ s.cap ∧ s.prefixFree
    ∧ (∀ b ∈ List.replicate n (0x61 : Byte), s.bound b.toNat ∧ s.codeLenAt b.toNat ≤ s.regs.maxLen.toNat)
    ∧ s.regs.payloadOfs.toNat ≤ s.regs.inLen.toNat
    ∧ s.payloadBitList = s.payloadOf (List.replicate n 0x61) ++ rest
    ∧ (∀ i < s.limit, s.codeLenAt i ≠ 0 → ¬ s.codeOf i <+: rest) ∧ s.regs.maxLen.toNat = 1

/-- The same two rests where the state is the one PARSE_HEADER leaves. -/
theorem witness_DecodeErrors_decompress :
    ∀ p ∈ [(0x01, 7, [true]), (0x03, 6, [true, true])],
      (loaded .limit128 [0x61, 0x30, 0, 7, 1, 0, 0, 0, 8, 0, 0, 0, p.1] 64).idle
        ∧ ∃ s, exec .parseHeader (loaded .limit128 [0x61, 0x30, 0, 7, 1, 0, 0, 0, 8, 0, 0, 0, p.1] 64) = .next s
          ∧ afterOneCodeHeader s p.2.1 p.2.2 := by
  intro p hp
  simp only [List.mem_cons, List.not_mem_nil, or_false] at hp
  rcases hp with rfl | rfl
  · exact ⟨rfl, reaches (fun s => afterOneCodeHeader s 7 [true]) (by decide +kernel)⟩
  · exact ⟨rfl, reaches (fun s => afterOneCodeHeader s 6 [true, true]) (by decide +kernel)⟩

/-- The stages one after another, each from the state the one before left. -/
theorem witness_CompressIsItsFourStages :
    (loaded .limit128 text 64).idle ∧ ∃ a b c d,
      (exec .count (loaded .limit128 text 64) = .next a ∧ a.status.done = true)
        ∧ (exec .buildTree a = .next b ∧ b.status.done = true) ∧ (exec .buildTable b = .next c ∧ c.status.done = true)
        ∧ exec .serialize c = .next d ∧ d.status.done = true := by
  refine ⟨rfl, ?_⟩
  obtain ⟨a, ha, h⟩ := reaches (o := exec .count (loaded .limit128 text 64)) (fun a => a.status.done = true
    ∧ nextIs (fun b => decide (b.status.done = true ∧ nextIs (fun c => decide (c.status.done = true
      ∧ nextIs (fun d => decide (d.status.done = true)) (exec .serialize c) = true)) (exec .buildTable b) = true))
      (exec .buildTree a) = true) (by decide +kernel)
  obtain ⟨b, hb, h'⟩ := reaches _ h.2
  obtain ⟨c, hc, h''⟩ := reaches _ h'.2
  obtain ⟨d, hd, h'''⟩ := reaches _ h''.2
  exact ⟨a, b, c, d, ⟨ha, h.1⟩, ⟨hb, h'.1⟩, ⟨hc, h''.1⟩, hd, h'''⟩

theorem witness_DecompressIsItsTwoStages :
    (loaded .limit128 container 9).idle ∧ ∃ a b,
      (exec .parseHeader (loaded .limit128 container 9) = .next a ∧ a.status.done = true)
        ∧ exec .decodePayload a = .next b ∧ b.status.done = true := by
  refine ⟨rfl, ?_⟩
  obtain ⟨a, ha, h⟩ := reaches (o := exec .parseHeader (loaded .limit128 container 9)) (fun a => a.status.done = true
    ∧ nextIs (fun b => decide (b.status.done = true)) (exec .decodePayload a) = true) (by decide +kernel)
  obtain ⟨b, hb, h'⟩ := reaches _ h.2
  exact ⟨a, b, ⟨ha, h.1⟩, hb, h'⟩

/-- Three symbols, nine bytes: cap = 9 + 3·5 + ⌈27/8⌉ exactly. -/
theorem witness_CompressProducesAContainer :
    let s := loaded .limit128 text 28
    s.idle ∧ s.build.wellFormed = true ∧ s.lenOk ∧ (∀ b ∈ s.input, Params.symbol s.build b)
      ∧ 9 + s.input.dedup.length * (2 + s.input.dedup.length)
          + (s.regs.inLen.toNat * s.input.dedup.length + 7) / 8 = s.cap := by decide +kernel

theorem witness_DecompressDecodesAContainer :
    let s := loaded .limit128 container 9
    let a : Byte × List Bool := (0x61, [true, true])
    let b : Byte × List Bool := (0x62, [false])
    let c : Byte × List Bool := (0x63, [true, false])
    let entries := [b, c, a]
    let picks := [a, a, a, b, b, b, b, c, c]
    s.idle ∧ s.build.wellFormed = true ∧ s.lenOk ∧ Params.legalEntries s.build entries
      ∧ (∀ e ∈ picks, e ∈ entries) ∧ 1 ≤ picks.length ∧ picks.length ≤ s.cap
      ∧ s.holds 0 (headerBytes entries entries.length picks.length ++ packedBytes (picks.flatMap Prod.snd)) := by
  decide +kernel

theorem witness_DecompressInvertsCompress :
    let s := loaded .limit128 text 22
    let v := loaded .limit128 container 9
    s.idle ∧ s.build.wellFormed = true ∧ v.idle ∧ v.build = s.build ∧ v.lenOk ∧ s.regs.inLen.toNat ≤ v.cap
      ∧ ∃ t, exec .compress s = .next t ∧ (t.status.done = true ∧ v.regs.inLen = t.regs.outLen
        ∧ v.input = (List.range t.regs.outLen.toNat).map t.outByte) :=
  ⟨rfl, by decide, rfl, rfl, by decide +kernel, by decide +kernel, reaches _ (by decide +kernel)⟩

/-- Each of the five commands with OUT_CAP = 0: right after reset, and where only the capacity is missing. -/
theorem witness_ZeroCapacityCompletesNothing :
    (∀ i ∈ [Instr.serialize, .compress, .parseHeader, .decodePayload, .decompress],
      State.reset.idle ∧ State.reset.regs.outCap = 0
        ∧ (i = .decodePayload → State.reset.status.hdrValid = true → State.reset.regs.total ≠ 0))
    ∧ ∀ p ∈ [(Instr.serialize, tabled 0), (.compress, tabled 0), (.parseHeader, parsed container 0),
        (.decodePayload, parsed container 0), (.decompress, parsed container 0)],
      p.2.idle ∧ p.2.regs.outCap = 0 ∧ (p.1 = .decodePayload → p.2.status.hdrValid = true ∧ p.2.regs.total ≠ 0) := by
  constructor
  · decide +kernel
  · decide +kernel

/-- The first and the last byte of each buffer, BUSY and idle. -/
theorem witness_RegistersReadAtTheirOffsets :
    (tabled 22).idle ∧ (tabled 22).build.wellFormed = true ∧ (busy 3 1 [] (loaded .limit128 text 64)).build.wellFormed = true
      ∧ ∀ a ∈ [0, 4095], a < (tabled 22).build.inMax ∧ a < (tabled 22).build.outMax := by decide +kernel

theorem witness_IdleStatusLayout : (tabled 22).idle := rfl

/-- With the first and the last busy opcode running. -/
theorem witness_BusyStatusRead :
    ∀ op ∈ [0x1#4, 0x8#4], (busy op 1 [] State.reset).status.busy = true
      ∧ (bodyOf (busy op 1 [] State.reset).curOp).isSome = true := by
  intro op hop
  simp only [List.mem_cons, List.not_mem_nil, or_false] at hop
  rcases hop with rfl | rfl
  · exact ⟨rfl, rfl⟩
  · exact ⟨rfl, rfl⟩

theorem witness_RegisterWrites : (tabled 22).idle := rfl

/-- The first and the last byte of IN_MEM. -/
theorem witness_InputWritesClearTheValidFlags :
    (tabled 22).idle ∧ (tabled 22).build.wellFormed = true ∧ 0 < (tabled 22).build.inMax
      ∧ 4095 < (tabled 22).build.inMax := by decide +kernel

/-- The wrong accesses, the ends of each reserved range, and OUT_MEM. -/
theorem witness_OtherAccessesAreIgnored :
    let b := State.reset.build
    b.wellFormed = true
      ∧ (∀ p ∈ [(1, 0x0C), (4, 0x5FFE)], p.2 < 0x6000 ∧ (p.1 ≠ 4 ∨ p.2 % 4 ≠ 0)) ∧ 0x6000 ≤ 0x10000000 ∧ 4 ≠ 1
      ∧ (∀ a ∈ [0x44, 0xFFC], 0x44 ≤ a ∧ a < 0x1000) ∧ (∀ a ∈ [0x1400, 0x1FFC], 0x1400 ≤ a ∧ a < 0x2000)
      ∧ (∀ a ∈ [0x2400, 0x2FFC], 0x2400 ≤ a ∧ a < 0x3000) ∧ (∀ a ∈ [0x3400, 0x3FFC], 0x3400 ≤ a ∧ a < 0x4000)
      ∧ (∀ a ∈ [0x6000, 0xFFFFFFF], 0x6000 ≤ a ∧ a < 0x10000000)
      ∧ (∀ a ∈ [0x10001000, 0x1FFFFFFF], 0x10000000 + b.inMax ≤ a ∧ a < 0x20000000)
      ∧ (∀ a ∈ [0x20001000, 0xFFFFFFFF], 0x20000000 + b.outMax ≤ a) := by decide +kernel

/-- The ends of each read-only range, and every access but the CMD write. -/
theorem witness_OtherAccessesAreIgnored_readOnly :
    (∀ a ∈ [0x1000, 0x13FC], 0x1000 ≤ a ∧ a < 0x1400) ∧ (∀ a ∈ [0x2000, 0x23FC], 0x2000 ≤ a ∧ a < 0x2400)
      ∧ (∀ a ∈ [0x3000, 0x33FC], 0x3000 ≤ a ∧ a < 0x3400) ∧ (∀ a ∈ [0x4000, 0x5FFC], 0x4000 ≤ a ∧ a < 0x6000)
      ∧ (0x00 ∈ [0x00, 0x04, 0x10, 0x14, 0x20, 0x24, 0x28, 0x2C, 0x30, 0x34, 0x3C, 0x40])
      ∧ ¬ (1 = 4 ∧ (0x08 : Word) = 0x08) ∧ ¬ (4 = 4 ∧ (0x0C : Word) = 0x08) := by decide

theorem witness_ReadsHaveNoSideEffect : State.reset.idle ∧ (busy 3 1 [] State.reset).status.busy = true := ⟨rfl, rfl⟩

/-- The first and the last entry of each window. -/
theorem witness_TableWindows : (tabled 22).idle ∧ ∀ k ∈ [0, 127, 128, 255], k < 256 := by decide +kernel

/-- COUNT, and SOFT_RESET, which the last clause leaves out. -/
theorem witness_CommandsNeverWriteTheInput :
    (∃ t, exec .count (loaded .limit128 text 64) = .next t ∧ t.status.done = true)
      ∧ ∃ t, exec .softReset (tabled 22) = .next t ∧ t.status.done = false :=
  ⟨reaches (fun t => t.status.done = true) (by decide +kernel),
    reaches (fun t => t.status.done = false) (by decide +kernel)⟩

/-- A running command that completes, and a CMD write. -/
theorem witness_StepKeepsBusyDoneErrExclusive :
    ∀ s ∈ [busy 3 0 [] (loaded .limit128 text 64), (counted 64).withScript (Script.cmd .buildTree)],
      s.status.exclusive ∧ ∃ t, step s = .next t ∧ t.status.done = true := by
  intro s hs
  simp only [List.mem_cons, List.not_mem_nil, or_false] at hs
  rcases hs with rfl | rfl
  all_goals exact ⟨by decide +kernel, reaches (fun t => t.status.done = true) (by decide +kernel)⟩

theorem witness_StepKeepsValidFlagsCoherent :
    ∀ s ∈ [busy 3 0 [] (loaded .limit128 text 64), (counted 64).withScript (Script.cmd .buildTree)],
      s.status.coherent ∧ s.runningOk ∧ ∃ t, step s = .next t ∧ t.status.done = true := by
  intro s hs
  simp only [List.mem_cons, List.not_mem_nil, or_false] at hs
  rcases hs with rfl | rfl
  all_goals
    exact ⟨by decide +kernel, by decide +kernel, reaches (fun t => t.status.done = true) (by decide +kernel)⟩

theorem witness_StepKeepsMemoryCanonical :
    let s := (tabled 22).withScript (Script.cmd .serialize)
    s.build.wellFormed = true ∧ s.memOk ∧ ∃ t, step s = .next t ∧ t.mem ≠ s.mem :=
  ⟨by decide, by decide +kernel, reaches (fun t => t.mem ≠ _) (by decide +kernel)⟩

theorem witness_StepKeepsInv :
    let s := (tabled 22).withScript (Script.cmd .serialize)
    s.Inv ∧ ∃ t, step s = .next t ∧ t.status.done = true :=
  ⟨⟨by decide +kernel, by decide +kernel, by decide +kernel, by decide +kernel, by decide +kernel, by decide +kernel,
    by decide +kernel, by decide +kernel⟩, reaches (fun t => t.status.done = true) (by decide +kernel)⟩

theorem witness_StepNeverStops : ((tabled 22).withScript (Script.cmd .compress)).Inv := ⟨by decide +kernel, by decide +kernel, by decide +kernel, by decide +kernel, by decide +kernel, by decide +kernel,
    by decide +kernel, by decide +kernel⟩

/-- The smallest and the largest legal build. -/
theorem witness_ResetSatisfiesInv :
    ∀ p ∈ [Params.mk .limit128 1 1, Params.mk .limit256 (2 ^ 28) (2 ^ 28)], p.wellFormed = true := by decide +kernel

/-- BUILD_TREE next, BUILD_TABLE next, SERIALIZE next: the flags gained and kept one after another. -/
theorem witness_StepKeepsResultsCurrent :
    ∀ p ∈ [((counted 64).withScript (Script.cmd .buildTree)), (treed 64).withScript (Script.cmd .buildTable),
      (tabled 64).withScript (Script.cmd .serialize)],
      p.Inv ∧ p.Current ∧ ∃ t, step p = .next t ∧ t.status.treeValid = true := by
  intro p hp
  simp only [List.mem_cons, List.not_mem_nil, or_false] at hp
  rcases hp with rfl | rfl | rfl
  all_goals
    exact ⟨⟨by decide +kernel, by decide +kernel, by decide +kernel, by decide +kernel, by decide +kernel,
      by decide +kernel, by decide +kernel, by decide +kernel⟩,
      ⟨by decide +kernel, by decide +kernel, by decide +kernel, by decide +kernel⟩,
      reaches (fun t => t.status.treeValid = true) (by decide +kernel)⟩

/-- A parsed header, and DECODE_PAYLOAD next. -/
theorem witness_StepKeepsResultsCurrent_parsed :
    let s := (parsed container 9).withScript (Script.cmd .decodePayload)
    s.Inv ∧ s.Current ∧ ∃ t, step s = .next t ∧ t.status.done = true :=
  ⟨⟨by decide +kernel, by decide +kernel, by decide +kernel, by decide +kernel, by decide +kernel, by decide +kernel,
    by decide +kernel, by decide +kernel⟩,
    ⟨by decide +kernel, by decide +kernel, by decide +kernel, by decide +kernel⟩,
    reaches (fun t => t.status.done = true) (by decide +kernel)⟩

end Sys2Proof.Tests
end

section
/-! PROOFS. The pseudocode of a busy command neither reads nor changes the host's side of the port: run with another
host's side it gives the same outcome, with that host's side in it (00_scope.md R6, 70_reset_and_hazards.md R322).
Each operation of the model commutes with `State.withEnv`; a loop does because its body does. -/

namespace Sys2Proof.Machine

/-- `s` with the host's side `e`. -/
def State.withEnv (e : Env) (s : State) : State := { s with env := e }

section

variable (e : Env) (s : State)

/-! ### What is read through another host's side -/

@[simp] theorem withEnv_regs : (s.withEnv e).regs = s.regs := rfl
@[simp] theorem withEnv_curOp : (s.withEnv e).curOp = s.curOp := rfl
@[simp] theorem withEnv_tables : (s.withEnv e).tables = s.tables := rfl
@[simp] theorem withEnv_dp : (s.withEnv e).dp = s.dp := rfl
@[simp] theorem withEnv_inByte (a : Nat) : (s.withEnv e).inByte a = s.inByte a := rfl
@[simp] theorem withEnv_nodeAt (k : Nat) : (s.withEnv e).nodeAt k = s.nodeAt k := rfl
@[simp] theorem withEnv_nodeKey : (s.withEnv e).nodeKey = s.nodeKey := rfl
@[simp] theorem withEnv_codeOf (i : Nat) : (s.withEnv e).codeOf i = s.codeOf i := rfl
@[simp] theorem withEnv_matchSymbol : (s.withEnv e).matchSymbol = s.matchSymbol := rfl

@[simp] theorem lengthGuard_withEnv : lengthGuard (s.withEnv e) = lengthGuard s := rfl
@[simp] theorem serializeCapCheck_withEnv : serializeCapCheck (s.withEnv e) = serializeCapCheck s := rfl
@[simp] theorem headerCheck_withEnv (ps u t : Nat) : headerCheck ps u t (s.withEnv e) = headerCheck ps u t s := rfl
@[simp] theorem decodeCapCheck_withEnv : decodeCapCheck (s.withEnv e) = decodeCapCheck s := rfl

/-! ### Updates without a branch -/

@[simp] theorem withEnv_enterPhase (p : Phase) : (s.withEnv e).enterPhase p = (s.enterPhase p).withEnv e := rfl
@[simp] theorem withEnv_clearFreq : (s.withEnv e).clearFreq = s.clearFreq.withEnv e := rfl
@[simp] theorem withEnv_bindCode (sym : Byte) (c : List Bool) :
    (s.withEnv e).bindCode sym c = (s.bindCode sym c).withEnv e := rfl
@[simp] theorem withEnv_clearCodes : (s.withEnv e).clearCodes = s.clearCodes.withEnv e := rfl
@[simp] theorem withEnv_addNode (n : Node) : (s.withEnv e).addNode n = (s.addNode n).withEnv e := rfl
@[simp] theorem withEnv_takeRoot : (s.withEnv e).takeRoot = s.takeRoot.withEnv e := rfl
@[simp] theorem withEnv_pushCall (n : BitVec 9) (d : BitVec 8) :
    (s.withEnv e).pushCall n d = (s.pushCall n d).withEnv e := rfl
@[simp] theorem withEnv_popCall : (s.withEnv e).popCall = s.popCall.withEnv e := rfl
@[simp] theorem withEnv_setPath (d : BitVec 8) (x : Bool) : (s.withEnv e).setPath d x = (s.setPath d x).withEnv e := rfl
@[simp] theorem withEnv_readNext : (s.withEnv e).readNext = (s.readNext.1, s.readNext.2.withEnv e) := rfl
@[simp] theorem withEnv_growCandidate (x : Bool) :
    (s.withEnv e).growCandidate x = (s.growCandidate x).withEnv e := rfl
@[simp] theorem countResults_withEnv : countResults (s.withEnv e) = (countResults s).withEnv e := rfl
@[simp] theorem buildTreeResults_withEnv : buildTreeResults (s.withEnv e) = (buildTreeResults s).withEnv e := rfl
@[simp] theorem buildTableResults_withEnv : buildTableResults (s.withEnv e) = (buildTableResults s).withEnv e := rfl
@[simp] theorem serializeResults_withEnv : serializeResults (s.withEnv e) = (serializeResults s).withEnv e := rfl
@[simp] theorem parseCommit_withEnv (u t : Nat) : parseCommit u t (s.withEnv e) = (parseCommit u t s).withEnv e := rfl
@[simp] theorem decodeResults_withEnv : decodeResults (s.withEnv e) = (decodeResults s).withEnv e := rfl

/-- A write of the datapath registers alone. -/
theorem withEnv_with_dp (d : Datapath) : { s.withEnv e with dp := d } = ({ s with dp := d } : State).withEnv e := rfl

/-! ### Loops and sequences -/

/-- A loop commutes when its body does. -/
theorem foldl_withEnv {α : Type} {f : State → α → State} (h : ∀ s x, f (s.withEnv e) x = (f s x).withEnv e)
    (l : List α) : l.foldl f (s.withEnv e) = (l.foldl f s).withEnv e :=
  List.foldl_hom (State.withEnv e) h

@[simp] theorem map_ite {α β : Type} (f : α → β) (c : Prop) [Decidable c] (x y : Except Halt α) :
    f <$> (if c then x else y) = if c then f <$> x else f <$> y := apply_ite (f <$> ·) c x y

@[simp] theorem map_raise {α β : Type} (f : α → β) (k : ErrKind) (sub pos : Nat) :
    f <$> (raise k sub pos : Except Halt α) = raise k sub pos := rfl

/-- A loop that may raise commutes when its body does. -/
theorem foldlM_withEnv {α : Type} {f : State → α → Run} (h : ∀ s x, f (s.withEnv e) x = State.withEnv e <$> f s x)
    (l : List α) : l.foldlM f (s.withEnv e) = State.withEnv e <$> l.foldlM f s := by
  induction l generalizing s with
  | nil => rfl
  | cons x l ih => simp [List.foldlM_cons, h, ih]

/-! ### COUNT -/

theorem countByte_withEnv (i : Nat) : countByte (s.withEnv e) i = State.withEnv e <$> countByte s i := by
  by_cases hl : s.limit ≤ (s.inByte i).toNat ∨ s.inByte i = Config.sentinel
  · rw [countByte_bad hl, countByte_bad (s := s.withEnv e) hl]; rfl
  · obtain ⟨hlim, hsen⟩ := not_or.1 hl
    rw [countByte_ok (not_le.1 hlim) hsen, countByte_ok (s := s.withEnv e) (not_le.1 hlim) hsen]; rfl

@[simp] theorem countBody_withEnv : countBody (s.withEnv e) = State.withEnv e <$> countBody s := by
  simp [countBody, foldlM_withEnv e _ (countByte_withEnv e)]

/-! ### BUILD_TREE -/

theorem loadSymbol_withEnv (i : Nat) : loadSymbol (s.withEnv e) i = (loadSymbol s i).withEnv e := by
  simp only [loadSymbol, apply_ite (State.withEnv e)]
  rfl

@[simp] theorem heapLoad_withEnv : heapLoad (s.withEnv e) = (heapLoad s).withEnv e :=
  foldl_withEnv e { s with tables := { s.tables with heap := [], nodes := [] } } (loadSymbol_withEnv e) _

@[simp] theorem extractMin_withEnv :
    (s.withEnv e).extractMin = (fun p => (p.1, p.2.withEnv e)) <$> s.extractMin := by
  unfold State.extractMin
  rw [withEnv_nodeKey, withEnv_tables]
  cases Heap.extractMin s.nodeKey s.tables.heap <;> rfl

@[simp] theorem mergeStep_withEnv : mergeStep (s.withEnv e) = State.withEnv e <$> mergeStep s := by
  simp [mergeStep]

@[simp] theorem mergeLoop_withEnv (n : Nat) : mergeLoop n (s.withEnv e) = State.withEnv e <$> mergeLoop n s := by
  induction n generalizing s with
  | zero => rfl
  | succ n ih => simp [mergeLoop, ih]

@[simp] theorem buildTreeBody_withEnv : buildTreeBody (s.withEnv e) = State.withEnv e <$> buildTreeBody s := by
  simp [buildTreeBody]

/-! ### BUILD_TABLE -/

@[simp] theorem traverse_withEnv (room : Nat) : traverse room (s.withEnv e) = State.withEnv e <$> traverse room s := by
  induction room generalizing s with
  | zero => rfl
  | succ room ih =>
    unfold traverse
    rw [withEnv_dp]
    cases s.dp.tstack with
    | nil => rfl
    | cons c stack =>
      dsimp only
      rw [withEnv_nodeAt]
      cases s.nodeAt c.1.toNat with
      | leaf f sym => rfl
      | internal f left right => simp [ih]

@[simp] theorem walkTree_withEnv : walkTree (s.withEnv e) = State.withEnv e <$> walkTree s := by
  unfold walkTree
  rw [withEnv_tables, withEnv_nodeAt]
  cases s.nodeAt s.tables.root.toNat with
  | leaf f sym => rfl
  | internal f left right =>
    exact traverse_withEnv e { s with dp := { s.dp with tstack := [(s.tables.root, 0)], path := 0 } } _

@[simp] theorem buildTableBody_withEnv : buildTableBody (s.withEnv e) = State.withEnv e <$> buildTableBody s := by
  simp [buildTableBody]

/-! ### SERIALIZE -/

@[simp] theorem withEnv_outWrite (a : Nat) (v : Byte) : (s.withEnv e).outWrite a v = (s.outWrite a v).withEnv e := by
  simp only [State.outWrite, apply_ite (State.withEnv e)]
  rfl

@[simp] theorem emitByte_withEnv (v : Byte) : emitByte (s.withEnv e) v = (emitByte s v).withEnv e := by
  simp only [emitByte, withEnv_outWrite]
  rfl

theorem emitEntry_withEnv (sym : Byte) : emitEntry (s.withEnv e) sym = (emitEntry s sym).withEnv e := by
  simp [emitEntry, foldl_withEnv e]

@[simp] theorem emitCounts_withEnv : emitCounts (s.withEnv e) = (emitCounts s).withEnv e := by
  simp [emitCounts, foldl_withEnv e]

theorem packBit_withEnv (x : Bool) : packBit (s.withEnv e) x = (packBit s x).withEnv e := by
  simp only [packBit, withEnv_dp, emitByte_withEnv]
  split <;> rfl

theorem packSymbol_withEnv (i : Nat) : packSymbol (s.withEnv e) i = (packSymbol s i).withEnv e := by
  simp [packSymbol, foldl_withEnv e _ (packBit_withEnv e)]

@[simp] theorem flushBits_withEnv : flushBits (s.withEnv e) = (flushBits s).withEnv e := by
  simp only [flushBits, withEnv_dp, emitByte_withEnv]
  split <;> rfl

@[simp] theorem emitHeader_withEnv : emitHeader (s.withEnv e) = (emitHeader s).withEnv e := by
  unfold emitHeader
  rw [withEnv_with_dp, foldl_withEnv e _ (emitEntry_withEnv e), emitCounts_withEnv]
  rfl

@[simp] theorem emitPayload_withEnv : emitPayload (s.withEnv e) = (emitPayload s).withEnv e := by
  unfold emitPayload
  rw [withEnv_with_dp, foldl_withEnv e _ (packSymbol_withEnv e), flushBits_withEnv]
  rfl

@[simp] theorem serializeBody_withEnv : serializeBody (s.withEnv e) = State.withEnv e <$> serializeBody s := by
  simp [serializeBody]

/-! ### PARSE_HEADER -/

@[simp] theorem parseEntryStart_withEnv :
    parseEntryStart (s.withEnv e) = (fun p => (p.1, p.2.withEnv e)) <$> parseEntryStart s := by
  simp only [parseEntryStart, hdrTrunc, map_ite]
  rfl

@[simp] theorem parseCode_withEnv (sym : Byte) (n : Nat) (c : List Bool) :
    parseCode sym n c (s.withEnv e) = State.withEnv e <$> parseCode sym n c s := by
  induction n generalizing c s with
  | zero => rfl
  | succ n ih =>
    simp only [parseCode, hdrTrunc, withEnv_readNext, ih, map_ite]
    rfl

@[simp] theorem parseEntries_withEnv (n : Nat) :
    parseEntries n (s.withEnv e) = State.withEnv e <$> parseEntries n s := by
  induction n generalizing s with
  | zero => rfl
  | succ n ih =>
    simp only [parseEntries, parseEntryStart_withEnv, bind_map_left, map_bind]
    refine bind_congr fun p => ?_
    rcases p with ⟨_ | sym, t⟩
    · rfl
    · simp [ih]

@[simp] theorem parseCounts_withEnv :
    parseCounts (s.withEnv e) = (fun p => (p.1, p.2.1, p.2.2.withEnv e)) <$> parseCounts s := by
  simp only [parseCounts, map_ite]
  rfl

@[simp] theorem parseHeaderBody_withEnv :
    parseHeaderBody (s.withEnv e) = State.withEnv e <$> parseHeaderBody s := by
  simp only [parseHeaderBody, withEnv_enterPhase, withEnv_clearCodes, withEnv_with_dp]
  simp

/-! ### DECODE_PAYLOAD -/

@[simp] theorem fetchBit_withEnv :
    fetchBit (s.withEnv e) = (fun p => (p.1, p.2.1, p.2.2.withEnv e)) <$> fetchBit s := by
  simp only [fetchBit, payloadExhausted, map_ite]
  rfl

@[simp] theorem emitSymbol_withEnv (sym : Nat) : emitSymbol (s.withEnv e) sym = (emitSymbol s sym).withEnv e := by
  simp only [emitSymbol, withEnv_outWrite]
  rfl

@[simp] theorem matchStep_withEnv (x : Bool) (a : Nat) :
    matchStep x a (s.withEnv e) = State.withEnv e <$> matchStep x a s := by
  simp only [matchStep, withEnv_growCandidate, withEnv_regs, withEnv_dp, withEnv_matchSymbol, map_ite]
  cases (s.growCandidate x).matchSymbol with
  | none => rfl
  | some sym => simp

@[simp] theorem decodeLoop_withEnv (n : Nat) :
    decodeLoop n (s.withEnv e) = State.withEnv e <$> decodeLoop n s := by
  induction n generalizing s with
  | zero =>
    simp only [decodeLoop, map_ite]
    rfl
  | succ n ih => simp [decodeLoop, ih]

@[simp] theorem decodePayloadBody_withEnv :
    decodePayloadBody (s.withEnv e) = State.withEnv e <$> decodePayloadBody s := by
  simp only [decodePayloadBody, withEnv_enterPhase, withEnv_with_dp]
  simp

/-! ### The composites, and every busy command -/

@[simp] theorem compressBody_withEnv : compressBody (s.withEnv e) = State.withEnv e <$> compressBody s := by
  simp [compressBody]

@[simp] theorem decompressBody_withEnv : decompressBody (s.withEnv e) = State.withEnv e <$> decompressBody s := by
  simp [decompressBody]

/-- The pseudocode of every busy command runs the same whatever the host's side is. -/
theorem bodyOf_withEnv {op : BitVec 4} {body : State → Run} (h : bodyOf op = some body) :
    body (s.withEnv e) = State.withEnv e <$> body s := by
  unfold bodyOf at h
  split at h
  all_goals cases h
  · exact compressBody_withEnv e s
  · exact decompressBody_withEnv e s
  · exact countBody_withEnv e s
  · exact buildTreeBody_withEnv e s
  · exact buildTableBody_withEnv e s
  · exact serializeBody_withEnv e s
  · exact parseHeaderBody_withEnv e s
  · exact decodePayloadBody_withEnv e s

/-! ### Completion -/

/-- An outcome with the host's side `e` in its state. -/
def outcomeWithEnv (e : Env) : Host.Outcome State Fault Refusal → Host.Outcome State Fault Refusal
  | .next t => .next (t.withEnv e)
  | .fault f => .fault f
  | .refused r => .refused r

/-- Either end of a busy command only writes `busyLeft := 0` to the host's side, so it keeps a host's side that has no
time left. -/
theorem finish_withEnv (h : e.busyLeft = 0) (r : Run) :
    finish (State.withEnv e <$> r) (s.withEnv e) = outcomeWithEnv e (finish r s) := by
  have he : { e with busyLeft := 0 } = e := by rw [← h]
  have hsuccess (t : State) : successCommit (t.withEnv e) = (successCommit t).withEnv e :=
    congrArg (fun e' => (successCommit t).withEnv e') he
  have herror (x : Raised) : errorCommit x (s.withEnv e) = (errorCommit x s).withEnv e :=
    congrArg (fun e' => (errorCommit x s).withEnv e') he
  match r with
  | .ok t => exact congrArg Host.Outcome.next (hsuccess t)
  | .error (.raised x) => exact congrArg Host.Outcome.next (herror x)
  | .error (.fault f) => rfl

/-- The step in which the running command's time has come is its completion. -/
theorem step_of_due (hb : s.status.busy = true) (hl : s.env.busyLeft = 0) : step s = completeRunning s :=
  if_pos ⟨hb, hl⟩

/-- The completion of the running command under another host's side. -/
theorem completeRunning_withEnv {body : State → Run} (h : bodyOf s.curOp = some body) (he : e.busyLeft = 0) :
    completeRunning (s.withEnv e) = outcomeWithEnv e (finish (body s) s) := by
  unfold completeRunning
  rw [withEnv_curOp, h, ← finish_withEnv e s he, ← bodyOf_withEnv e s h]

end

/-- Settles O5: the completion runs the pseudocode on the accepted state, as `exec` does at once, and the pseudocode
and both its ends are blind to the host's side. -/
theorem completionAfterBusyIsTheAtomicTransition : Obligations.CompletionAfterBusyIsTheAtomicTransition := by
  intro i s a n e hacc hleft
  obtain ⟨hidle, hbody, hpre, rfl⟩ := acceptFor_cases hacc
  obtain ⟨body, hbody⟩ := Option.isSome_iff_exists.1 hbody
  let accepted := accept i.opcode (request i.opcode s)
  have hstep : step (accepted.withEnv e) = outcomeWithEnv e (exec i s) := by
    rw [step_of_due _ rfl hleft, completeRunning_withEnv e accepted hbody hleft, exec_eq_runCommand hbody,
      runCommand_run _ _ hidle hpre]
  exact hstep.trans (by cases exec i s <;> rfl)

end Sys2Proof.Machine
end

section
/-! PROOFS. The host port: which target an access reaches, what a read of each target gives, and what a write leaves
unchanged (10_state.md R20 to R41, R55 to R58; 20_memory.md R62 to R71). -/

namespace Sys2Proof.Machine

/-! ### The address map -/

/-- A register is reached by a 32-bit access at its offset (10_state.md R20). -/
theorem target_register (p : Config.Params) (r : Reg) :
    target p 4 (BitVec.ofNat 32 r.offset) = .register r := by cases r <;> rfl

/-- A register is reached by no other access (20_memory.md R63, R64). -/
theorem target_eq_register {p : Config.Params} {size : Nat} {addr : Word} {r : Reg}
    (h : target p size addr = .register r) : size = 4 ∧ addr = BitVec.ofNat 32 r.offset := by
  dsimp only [target, wordTarget, byteTarget] at h
  split_ifs at h with _ haccess
  split at h
  · rename_i hfind
    cases h
    have hofs : r.offset = addr.toNat := by simpa using List.find?_some hfind
    exact ⟨haccess.1, by rw [hofs, BitVec.ofNat_toNat, BitVec.setWidth_eq]⟩
  · cases h

/-- A byte of IN_MEM is reached at its own address only (20_memory.md R62). -/
theorem target_eq_inByte {p : Config.Params} {size : Nat} {addr : Word} {a : Nat}
    (h : target p size addr = .inByte a) : addr.toNat = 0x10000000 + a ∧ a < p.inMax := by
  dsimp only [target, wordTarget, byteTarget] at h
  split_ifs at h
  · split at h <;> cases h
  · rename_i hlo hhi
    simp only [Config.inBase, Target.inByte.injEq] at hlo hhi h
    omega

/-- The address of an offset below 2^32 as a number. -/
theorem toNat_ofNat32 {a : Nat} (h : a < 2 ^ 32) : (BitVec.ofNat 32 a).toNat = a := by
  rw [BitVec.toNat_ofNat, Nat.mod_eq_of_lt h]

/-- A 32-bit access at an aligned offset behind the registers. -/
theorem target_word (p : Config.Params) {a : Nat} (h : a < 0x6000) (h4 : a % 4 = 0) :
    target p 4 (BitVec.ofNat 32 a) = wordTarget a := by
  simp [target, toNat_ofNat32 (show a < 2 ^ 32 by omega), h, h4]

theorem target_freqWin (p : Config.Params) {k : Nat} (h : k < 256) :
    target p 4 (BitVec.ofNat 32 (0x1000 + 4 * k)) = .freqWin k := by
  rw [target_word p (by omega) (by omega), wordTarget, if_neg (by omega), if_pos (by omega)]
  congr 1
  omega

theorem target_codeLenWin (p : Config.Params) {k : Nat} (h : k < 256) :
    target p 4 (BitVec.ofNat 32 (0x2000 + 4 * k)) = .codeLenWin k := by
  rw [target_word p (by omega) (by omega), wordTarget, if_neg (by omega), if_neg (by omega), if_neg (by omega),
    if_pos (by omega)]
  congr 1
  omega

theorem target_orderWin (p : Config.Params) {k : Nat} (h : k < 256) :
    target p 4 (BitVec.ofNat 32 (0x3000 + 4 * k)) = .orderWin k := by
  rw [target_word p (by omega) (by omega), wordTarget, if_neg (by omega), if_neg (by omega), if_neg (by omega),
    if_neg (by omega), if_neg (by omega), if_pos (by omega)]
  congr 1
  omega

theorem target_codeBitsWin (p : Config.Params) {k w : Nat} (h : k < 256) (hw : w < 8) :
    target p 4 (BitVec.ofNat 32 (0x4000 + 32 * k + 4 * w)) = .codeBitsWin k w := by
  rw [target_word p (by omega) (by omega), wordTarget, if_neg (by omega), if_neg (by omega), if_neg (by omega),
    if_neg (by omega), if_neg (by omega), if_neg (by omega), if_neg (by omega)]
  congr 1 <;> omega

/-- The sizes of a legal build (00_scope.md R9). -/
theorem wellFormed_bounds {p : Config.Params} (h : p.wellFormed = true) :
    1 ≤ p.inMax ∧ p.inMax ≤ 2 ^ 28 ∧ 1 ≤ p.outMax ∧ p.outMax ≤ 2 ^ 28 := by
  simp only [Config.Params.wellFormed, Bool.and_eq_true, decide_eq_true_eq] at h
  tauto

theorem target_inByte {p : Config.Params} (hp : p.wellFormed = true) {a : Nat} (h : a < p.inMax) :
    target p 1 (BitVec.ofNat 32 (0x10000000 + a)) = .inByte a := by
  obtain ⟨-, hin, -, -⟩ := wellFormed_bounds hp
  have ha : (BitVec.ofNat 32 (0x10000000 + a)).toNat = 0x10000000 + a := toNat_ofNat32 (by omega)
  simp [target, byteTarget, ha, Config.inBase, h, show ¬ 268435456 + a < 24576 by omega]

theorem target_outByte {p : Config.Params} (hp : p.wellFormed = true) {a : Nat} (h : a < p.outMax) :
    target p 1 (BitVec.ofNat 32 (0x20000000 + a)) = .outByte a := by
  obtain ⟨-, hin, -, hout⟩ := wellFormed_bounds hp
  have ha : (BitVec.ofNat 32 (0x20000000 + a)).toNat = 0x20000000 + a := toNat_ofNat32 (by omega)
  simp [target, byteTarget, ha, Config.inBase, Config.outBase, h, show ¬ 536870912 + a < 24576 by omega,
    show ¬ 536870912 + a < 268435456 + p.inMax by omega, show ¬ 536870912 + a < 268435456 by omega]

/-- An access of a wrong width or alignment reaches nothing (20_memory.md R63, R64). -/
theorem target_wrong (p : Config.Params) {size : Nat} {addr : Word}
    (h : (addr.toNat < 0x6000 ∧ (size ≠ 4 ∨ addr.toNat % 4 ≠ 0)) ∨ (0x6000 ≤ addr.toNat ∧ size ≠ 1)) :
    target p size addr = .reserved := by
  unfold target
  rcases h with ⟨hlo, hwrong⟩ | ⟨hhi, hsize⟩
  · exact (if_pos hlo).trans (if_neg (by tauto))
  · exact (if_neg (by omega)).trans (if_neg hsize)

/-- No register stands behind offset 0x40 (10_state.md R20). -/
theorem wordTarget_behind_registers {a : Nat} (h : 0x44 ≤ a) (h' : a < 0x1000) : wordTarget a = .reserved := by
  have hnone : allRegs.find? (fun r => decide (r.offset = a)) = none := by
    refine List.find?_eq_none.2 fun r _ => ?_
    have hofs : r.offset ≤ 0x40 := by cases r <;> decide
    simp only [decide_eq_true_eq]
    omega
  rw [wordTarget, if_pos h', hnone]

/-- A reserved place is reached by no access (20_memory.md R65). -/
theorem target_reserved {p : Config.Params} (hp : p.wellFormed = true) {size : Nat} {addr : Word}
    (h : (0x44 ≤ addr.toNat ∧ addr.toNat < 0x1000) ∨ (0x1400 ≤ addr.toNat ∧ addr.toNat < 0x2000)
      ∨ (0x2400 ≤ addr.toNat ∧ addr.toNat < 0x3000) ∨ (0x3400 ≤ addr.toNat ∧ addr.toNat < 0x4000)
      ∨ (0x6000 ≤ addr.toNat ∧ addr.toNat < 0x10000000)
      ∨ (0x10000000 + p.inMax ≤ addr.toNat ∧ addr.toNat < 0x20000000)
      ∨ 0x20000000 + p.outMax ≤ addr.toNat) : target p size addr = .reserved := by
  obtain ⟨-, hin, -, -⟩ := wellFormed_bounds hp
  have hword : addr.toNat < 0x6000 → wordTarget addr.toNat = .reserved := by
    intro hlo
    by_cases hreg : addr.toNat < 0x1000
    · exact wordTarget_behind_registers (by omega) hreg
    · grind [wordTarget]
  have hbyte : 0x6000 ≤ addr.toNat → byteTarget p addr.toNat = .reserved := by
    grind [byteTarget, Config.inBase, Config.outBase]
  unfold target
  by_cases hlo : addr.toNat < 0x6000
  · exact (if_pos hlo).trans ((congrArg (ite _ · _) (hword hlo)).trans (ite_self _))
  · exact (if_neg hlo).trans ((congrArg (ite _ · _) (hbyte (by omega))).trans (ite_self _))

end Sys2Proof.Machine
end

section
/-! PROOFS. What host reads give and what host writes leave unchanged, target by target (10_state.md R20 to R41, R54 to
R58; 20_memory.md R63 to R71). -/

namespace Sys2Proof.Machine

/-! ### Reads -/

section

variable {s : State} {size : Nat} {addr : Word} {t : Target}

theorem readValue_idle (hs : s.idle) (ht : target s.build size addr = t) : s.readValue size addr = s.idleRead t := by
  simp [State.readValue, hs, ht]

theorem readValue_reserved (ht : target s.build size addr = .reserved) : s.readValue size addr = 0 := by
  rw [State.readValue, ht]
  exact ite_self _

/-- A byte of IN_MEM reads the same BUSY or not (20_memory.md R69). -/
theorem readValue_inByte {a : Nat} (ht : target s.build size addr = .inByte a) :
    s.readValue size addr = (s.inByte a).setWidth 32 := by
  rw [State.readValue, ht]
  exact ite_self _

/-- A result register, read while BUSY = 0. -/
theorem readValue_idleReg (hs : s.idle) (r : Reg) : s.readValue 4 (BitVec.ofNat 32 r.offset) = s.idleReg r :=
  readValue_idle hs (target_register _ r)

/-- A register of R69's first group reads the same BUSY or not. -/
theorem readValue_steadyReg (s : State) {r : Reg} {v : Word} (h : s.steadyReg r = some v) :
    s.readValue 4 (BitVec.ofNat 32 r.offset) = v := by
  rw [State.readValue, target_register]
  have hidle : s.idleRead (.register r) = v := by cases r <;> cases h <;> rfl
  have hbusy : s.busyRead (.register r) = v := by cases r <;> cases h <;> rfl
  rw [hidle, hbusy]
  exact ite_self _

end

/-- A byte or a field of a register, zero-extended to 32 bits. -/
theorem toNat_setWidth32 {w : Nat} (v : BitVec w) (h : w ≤ 32) : (v.setWidth 32).toNat = v.toNat :=
  BitVec.toNat_setWidth_of_le h

/-- A bit string gathered from its first bit on: bit `j` of `n` stands at place `n − 1 − j` (10_state.md R58). -/
theorem testBit_gather (f : Nat → Bool) {n j : Nat} (h : j < n) :
    ((List.range n).foldl (fun acc k => 2 * acc + (f k).toNat) 0).testBit (n - 1 - j) = f j := by
  induction n with
  | zero => omega
  | succ n ih =>
    rw [List.range_succ, List.foldl_append, List.foldl_cons, List.foldl_nil]
    rcases Nat.lt_succ_iff_lt_or_eq.1 h with hlt | rfl
    · rw [show n + 1 - 1 - j = (n - 1 - j) + 1 by omega, Nat.testBit_succ, ← ih hlt]
      congr 1
      cases f n <;> simp; omega
    · cases f j <;> simp [Nat.testBit_zero]

/-- Bit 31 − j of word `w` of CODE_BITS_WIN is bit 32w + j of the code (R58). -/
theorem codeWord_getLsbD (c : List Bool) (w : Nat) {j : Nat} (h : j < 32) :
    (codeWord c w).getLsbD (31 - j) = c.getD (32 * w + j) false := by
  rw [codeWord, BitVec.getLsbD_ofNat, testBit_gather (fun j => c.getD (32 * w + j) false) h]
  simp [show 31 - j < 32 by omega]

/-! ### Writes -/

/-- The targets that ignore every write (10_state.md R40, 20_memory.md R65, R68). -/
def Target.ignoresWrites : Target → Bool
  | .register .cmd | .register .status | .register .inLen | .register .outCap | .register .intEn => false
  | .inByte _ => false
  | _ => true

section

variable {s : State} {size : Nat} {addr v : Word}

/-- A write to anything but CMD (20_memory.md R66). -/
theorem hostWrite_other (h : target s.build size addr ≠ .register .cmd) :
    hostWrite size addr v s
      = .next (if s.status.busy then s else s.idleWrite (target s.build size addr) v) := by
  unfold hostWrite
  split
  · contradiction
  · rfl

theorem idleWrite_of_ignoresWrites {t : Target} (h : t.ignoresWrites = true) : s.idleWrite t v = s := by
  cases t with
  | register r => cases r <;> simp [Target.ignoresWrites] at h <;> rfl
  | inByte a => cases h
  | _ => rfl

theorem hostWrite_of_ignoresWrites (h : (target s.build size addr).ignoresWrites = true) :
    hostWrite size addr v s = .next s := by
  rw [hostWrite_other (by rintro e; rw [e] at h; cases h), idleWrite_of_ignoresWrites h, ite_self]

/-- A write to a register other than CMD while BUSY = 0. -/
theorem hostWrite_register {r : Reg} (hs : s.idle) (hr : r ≠ .cmd) :
    hostWrite 4 (BitVec.ofNat 32 r.offset) v s = .next (s.idleWrite (.register r) v) := by
  rw [hostWrite_other (by simp [target_register, hr]), target_register, if_neg (by simp [hs])]

/-- A write other than to CMD changes no status bit but to clear DONE, ERR or all valid flags together. -/
theorem idleWrite_status (s : State) (t : Target) (v : Word) :
    (s.idleWrite t v).status.busy = s.status.busy ∧ (s.idleWrite t v).status.errCode = s.status.errCode
      ∧ ((s.idleWrite t v).status.done = true → s.status.done = true)
      ∧ ((s.idleWrite t v).status.err = true → s.status.err = true)
      ∧ ((s.idleWrite t v).status.flags = s.status.flags
        ∨ (s.idleWrite t v).status.flags = (false, false, false, false)) := by
  by_cases ht : t.ignoresWrites = true
  · rw [idleWrite_of_ignoresWrites ht]
    simp
  · cases t with
    | register r => cases r <;> simp_all [Target.ignoresWrites, State.idleWrite, State.clearReport,
        State.inputChanged, Status.clearValid]
    | inByte a => simp [State.idleWrite]
    | _ => exact absurd rfl ht

end

/-! ### Where writes are ignored -/

/-- The read-only registers and the windows (10_state.md R21, R22, R28, R29, R32 to R37, R39, R55 to R58). -/
theorem target_ignoresWrites_of_readOnly (p : Config.Params) (size : Nat) {addr : Word}
    (h : addr.toNat ∈ [0x00, 0x04, 0x10, 0x14, 0x20, 0x24, 0x28, 0x2C, 0x30, 0x34, 0x3C, 0x40]
      ∨ (0x1000 ≤ addr.toNat ∧ addr.toNat < 0x1400) ∨ (0x2000 ≤ addr.toNat ∧ addr.toNat < 0x2400)
      ∨ (0x3000 ≤ addr.toNat ∧ addr.toNat < 0x3400) ∨ (0x4000 ≤ addr.toNat ∧ addr.toNat < 0x6000)) :
    (target p size addr).ignoresWrites = true := by
  cases ht : target p size addr with
  | register r =>
    obtain ⟨-, rfl⟩ := target_eq_register ht
    cases r <;> simp_all [Target.ignoresWrites, Reg.offset]
  | inByte a =>
    obtain ⟨hofs, -⟩ := target_eq_inByte ht
    simp only [List.mem_cons, List.not_mem_nil, or_false] at h
    omega
  | _ => rfl

/-- OUT_MEM and what lies above it (20_memory.md R68). -/
theorem target_ignoresWrites_of_outMem {p : Config.Params} (hp : p.wellFormed = true) (size : Nat) {addr : Word}
    (h : 0x20000000 ≤ addr.toNat) : (target p size addr).ignoresWrites = true := by
  obtain ⟨-, hin, -, -⟩ := wellFormed_bounds hp
  have hbyte : (byteTarget p addr.toNat).ignoresWrites = true := by
    unfold byteTarget Config.inBase Config.outBase
    rw [if_neg (by omega), if_neg (by omega), if_neg (by omega)]
    split <;> rfl
  unfold target
  rw [if_neg (by omega)]
  split
  · exact hbyte
  · rfl

end Sys2Proof.Machine
end

section
/-! PROOFS. The obligations about the host port: the registers and the buffers' bytes, STATUS, the windows, writes and
ignored accesses, the interrupt, and what the reset state reads. -/

namespace Sys2Proof.Machine

/-- Settles O43: each access reaches its register or byte; a register of R69's first group and a byte of IN_MEM read the
same BUSY or not. -/
theorem registersReadAtTheirOffsets : Obligations.RegistersReadAtTheirOffsets := by
  intro s
  have hcmd := readValue_steadyReg s (r := .cmd) rfl
  have hintEn := readValue_steadyReg s (r := .intEn) rfl
  refine ⟨readValue_steadyReg s (r := .id) rfl, readValue_steadyReg s (r := .cfg) rfl,
    readValue_steadyReg s (r := .inMax) rfl, readValue_steadyReg s (r := .outMax) rfl, ?_,
    readValue_steadyReg s (r := .inLen) rfl, readValue_steadyReg s (r := .outCap) rfl, ?_, fun hp a ha => ?_,
    fun hs => ⟨readValue_idleReg hs .errPos, ?_, readValue_idleReg hs .outLen, readValue_idleReg hs .unique,
      readValue_idleReg hs .total, readValue_idleReg hs .payloadOfs, readValue_idleReg hs .payloadBits, ?_,
      fun hp a ha => ?_⟩⟩
  · exact (congrArg BitVec.toNat hcmd).trans (toNat_setWidth32 _ (by decide))
  · exact (congrArg BitVec.toNat hintEn).trans ((toNat_setWidth32 _ (by decide)).trans (BitVec.toNat_ofBool _))
  · rw [readValue_inByte (target_inByte hp ha), toNat_setWidth32 _ (by decide)]
  · exact (congrArg BitVec.toNat (readValue_idleReg hs .errSub)).trans (toNat_setWidth32 _ (by decide))
  · exact (congrArg BitVec.toNat (readValue_idleReg hs .maxLen)).trans (toNat_setWidth32 _ (by decide))
  · rw [readValue_idle hs (target_outByte hp ha), State.idleRead, toNat_setWidth32 _ (by decide)]

/-- Bit `k` of the STATUS word, field by field from bit 0 up (10_state.md R24). -/
theorem Status.word_getLsbD (t : Status) (ph : BitVec 4) (k : Nat) : (t.word ph).getLsbD k =
    ([t.busy, t.done, t.err, false] ++ (List.range 4).map t.errCode.getLsbD ++ (List.range 4).map ph.getLsbD
      ++ [false, false, false, false, t.freqValid, t.treeValid, t.tableValid, t.hdrValid]).getD k false := by
  by_cases h : k < 32
  · simp only [Status.word, BitVec.getLsbD_append, BitVec.getLsbD_ofBool]
    interval_cases k <;> rfl
  · rw [BitVec.getLsbD_of_ge _ _ (by omega), List.getD_eq_default _ _ (by simp; omega)]

/-- A field of a word, from its bits. -/
theorem field_eq {v : Word} {start len : Nat} {x : BitVec len} (h : ∀ i < len, v.getLsbD (start + i) = x.getLsbD i) :
    v.extractLsb' start len = x :=
  BitVec.eq_of_getLsbD_eq fun i hi => by simpa [hi] using h i hi

/-- Settles O44: STATUS reads its fields bit by bit (R24), and PHASE as IDLE (R26). -/
theorem idleStatusLayout : Obligations.IdleStatusLayout := by
  intro s hs
  have hbits (k : Nat) : (s.readValue 4 0x0C).getLsbD k = _ :=
    (congrArg (BitVec.getLsbD · k) (readValue_idleReg hs .status)).trans (Status.word_getLsbD _ _ k)
  refine ⟨(hbits 0).trans hs, hbits 1, hbits 2, hbits 3, field_eq fun i hi => ?_, field_eq fun i hi => ?_,
    field_eq fun i hi => ?_, hbits 16, hbits 17, hbits 18, hbits 19, field_eq fun i hi => ?_⟩
  all_goals
    rw [hbits]
    interval_cases i <;> rfl

/-- Settles O46. -/
theorem registerWrites : Obligations.RegisterWrites := by
  intro s v hs
  refine ⟨(hostWrite_register (r := .status) hs (by decide)).trans ?_,
    hostWrite_register (r := .outCap) hs (by decide), hostWrite_register (r := .intEn) hs (by decide)⟩
  have hclear (b x : Bool) : (b && !x) = if x then false else b := by cases x <;> simp
  rw [State.idleWrite, State.clearReport, hclear, hclear]

/-- Settles O48: a wrong or reserved access reaches nothing; the read-only registers, the windows and OUT_MEM ignore
writes; and only a 4-byte access at 0x08 reaches CMD. -/
theorem otherAccessesAreIgnored : Obligations.OtherAccessesAreIgnored := by
  intro s size addr v hp
  refine ⟨fun h => ?_, fun h => hostWrite_of_ignoresWrites ?_, fun h => ?_, ?_⟩
  · have ht : target s.build size addr = .reserved := h.elim (target_wrong _) (target_reserved hp)
    exact ⟨hostWrite_of_ignoresWrites (by rw [ht]; rfl), readValue_reserved ht⟩
  · exact h.elim (target_ignoresWrites_of_readOnly _ _) (target_ignoresWrites_of_outMem hp _)
  · refine ⟨_, hostWrite_other fun ht => h (target_eq_register ht), ?_⟩
    split
    · simp
    · exact idleWrite_status s _ v
  · refine ⟨_, rfl, ?_⟩
    simp

/-- Settles O50: a window's word reaches its table entry; CODE_BITS_WIN gathers 32 code bits from the first one on. -/
theorem tableWindows : Obligations.TableWindows := by
  intro s k hs hk
  refine ⟨?_, ?_, ?_, fun w hw j hj => ?_⟩
  · rw [readValue_idle hs (target_freqWin _ hk), State.idleRead, State.freqAt]
    split <;> simp
  · rw [readValue_idle hs (target_codeLenWin _ hk), State.idleRead, State.codeLenAt]
    split
    · exact toNat_ofNat32 (by omega)
    · rfl
  · rw [readValue_idle hs (target_orderWin _ hk), State.idleRead]
    split
    · rw [toNat_setWidth32 _ (by decide)]
      exact (List.getD_map s.tables.order 0 BitVec.toNat).symm
    · rfl
  · rw [readValue_idle hs (target_codeBitsWin _ hk hw), State.idleRead]
    split
    · rename_i h
      simp [codeWord_getLsbD _ _ hj, h]
    · rename_i h
      rcases not_and_or.1 h with h | h <;> simp [h]

/-- Settles O51. -/
theorem interruptFollowsDoneAndErr : Obligations.InterruptFollowsDoneAndErr := by
  intro s
  simp [State.irq]

/-- Settles O52: the block is idle after reset, so every register reads its field. -/
theorem resetState : Obligations.ResetState := by
  refine ⟨rfl, fun p => ⟨?_, rfl, rfl, rfl, rfl, rfl, rfl, rfl, rfl, rfl, rfl⟩⟩
  have hread (r : Reg) : (State.resetOf p).readValue 4 (BitVec.ofNat 32 r.offset) = (State.resetOf p).idleReg r :=
    readValue_idleReg rfl r
  have hstatus : Status.reset.word Phase.idle.code = 0 := by decide
  simp only [List.forall_mem_cons]
  exact ⟨hread .cmd, (hread .status).trans hstatus, hread .errPos, hread .errSub, hread .inLen, hread .outCap, hread .outLen,
    hread .unique, hread .total, hread .payloadOfs, hread .payloadBits, hread .maxLen, hread .intEn, by simp⟩

end Sys2Proof.Machine
end

section
/-! PROOFS. What the pseudocode of every command leaves alone, whatever state it starts in (10_state.md R30, R31, R38,
R51). A stage command writes one group of tables; `State.sansCounts`, `State.sansTree` and `State.sansCodes` are a state
without that group, so that "the loop changes nothing else" is one equation, which a loop keeps because its body does. The
emitters of SERIALIZE and DECODE_PAYLOAD write OUT_MEM and the datapath registers (`Emits`). -/

namespace Sys2Proof.Machine

/-! ### Loops -/

/-- A loop keeps what its body keeps. -/
theorem foldl_keeps {α β : Type} {f : State → α → State} {π : State → β} (h : ∀ s x, π (f s x) = π s) (l : List α)
    (s : State) : π (l.foldl f s) = π s := by
  induction l generalizing s with
  | nil => rfl
  | cons x l ih => exact (ih _).trans (h s x)

/-- A loop that may raise keeps what its body keeps. -/
theorem foldlM_keeps {α β : Type} {f : State → α → Run} {π : State → β} (h : ∀ s x u, f s x = .ok u → π u = π s)
    {l : List α} {s u : State} (hu : l.foldlM f s = .ok u) : π u = π s := by
  induction l generalizing s with
  | nil => cases hu; rfl
  | cons x l ih =>
    obtain ⟨t, ht, hu⟩ := bind_ok hu
    exact (ih hu).trans (h s x t ht)

/-! ### COUNT -/

/-- The state without FREQ. -/
def State.sansCounts (s : State) : State := { s with tables := { s.tables with freq := [] } }

theorem countByte_sansCounts (s : State) (i : Nat) (u : State) (hu : countByte s i = .ok u) :
    u.sansCounts = s.sansCounts := by
  by_cases hbad : s.limit ≤ (s.inByte i).toNat ∨ s.inByte i = Config.sentinel
  · rw [countByte_bad hbad] at hu; cases hu
  · obtain ⟨hlim, hsen⟩ := not_or.1 hbad
    rw [countByte_ok (not_le.1 hlim) hsen] at hu; cases hu; rfl

/-- COUNT passes its guard, counts, and writes its results. -/
theorem countBody_ok {s u : State} (hu : countBody s = .ok u) :
    lengthGuard s = .ok () ∧ ∃ t, (List.range s.regs.inLen.toNat).foldlM countByte (s.enterPhase .count).clearFreq = .ok t
      ∧ u = countResults t := by
  obtain ⟨⟨⟩, hguard, hu⟩ := bind_ok hu
  obtain ⟨t, ht, hu⟩ := bind_ok hu
  exact ⟨hguard, t, ht, by cases hu; rfl⟩

/-! ### BUILD_TREE -/

/-- The state without NODE, HEAP and ROOT. -/
def State.sansTree (s : State) : State := { s with tables := { s.tables with nodes := [], heap := [], root := 0 } }

theorem loadSymbol_sansTree (s : State) (i : Nat) : (loadSymbol s i).sansTree = s.sansTree := by
  unfold loadSymbol
  split <;> rfl

theorem heapLoad_sansTree (s : State) : (heapLoad s).sansTree = s.sansTree := foldl_keeps loadSymbol_sansTree _ _

/-- `s` with another heap. -/
def State.withHeap (h : Heap) (s : State) : State := { s with tables := { s.tables with heap := h } }

@[simp] theorem withHeap_nodes (h : Heap) (s : State) : (s.withHeap h).tables.nodes = s.tables.nodes := rfl
@[simp] theorem withHeap_heap (h : Heap) (s : State) : (s.withHeap h).tables.heap = h := rfl
@[simp] theorem withHeap_nodeKey (h : Heap) (s : State) : (s.withHeap h).nodeKey = s.nodeKey := rfl

/-- HeapExtractMin writes HEAP alone. -/
theorem extractMin_ok {s t : State} {a : BitVec 9} (h : s.extractMin = .ok (a, t)) :
    ∃ h', Heap.extractMin s.nodeKey s.tables.heap = some (a, h') ∧ t = s.withHeap h' := by
  unfold State.extractMin at h
  split at h
  · cases h
  · rename_i m h' he
    cases h
    exact ⟨h', he, rfl⟩

/-- MergeStep extracts twice and adds the internal node (42_tree_builder.md R152). -/
theorem mergeStep_ok {s u : State} (hu : mergeStep s = .ok u) :
    ∃ a b h₁ h₂, Heap.extractMin s.nodeKey s.tables.heap = some (a, h₁) ∧ Heap.extractMin s.nodeKey h₁ = some (b, h₂)
      ∧ u = (s.withHeap h₂).addNode (.internal (BitVec.ofNat 32 (s.nodeKey a + s.nodeKey b)) a b) := by
  obtain ⟨⟨a, s₁⟩, h₁, hu⟩ := bind_ok hu
  obtain ⟨⟨b, s₂⟩, h₂, hu⟩ := bind_ok hu
  obtain ⟨h', ha, rfl⟩ := extractMin_ok h₁
  obtain ⟨h'', hb, rfl⟩ := extractMin_ok h₂
  exact ⟨a, b, h', h'', ha, hb, by cases hu; rfl⟩

theorem mergeStep_sansTree {s u : State} (hu : mergeStep s = .ok u) : u.sansTree = s.sansTree := by
  obtain ⟨a, b, h₁, h₂, -, -, rfl⟩ := mergeStep_ok hu
  rfl

theorem mergeLoop_sansTree {n : Nat} {s u : State} (hu : mergeLoop n s = .ok u) : u.sansTree = s.sansTree := by
  induction n generalizing s with
  | zero => cases hu; rfl
  | succ n ih =>
    rw [mergeLoop] at hu
    split at hu
    · obtain ⟨t, ht, hu⟩ := bind_ok hu
      exact (ih hu).trans (mergeStep_sansTree ht)
    · cases hu; rfl

/-- BUILD_TREE loads, merges, and writes its results. -/
theorem buildTreeBody_ok {s u : State} (hu : buildTreeBody s = .ok u) :
    ∃ t, mergeLoop (heapLoad (s.enterPhase .heapLoad)).tables.heap.length
        ((heapLoad (s.enterPhase .heapLoad)).enterPhase .merge) = .ok t ∧ u = buildTreeResults t.takeRoot := by
  obtain ⟨t, ht, hu⟩ := bind_ok hu
  exact ⟨t, ht, by cases hu; rfl⟩

/-! ### BUILD_TABLE and PARSE_HEADER -/

/-- The state with CODE_LEN and CODE_BITS blank, at their sizes, ORDER empty, and without the datapath registers. -/
def State.sansCodes (s : State) : State :=
  { s with
    tables := { s.tables with
      codeLen := List.replicate s.tables.codeLen.length 0
      codeBits := List.replicate s.tables.codeBits.length 0
      order := [] }
    dp := Datapath.powerUp }

theorem bindCode_sansCodes (s : State) (sym : Byte) (c : List Bool) : (s.bindCode sym c).sansCodes = s.sansCodes := by
  simp [State.sansCodes, State.bindCode]

theorem traverse_sansCodes {room : Nat} {s u : State} (hu : traverse room s = .ok u) : u.sansCodes = s.sansCodes := by
  induction room generalizing s u with
  | zero => cases hu
  | succ room ih =>
    unfold traverse at hu
    split at hu
    · cases hu; rfl
    · split at hu
      · cases hu
        exact bindCode_sansCodes s _ _
      · obtain ⟨t₁, h₁, hu⟩ := bind_ok hu
        obtain ⟨t₂, h₂, hu⟩ := bind_ok hu
        cases hu
        have e₁ := ih h₁
        have e₂ := ih h₂
        exact e₂.trans e₁

theorem walkTree_sansCodes {s u : State} (hu : walkTree s = .ok u) : u.sansCodes = s.sansCodes := by
  unfold walkTree at hu
  split at hu
  · cases hu
    exact bindCode_sansCodes s _ _
  · have e := traverse_sansCodes hu
    exact e

/-- BUILD_TABLE walks the tree and writes its results. -/
theorem buildTableBody_ok {s u : State} (hu : buildTableBody s = .ok u) :
    ∃ t, walkTree (s.enterPhase .traverse).clearCodes = .ok t ∧ u = buildTableResults t := by
  obtain ⟨t, ht, hu⟩ := bind_ok hu
  exact ⟨t, ht, by cases hu; rfl⟩

/-- ParseEntryStart reads one byte inside the container: the sentinel, or a symbol not bound before
(45_parser.md R212). -/
theorem parseEntryStart_ok {s t : State} {r : Option Byte} (h : parseEntryStart s = .ok (r, t)) :
    s.dp.rdPtr.toNat < s.regs.inLen.toNat ∧ t = s.readNext.2
      ∧ ((r = none ∧ s.inByte s.dp.rdPtr.toNat = Config.sentinel)
        ∨ (r = some (s.inByte s.dp.rdPtr.toNat) ∧ s.inByte s.dp.rdPtr.toNat ≠ Config.sentinel
          ∧ (s.inByte s.dp.rdPtr.toNat).toNat < s.limit ∧ s.codeLenAt (s.inByte s.dp.rdPtr.toNat).toNat = 0)) := by
  unfold parseEntryStart at h
  split at h
  · cases h
  · rename_i hend
    have hin : s.dp.rdPtr.toNat < s.regs.inLen.toNat := by simpa [State.atEnd] using hend
    dsimp only [State.readNext] at h
    split at h
    · rename_i hsen
      cases h
      exact ⟨hin, rfl, .inl ⟨rfl, hsen⟩⟩
    · rename_i hsen
      split at h
      · cases h
      · rename_i hlim
        split at h
        · cases h
        · rename_i hfree
          cases h
          exact ⟨hin, rfl, .inr ⟨rfl, hsen, not_le.1 hlim, not_not.1 hfree⟩⟩

/-- What one round of ParseCode does when it does not raise: the terminator binds the code, an ASCII '0' or '1' makes it
one bit longer (45_parser.md R213). -/
theorem parseCode_ok {sym : Byte} {n : Nat} {c : List Bool} {s u : State} (h : parseCode sym (n + 1) c s = .ok u) :
    s.dp.rdPtr.toNat < s.regs.inLen.toNat
      ∧ ((s.inByte s.dp.rdPtr.toNat = Config.terminator ∧ c ≠ [] ∧ u = s.readNext.2.bindCode sym c)
        ∨ ∃ x, s.inByte s.dp.rdPtr.toNat = codeChar x ∧ c.length < s.build.maxCodeLen
          ∧ parseCode sym n (c ++ [x]) s.readNext.2 = .ok u) := by
  unfold parseCode at h
  split at h
  · cases h
  · rename_i hend
    refine ⟨by simpa [State.atEnd] using hend, ?_⟩
    dsimp only [State.readNext] at h
    split at h
    · rename_i hterm
      split at h
      · cases h
      · rename_i hc
        cases h
        exact .inl ⟨hterm, hc, rfl⟩
    · split at h
      · rename_i hchar
        split at h
        · cases h
        · rename_i hlen
          refine .inr ⟨_, ?_, by simpa using hlen, h⟩
          rcases hchar with hx | hx <;> simp [codeChar, hx, Config.asciiZero, Config.asciiOne]
      · cases h

theorem parseCode_sansCodes {sym : Byte} {n : Nat} {c : List Bool} {s u : State} (hu : parseCode sym n c s = .ok u) :
    u.sansCodes = s.sansCodes := by
  induction n generalizing c s with
  | zero => cases hu
  | succ n ih =>
    obtain ⟨-, ⟨-, -, rfl⟩ | ⟨x, -, -, hu⟩⟩ := parseCode_ok hu
    · exact bindCode_sansCodes s.readNext.2 sym c
    · exact (ih hu :)

/-- One round of the entry loop: it ends behind the sentinel, or reads one entry and goes on (45_parser.md R210). -/
theorem parseEntries_ok {n : Nat} {s u : State} (h : parseEntries (n + 1) s = .ok u) :
    (parseEntryStart s = .ok (none, u))
      ∨ ∃ sym t v, parseEntryStart s = .ok (some sym, t)
        ∧ parseCode sym (t.regs.inLen.toNat - t.dp.rdPtr.toNat) [] t = .ok v ∧ parseEntries n v = .ok u := by
  obtain ⟨⟨r, t⟩, hstart, h⟩ := bind_ok h
  cases r with
  | none => cases h; exact .inl hstart
  | some sym =>
    obtain ⟨v, hcode, hrest⟩ := bind_ok h
    exact .inr ⟨sym, t, v, hstart, hcode, hrest⟩

theorem parseEntryStart_sansCodes {s t : State} {r : Option Byte} (h : parseEntryStart s = .ok (r, t)) :
    t.sansCodes = s.sansCodes := by
  obtain ⟨-, rfl, -⟩ := parseEntryStart_ok h
  rfl

theorem parseEntries_sansCodes {n : Nat} {s u : State} (hu : parseEntries n s = .ok u) : u.sansCodes = s.sansCodes := by
  induction n generalizing s with
  | zero => cases hu
  | succ n ih =>
    rcases parseEntries_ok hu with hstart | ⟨sym, t, v, hstart, hcode, hrest⟩
    · exact parseEntryStart_sansCodes hstart
    · exact (ih hrest).trans ((parseCode_sansCodes hcode).trans (parseEntryStart_sansCodes hstart))

/-- ParseCounts reads its eight bytes inside the container (45_parser.md R214). -/
theorem parseCounts_ok {s v : State} {u t : Nat} (h : parseCounts s = .ok (u, t, v)) :
    s.dp.rdPtr.toNat + 8 ≤ s.regs.inLen.toNat ∧ u = s.inCount s.dp.rdPtr.toNat ∧ t = s.inCount (s.dp.rdPtr.toNat + 4)
      ∧ v = { s with dp := { s.dp with rdPtr := s.dp.rdPtr + 8 } } := by
  unfold parseCounts at h
  dsimp only at h
  split at h
  · cases h
  · rename_i hlen
    cases h
    exact ⟨not_lt.1 hlen, rfl, rfl, rfl⟩

/-- What HeaderCheck lets pass (45_parser.md R215). -/
theorem headerCheck_ok {ps u t : Nat} {s : State} (h : headerCheck ps u t s = .ok ()) :
    s.tables.order.length ≠ 0 ∧ u = s.tables.order.length ∧ t ≠ 0 ∧ s.prefixClash = false ∧ t ≤ s.cap := by
  unfold headerCheck at h
  split_ifs at h with h₁ h₂ h₃ h₄ h₅
  all_goals cases h
  exact ⟨h₁, not_not.1 h₂, h₃, by simpa using h₄, not_lt.1 h₅⟩

/-- PARSE_HEADER passes its guard, reads the entries and the counts, checks them, and writes its results. -/
theorem parseHeaderBody_ok {s w : State} (hw : parseHeaderBody s = .ok w) :
    lengthGuard s = .ok () ∧ ∃ v u t v', parseEntries (s.regs.inLen.toNat + 1)
        { (s.enterPhase .parseHeader).clearCodes with dp := { s.dp with rdPtr := 0 } } = .ok v
      ∧ parseCounts v = .ok (u, t, v') ∧ headerCheck (v.dp.rdPtr.toNat - 1) u t v' = .ok ()
      ∧ w = parseCommit u t v' := by
  obtain ⟨⟨⟩, hguard, hw⟩ := bind_ok hw
  obtain ⟨v, hv, hw⟩ := bind_ok hw
  obtain ⟨⟨u, t, v'⟩, hcounts, hw⟩ := bind_ok hw
  obtain ⟨⟨⟩, hcheck, hw⟩ := bind_ok hw
  exact ⟨hguard, v, u, t, v', hv, hcounts, hcheck, by cases hw; rfl⟩

/-! ### SERIALIZE and DECODE_PAYLOAD -/

/-- The state without memory and the datapath registers. -/
def State.sansOutput (s : State) : State := { s with mem := [], dp := Datapath.powerUp }

/-- `u` is `s` after writes to OUT_MEM and to the datapath registers. -/
structure Emits (s u : State) : Prop where
  outside : u.sansOutput = s.sansOutput
  inByte : ∀ a < 2 ^ 28, u.inByte a = s.inByte a
  memOk : s.memOk → u.memOk

theorem Emits.refl (s : State) : Emits s s := ⟨rfl, fun _ _ => rfl, id⟩

theorem Emits.trans {s t u : State} (h : Emits s t) (h' : Emits t u) : Emits s u :=
  ⟨h'.outside.trans h.outside, fun a ha => (h'.inByte a ha).trans (h.inByte a ha), h'.memOk ∘ h.memOk⟩

/-- A write of the datapath registers. -/
theorem Emits.withDp {s u : State} (h : Emits s u) (d : Datapath) : Emits s { u with dp := d } :=
  h.trans ⟨rfl, fun _ _ => rfl, id⟩

theorem Emits.foldl {α : Type} {f : State → α → State} (h : ∀ s x, Emits s (f s x)) (l : List α) (s : State) :
    Emits s (l.foldl f s) := by
  induction l generalizing s with
  | nil => exact .refl s
  | cons x l ih => exact (h s x).trans (ih _)

theorem outWrite_emits (s : State) (a : Nat) (v : Byte) : Emits s (s.outWrite a v) where
  outside := by
    unfold State.outWrite
    split <;> rfl
  inByte _ ha := State.outWrite_inByte s a v ha
  memOk hs := by
    refine ⟨State.outWrite_mem_wf hs.1 a v, fun c hc => ?_⟩
    unfold State.outWrite at hc ⊢
    split at hc
    · rename_i ha
      rw [if_pos ha]
      rcases Memory.mem_set hc with rfl | hc
      · exact .inr ⟨Nat.le_add_right _ _, Nat.add_lt_add_left ha _⟩
      · exact hs.2 c hc
    · rename_i ha
      rw [if_neg ha]
      exact hs.2 c hc

theorem emitByte_emits (s : State) (v : Byte) : Emits s (emitByte s v) := (outWrite_emits s _ v).withDp _

theorem emitEntry_emits (s : State) (sym : Byte) : Emits s (emitEntry s sym) :=
  (emitByte_emits s sym).trans ((Emits.foldl (fun u x => emitByte_emits u (codeChar x)) _ _).trans (emitByte_emits _ _))

theorem emitCounts_emits (s : State) : Emits s (emitCounts s) :=
  (emitByte_emits s _).trans ((Emits.foldl (fun u _ => emitByte_emits u _) _ _).trans
    (Emits.foldl (fun u _ => emitByte_emits u _) _ _))

theorem emitHeader_emits (s : State) : Emits s (emitHeader s) :=
  ((Emits.refl s).withDp _).trans ((Emits.foldl emitEntry_emits _ _).trans (emitCounts_emits _))

theorem packBit_emits (s : State) (x : Bool) : Emits s (packBit s x) := by
  unfold packBit
  dsimp only
  split
  · exact (emitByte_emits s _).withDp _
  · exact (Emits.refl s).withDp _

theorem flushBits_emits (s : State) : Emits s (flushBits s) := by
  unfold flushBits
  split
  · exact (emitByte_emits s _).withDp _
  · exact .refl s

theorem emitPayload_emits (s : State) : Emits s (emitPayload s) :=
  ((Emits.refl s).withDp _).trans
    ((Emits.foldl (fun u _ => Emits.foldl packBit_emits _ u) _ _).trans (flushBits_emits _))

/-- SERIALIZE passes its capacity check, emits header and payload, and writes OUT_LEN. -/
theorem serializeBody_ok {s u : State} (hu : serializeBody s = .ok u) :
    ∃ t v, Emits (s.enterPhase .emitHeader) t ∧ Emits (t.enterPhase .emitPayload) v ∧ u = serializeResults v := by
  obtain ⟨⟨⟩, -, hu⟩ := bind_ok hu
  exact ⟨_, _, emitHeader_emits _, emitPayload_emits _, (Except.ok.inj hu).symm⟩

theorem emitSymbol_emits (s : State) (sym : Nat) : Emits s (emitSymbol s sym) := (outWrite_emits s _ _).withDp _

theorem matchStep_emits {x : Bool} {a : Nat} {s u : State} (hu : matchStep x a s = .ok u) : Emits s u := by
  have hgrow : Emits s (s.growCandidate x) := (Emits.refl s).withDp _
  unfold matchStep at hu
  dsimp only at hu
  split at hu
  · cases hu
  · split at hu
    · cases hu
      exact hgrow.trans (emitSymbol_emits _ _)
    · cases hu
      exact hgrow

theorem fetchBit_emits {s t : State} {x : Bool} {a : Nat} (h : fetchBit s = .ok (x, a, t)) : Emits s t := by
  unfold fetchBit at h
  dsimp only at h
  split at h
  · cases h
  · cases h
    exact (Emits.refl s).withDp _

theorem decodeLoop_emits {n : Nat} {s u : State} (hu : decodeLoop n s = .ok u) : Emits s u := by
  induction n generalizing s with
  | zero =>
    unfold decodeLoop at hu
    split at hu
    · cases hu
    · cases hu; exact .refl _
  | succ n ih =>
    unfold decodeLoop at hu
    split at hu
    · obtain ⟨⟨x, a, t⟩, hfetch, hu⟩ := bind_ok hu
      obtain ⟨v, hmatch, hu⟩ := bind_ok hu
      exact (fetchBit_emits hfetch).trans ((matchStep_emits hmatch).trans (ih hu))
    · cases hu; exact .refl _

/-- DECODE_PAYLOAD passes its capacity check, decodes, and writes OUT_LEN and PAYLOAD_BITS. -/
theorem decodePayloadBody_ok {s u : State} (hu : decodePayloadBody s = .ok u) :
    ∃ t, Emits (s.enterPhase .decode) t ∧ u = decodeResults t := by
  obtain ⟨⟨⟩, -, hu⟩ := bind_ok hu
  obtain ⟨t, ht, hu⟩ := bind_ok hu
  exact ⟨t, ((Emits.refl _).withDp _).trans (decodeLoop_emits ht), by cases hu; rfl⟩

end Sys2Proof.Machine
end

section
/-! PROOFS. What no command touches, from acceptance to completion (10_state.md R25, R30, R31, R38, R51), and the events
of the machine taken apart once: a predicate that each kind of event keeps is kept by every step. -/

namespace Sys2Proof.Machine

/-! ### Frame of the pseudocode -/

/-- The part of the state that no command's pseudocode writes: the build, CMD, ERR_POS, ERR_SUB, the host's registers,
BUSY, DONE, ERR, ERRCODE, CUR_OP and the model's own fields. -/
def State.outward (s : State) : State :=
  { s with
    regs := { Regs.reset with
      cmdOp := s.regs.cmdOp, errPos := s.regs.errPos, errSub := s.regs.errSub, inLen := s.regs.inLen
      outCap := s.regs.outCap, intEn := s.regs.intEn }
    status := s.status.clearValid
    phase := .idle
    mem := []
    tables := Tables.powerUp s.build
    dp := Datapath.powerUp }

/-- What the pseudocode of every command leaves alone: the part above, and IN_MEM; memory keeps its form. -/
structure BodyFrame (s u : State) : Prop where
  outward : u.outward = s.outward
  inByte : ∀ a < 2 ^ 28, u.inByte a = s.inByte a
  memOk : s.memOk → u.memOk

namespace BodyFrame

variable {s t u : State}

theorem trans (h : BodyFrame s t) (h' : BodyFrame t u) : BodyFrame s u :=
  ⟨h'.outward.trans h.outward, fun a ha => (h'.inByte a ha).trans (h.inByte a ha), h'.memOk ∘ h.memOk⟩

theorem build (h : BodyFrame s u) : u.build = s.build := congrArg (fun v => v.build) h.outward
theorem env (h : BodyFrame s u) : u.env = s.env := congrArg (fun v => v.env) h.outward
theorem inLen (h : BodyFrame s u) : u.regs.inLen = s.regs.inLen := congrArg (fun v => v.regs.inLen) h.outward
theorem done (h : BodyFrame s u) : u.status.done = s.status.done := congrArg (fun v => v.status.done) h.outward
theorem err (h : BodyFrame s u) : u.status.err = s.status.err := congrArg (fun v => v.status.err) h.outward

theorem sameInput (h : BodyFrame s u) : s.sameInput u :=
  ⟨h.inByte, h.inLen, congrArg (fun v => v.regs.outCap) h.outward, congrArg (fun v => v.regs.intEn) h.outward,
    h.build, congrArg Env.host h.env, congrArg Env.readLog h.env, congrArg Env.latencies h.env⟩

/-- A command that leaves memory as it was. -/
theorem of_mem (h : u.outward = s.outward) (hmem : u.mem = s.mem) : BodyFrame s u where
  outward := h
  inByte a _ := by rw [State.inByte, hmem]; rfl
  memOk hs := by
    have hbuild : u.build = s.build := congrArg (fun v => v.build) h
    rwa [State.memOk, hmem, hbuild]

theorem of_sansCounts (h : u.sansCounts = s.sansCounts) : BodyFrame s u :=
  .of_mem (congrArg (fun v => v.outward) h :) (congrArg (fun v => v.mem) h :)

theorem of_sansTree (h : u.sansTree = s.sansTree) : BodyFrame s u :=
  .of_mem (congrArg (fun v => v.outward) h :) (congrArg (fun v => v.mem) h :)

theorem of_sansCodes (h : u.sansCodes = s.sansCodes) : BodyFrame s u :=
  .of_mem (congrArg (fun v => v.outward) h :) (congrArg (fun v => v.mem) h :)

theorem of_emits (h : Emits s u) : BodyFrame s u :=
  ⟨(congrArg (fun v => v.outward) h.outside :), h.inByte, h.memOk⟩

/-- The phase register, the result registers and the valid flags do not matter: `s` and `u` may differ from the states
of a frame in what `outward` leaves out. -/
theorem within {s' u' : State} (h : BodyFrame s' u') (hs : s'.outward = s.outward) (hu : u.outward = u'.outward)
    (hsmem : s'.mem = s.mem) (humem : u.mem = u'.mem) : BodyFrame s u :=
  (of_mem hs hsmem).trans (h.trans (of_mem hu humem))

end BodyFrame

variable {s u : State}

theorem countBody_frame (hu : countBody s = .ok u) : BodyFrame s u := by
  obtain ⟨-, t, ht, rfl⟩ := countBody_ok hu
  exact (BodyFrame.of_sansCounts (foldlM_keeps countByte_sansCounts ht)).within rfl rfl rfl rfl

theorem buildTreeBody_frame (hu : buildTreeBody s = .ok u) : BodyFrame s u := by
  obtain ⟨t, ht, rfl⟩ := buildTreeBody_ok hu
  have hload : BodyFrame s (heapLoad (s.enterPhase .heapLoad)) :=
    (BodyFrame.of_sansTree (heapLoad_sansTree (s.enterPhase .heapLoad))).within rfl rfl rfl rfl
  have hmerge : BodyFrame (heapLoad (s.enterPhase .heapLoad)) (buildTreeResults t.takeRoot) :=
    (BodyFrame.of_sansTree (mergeLoop_sansTree ht)).within rfl rfl rfl rfl
  exact hload.trans hmerge

theorem buildTableBody_frame (hu : buildTableBody s = .ok u) : BodyFrame s u := by
  obtain ⟨t, ht, rfl⟩ := buildTableBody_ok hu
  exact (BodyFrame.of_sansCodes (walkTree_sansCodes ht)).within rfl rfl rfl rfl

theorem serializeBody_frame (hu : serializeBody s = .ok u) : BodyFrame s u := by
  obtain ⟨t, v, ht, hv, rfl⟩ := serializeBody_ok hu
  have hheader : BodyFrame s t := (BodyFrame.of_emits ht).within rfl rfl rfl rfl
  have hpayload : BodyFrame t (serializeResults v) := (BodyFrame.of_emits hv).within rfl rfl rfl rfl
  exact hheader.trans hpayload

theorem parseHeaderBody_frame (hu : parseHeaderBody s = .ok u) : BodyFrame s u := by
  obtain ⟨-, v, n, m, v', hv, hcounts, -, rfl⟩ := parseHeaderBody_ok hu
  obtain ⟨-, -, -, rfl⟩ := parseCounts_ok hcounts
  exact (BodyFrame.of_sansCodes (parseEntries_sansCodes hv)).within rfl rfl rfl rfl

theorem decodePayloadBody_frame (hu : decodePayloadBody s = .ok u) : BodyFrame s u := by
  obtain ⟨t, ht, rfl⟩ := decodePayloadBody_ok hu
  exact (BodyFrame.of_emits ht).within rfl rfl rfl rfl

/-- The frame of every busy command's pseudocode. -/
theorem bodyOf_frame {op : BitVec 4} {body : State → Run} (h : bodyOf op = some body) (hu : body s = .ok u) :
    BodyFrame s u := by
  unfold bodyOf at h
  split at h
  all_goals cases h
  · obtain ⟨s₁, h₁, hu⟩ := bind_ok hu
    obtain ⟨s₂, h₂, hu⟩ := bind_ok hu
    obtain ⟨s₃, h₃, hu⟩ := bind_ok hu
    exact (countBody_frame h₁).trans ((buildTreeBody_frame h₂).trans
      ((buildTableBody_frame h₃).trans (serializeBody_frame hu)))
  · obtain ⟨s₁, h₁, hu⟩ := bind_ok hu
    exact (parseHeaderBody_frame h₁).trans (decodePayloadBody_frame hu)
  · exact countBody_frame hu
  · exact buildTreeBody_frame hu
  · exact buildTableBody_frame hu
  · exact serializeBody_frame hu
  · exact parseHeaderBody_frame hu
  · exact decodePayloadBody_frame hu

/-! ### The ends of a command -/

theorem errorCommit_inByte (r : Raised) (s : State) {a : Nat} (ha : a < 2 ^ 28) :
    (errorCommit r s).inByte a = s.inByte a := State.forgetOut_inByte s s.cap s.freeIdx ha

theorem resetAction_inByte (s : State) {a : Nat} (ha : a < 2 ^ 28) : (resetAction s).inByte a = s.inByte a :=
  State.forgetOut_inByte s s.build.outMax s.freeIdx ha

/-- Either end of a busy command leaves the input side as it was at acceptance. -/
theorem finish_sameInput {op : BitVec 4} {body : State → Run} {t : State} (hbody : bodyOf op = some body)
    (h : finish (body s) s = .next t) : s.sameInput t := by
  rcases finish_cases h with ⟨u, hu, rfl⟩ | ⟨r, -, rfl⟩
  · exact (bodyOf_frame hbody hu).sameInput
  · exact ⟨fun a ha => errorCommit_inByte r s ha, rfl, rfl, rfl, rfl, rfl, rfl, rfl⟩

/-- Every command but NOP and SOFT_RESET is a busy command. -/
theorem bodyOf_isSome {i : Instr} (hnop : i ≠ .nop) (hreset : i ≠ .softReset) : ∃ body, bodyOf i.opcode = some body := by
  cases i with
  | nop => contradiction
  | softReset => contradiction
  | _ => exact ⟨_, rfl⟩

/-- Settles O53: the pseudocode leaves the input side alone, and so do both ends of a command; SOFT_RESET keeps IN_MEM. -/
theorem commandsNeverWriteTheInput : Obligations.CommandsNeverWriteTheInput := by
  intro i s t h
  have hsame : i ≠ .softReset → s.sameInput t := by
    intro hreset
    by_cases hnop : i = .nop
    · subst hnop
      simp only [exec, execNop] at h
      split at h <;> cases h <;> exact ⟨fun _ _ => rfl, rfl, rfl, rfl, rfl, rfl, rfl, rfl⟩
    · obtain ⟨body, hbody⟩ := bodyOf_isSome hnop hreset
      rw [exec_eq_runCommand hbody] at h
      rcases runCommand_cases h with ⟨-, rfl⟩ | ⟨-, -, rfl⟩ | ⟨-, -, h⟩
      · exact ⟨fun _ _ => rfl, rfl, rfl, rfl, rfl, rfl, rfl, rfl⟩
      · exact ⟨fun _ _ => rfl, rfl, rfl, rfl, rfl, rfl, rfl, rfl⟩
      · have hsame := finish_sameInput hbody h
        exact hsame
  by_cases hreset : i = .softReset
  · subst hreset
    cases h
    exact ⟨fun a ha => resetAction_inByte s ha, rfl, fun h => absurd rfl h⟩
  · obtain ⟨hin, -, -, -, hbuild, -⟩ := hsame hreset
    exact ⟨hin, hbuild, hsame⟩

/-! ### The events of the machine, taken apart once -/

/-- A predicate that every kind of event keeps: the host's side and the epoch of free values, a write of the host while
idle, NOP, an immediate error, the acceptance of a busy command, the reset action, and the completion of the running
command (60_exceptions.md R287). -/
structure KeptByEvents (P : State → Prop) : Prop where
  env : ∀ (s : State) (e : Env) (k : Nat), P s → P { s with env := e, freeIdx := k }
  write : ∀ (s : State) (size : Nat) (addr v : Word), P s → s.idle → P (s.idleWrite (target s.build size addr) v)
  nop : ∀ s : State, P s → s.idle →
    P { request 0x0 s with status := { (request 0x0 s).status with done := true } }
  immediate : ∀ (s : State) (op : BitVec 4) (kind : ErrKind) (sub : BitVec 4), P s → s.idle →
    P (immediateError kind sub (request op s))
  accept : ∀ (s : State) (op : BitVec 4), P s → s.idle → (bodyOf op).isSome = true →
    prereq op (request op s).status = 0 → P (accept op (request op s))
  reset : ∀ s : State, P s → P (resetAction s)
  complete : ∀ (s t : State) (body : State → Run), P s → s.status.busy = true → bodyOf s.curOp = some body →
    finish (body s) s = .next t → P t

namespace KeptByEvents

variable {P : State → Prop} (K : KeptByEvents P) {s t : State}

include K

/-- A command, from its CMD write to its end. -/
theorem exec (i : Instr) (hs : P s) (h : exec i s = .next t) : P t := by
  by_cases hreset : i = .softReset
  · subst hreset; cases h; exact K.reset s hs
  · by_cases hnop : i = .nop
    · subst hnop
      simp only [Machine.exec, execNop] at h
      split at h
      · cases h; exact hs
      · rename_i hidle
        cases h
        exact K.nop s hs (by simpa using hidle)
    · obtain ⟨body, hbody⟩ := bodyOf_isSome hnop hreset
      rw [exec_eq_runCommand hbody] at h
      rcases runCommand_cases h with ⟨-, rfl⟩ | ⟨hidle, -, rfl⟩ | ⟨hidle, hpre, h⟩
      · exact hs
      · exact K.immediate s _ _ _ hs hidle
      · exact K.complete _ t body (K.accept s _ hs hidle (by rw [hbody]; rfl) hpre) rfl hbody h

/-- A CMD write (47_control.md R260). -/
theorem onCmdWrite (v : Word) (hs : P s) (h : onCmdWrite v s = .next t) : P t := by
  unfold Machine.onCmdWrite at h
  split at h
  · rename_i i _
    cases hacc : acceptFor (s.env.latencies.headD 0) i s with
    | none => exact K.exec i hs (startCommand_other hacc ▸ h)
    | some a =>
      rw [startCommand_accepted hacc] at h
      obtain ⟨hidle, hbody, hpre, rfl⟩ := acceptFor_cases hacc
      split at h
      · exact K.exec i (K.env s _ s.freeIdx hs) h
      · cases h
        exact K.env (Machine.accept i.opcode (request i.opcode s)) _ s.freeIdx (K.accept s _ hs hidle hbody hpre)
  · rename_i op _
    cases h
    unfold illegalCommand
    split
    · exact hs
    · rename_i hidle
      exact K.immediate s _ _ _ hs (by simpa using hidle)

/-- A host write. -/
theorem hostWrite (size : Nat) (addr v : Word) (hs : P s) (h : hostWrite size addr v s = .next t) : P t := by
  by_cases ht : target s.build size addr = .register .cmd
  · unfold Machine.hostWrite at h
    rw [ht] at h
    exact K.onCmdWrite v hs h
  · rw [hostWrite_other ht] at h
    cases h
    split
    · exact hs
    · rename_i hidle
      exact K.write s size addr v hs (by simpa using hidle)

theorem afterRead (hs : P s) : P s.afterRead := by
  unfold State.afterRead
  split
  · exact K.env s s.env (s.freeIdx + 1) hs
  · exact hs

/-- A host event. -/
theorem hostEvent (op : HostOp) (hs : P s) (h : hostEvent op s = .next t) : P t := by
  cases op with
  | write size addr v => exact K.hostWrite size addr v hs h
  | read size addr =>
    cases h
    exact K.env s.afterRead _ s.afterRead.freeIdx (K.afterRead hs)
  | poll addr mask value =>
    simp only [Machine.hostEvent] at h
    split at h <;> cases h
    · exact K.afterRead hs
    · exact K.env s.afterRead _ s.afterRead.freeIdx (K.afterRead hs)
  | hwReset => cases h; exact K.reset s hs

theorem tick (hs : P s) : P s.tick := by
  unfold State.tick
  split
  · exact K.env s _ s.freeIdx hs
  · exact hs

/-- What every kind of event keeps, every step keeps. -/
theorem step (hs : P s) (h : step s = .next t) : P t := by
  rcases advance_cases s with ⟨hbusy, -, he⟩ | ⟨-, -, he⟩ | ⟨-, op, rest, -, he⟩
  · rw [Machine.step, he] at h
    unfold completeRunning at h
    split at h
    · rename_i body hbody
      exact K.complete s t body hs hbusy hbody h
    · cases h
  · rw [Machine.step, he] at h
    cases h
    exact K.tick hs
  · rw [Machine.step, he] at h
    exact K.hostEvent op (K.env s.tick _ s.tick.freeIdx (K.tick hs)) h

end KeptByEvents

/-! ### BUSY, DONE and ERR -/

theorem exclusive_keptByEvents : KeptByEvents (fun s => s.status.exclusive) where
  env _ _ _ h := h
  write s size addr v h _ := by
    obtain ⟨hbusy, -, hdone, herr, -⟩ := idleWrite_status s (target s.build size addr) v
    obtain ⟨h₁, h₂, h₃⟩ := h
    rw [Status.exclusive, hbusy]
    exact ⟨fun e => h₁ ⟨e.1, hdone e.2⟩, fun e => h₂ ⟨e.1, herr e.2⟩, fun e => h₃ ⟨hdone e.1, herr e.2⟩⟩
  nop s _ hidle := by simp [Status.exclusive, hidle]
  immediate s _ _ _ _ hidle := by simp [Status.exclusive, hidle]
  accept s _ _ _ _ _ := by simp [Status.exclusive]
  reset s _ := by simp [Status.exclusive, Status.reset]
  complete s t body h hbusy hbody ht := by
    rcases finish_cases ht with ⟨u, hu, rfl⟩ | ⟨r, -, rfl⟩
    · have herr : u.status.err = false := by
        rw [(bodyOf_frame hbody hu).err]
        simpa [hbusy] using h.2.1
      simp [Status.exclusive, herr]
    · simp [Status.exclusive]

/-- Settles O54: a completion comes while BUSY, when DONE and ERR are 0; any other event sets one of the three only while
the others are 0. -/
theorem stepKeepsBusyDoneErrExclusive : Obligations.StepKeepsBusyDoneErrExclusive :=
  fun _ _ hs h => exclusive_keptByEvents.step hs h

end Sys2Proof.Machine
end

section
/-! PROOFS. What COUNT leaves: FREQ, UNIQUE and TOTAL are the counts of the input, and what follows from that for a state
whose counts are current (40_frequency_counter.md R112 to R114). -/

namespace Sys2Proof.Machine

open Sys2Proof.Config (Params)

/-! ### Sizes -/

/-- SYM_LIMIT is 128 or 256 (00_scope.md R7). -/
theorem limit_cases (p : Params) : p.limit = 128 ∨ p.limit = 256 := by
  cases h : p.symLimit <;> simp [Params.limit, h, Config.SymLimit.value]

theorem limit_le (p : Params) : p.limit ≤ 256 := by
  have := limit_cases p
  omega

/-- A symbol value below SYM_LIMIT is a byte. -/
theorem byte_eq_ofNat_iff {b : Byte} {k : Nat} (h : k < 256) : b = BitVec.ofNat 8 k ↔ b.toNat = k := by
  rw [← BitVec.toNat_inj, BitVec.toNat_ofNat, Nat.mod_eq_of_lt h]

theorem toNat_ofNat8 {k : Nat} (h : k < 256) : (BitVec.ofNat 8 k).toNat = k := by
  rw [BitVec.toNat_ofNat, Nat.mod_eq_of_lt h]

theorem ofNat8_toNat (b : Byte) : BitVec.ofNat 8 b.toNat = b := by simp

/-- One more byte counts for its own symbol alone. -/
theorem count_cons_symbol (b : Byte) (l : List Byte) {k : Nat} (h : k < 256) :
    (b :: l).count (BitVec.ofNat 8 k) = l.count (BitVec.ofNat 8 k) + if b.toNat = k then 1 else 0 := by
  simp only [List.count_cons, beq_iff_eq, byte_eq_ofNat_iff h]

/-! ### Sums over the alphabet -/

theorem sum_map_range (f : Nat → Nat) (n : Nat) : ((List.range n).map f).sum = ∑ i ∈ Finset.range n, f i := rfl

/-- A sum over the symbols, weighted by their counts, is a sum over the bytes counted. -/
theorem sum_count_mul {n : Nat} (hn : n ≤ 256) (w : Nat → Nat) {l : List Byte} (h : ∀ b ∈ l, b.toNat < n) :
    ((List.range n).map fun i => l.count (BitVec.ofNat 8 i) * w i).sum = (l.map fun b => w b.toNat).sum := by
  induction l with
  | nil => simp
  | cons b l ih =>
    obtain ⟨hb, hl⟩ := List.forall_mem_cons.1 h
    have hsplit (i : Nat) (hi : i ∈ Finset.range n) : (b :: l).count (BitVec.ofNat 8 i) * w i
        = l.count (BitVec.ofNat 8 i) * w i + if b.toNat = i then w i else 0 := by
      rw [count_cons_symbol b l (Nat.lt_of_lt_of_le (Finset.mem_range.1 hi) hn)]
      split <;> ring
    rw [sum_map_range, Finset.sum_congr rfl hsplit, Finset.sum_add_distrib, ← sum_map_range, ih hl,
      Finset.sum_ite_eq, if_pos (Finset.mem_range.2 hb), List.map_cons, List.sum_cons, Nat.add_comm]

/-- FREQ as a function of the symbol. -/
theorem freq_eq_map {s : State} (h : s.tables.freq.length = s.limit) :
    s.tables.freq.map (·.toNat) = (List.range s.limit).map s.freqAt := by
  apply List.ext_getElem (by simpa using h)
  intro i hi _
  simp [State.freqAt, List.getElem?_eq_getElem (by simpa using hi)]

/-- The symbols with a nonzero count are as many as the nonzero entries of FREQ. -/
theorem countedSymbols_length {s : State} (h : s.tables.freq.length = s.limit) :
    s.countedSymbols.length = s.distinctCount := by
  have hcount : s.distinctCount = (s.tables.freq.map (·.toNat)).countP (fun n => decide (0 < n)) := by
    rw [List.countP_map]
    refine List.countP_congr fun f _ => ?_
    simp [Nat.pos_iff_ne_zero, ← BitVec.toNat_inj]
  rw [hcount, freq_eq_map h, List.countP_map, List.countP_eq_length_filter]
  rfl

theorem mem_countedSymbols {s : State} {i : Nat} : i ∈ s.countedSymbols ↔ i < s.limit ∧ 0 < s.freqAt i := by
  simp [State.countedSymbols]

/-! ### COUNT -/

/-- What the counting loop leaves alone, as an equation. -/
theorem exists_of_sansCounts {s u : State} (h : u.sansCounts = s.sansCounts) :
    ∃ f, u = { s with tables := { s.tables with freq := f } } := by
  obtain ⟨build, regs, status, phase, curOp, mem, ⟨f, nodes, root, heap, codeLen, codeBits, order⟩, dp, stale, idx, env⟩
    := u
  refine ⟨f, ?_⟩
  simp only [State.sansCounts, State.mk.injEq, Tables.mk.injEq] at h ⊢
  simpa using h

theorem setFreq_freqAt {s : State} {i : Nat} (v : Nat) (hi : i < s.tables.freq.length) (k : Nat) :
    (s.setFreq i v).freqAt k = if i = k then v % 2 ^ 32 else s.freqAt k := by
  simp only [State.freqAt, State.setFreq_tables_freq, List.getD_eq_getElem?_getD, List.getElem?_set]
  split
  · simp
  · rfl

theorem setFreq_freq_length (s : State) (i v : Nat) : (s.setFreq i v).tables.freq.length = s.tables.freq.length := by
  simp

/-- The counting loop: it ends well only on bytes of the alphabet, and adds their counts to FREQ. -/
theorem countLoop_ok {l : List Nat} {s t : State} (hlen : s.tables.freq.length = s.limit)
    (h : l.foldlM countByte s = .ok t) :
    t.tables.freq.length = s.limit ∧ (∀ i ∈ l, Params.symbol s.build (s.inByte i))
      ∧ ∀ k < s.limit, t.freqAt k = (s.freqAt k + (l.map s.inByte).count (BitVec.ofNat 8 k)) % 2 ^ 32 := by
  induction l generalizing s with
  | nil =>
    cases h
    refine ⟨hlen, by simp, fun k _ => ?_⟩
    exact (Nat.mod_eq_of_lt (BitVec.isLt _)).symm
  | cons i l ih =>
    obtain ⟨u, hu, ht⟩ := bind_ok h
    by_cases hbad : s.limit ≤ (s.inByte i).toNat ∨ s.inByte i = Config.sentinel
    · rw [countByte_bad hbad] at hu
      cases hu
    · obtain ⟨hlim, hsen⟩ := not_or.1 hbad
      replace hlim := not_le.1 hlim
      rw [countByte_ok hlim hsen] at hu
      cases hu
      obtain ⟨hlen', hsym, hcount⟩ := ih (by rw [setFreq_freq_length, hlen]; rfl) ht
      refine ⟨hlen', List.forall_mem_cons.2 ⟨⟨hlim, hsen⟩, hsym⟩, fun k hk => ?_⟩
      have hk' : k < 256 := Nat.lt_of_lt_of_le hk (limit_le s.build)
      rw [hcount k hk, setFreq_freqAt _ (by rw [hlen]; exact hlim), List.map_cons,
        count_cons_symbol _ _ hk']
      show (_ + (l.map s.inByte).count _) % _ = _
      split
      · rename_i hi
        rw [hi]
        omega
      · rfl

/-- A passed length guard (R111, 45_parser.md R211). -/
theorem lenOk_of_lengthGuard {s : State} (hguard : lengthGuard s = .ok ()) : s.lenOk := by
  rcases lengthGuard_spec s with ⟨-, h⟩ | ⟨-, -, h⟩ | ⟨hpos, hle, -⟩
  · rw [hguard] at h; cases h
  · rw [hguard] at h; cases h
  · exact ⟨Nat.pos_of_ne_zero fun h => hpos (BitVec.eq_of_toNat_eq h), hle⟩

/-- COUNT leaves the counts of the input, and nothing else changes but the registers R112 names. -/
theorem countBody_counted {s u : State} (hp : s.build.wellFormed = true) (hu : countBody s = .ok u) :
    u.counted ∧ u.tables.freq.length = u.limit
      ∧ ∃ f, u = countResults { s.enterPhase .count with tables := { s.tables with freq := f } } := by
  obtain ⟨hguard, t, ht, rfl⟩ := countBody_ok hu
  obtain ⟨f, rfl⟩ := exists_of_sansCounts (foldlM_keeps countByte_sansCounts ht)
  obtain ⟨hlen, hsym, hcount⟩ := countLoop_ok (by simp) ht
  obtain ⟨-, hin, -, -⟩ := wellFormed_bounds hp
  refine ⟨⟨lenOk_of_lengthGuard hguard, ?_, fun k hk => ?_, ?_, rfl⟩, hlen, f, rfl⟩
  · exact fun b hb => by
      obtain ⟨i, hi, rfl⟩ := List.mem_map.1 hb
      exact hsym i hi
  · refine (hcount k hk).trans ?_
    have hzero : ((s.enterPhase .count).clearFreq).freqAt k = 0 := by
      simp [State.freqAt, List.getElem?_replicate]
      split <;> rfl
    have hle : (s.input).count (BitVec.ofNat 8 k) ≤ s.regs.inLen.toNat :=
      (List.count_le_length).trans (by simp [State.input])
    rw [hzero, Nat.zero_add]
    exact Nat.mod_eq_of_lt (Nat.lt_of_le_of_lt hle (BitVec.isLt _))
  · refine toNat_ofNat32 (Nat.lt_of_le_of_lt List.countP_le_length ?_)
    have hl := limit_le s.build
    have : s.limit = s.build.limit := rfl
    rw [hlen]
    show s.limit < _
    omega

/-! ### A state whose counts are current -/

section

variable {s : State} (hc : s.counted) (hlen : s.tables.freq.length = s.limit)

include hc

/-- The input, weighted byte by byte or symbol by symbol. -/
theorem sum_freqAt_mul (w : Nat → Nat) :
    ((List.range s.limit).map fun i => s.freqAt i * w i).sum = (s.input.map fun b => w b.toNat).sum := by
  obtain ⟨-, hsym, hfreq, -, -⟩ := hc
  rw [← sum_count_mul (limit_le s.build) w fun b hb => (hsym b hb).1]
  refine congrArg List.sum (List.map_congr_left fun i hi => ?_)
  rw [hfreq i (List.mem_range.1 hi)]

/-- PAYLOAD_BITS is the length of the payload (44_serializer.md R195, R198). -/
theorem bitCount_eq_payload_length : s.bitCount = (s.payloadOf s.input).length := by
  rw [State.payloadOf, List.length_flatMap, State.bitCount, sum_freqAt_mul hc]
  refine congrArg List.sum (List.map_congr_left fun b _ => ?_)
  simp [State.codeOf]

/-- The sentinel is never counted (00_scope.md R8). -/
theorem countedSymbols_length_le : s.countedSymbols.length ≤ s.build.nMax := by
  obtain ⟨-, hsym, hfreq, -, -⟩ := hc
  have hlimit := limit_cases s.build
  have hseven : 7 ∉ s.countedSymbols := by
    rw [mem_countedSymbols]
    rintro ⟨hlt, hpos⟩
    rw [hfreq 7 hlt] at hpos
    exact (hsym _ (List.count_pos_iff.1 hpos)).2 rfl
  have hsub : s.countedSymbols ⊆ (List.range s.limit).erase 7 := by
    intro i hi
    refine (List.mem_erase_of_ne ?_).2 (List.mem_range.2 (mem_countedSymbols.1 hi).1)
    rintro rfl
    exact hseven hi
  have hnodup : s.countedSymbols.Nodup := List.Nodup.filter _ List.nodup_range
  have hle := (List.subperm_of_subset hnodup hsub).length_le
  rwa [List.length_erase_of_mem (List.mem_range.2 (by show 7 < s.build.limit; omega)), List.length_range] at hle

theorem countedSymbols_ne_nil : 1 ≤ s.countedSymbols.length := by
  obtain ⟨⟨hpos, -⟩, hsym, hfreq, -, -⟩ := hc
  have hmem : s.inByte 0 ∈ s.input := List.mem_map.2 ⟨0, List.mem_range.2 hpos, rfl⟩
  have hlt := (hsym _ hmem).1
  refine List.length_pos_of_mem (mem_countedSymbols.2 ⟨hlt, ?_⟩)
  rw [hfreq _ hlt, ofNat8_toNat]
  exact List.count_pos_iff.2 hmem

include hlen

theorem sum_freq_eq_inLen : (s.tables.freq.map (·.toNat)).sum = s.regs.inLen.toNat := by
  have h := sum_freqAt_mul hc (fun _ => 1)
  have hlength : s.input.length = s.regs.inLen.toNat := by simp [State.input]
  rw [freq_eq_map hlen, ← hlength]
  simpa using h

theorem countedSymbols_length_eq_unique : s.countedSymbols.length = s.regs.unique.toNat := by
  obtain ⟨-, -, -, hunique, -⟩ := hc
  rw [countedSymbols_length hlen, hunique]

end

end Sys2Proof.Machine
end

section
/-! PROOFS. The priority queue (41_priority_queue.md R130 to R137): each operation keeps the heap property and permutes the
entries, and the entry extracted has the least key. A sift moves one entry whose order is open; what holds of all the
others (`Heap.openAbove`, `Heap.openBelow`) is the invariant of its rounds. -/

namespace Sys2Proof.Machine

variable {key : BitVec 9 → Nat} {h : Heap} {i j k : Nat}

/-! ### Swapping -/

theorem Heap.swap_getD (hi : i < h.length) (hj : j < h.length) (k : Nat) :
    (h.swap i j).getD k 0 = if k = j then h.getD i 0 else if k = i then h.getD j 0 else h.getD k 0 := by
  simp only [Heap.swap, List.getD_eq_getElem?_getD, List.getElem?_set, List.length_set]
  grind

theorem Heap.swap_keyAt (hi : i < h.length) (hj : j < h.length) (k : Nat) :
    (h.swap i j).keyAt key k = if k = j then h.keyAt key i else if k = i then h.keyAt key j else h.keyAt key k := by
  unfold Heap.keyAt
  rw [Heap.swap_getD hi hj]
  split_ifs <;> rfl

theorem Heap.swap_perm (hi : i < h.length) (hj : j < h.length) : (h.swap i j).Perm h := by
  rw [Heap.swap, List.getD_eq_getElem _ _ hi, List.getD_eq_getElem _ _ hj]
  exact List.set_set_perm hi hj

theorem Heap.parent_lt (h : 1 ≤ i) : Heap.parent i < i := by
  unfold Heap.parent
  omega

/-! ### Sifting up -/

/-- The heap property but for entry `i` against its parent, with the entries below `i` in order against that parent. -/
def Heap.openAbove (key : BitVec 9 → Nat) (h : Heap) (i : Nat) : Prop :=
  (∀ j, 1 ≤ j → j < h.length → j ≠ i → h.keyAt key (Heap.parent j) ≤ h.keyAt key j)
    ∧ ∀ j, 1 ≤ j → j < h.length → Heap.parent j = i → 1 ≤ i → h.keyAt key (Heap.parent i) ≤ h.keyAt key j

/-- A swap with the parent moves the open entry up. -/
theorem Heap.openAbove_swap (hopen : h.openAbove key i) (hpos : 1 ≤ i) (hi : i < h.length)
    (hlt : h.keyAt key i < h.keyAt key (Heap.parent i)) :
    (h.swap i (Heap.parent i)).openAbove key (Heap.parent i) := by
  obtain ⟨hother, hbelow⟩ := hopen
  have hp := Heap.parent_lt hpos
  have hkey := Heap.swap_keyAt (key := key) hi (hp.trans hi)
  refine ⟨fun j hj hjlen hne => ?_, fun j hj hjlen hpar hppos => ?_⟩
  · rw [Heap.swap_length] at hjlen
    rw [hkey, hkey, if_neg hne]
    by_cases hji : j = i
    · subst hji
      rw [if_pos rfl, if_pos rfl]
      exact hlt.le
    · rw [if_neg hji]
      split_ifs with hparent hparent
      · exact hlt.le.trans (hparent ▸ hother j hj hjlen hji)
      · exact hbelow j hj hjlen hparent hpos
      · exact hother j hj hjlen hji
  · rw [Heap.swap_length] at hjlen
    have hpp := Heap.parent_lt hppos
    have hgrand := hother (Heap.parent i) hppos (hp.trans hi) hp.ne
    have hjp : j ≠ Heap.parent i := (hpar ▸ Heap.parent_lt hj).ne'
    rw [hkey, hkey, if_neg hpp.ne, if_neg (hpp.trans hp).ne, if_neg hjp]
    split_ifs with hji
    · exact hgrand
    · exact hgrand.trans (hpar ▸ hother j hj hjlen hji)

theorem Heap.siftUp_ordered {n : Nat} (hn : i ≤ n) (hi : i < h.length) (hopen : h.openAbove key i) :
    Heap.ordered key (Heap.siftUp key n h i) := by
  induction n generalizing h i with
  | zero => exact fun j hj hjlen => hopen.1 j hj hjlen (by omega)
  | succ n ih =>
    rw [Heap.siftUp]
    split
    · rename_i hpos
      have hp := Heap.parent_lt hpos
      dsimp only
      split
      · rename_i hlt
        exact ih (by omega) (by rw [Heap.swap_length]; omega) (Heap.openAbove_swap hopen hpos hi hlt)
      · rename_i hle
        intro j hj hjlen
        by_cases hji : j = i
        · exact hji ▸ not_lt.1 hle
        · exact hopen.1 j hj hjlen hji
    · exact fun j hj hjlen => hopen.1 j hj hjlen (by omega)

theorem Heap.siftUp_perm {n : Nat} (hi : i < h.length) : (Heap.siftUp key n h i).Perm h := by
  induction n generalizing h i with
  | zero => exact .refl _
  | succ n ih =>
    rw [Heap.siftUp]
    split
    · rename_i hpos
      have hp : Heap.parent i < h.length := (Heap.parent_lt hpos).trans hi
      dsimp only
      split
      · exact (ih (by rwa [Heap.swap_length])).trans (Heap.swap_perm hi hp)
      · exact .refl _
    · exact .refl _

theorem Heap.keyAt_append_left {l : Heap} (hi : i < h.length) : (h ++ l).keyAt key i = h.keyAt key i := by
  rw [Heap.keyAt, List.getD_append _ _ _ _ hi, Heap.keyAt]

/-- HeapInsert keeps the heap property (R137). -/
theorem Heap.insert_ordered (ho : Heap.ordered key h) (x : BitVec 9) : Heap.ordered key (Heap.insert key h x) := by
  refine Heap.siftUp_ordered le_rfl (by simp) ⟨fun j hj hjlen hne => ?_, fun j hj hjlen hpar _ => ?_⟩
  · have hlt : j < h.length := by
      rw [List.length_append, List.length_singleton] at hjlen
      omega
    rw [Heap.keyAt_append_left hlt, Heap.keyAt_append_left ((Heap.parent_lt hj).trans hlt)]
    exact ho j hj hlt
  · have := Heap.parent_lt hj
    rw [List.length_append, List.length_singleton] at hjlen
    omega

/-- HeapInsert adds the new entry and no other (R137). -/
theorem Heap.insert_perm (x : BitVec 9) : (Heap.insert key h x).Perm (x :: h) :=
  (Heap.siftUp_perm (by simp)).trans (List.perm_append_singleton x h)

/-! ### Sifting down -/

/-- The heap property but for the entries under `i`, with these in order against the parent of `i`. -/
def Heap.openBelow (key : BitVec 9 → Nat) (h : Heap) (i : Nat) : Prop :=
  (∀ j, 1 ≤ j → j < h.length → Heap.parent j ≠ i → h.keyAt key (Heap.parent j) ≤ h.keyAt key j)
    ∧ ∀ j, 1 ≤ j → j < h.length → Heap.parent j = i → 1 ≤ i → h.keyAt key (Heap.parent i) ≤ h.keyAt key j

/-- `smallest` is `i` or a child with a lesser key, and has the least key of the three (R134). -/
theorem Heap.smallest_spec (key : BitVec 9 → Nat) (h : Heap) (i : Nat) :
    (h.smallest key i = i ∨ (1 ≤ h.smallest key i ∧ h.smallest key i < h.length
        ∧ Heap.parent (h.smallest key i) = i ∧ h.keyAt key (h.smallest key i) < h.keyAt key i))
      ∧ ∀ j, 1 ≤ j → j < h.length → Heap.parent j = i → h.keyAt key (h.smallest key i) ≤ h.keyAt key j := by
  have hchild (j : Nat) (hj : 1 ≤ j) (hpar : Heap.parent j = i) : j = Heap.left i ∨ j = Heap.right i := by
    unfold Heap.parent at hpar
    unfold Heap.left Heap.right
    omega
  have hl : 1 ≤ Heap.left i ∧ Heap.parent (Heap.left i) = i := by unfold Heap.left Heap.parent; omega
  have hr : 1 ≤ Heap.right i ∧ Heap.parent (Heap.right i) = i := by unfold Heap.right Heap.parent; omega
  unfold Heap.smallest
  grind

/-- A swap with the smaller child moves the open place down. -/
theorem Heap.openBelow_swap (hopen : h.openBelow key i) (hi : i < h.length) (hne : h.smallest key i ≠ i) :
    (h.swap i (h.smallest key i)).openBelow key (h.smallest key i) := by
  obtain ⟨hother, hbelow⟩ := hopen
  obtain ⟨hcases, hleast⟩ := Heap.smallest_spec key h i
  obtain ⟨hpos, hlen, hpar, hlt⟩ := hcases.resolve_left hne
  generalize h.smallest key i = c at *
  have hkey := Heap.swap_keyAt (key := key) hi hlen
  refine ⟨fun j hj hjlen hjc => ?_, fun j hj hjlen hjc _ => ?_⟩
  · rw [Heap.swap_length] at hjlen
    have hpj := Heap.parent_lt hj
    rw [hkey, hkey, if_neg hjc]
    by_cases hc : j = c
    · subst hc
      rw [hpar, if_pos rfl, if_pos rfl]
      exact hlt.le
    · rw [if_neg hc]
      by_cases hji : j = i
      · subst hji
        rw [if_neg hpj.ne, if_pos rfl]
        exact hbelow c hpos hlen hpar hj
      · rw [if_neg hji]
        split_ifs with hparent
        · exact hleast j hj hjlen hparent
        · exact hother j hj hjlen hparent
  · rw [Heap.swap_length] at hjlen
    have hpj := Heap.parent_lt hj
    have hpc := Heap.parent_lt hpos
    rw [hkey, hkey, hpar, if_neg (by omega), if_pos rfl, if_neg (by omega), if_neg (by omega)]
    exact hjc ▸ hother j hj hjlen (by omega)

theorem Heap.siftDown_ordered {n : Nat} (hn : h.length ≤ n + i) (hopen : h.openBelow key i) :
    Heap.ordered key (Heap.siftDown key n h i) := by
  induction n generalizing h i with
  | zero =>
    refine fun j hj hjlen => hopen.1 j hj hjlen ?_
    have := Heap.parent_lt hj
    have : j < h.length := hjlen
    omega
  | succ n ih =>
    obtain ⟨hcases, hleast⟩ := Heap.smallest_spec key h i
    rw [Heap.siftDown]
    split
    · rename_i hstop
      intro j hj hjlen
      by_cases hpar : Heap.parent j = i
      · exact hpar ▸ hstop ▸ hleast j hj hjlen hpar
      · exact hopen.1 j hj hjlen hpar
    · rename_i hne
      obtain ⟨hpos, hlen, hpar, -⟩ := hcases.resolve_left hne
      have := Heap.parent_lt hpos
      exact ih (by rw [Heap.swap_length]; omega) (Heap.openBelow_swap hopen (by omega) hne)

theorem Heap.siftDown_perm {n : Nat} : (Heap.siftDown key n h i).Perm h := by
  induction n generalizing h i with
  | zero => exact .refl _
  | succ n ih =>
    rw [Heap.siftDown]
    split
    · exact .refl _
    · rename_i hne
      obtain ⟨hpos, hlen, hpar, -⟩ := (Heap.smallest_spec key h i).1.resolve_left hne
      have := Heap.parent_lt hpos
      exact ih.trans (Heap.swap_perm (by omega) hlen)

/-! ### Extracting -/

/-- The entry at index 0 has the least key (R133). -/
theorem Heap.keyAt_zero_le (ho : Heap.ordered key h) (i : Nat) (hi : i < h.length) :
    h.keyAt key 0 ≤ h.keyAt key i := by
  induction i using Nat.strong_induction_on with
  | _ i ih =>
    rcases Nat.eq_zero_or_pos i with rfl | hpos
    · exact le_rfl
    · have hp := Heap.parent_lt hpos
      exact (ih _ hp (hp.trans hi)).trans (ho i hpos hi)

/-- The heap with its first entry swapped to the end and dropped, before SiftDown. -/
def Heap.withoutFirst (h : Heap) : Heap := (h.swap 0 (h.length - 1)).dropLast

theorem Heap.withoutFirst_length (h : Heap) : h.withoutFirst.length = h.length - 1 := by simp [Heap.withoutFirst]

theorem Heap.withoutFirst_perm (x : BitVec 9) (h : Heap) : (x :: Heap.withoutFirst (x :: h)).Perm (x :: h) := by
  have hlen : (x :: h).length - 1 < (x :: h).length := by simp
  have hswap := Heap.swap_perm (h := x :: h) (i := 0) (j := (x :: h).length - 1) (by simp) hlen
  have hne : Heap.swap (x :: h) 0 ((x :: h).length - 1) ≠ [] :=
    List.ne_nil_of_length_pos (by rw [Heap.swap_length]; simp)
  have hlast : (Heap.swap (x :: h) 0 ((x :: h).length - 1)).getLast hne = x := by
    rw [List.getLast_eq_getElem, ← List.getD_eq_getElem _ 0, Heap.swap_getD (by simp) hlen, Heap.swap_length,
      if_pos rfl]
    rfl
  rw [← List.dropLast_append_getLast hne, hlast] at hswap
  exact (List.perm_append_singleton x _).symm.trans hswap

theorem Heap.withoutFirst_openBelow (ho : Heap.ordered key h) : h.withoutFirst.openBelow key 0 := by
  refine ⟨fun j hj hjlen hpar => ?_, fun j _ _ _ h => absurd h (by decide)⟩
  have hp := Heap.parent_lt hj
  rw [Heap.withoutFirst_length] at hjlen
  have hkey (k : Nat) (hk : k < h.length - 1) (hpos : k ≠ 0) : h.withoutFirst.keyAt key k = h.keyAt key k := by
    have hdrop : h.withoutFirst.keyAt key k = (h.swap 0 (h.length - 1)).keyAt key k := by
      unfold Heap.keyAt Heap.withoutFirst
      rw [List.getD_eq_getElem _ _ (by simpa using hk), List.getD_eq_getElem _ _ (by simp; omega),
        List.getElem_dropLast]
    rw [hdrop, Heap.swap_keyAt (by omega) (by omega), if_neg (by omega), if_neg hpos]
  rw [hkey _ (by omega) hpar, hkey _ hjlen (by omega)]
  exact ho j hj (by omega)

/-- HeapExtractMin on an ordered heap: what it returns has the least key, and what it leaves is an ordered heap of the
other entries (R133, R137). -/
theorem Heap.extractMin_ok {x : BitVec 9} {h' : Heap} (ho : Heap.ordered key h)
    (he : Heap.extractMin key h = some (x, h')) :
    Heap.ordered key h' ∧ h.Perm (x :: h') ∧ h[0]? = some x ∧ ∀ y ∈ h, key x ≤ key y := by
  cases h with
  | nil => cases he
  | cons m h =>
    simp only [Heap.extractMin, Option.some.injEq, Prod.mk.injEq] at he
    obtain ⟨rfl, rfl⟩ := he
    refine ⟨Heap.siftDown_ordered le_rfl (Heap.withoutFirst_openBelow ho), ?_, rfl, fun y hy => ?_⟩
    · exact (Heap.withoutFirst_perm m h).symm.trans (Heap.siftDown_perm.symm.cons m)
    · obtain ⟨i, hi, rfl⟩ := List.getElem_of_mem hy
      have := Heap.keyAt_zero_le ho i hi
      rwa [Heap.keyAt, Heap.keyAt, List.getD_eq_getElem _ _ hi] at this

/-- The heap property speaks of the keys of the entries alone. -/
theorem Heap.ordered_congr {key' : BitVec 9 → Nat} (hk : ∀ x ∈ h, key' x = key x) (ho : Heap.ordered key h) :
    Heap.ordered key' h := by
  have hkey (i : Nat) (hi : i < h.length) : h.keyAt key' i = h.keyAt key i := by
    unfold Heap.keyAt
    rw [List.getD_eq_getElem _ _ hi]
    exact hk _ (List.getElem_mem hi)
  intro i hpos hi
  rw [hkey _ ((Heap.parent_lt hpos).trans hi), hkey _ hi]
  exact ho i hpos hi

end Sys2Proof.Machine
end

section
/-! PROOFS. BUILD_TREE builds a Huffman tree (42_tree_builder.md R150 to R154). The invariant of both loops is that every
node is either the child of one node or in the heap (`Growing`); the merging loop keeps besides that the leaves come
first and every other node joins the two least of its time (`Merging`). -/

namespace Sys2Proof.Machine

open Sys2Proof.Config (Params)

/-! ### Nodes -/

theorem nodeFreq_append {nodes : List Node} {k : Nat} (h : k < nodes.length) (l : List Node) :
    nodeFreq (nodes ++ l) k = nodeFreq nodes k := by
  rw [nodeFreq, nodeFreq, List.getElem?_append_left h]

theorem nodeFreq_append_self (nodes : List Node) (n : Node) : nodeFreq (nodes ++ [n]) nodes.length = n.freq := by
  simp [nodeFreq]

theorem nodeKey_eq_nodeFreq {s : State} {x : BitVec 9} (h : x.toNat < s.tables.nodes.length) :
    s.nodeKey x = nodeFreq s.tables.nodes x.toNat := by
  simp [State.nodeKey, State.nodeAt, nodeFreq, List.getElem?_eq_getElem h]

theorem unjoined_append {nodes : List Node} {i : Nat} (h : i ≤ nodes.length) (l : List Node) :
    unjoined (nodes ++ l) i = unjoined nodes i := by
  rw [unjoined, unjoined, List.take_append_of_le_length h]

theorem lt_of_mem_unjoined {nodes : List Node} {i j : Nat} (h : j ∈ unjoined nodes i) : j < i :=
  List.mem_range.1 (List.mem_of_mem_filter h)

/-- Node `i` joins two lower nodes, and its FREQ is their sum (R154). -/
theorem mergedNode_iff {nodes : List Node} {i : Nat} (hi : i ≤ nodes.length) {n : Node} :
    mergedNode nodes i n = true ↔ ∃ f l r, n = .internal f l r ∧ l.toNat < i ∧ r.toNat < i
      ∧ f.toNat = nodeFreq nodes l.toNat + nodeFreq nodes r.toNat := by
  cases n with
  | leaf f sym => simp [mergedNode]
  | internal f l r =>
    by_cases hl : l.toNat < i
    · by_cases hr : r.toNat < i
      · simp [mergedNode, nodeFreq, hl, hr, List.getElem?_eq_getElem (show l.toNat < nodes.length by omega),
          List.getElem?_eq_getElem (show r.toNat < nodes.length by omega)]
      · simp [mergedNode, hr]
    · simp [mergedNode, hl]

/-- Node `i` joins the two least of the nodes not joined before it (R152). -/
theorem joinsLeast_iff {nodes : List Node} {i : Nat} {n : Node} :
    joinsLeast nodes i n = true ↔ ∃ f l r, n = .internal f l r ∧ l.toNat ∈ unjoined nodes i ∧ r.toNat ∈ unjoined nodes i
      ∧ l ≠ r ∧ ∀ j ∈ unjoined nodes i, nodeFreq nodes l.toNat ≤ nodeFreq nodes j
        ∧ (j = l.toNat ∨ nodeFreq nodes r.toNat ≤ nodeFreq nodes j) := by
  cases n with
  | leaf f sym => simp [joinsLeast]
  | internal f l r => simp [joinsLeast, and_assoc]

/-- A node made later changes neither. -/
theorem mergedNode_append {nodes : List Node} {i : Nat} (hi : i ≤ nodes.length) {n : Node} (l : List Node)
    (h : mergedNode nodes i n = true) : mergedNode (nodes ++ l) i n = true := by
  obtain ⟨f, a, b, rfl, ha, hb, hf⟩ := (mergedNode_iff hi).1 h
  refine (mergedNode_iff (hi.trans (by simp))).2 ⟨f, a, b, rfl, ha, hb, ?_⟩
  rwa [nodeFreq_append (by omega), nodeFreq_append (by omega)]

theorem joinsLeast_append {nodes : List Node} {i : Nat} (hi : i ≤ nodes.length) {n : Node} (l : List Node)
    (h : joinsLeast nodes i n = true) : joinsLeast (nodes ++ l) i n = true := by
  obtain ⟨f, a, b, rfl, ha, hb, hne, hleast⟩ := joinsLeast_iff.1 h
  have hfreq (j : Nat) (hj : j ∈ unjoined nodes i) : nodeFreq (nodes ++ l) j = nodeFreq nodes j :=
    nodeFreq_append ((lt_of_mem_unjoined hj).trans_le hi) l
  refine joinsLeast_iff.2 ⟨f, a, b, rfl, ?_, ?_, hne, fun j hj => ?_⟩
  · rwa [unjoined_append hi]
  · rwa [unjoined_append hi]
  · rw [unjoined_append hi] at hj
    rw [hfreq _ ha, hfreq _ hb, hfreq _ hj]
    exact hleast j hj

/-! ### The forest in the heap -/

/-- Every node made so far is the child of one node or in the heap, and the heap is in order. -/
structure Growing (s : State) : Prop where
  joined : (s.tables.nodes.flatMap Node.children ++ s.tables.heap.map (·.toNat)).Perm
    (List.range s.tables.nodes.length)
  ordered : Heap.ordered s.nodeKey s.tables.heap

namespace Growing

variable {s : State} (g : Growing s)

include g

theorem heap_lt {x : BitVec 9} (hx : x ∈ s.tables.heap) : x.toNat < s.tables.nodes.length :=
  List.mem_range.1 (g.joined.mem_iff.1 (List.mem_append_right _ (List.mem_map_of_mem hx)))

/-- The heap holds the nodes not joined. -/
theorem heap_perm : (s.tables.heap.map (·.toNat)).Perm (unjoined s.tables.nodes s.tables.nodes.length) := by
  have hnodup : (s.tables.nodes.flatMap Node.children ++ s.tables.heap.map (·.toNat)).Nodup :=
    g.joined.nodup_iff.2 List.nodup_range
  obtain ⟨-, hheap, hdisjoint⟩ := List.nodup_append.1 hnodup
  refine (List.perm_ext_iff_of_nodup hheap (List.nodup_range.filter _)).2 fun j => ?_
  have hmem := g.joined.mem_iff (a := j)
  rw [List.mem_append] at hmem
  simp only [List.take_length, List.mem_filter, ← hmem, Bool.not_eq_true', List.contains_eq_mem,
    decide_eq_false_iff_not]
  exact ⟨fun hj => ⟨.inr hj, fun hc => hdisjoint _ hc _ hj rfl⟩, fun hj => hj.1.resolve_left hj.2⟩

end Growing

/-- The keys of lower nodes stay when a node is added. -/
theorem addNode_nodeKey {s : State} {x : BitVec 9} (h : x.toNat < s.tables.nodes.length) (n : Node) :
    (s.addNode n).nodeKey x = s.nodeKey x := by
  rw [nodeKey_eq_nodeFreq h, nodeKey_eq_nodeFreq (by simp; omega), State.addNode_tables_nodes, nodeFreq_append h]

/-- The new node's entry, put in front of the heap. -/
theorem addNode_heap_perm (s : State) (n : Node) :
    (s.addNode n).tables.heap.Perm (BitVec.ofNat 9 s.tables.nodes.length :: s.tables.heap) := Heap.insert_perm _

/-- A node whose children leave the heap as it comes. -/
theorem addNode_growing {s : State} {n : Node} (hlen : s.tables.nodes.length < 512)
    (hjoined : (s.tables.nodes.flatMap Node.children ++ n.children ++ s.tables.heap.map (·.toNat)).Perm
      (List.range s.tables.nodes.length))
    (ho : Heap.ordered s.nodeKey s.tables.heap) :
    Growing (s.addNode n)
      ∧ ((s.addNode n).tables.heap.map (s.addNode n).nodeKey).sum = n.freq + (s.tables.heap.map s.nodeKey).sum := by
  have hkey : ∀ x ∈ s.tables.heap, (s.addNode n).nodeKey x = s.nodeKey x := fun x hx =>
    addNode_nodeKey (List.mem_range.1 (hjoined.mem_iff.1 (List.mem_append_right _ (List.mem_map_of_mem hx)))) n
  have hnew : (BitVec.ofNat 9 s.tables.nodes.length).toNat = s.tables.nodes.length := by
    rw [BitVec.toNat_ofNat, Nat.mod_eq_of_lt hlen]
  have hperm := addNode_heap_perm s n
  refine ⟨⟨?_, Heap.insert_ordered (Heap.ordered_congr hkey ho) _⟩, ?_⟩
  · have hmap := hperm.map (·.toNat)
    rw [List.map_cons, hnew] at hmap
    rw [State.addNode_tables_nodes, List.flatMap_append, List.flatMap_singleton, List.length_append,
      List.length_singleton, List.range_succ]
    exact (hmap.append_left _).trans
      (List.perm_middle.trans ((hjoined.cons _).trans (List.perm_append_singleton _ _).symm))
  · have hself : (s.addNode n).nodeKey (BitVec.ofNat 9 s.tables.nodes.length) = n.freq := by
      rw [nodeKey_eq_nodeFreq (by rw [hnew]; simp), hnew, State.addNode_tables_nodes, nodeFreq_append_self]
    rw [(hperm.map _).sum_eq, List.map_cons, List.sum_cons, hself, List.map_congr_left hkey]

/-! ### Loading -/

/-- The leaf of symbol `i` (R151). -/
def State.leafOf (s : State) (i : Nat) : Node := .leaf (BitVec.ofNat 32 (s.freqAt i)) (BitVec.ofNat 8 i)

theorem leafOf_freq (s : State) (i : Nat) : (s.leafOf i).freq = s.freqAt i := toNat_ofNat32 (BitVec.isLt _)

/-- HeapLoad's loop makes a leaf for each counted symbol and puts it into the heap. -/
theorem loadLoop_growing {l : List Nat} {s : State} (g : Growing s) (hlen : s.tables.nodes.length + l.length < 512) :
    Growing (l.foldl loadSymbol s)
      ∧ (l.foldl loadSymbol s).tables.nodes
        = s.tables.nodes ++ (l.filter fun i => decide (0 < s.freqAt i)).map s.leafOf
      ∧ (l.foldl loadSymbol s).tables.heap.length
        = s.tables.heap.length + (l.filter fun i => decide (0 < s.freqAt i)).length
      ∧ ((l.foldl loadSymbol s).tables.heap.map (l.foldl loadSymbol s).nodeKey).sum
        = (s.tables.heap.map s.nodeKey).sum + (l.map s.freqAt).sum := by
  induction l generalizing s with
  | nil => simpa using g
  | cons i l ih =>
    rw [List.length_cons] at hlen
    rw [List.foldl_cons, List.map_cons, List.sum_cons]
    by_cases hpos : 0 < s.freqAt i
    · obtain ⟨g', hsum⟩ := addNode_growing (n := s.leafOf i) (by omega) (by simpa [State.leafOf, Node.children] using g.joined)
        g.ordered
      have hload : loadSymbol s i = s.addNode (s.leafOf i) := if_pos hpos
      obtain ⟨hg, hnodes, hheap, hsum'⟩ := ih g' (by simp; omega)
      rw [hload, List.filter_cons_of_pos (by simpa using hpos)]
      refine ⟨hg, ?_, ?_, ?_⟩
      · rw [hnodes, State.addNode_tables_nodes, List.append_assoc]
        rfl
      · refine hheap.trans ?_
        rw [(addNode_heap_perm _ _).length_eq, List.length_cons, List.length_cons]
        show _ + (l.filter fun i => decide (0 < s.freqAt i)).length = _
        omega
      · refine hsum'.trans ?_
        rw [hsum, leafOf_freq]
        show _ + (l.map s.freqAt).sum = _
        omega
    · have hload : loadSymbol s i = s := if_neg hpos
      rw [hload, List.filter_cons_of_neg (by simpa using hpos), Nat.eq_zero_of_not_pos hpos, Nat.zero_add]
      exact ih g (by omega)

/-! ### Merging -/

/-- The forest while MergeStep runs over the given leaves: these come first, every other node joins the two least of its
time, and the keys in the heap add up to `total`. -/
structure Merging (leaves : List Node) (total : Nat) (s : State) : Prop extends Growing s where
  leaves_first : s.tables.nodes.take leaves.length = leaves
  size : s.tables.nodes.length + s.tables.heap.length = 2 * leaves.length
  merged : ∀ i n, leaves.length ≤ i → s.tables.nodes[i]? = some n →
    mergedNode s.tables.nodes i n = true ∧ joinsLeast s.tables.nodes i n = true
  sum : (s.tables.heap.map s.nodeKey).sum = total

theorem Merging.length_le {leaves : List Node} {total : Nat} {s : State} (m : Merging leaves total s) :
    leaves.length ≤ s.tables.nodes.length := by
  have := congrArg List.length m.leaves_first
  rw [List.length_take] at this
  omega

/-- The node that joins the two entries extracted first. -/
theorem joined_node {s : State} (g : Growing s) {a b : BitVec 9} {h₁ h₂ : Heap} {f : Word}
    (hp₁ : s.tables.heap.Perm (a :: h₁)) (hp₂ : h₁.Perm (b :: h₂))
    (hleast₁ : ∀ y ∈ s.tables.heap, s.nodeKey a ≤ s.nodeKey y) (hleast₂ : ∀ y ∈ h₁, s.nodeKey b ≤ s.nodeKey y)
    (hf : f.toNat = s.nodeKey a + s.nodeKey b) :
    mergedNode s.tables.nodes s.tables.nodes.length (.internal f a b) = true
      ∧ joinsLeast s.tables.nodes s.tables.nodes.length (.internal f a b) = true := by
  have hp : s.tables.heap.Perm (a :: b :: h₂) := hp₁.trans (hp₂.cons a)
  have ha : a ∈ s.tables.heap := hp.mem_iff.2 (by simp)
  have hb : b ∈ s.tables.heap := hp.mem_iff.2 (by simp)
  have hmem (j : Nat) : j ∈ unjoined s.tables.nodes s.tables.nodes.length ↔ ∃ x ∈ s.tables.heap, x.toNat = j := by
    rw [← g.heap_perm.mem_iff, List.mem_map]
  have hkey (x : BitVec 9) (hx : x ∈ s.tables.heap) : nodeFreq s.tables.nodes x.toNat = s.nodeKey x :=
    (nodeKey_eq_nodeFreq (g.heap_lt hx)).symm
  have hne : a ≠ b := by
    rintro rfl
    have := (hp.map (·.toNat)).nodup_iff.1 (g.heap_perm.nodup_iff.2 (List.nodup_range.filter _))
    simp at this
  refine ⟨(mergedNode_iff le_rfl).2 ⟨f, a, b, rfl, g.heap_lt ha, g.heap_lt hb, ?_⟩, joinsLeast_iff.2
    ⟨f, a, b, rfl, (hmem _).2 ⟨a, ha, rfl⟩, (hmem _).2 ⟨b, hb, rfl⟩, hne, fun j hj => ?_⟩⟩
  · rwa [hkey a ha, hkey b hb]
  · obtain ⟨x, hx, rfl⟩ := (hmem j).1 hj
    rw [hkey a ha, hkey b hb, hkey x hx]
    refine ⟨hleast₁ x hx, ?_⟩
    rcases List.mem_cons.1 (hp₁.mem_iff.1 hx) with rfl | hx₁
    · exact .inl rfl
    · exact .inr (hleast₂ x hx₁)

/-- MergeStep keeps it, and leaves one entry less in the heap (R152). -/
theorem mergeStep_merging {leaves : List Node} {total : Nat} {s u : State} (m : Merging leaves total s)
    (hleaves : leaves.length ≤ 256) (htotal : total < 2 ^ 32) (hu : mergeStep s = .ok u) :
    Merging leaves total u ∧ u.tables.heap.length + 1 = s.tables.heap.length := by
  obtain ⟨a, b, h₁, h₂, ha, hb, rfl⟩ := mergeStep_ok hu
  obtain ⟨ho₁, hp₁, -, hleast₁⟩ := Heap.extractMin_ok m.ordered ha
  obtain ⟨ho₂, hp₂, -, hleast₂⟩ := Heap.extractMin_ok ho₁ hb
  have hp : s.tables.heap.Perm (a :: b :: h₂) := hp₁.trans (hp₂.cons a)
  have hheap : s.tables.heap.length = h₂.length + 2 := hp.length_eq
  have hsum : s.nodeKey a + (s.nodeKey b + (h₂.map s.nodeKey).sum) = total := by
    rw [← m.sum, (hp.map s.nodeKey).sum_eq]
    simp
  have hsize := m.size
  have hf : (BitVec.ofNat 32 (s.nodeKey a + s.nodeKey b)).toNat = s.nodeKey a + s.nodeKey b := toNat_ofNat32 (by omega)
  have hnew := joined_node m.toGrowing hp₁ hp₂ hleast₁ hleast₂ hf
  generalize hn : Node.internal (BitVec.ofNat 32 (s.nodeKey a + s.nodeKey b)) a b = n at *
  have hjoined : (s.tables.nodes.flatMap Node.children ++ n.children ++ h₂.map (·.toNat)).Perm
      (List.range s.tables.nodes.length) := by
    rw [← hn, List.append_assoc]
    exact ((hp.map _).append_left _).symm.trans m.joined
  obtain ⟨g, hsum'⟩ := addNode_growing (s := s.withHeap h₂) (n := n) (by rw [withHeap_nodes]; omega) hjoined ho₂
  have hlen : ((s.withHeap h₂).addNode n).tables.heap.length = h₂.length + 1 := (addNode_heap_perm _ _).length_eq
  refine ⟨⟨g, ?_, ?_, fun i x hi hx => ?_, ?_⟩, by omega⟩
  · rw [State.addNode_tables_nodes, withHeap_nodes, List.take_append_of_le_length m.length_le, m.leaves_first]
  · rw [hlen, State.addNode_tables_nodes, withHeap_nodes, List.length_append, List.length_singleton]
    omega
  · rw [State.addNode_tables_nodes, withHeap_nodes] at hx ⊢
    rcases Nat.lt_or_ge i s.tables.nodes.length with hlt | hge
    · rw [List.getElem?_append_left hlt] at hx
      obtain ⟨hmerged, hjoins⟩ := m.merged i x hi hx
      exact ⟨mergedNode_append hlt.le _ hmerged, joinsLeast_append hlt.le _ hjoins⟩
    · obtain ⟨hlast, rfl⟩ : i = s.tables.nodes.length ∧ x = n := by
        rw [List.getElem?_append_right hge, List.getElem?_singleton] at hx
        split at hx
        · exact ⟨by omega, (Option.some.inj hx).symm⟩
        · cases hx
      rw [hlast]
      exact ⟨mergedNode_append le_rfl _ hnew.1, joinsLeast_append le_rfl _ hnew.2⟩
  · rw [hsum', ← hn, Node.freq, hf, withHeap_nodeKey, withHeap_heap]
    omega

/-- The merging loop ends with one entry in the heap (R152, R153). -/
theorem mergeLoop_merging {leaves : List Node} {total n : Nat} {s u : State} (m : Merging leaves total s)
    (hleaves : leaves.length ≤ 256) (htotal : total < 2 ^ 32) (hpos : 1 ≤ s.tables.heap.length)
    (hn : s.tables.heap.length ≤ n + 1) (hu : mergeLoop n s = .ok u) :
    Merging leaves total u ∧ u.tables.heap.length = 1 := by
  induction n generalizing s with
  | zero => cases hu; exact ⟨m, by omega⟩
  | succ n ih =>
    rw [mergeLoop] at hu
    split at hu
    · obtain ⟨t, ht, hu⟩ := bind_ok hu
      obtain ⟨m', hlen⟩ := mergeStep_merging m hleaves htotal ht
      exact ih m' (by omega) (by omega) hu
    · cases hu; exact ⟨m, by omega⟩

end Sys2Proof.Machine
end

section
/-! PROOFS. The tree that BUILD_TREE leaves, from the invariants of its two loops (42_tree_builder.md R150 to R154). -/

namespace Sys2Proof.Machine

open Sys2Proof.Config (Params)

/-- What the tree builder leaves alone, as an equation. -/
theorem exists_of_sansTree {s u : State} (h : u.sansTree = s.sansTree) :
    ∃ ns r hp, u = { s with tables := { s.tables with nodes := ns, root := r, heap := hp } } := by
  obtain ⟨build, regs, status, phase, curOp, mem, ⟨f, nodes, root, heap, codeLen, codeBits, order⟩, dp, stale, idx, env⟩
    := u
  refine ⟨nodes, root, heap, ?_⟩
  simp only [State.sansTree, State.mk.injEq, Tables.mk.injEq] at h ⊢
  simpa using h

/-! ### After loading -/

/-- HeapLoad leaves a leaf for each counted symbol, in ascending order, all of them in the heap (R151). -/
theorem heapLoad_merging {s : State} (hfreq : s.tables.freq.length = s.limit) :
    Merging (s.countedSymbols.map s.leafOf) (s.tables.freq.map (·.toNat)).sum (heapLoad s)
      ∧ (heapLoad s).tables.heap.length = s.countedSymbols.length := by
  let s₀ : State := { s with tables := { s.tables with heap := [], nodes := [] } }
  have g₀ : Growing s₀ := ⟨.refl _, fun i _ hi => absurd hi (Nat.not_lt_zero i)⟩
  have hl := limit_le s.build
  obtain ⟨g, hnodes, hheap, hsum⟩ := loadLoop_growing (l := List.range s.limit) g₀ (by
    rw [List.length_range]
    show 0 + s.build.limit < 512
    omega)
  replace hnodes : (heapLoad s).tables.nodes = s.countedSymbols.map s.leafOf := hnodes
  replace hheap : (heapLoad s).tables.heap.length = s.countedSymbols.length := hheap.trans (Nat.zero_add _)
  refine ⟨⟨g, ?_, ?_, fun i n hi hn => ?_, ?_⟩, hheap⟩
  · rw [hnodes, List.take_length]
  · rw [hnodes, hheap, List.length_map]
    omega
  · have := (List.getElem?_eq_some_iff.1 hn).1
    rw [hnodes] at this
    omega
  · rw [freq_eq_map hfreq]
    exact hsum.trans (Nat.zero_add _)

/-! ### After merging -/

section

variable {leaves : List Node} {total : Nat} {s : State} (m : Merging leaves total s)
  (hleaf : ∀ n ∈ leaves, n.children = []) (hone : s.tables.heap.length = 1)

include m

/-- Every child stands below the last node. -/
theorem child_lt_last (hleaf : ∀ n ∈ leaves, n.children = []) {c : Nat}
    (hc : c ∈ s.tables.nodes.flatMap Node.children) : c + 1 < s.tables.nodes.length := by
  obtain ⟨n, hn, hcn⟩ := List.mem_flatMap.1 hc
  obtain ⟨i, hi, rfl⟩ := List.getElem_of_mem hn
  rcases Nat.lt_or_ge i leaves.length with hlt | hge
  · have : s.tables.nodes[i] ∈ leaves := by
      have hget := List.getElem_take (xs := s.tables.nodes) (j := leaves.length) (i := i)
        (h := by rw [m.leaves_first]; exact hlt)
      rw [← hget]
      simp only [m.leaves_first]
      exact List.getElem_mem _
    rw [hleaf _ this] at hcn
    cases hcn
  · obtain ⟨hmerged, -⟩ := m.merged i _ hge (List.getElem?_eq_getElem hi)
    obtain ⟨f, l, r, hnode, hl, hr, -⟩ := (mergedNode_iff hi.le).1 hmerged
    rw [hnode] at hcn
    simp only [Node.children, List.mem_cons, List.not_mem_nil, or_false] at hcn
    omega

include hleaf hone

/-- The one entry left in the heap is the last node, and every other node is the child of one node (R153, R154). -/
theorem root_of_merging :
    ∃ x, s.tables.heap = [x] ∧ x.toNat = 2 * leaves.length - 2
      ∧ (s.tables.nodes.flatMap Node.children).Perm (List.range (2 * leaves.length - 2)) := by
  obtain ⟨x, hx⟩ := List.length_eq_one_iff.1 hone
  have hsize := m.size
  have hlen : s.tables.nodes.length = 2 * leaves.length - 2 + 1 := by omega
  have hjoined := m.joined
  rw [hx, hlen, List.range_succ, List.map_singleton] at hjoined
  have hlast : 2 * leaves.length - 2 ∈ s.tables.nodes.flatMap Node.children ++ [x.toNat] :=
    hjoined.mem_iff.2 (by simp)
  have hroot : x.toNat = 2 * leaves.length - 2 := by
    rcases List.mem_append.1 hlast with hc | hc
    · have := child_lt_last m hleaf hc
      omega
    · exact (List.mem_singleton.1 hc).symm
  rw [hroot] at hjoined
  exact ⟨x, hx, hroot, (List.perm_append_right_iff _).1 hjoined⟩

end

/-- When one entry is left in the heap, the nodes are a Huffman tree of FREQ (R152, R154). -/
theorem treeOk_of_merging {t : State}
    (m : Merging (t.countedSymbols.map t.leafOf) (t.tables.freq.map (·.toNat)).sum t)
    (hpos : 1 ≤ t.countedSymbols.length) (hone : t.tables.heap.length = 1) : t.takeRoot.treeOk ∧ t.takeRoot.huffman := by
  obtain ⟨x, hx, hroot, hchildren⟩ := root_of_merging m (by simp [State.leafOf, Node.children]) hone
  have hsize := m.size
  have hfirst := m.leaves_first
  have hmerged := m.merged
  have hsum := m.sum
  rw [List.length_map] at hroot hchildren hsize hfirst hmerged
  rw [hx, List.map_singleton, List.sum_singleton] at hsum
  have hx' : t.takeRoot.tables.root = x := by rw [State.takeRoot_tables_root, hx]; rfl
  refine ⟨⟨hpos, ?_, hfirst, fun p hp hi => ?_, ?_, hchildren, ?_⟩, fun p hp hi => ?_⟩
  · show t.tables.nodes.length = 2 * t.countedSymbols.length - 1
    omega
  · exact (hmerged p.2 p.1 hi (List.mem_zipIdx_iff_getElem?.1 hp)).1
  · rw [hx']
    exact hroot
  · rw [hx']
    exact hsum
  · exact (hmerged p.2 p.1 hi (List.mem_zipIdx_iff_getElem?.1 hp)).2

/-- BUILD_TREE leaves a Huffman tree of FREQ, and nothing else changes but what R150 names. -/
theorem buildTreeBody_tree {s u : State} (hfreq : s.tables.freq.length = s.limit) (hpos : 1 ≤ s.countedSymbols.length)
    (htotal : (s.tables.freq.map (·.toNat)).sum < 2 ^ 32) (hu : buildTreeBody s = .ok u) :
    u.treeOk ∧ u.huffman ∧ u.tables.heap.length = 1
      ∧ ∃ ns r hp, u = buildTreeResults { s.enterPhase .merge with
        tables := { s.tables with nodes := ns, root := r, heap := hp } } := by
  obtain ⟨t, ht, rfl⟩ := buildTreeBody_ok hu
  obtain ⟨m, hheap⟩ := heapLoad_merging (s := s.enterPhase .heapLoad) hfreq
  have hcount : s.countedSymbols.length ≤ 256 :=
    (List.length_filter_le _ _).trans ((List.length_range (n := s.limit)).trans_le (limit_le s.build))
  have hload : Merging (s.countedSymbols.map s.leafOf) (s.tables.freq.map (·.toNat)).sum
      ((heapLoad (s.enterPhase .heapLoad)).enterPhase .merge) :=
    ⟨⟨m.joined, m.ordered⟩, m.leaves_first, m.size, m.merged, m.sum⟩
  replace hheap : (heapLoad (s.enterPhase .heapLoad)).tables.heap.length = s.countedSymbols.length := hheap
  obtain ⟨m', hone⟩ := mergeLoop_merging hload (by rwa [List.length_map]) htotal
    (by rwa [State.enterPhase_tables, hheap]) (by rw [State.enterPhase_tables]; omega) ht
  have hphase := congrArg (fun v => v.enterPhase .merge) (heapLoad_sansTree (s.enterPhase .heapLoad))
  obtain ⟨ns, r, hp, rfl⟩ := exists_of_sansTree (s := s.enterPhase .merge) ((mergeLoop_sansTree ht).trans hphase)
  obtain ⟨htree, hhuffman⟩ := treeOk_of_merging (t := { s.enterPhase .merge with
    tables := { s.tables with nodes := ns, root := r, heap := hp } }) m' hpos hone
  exact ⟨htree, hhuffman, hone, ns, _, hp, rfl⟩

/-! ### The shape of a tree -/

/-- A tree of at most NMAX symbols has the shape a walk needs. -/
theorem treeShape_of_treeOk {s : State} (ht : s.treeOk) (hmax : s.countedSymbols.length ≤ s.build.nMax) :
    s.tables.treeShape s.build := by
  obtain ⟨hpos, hlen, hfirst, hmerged, hroot, -, -⟩ := ht
  refine ⟨s.countedSymbols.length, by omega, by omega, by omega, fun q hq => ?_⟩
  have hget := List.mem_zipIdx_iff_getElem?.1 hq
  rcases Nat.lt_or_ge q.2 s.countedSymbols.length with hlt | hge
  · rw [← List.getElem?_take_of_lt hlt, hfirst, List.getElem?_map] at hget
    obtain ⟨i, -, hi⟩ := Option.map_eq_some_iff.1 hget
    rw [← hi]
    simpa [shapedNode] using hlt
  · have hi := (List.getElem?_eq_some_iff.1 hget).1
    obtain ⟨f, l, r, hnode, hl, hr, -⟩ := (mergedNode_iff hi.le).1 (hmerged q hq hge)
    rw [hnode]
    simp [shapedNode, hge, hl, hr]

end Sys2Proof.Machine
end

section
/-! PROOFS. Every step keeps `State.Inv` (10_state.md R25, R42 to R47; 40_frequency_counter.md R114; 47_control.md R268).
What `State.Inv` says besides BUSY, DONE and ERR and of the running command is `DataInv`; the pseudocode of each command
keeps it when the command's prerequisite holds. -/

namespace Sys2Proof.Machine

open Sys2Proof.Config (Params)

/-! ### The parts of the invariant -/

/-- The clauses of `State.Inv` on the build, the valid flags, the tables and memory. -/
structure DataInv (s : State) : Prop where
  build : s.build.wellFormed = true
  coherent : s.status.coherent
  sized : s.tables.sized s.build
  mem : s.memOk
  counted : s.status.freqValid = true → s.counted
  tree : s.status.treeValid = true → s.tables.treeShape s.build

theorem inv_iff {s : State} : s.Inv ↔ s.status.exclusive ∧ s.runningOk ∧ DataInv s :=
  ⟨fun h => ⟨h.exclusive, h.running, h.build, h.coherent, h.sized, h.mem, h.counted, h.tree⟩,
    fun ⟨he, hr, h⟩ => ⟨h.build, he, h.coherent, hr, h.sized, h.mem, h.counted, h.tree⟩⟩

/-- Without valid flags only the build, the sizes and memory matter. -/
theorem DataInv.of_noFlags {s : State} (hp : s.build.wellFormed = true) (hsized : s.tables.sized s.build)
    (hmem : s.memOk) (hflags : s.status.flags = (false, false, false, false)) : DataInv s := by
  simp only [Prod.mk.injEq] at hflags
  obtain ⟨hf, ht, hc, hh⟩ := hflags
  exact ⟨hp, by simp [Status.coherent, ht, hc, hh], hsized, hmem, by simp [hf], by simp [ht]⟩

/-! ### Memory and input -/

/-- Forgetting OUT_MEM keeps the form of memory. -/
theorem forgetOut_memOk {s : State} (h : s.memOk) (n e : Nat) : (s.forgetOut n e).memOk :=
  ⟨State.forgetOut_mem_wf h.1 n e, fun c hc => h.2 c (Memory.mem_of_mem_forget hc)⟩

/-- A host store to IN_MEM keeps the form of memory. -/
theorem inWrite_memOk {s : State} (h : s.memOk) {a : Nat} (ha : a < s.build.inMax) (v : Byte) :
    (s.inWrite a v).memOk := by
  refine ⟨State.inWrite_mem_wf h.1 a v, fun c hc => ?_⟩
  rcases Memory.mem_set hc with rfl | hc
  · exact .inl ⟨Nat.le_add_right _ _, Nat.add_lt_add_left ha _⟩
  · exact h.2 c hc

/-- The input depends on IN_MEM and IN_LEN alone. -/
theorem input_congr {s u : State} (hin : ∀ a < 2 ^ 28, u.inByte a = s.inByte a) (hlen : u.regs.inLen = s.regs.inLen)
    (hle : s.regs.inLen.toNat ≤ 2 ^ 28) : u.input = s.input := by
  unfold State.input
  rw [hlen]
  exact List.map_congr_left fun a ha => hin a (Nat.lt_of_lt_of_le (List.mem_range.1 ha) hle)

theorem inLen_le {s : State} (hp : s.build.wellFormed = true) (h : s.lenOk) : s.regs.inLen.toNat ≤ 2 ^ 28 :=
  h.2.trans (wellFormed_bounds hp).2.1

/-- The counts stay current when the input and FREQ, UNIQUE and TOTAL stay. -/
theorem counted_congr {s u : State} (h : s.counted) (hinput : u.input = s.input) (hbuild : u.build = s.build)
    (hfreq : u.tables.freq = s.tables.freq) (hlen : u.regs.inLen = s.regs.inLen)
    (hunique : u.regs.unique = s.regs.unique) (htotal : u.regs.total = s.regs.total) : u.counted := by
  obtain ⟨hlenOk, hsym, hcount, hu, ht⟩ := h
  have hfreqAt (i : Nat) : u.freqAt i = s.freqAt i := by rw [State.freqAt, hfreq]; rfl
  have hlimit : u.limit = s.limit := congrArg Params.limit hbuild
  refine ⟨?_, ?_, fun i hi => ?_, ?_, ?_⟩
  · rwa [State.lenOk, hlen, hbuild]
  · rwa [hinput, hbuild]
  · rw [hfreqAt, hinput]
    exact hcount i (hlimit ▸ hi)
  · rw [hunique, hu, State.distinctCount, State.distinctCount, hfreq]
  · rw [htotal, hlen, ht]

/-! ### The stages -/

/-- What BUILD_TABLE and PARSE_HEADER leave alone, as an equation. -/
theorem exists_of_sansCodes {s u : State} (h : u.sansCodes = s.sansCodes) :
    ∃ cl cb o d, u = { s with tables := { s.tables with codeLen := cl, codeBits := cb, order := o }, dp := d }
      ∧ cl.length = s.tables.codeLen.length ∧ cb.length = s.tables.codeBits.length := by
  obtain ⟨build, regs, status, phase, curOp, mem, ⟨f, nodes, root, heap, codeLen, codeBits, order⟩, dp, stale, idx, env⟩
    := u
  simp only [State.sansCodes, State.mk.injEq, Tables.mk.injEq, List.replicate_inj, or_true, and_true] at h
  refine ⟨codeLen, codeBits, order, dp, ?_, ?_, ?_⟩
  all_goals simp [h]

/-- What the emitters leave alone, as an equation. -/
theorem exists_of_sansOutput {s u : State} (h : u.sansOutput = s.sansOutput) :
    ∃ m d, u = { s with mem := m, dp := d } := by
  obtain ⟨build, regs, status, phase, curOp, mem, tables, dp, stale, idx, env⟩ := u
  refine ⟨mem, dp, ?_⟩
  simp only [State.sansOutput, State.mk.injEq] at h ⊢
  simpa using h

section

variable {s u : State} (h : DataInv s)

include h

theorem countBody_dataInv (hu : countBody s = .ok u) : DataInv u := by
  obtain ⟨hcounted, hlen, f, rfl⟩ := countBody_counted h.build hu
  obtain ⟨-, hcl, hcb, hn, hh⟩ := h.sized
  exact ⟨h.build, by simp [Status.coherent], ⟨hlen, hcl, hcb, hn, hh⟩, h.mem, fun _ => hcounted, by simp⟩

theorem sum_freq_lt (hf : s.status.freqValid = true) : (s.tables.freq.map (·.toNat)).sum < 2 ^ 32 := by
  rw [sum_freq_eq_inLen (h.counted hf) h.sized.1]
  exact BitVec.isLt _

theorem buildTreeBody_ok_of_counted (hf : s.status.freqValid = true) (hu : buildTreeBody s = .ok u) :
    u.treeOk ∧ u.huffman ∧ u.tables.heap.length = 1
      ∧ ∃ ns r hp, u = buildTreeResults { s.enterPhase .merge with
        tables := { s.tables with nodes := ns, root := r, heap := hp } } :=
  buildTreeBody_tree h.sized.1 (countedSymbols_ne_nil (h.counted hf)) (sum_freq_lt h hf) hu

theorem buildTreeBody_dataInv (hf : s.status.freqValid = true) (hu : buildTreeBody s = .ok u) : DataInv u := by
  obtain ⟨htree, -, hheap, ns, r, hp, rfl⟩ := buildTreeBody_ok_of_counted h hf hu
  obtain ⟨hfl, hcl, hcb, -, -⟩ := h.sized
  have hmax := countedSymbols_length_le (h.counted hf)
  have hlimit := limit_cases s.build
  refine ⟨h.build, by simp [Status.coherent, hf], ⟨hfl, hcl, hcb, ?_, ?_⟩, h.mem, fun _ => h.counted hf,
    fun _ => treeShape_of_treeOk htree hmax⟩
  · rw [htree.2.1]
    show 2 * s.countedSymbols.length - 1 ≤ 2 * s.build.limit - 1
    have : s.build.nMax = s.build.limit - 1 := rfl
    omega
  · rw [hheap]
    show 1 ≤ s.build.limit
    omega

theorem buildTableBody_dataInv (ht : s.status.treeValid = true) (hu : buildTableBody s = .ok u) : DataInv u := by
  obtain ⟨t, htable, rfl⟩ := buildTableBody_ok hu
  obtain ⟨cl, cb, o, d, rfl, hcl, hcb⟩ := exists_of_sansCodes (walkTree_sansCodes htable)
  obtain ⟨hfl, -, -, hn, hh⟩ := h.sized
  obtain ⟨hhdr, htab, htf⟩ := h.coherent
  have hnohdr : s.status.hdrValid = false := by
    cases hb : s.status.hdrValid with
    | false => rfl
    | true => exact hb.symm.trans (htab (hhdr hb) (htf ht)).2
  exact ⟨h.build, ⟨fun _ => rfl, fun _ _ => ⟨ht, hnohdr⟩, htf⟩,
    ⟨hfl, hcl.trans List.length_replicate, hcb.trans List.length_replicate, hn, hh⟩, h.mem, h.counted, h.tree⟩

theorem parseHeaderBody_dataInv (hu : parseHeaderBody s = .ok u) : DataInv u := by
  obtain ⟨-, v, n, m, v', hv, hcounts, -, rfl⟩ := parseHeaderBody_ok hu
  obtain ⟨-, -, -, rfl⟩ := parseCounts_ok hcounts
  obtain ⟨cl, cb, o, d, rfl, hcl, hcb⟩ := exists_of_sansCodes (parseEntries_sansCodes hv)
  obtain ⟨hfl, -, -, hn, hh⟩ := h.sized
  exact ⟨h.build, by simp [Status.coherent], ⟨hfl, hcl.trans List.length_replicate, hcb.trans List.length_replicate, hn, hh⟩, h.mem,
    by simp, by simp⟩

/-- Output and datapath registers apart, nothing changes. -/
theorem emits_dataInv (he : Emits s u) : DataInv u := by
  obtain ⟨m, d, rfl⟩ := exists_of_sansOutput he.outside
  refine ⟨h.build, h.coherent, h.sized, he.memOk h.mem, fun hf => ?_, h.tree⟩
  have hc := h.counted hf
  exact counted_congr hc (input_congr he.inByte rfl (inLen_le h.build hc.1)) rfl rfl rfl rfl rfl

theorem serializeBody_dataInv (hu : serializeBody s = .ok u) : DataInv u := by
  obtain ⟨t, v, ht, hv, rfl⟩ := serializeBody_ok hu
  have h₀ : DataInv (s.enterPhase .emitHeader) := ⟨h.build, h.coherent, h.sized, h.mem, h.counted, h.tree⟩
  have h₁ := emits_dataInv h₀ ht
  have h₂ : DataInv (t.enterPhase .emitPayload) := ⟨h₁.build, h₁.coherent, h₁.sized, h₁.mem, h₁.counted, h₁.tree⟩
  have h₃ := emits_dataInv h₂ hv
  exact ⟨h₃.build, h₃.coherent, h₃.sized, h₃.mem, h₃.counted, h₃.tree⟩

theorem decodePayloadBody_dataInv (hu : decodePayloadBody s = .ok u) : DataInv u := by
  obtain ⟨t, ht, rfl⟩ := decodePayloadBody_ok hu
  have h₀ : DataInv (s.enterPhase .decode) := ⟨h.build, h.coherent, h.sized, h.mem, h.counted, h.tree⟩
  have h₁ := emits_dataInv h₀ ht
  exact ⟨h₁.build, h₁.coherent, h₁.sized, h₁.mem, h₁.counted, h₁.tree⟩

end

end Sys2Proof.Machine
end

section
/-! PROOFS. Every kind of event keeps `State.Inv`, so every step does; the reset state satisfies it. -/

namespace Sys2Proof.Machine

open Sys2Proof.Config (Params)

/-! ### Completion -/

/-- What the prerequisites of BUILD_TREE, BUILD_TABLE and DECODE_PAYLOAD ask of the valid flags (47_control.md R264). -/
theorem prereq_eq_zero {op : BitVec 4} {t : Status} (h : prereq op t = 0) :
    (op = 0x4 → t.freqValid = true) ∧ (op = 0x5 → t.treeValid = true)
      ∧ (op = 0x8 → t.hdrValid = true) := by
  refine ⟨?_, ?_, ?_⟩
  all_goals
    rintro rfl
    simpa [prereq] using h

/-- A property of the data that each stage keeps when its prerequisite holds. -/
structure KeptByStages (D : State → Prop) : Prop where
  count : ∀ {s u : State}, D s → countBody s = .ok u → D u
  buildTree : ∀ {s u : State}, D s → s.status.freqValid = true → buildTreeBody s = .ok u → D u
  buildTable : ∀ {s u : State}, D s → s.status.treeValid = true → buildTableBody s = .ok u → D u
  serialize : ∀ {s u : State}, D s → serializeBody s = .ok u → D u
  parseHeader : ∀ {s u : State}, D s → parseHeaderBody s = .ok u → D u
  decodePayload : ∀ {s u : State}, D s → s.status.hdrValid = true → decodePayloadBody s = .ok u → D u

/-- COUNT sets FREQ_VALID, BUILD_TREE sets TREE_VALID, and PARSE_HEADER sets HDR_VALID (R268). -/
theorem countBody_freqValid {s u : State} (hu : countBody s = .ok u) : u.status.freqValid = true := by
  obtain ⟨-, t, -, rfl⟩ := countBody_ok hu
  rfl

theorem buildTreeBody_treeValid {s u : State} (hu : buildTreeBody s = .ok u) : u.status.treeValid = true := by
  obtain ⟨t, -, rfl⟩ := buildTreeBody_ok hu
  rfl

theorem parseHeaderBody_hdrValid {s u : State} (hu : parseHeaderBody s = .ok u) : u.status.hdrValid = true := by
  obtain ⟨-, v, n, m, v', -, -, -, rfl⟩ := parseHeaderBody_ok hu
  rfl

/-- What every stage keeps, the pseudocode of every busy command keeps; the stages of a composite find their
prerequisites set by the stages before. -/
theorem KeptByStages.body {D : State → Prop} (K : KeptByStages D) {op : BitVec 4} {body : State → Run} {s u : State}
    (hbody : bodyOf op = some body) (hpre : prereq op s.status = 0) (hs : D s) (hu : body s = .ok u) : D u := by
  obtain ⟨hfreq, htree, hhdr⟩ := prereq_eq_zero hpre
  unfold bodyOf at hbody
  split at hbody
  all_goals cases hbody
  case h_1 =>
    obtain ⟨s₁, h₁, hu⟩ := bind_ok hu
    obtain ⟨s₂, h₂, hu⟩ := bind_ok hu
    obtain ⟨s₃, h₃, hu⟩ := bind_ok hu
    have d₂ := K.buildTree (K.count hs h₁) (countBody_freqValid h₁) h₂
    exact K.serialize (K.buildTable d₂ (buildTreeBody_treeValid h₂) h₃) hu
  case h_2 =>
    obtain ⟨s₁, h₁, hu⟩ := bind_ok hu
    exact K.decodePayload (K.parseHeader hs h₁) (parseHeaderBody_hdrValid h₁) hu
  case h_3 => exact K.count hs hu
  case h_4 hop => exact K.buildTree hs (hfreq (BitVec.eq_of_toNat_eq hop)) hu
  case h_5 hop => exact K.buildTable hs (htree (BitVec.eq_of_toNat_eq hop)) hu
  case h_6 => exact K.serialize hs hu
  case h_7 => exact K.parseHeader hs hu
  case h_8 hop => exact K.decodePayload hs (hhdr (BitVec.eq_of_toNat_eq hop)) hu

theorem dataInv_keptByStages : KeptByStages DataInv where
  count h hu := countBody_dataInv h hu
  buildTree h hf hu := buildTreeBody_dataInv h hf hu
  buildTable h ht hu := buildTableBody_dataInv h ht hu
  serialize h hu := serializeBody_dataInv h hu
  parseHeader h hu := parseHeaderBody_dataInv h hu
  decodePayload h _ hu := decodePayloadBody_dataInv h hu

/-! ### Error and reset -/

theorem resetTables_sized (p : Params) (e : Nat) : (resetTables p e).sized p := by simp [Tables.sized, resetTables]

/-- The tables left unspecified by an error have their sizes (60_exceptions.md R284). -/
theorem freeTables_sized (p : Params) (e : Nat) : (freeTables p e).sized p := by
  simp [Tables.sized, freeTables, resetTables]

theorem errorCommit_dataInv {s : State} (h : DataInv s) (r : Raised) : DataInv (errorCommit r s) :=
  .of_noFlags h.build (freeTables_sized s.build s.freeIdx) (forgetOut_memOk h.mem s.cap s.freeIdx) rfl

theorem resetAction_dataInv {s : State} (h : DataInv s) : DataInv (resetAction s) :=
  .of_noFlags h.build (resetTables_sized s.build s.freeIdx) (forgetOut_memOk h.mem s.build.outMax s.freeIdx) rfl

/-! ### Host writes -/

theorem idleWrite_dataInv {s : State} (h : DataInv s) (size : Nat) (addr v : Word) :
    DataInv (s.idleWrite (target s.build size addr) v) := by
  cases ht : target s.build size addr with
  | register r =>
    by_cases hr : (Target.register r).ignoresWrites = true
    · rwa [idleWrite_of_ignoresWrites hr]
    · cases r with
      | cmd => exact h
      | status => exact ⟨h.build, h.coherent, h.sized, h.mem, h.counted, h.tree⟩
      | inLen => exact .of_noFlags h.build h.sized h.mem rfl
      | outCap => exact ⟨h.build, h.coherent, h.sized, h.mem, h.counted, h.tree⟩
      | intEn => exact ⟨h.build, h.coherent, h.sized, h.mem, h.counted, h.tree⟩
      | _ => exact absurd rfl hr
  | inByte a => exact .of_noFlags h.build h.sized (inWrite_memOk h.mem (target_eq_inByte ht).2 _) rfl
  | _ => exact h

/-! ### The running command -/

/-- A write other than to CMD leaves the phase and CUR_OP as they are. -/
theorem idleWrite_phase (s : State) (t : Target) (v : Word) :
    (s.idleWrite t v).phase = s.phase ∧ (s.idleWrite t v).curOp = s.curOp := by
  by_cases ht : t.ignoresWrites = true
  · rw [idleWrite_of_ignoresWrites ht]
    exact ⟨rfl, rfl⟩
  · cases t with
    | register r => cases r with
      | _ => exact ⟨rfl, rfl⟩
    | _ => exact ⟨rfl, rfl⟩

/-- An idle block in phase IDLE with CUR_OP 0. -/
theorem runningOk_of_idle {s : State} (hidle : s.idle) (hphase : s.phase = .idle) (hop : s.curOp = 0) : s.runningOk :=
  ⟨fun hb => absurd (hidle.symm.trans hb) (by decide), fun _ => ⟨hphase, hop⟩⟩

/-- The first phase of a busy command is one of its phases (47_control.md R262). -/
theorem headD_phasesOf_mem {op : BitVec 4} (h : (bodyOf op).isSome = true) :
    (phasesOf op).headD .idle ∈ phasesOf op := by
  unfold bodyOf at h
  split at h
  case h_9 => cases h
  all_goals
    rename_i hop
    rw [phasesOf, hop]
    decide

/-- Every kind of event keeps the invariant. -/
theorem inv_keptByEvents : KeptByEvents State.Inv where
  env _ _ _ h := ⟨h.build, h.exclusive, h.coherent, h.running, h.sized, h.mem, h.counted, h.tree⟩
  write s size addr v h hidle := by
    obtain ⟨he, hr, hd⟩ := inv_iff.1 h
    obtain ⟨hphase, hop⟩ := idleWrite_phase s (target s.build size addr) v
    obtain ⟨hphase₀, hop₀⟩ := hr.2 hidle
    refine inv_iff.2 ⟨exclusive_keptByEvents.write s size addr v he hidle, ?_, idleWrite_dataInv hd size addr v⟩
    exact runningOk_of_idle ((idleWrite_status s _ v).1.trans hidle) (hphase.trans hphase₀) (hop.trans hop₀)
  nop s h hidle := inv_iff.2 ⟨exclusive_keptByEvents.nop s h.exclusive hidle, h.running,
    h.build, h.coherent, h.sized, h.mem, h.counted, h.tree⟩
  immediate s op kind sub h hidle := inv_iff.2 ⟨exclusive_keptByEvents.immediate s op kind sub h.exclusive hidle,
    h.running, h.build, h.coherent, h.sized, h.mem, h.counted, h.tree⟩
  accept s op h hidle hbody hpre := inv_iff.2 ⟨exclusive_keptByEvents.accept s op h.exclusive hidle hbody hpre,
    ⟨fun _ => ⟨hbody, hpre, headD_phasesOf_mem hbody⟩, fun hb => absurd hb (by simp)⟩,
    h.build, h.coherent, h.sized, h.mem, h.counted, h.tree⟩
  reset s h := inv_iff.2 ⟨exclusive_keptByEvents.reset s h.exclusive, runningOk_of_idle rfl rfl rfl,
    resetAction_dataInv (inv_iff.1 h).2.2⟩
  complete s t body h hbusy hbody ht := by
    obtain ⟨he, hr, hd⟩ := inv_iff.1 h
    have hexcl := exclusive_keptByEvents.complete s t body he hbusy hbody ht
    rcases finish_cases ht with ⟨u, hu, rfl⟩ | ⟨r, -, rfl⟩
    · have hd' := dataInv_keptByStages.body hbody (hr.1 hbusy).2.1 hd hu
      exact inv_iff.2 ⟨hexcl, runningOk_of_idle rfl rfl rfl,
        hd'.build, hd'.coherent, hd'.sized, hd'.mem, hd'.counted, hd'.tree⟩
    · exact inv_iff.2 ⟨hexcl, runningOk_of_idle rfl rfl rfl, errorCommit_dataInv hd r⟩

/-- Settles O58: the invariant is kept by every kind of event; by a completion because COUNT counts the input and
BUILD_TREE, from counts that are current, builds a tree of the shape a walk needs. -/
theorem stepKeepsInv : Obligations.StepKeepsInv := fun _ _ hs h => inv_keptByEvents.step hs h

/-! ### Reset -/

/-- Without valid flags there are no results to be current. -/
theorem current_of_noFlags {s : State} (hflags : s.status.flags = (false, false, false, false)) : s.Current := by
  simp only [Prod.mk.injEq] at hflags
  obtain ⟨-, ht, hc, hh⟩ := hflags
  exact ⟨by simp [ht], by simp [hc], by simp [hc], by simp [hh]⟩

theorem resetOf_inv {p : Params} (hp : p.wellFormed = true) : (State.resetOf p).Inv :=
  inv_iff.2 ⟨by simp [Status.exclusive, State.resetOf, Status.reset], runningOk_of_idle rfl rfl rfl,
    .of_noFlags hp (by simp [Tables.sized, State.resetOf, Tables.powerUp]) ⟨List.Pairwise.nil, by simp [State.resetOf]⟩ rfl⟩

/-- Settles O57: no valid flag is set, the tables have their sizes, and memory lists nothing. -/
theorem resetSatisfiesInv : Obligations.ResetSatisfiesInv :=
  ⟨resetOf_inv (by decide), current_of_noFlags rfl, fun _ hp => ⟨resetOf_inv hp, current_of_noFlags rfl⟩⟩

end Sys2Proof.Machine
end

section
/-! PROOFS. A code table filled entry by entry: what it binds, and that entries which the parser can read one by one leave
a table as `State.codesOk` describes it (43_code_table.md R173 to R175, 45_parser.md R212 to R215). -/

namespace Sys2Proof.Machine

open Sys2Proof.Config (Params)

/-! ### Binding a list of entries -/

/-- `s` after BindCode of each entry in turn. -/
def State.bindCodes (s : State) (entries : List (Byte × List Bool)) : State :=
  entries.foldl (fun u e => u.bindCode e.1 e.2) s

/-- `s` with other datapath registers. -/
def State.withDp (d : Datapath) (s : State) : State := { s with dp := d }

section

variable (s : State) (d : Datapath)

@[simp] theorem withDp_dp : (s.withDp d).dp = d := rfl
@[simp] theorem withDp_tables : (s.withDp d).tables = s.tables := rfl
@[simp] theorem withDp_withDp (d' : Datapath) : (s.withDp d).withDp d' = s.withDp d' := rfl
@[simp] theorem withDp_bindCode (sym : Byte) (c : List Bool) :
    (s.withDp d).bindCode sym c = (s.bindCode sym c).withDp d := rfl

@[simp] theorem bindCodes_nil : s.bindCodes [] = s := rfl

theorem bindCodes_cons (e : Byte × List Bool) (l : List (Byte × List Bool)) :
    s.bindCodes (e :: l) = (s.bindCode e.1 e.2).bindCodes l := rfl

theorem bindCodes_append (l l' : List (Byte × List Bool)) : s.bindCodes (l ++ l') = (s.bindCodes l).bindCodes l' :=
  List.foldl_append

@[simp] theorem withDp_bindCodes (l : List (Byte × List Bool)) :
    (s.withDp d).bindCodes l = (s.bindCodes l).withDp d := by
  induction l generalizing s with
  | nil => rfl
  | cons e l ih => exact ih (s.bindCode e.1 e.2)

theorem bindCodes_sansCodes (l : List (Byte × List Bool)) : (s.bindCodes l).sansCodes = s.sansCodes :=
  foldl_keeps (f := fun u e => u.bindCode e.1 e.2) (fun s e => bindCode_sansCodes s e.1 e.2) l s

@[simp] theorem bindCodes_nodes (l : List (Byte × List Bool)) : (s.bindCodes l).tables.nodes = s.tables.nodes :=
  congrArg (fun u => u.tables.nodes) (bindCodes_sansCodes s l)

@[simp] theorem bindCodes_regs (l : List (Byte × List Bool)) : (s.bindCodes l).regs = s.regs :=
  congrArg (fun u => u.regs) (bindCodes_sansCodes s l)

@[simp] theorem bindCodes_build (l : List (Byte × List Bool)) : (s.bindCodes l).build = s.build :=
  congrArg (fun u => u.build) (bindCodes_sansCodes s l)

@[simp] theorem bindCodes_mem (l : List (Byte × List Bool)) : (s.bindCodes l).mem = s.mem :=
  congrArg (fun u => u.mem) (bindCodes_sansCodes s l)

@[simp] theorem bindCodes_inByte (l : List (Byte × List Bool)) (a : Nat) : (s.bindCodes l).inByte a = s.inByte a := by
  rw [State.inByte, bindCodes_mem]
  rfl

theorem bindCodes_order (l : List (Byte × List Bool)) :
    (s.bindCodes l).tables.order = s.tables.order ++ l.map Prod.fst := by
  induction l generalizing s with
  | nil => simp
  | cons e l ih => rw [bindCodes_cons, ih]; simp

end

/-- CODE_LEN and CODE_BITS have an entry for each symbol. -/
def State.codeSized (s : State) : Prop :=
  s.tables.codeLen.length = s.limit ∧ s.tables.codeBits.length = s.limit

theorem bindCode_codeSized {s : State} (h : s.codeSized) (sym : Byte) (c : List Bool) :
    (s.bindCode sym c).codeSized := by
  simpa [State.codeSized] using h

/-- Codes of legal length fit the tables (00_scope.md R10). -/
theorem maxCodeLen_le (p : Params) : p.maxCodeLen ≤ 254 := by
  have h := limit_le p
  unfold Params.maxCodeLen
  omega

/-- Symbols that are not in the list keep what they had. -/
theorem bindCodes_other {l : List (Byte × List Bool)} {s : State} {i : Nat} (h : ∀ e ∈ l, i ≠ e.1.toNat) :
    (s.bindCodes l).codeLenAt i = s.codeLenAt i ∧ (s.bindCodes l).codeOf i = s.codeOf i := by
  induction l generalizing s with
  | nil => exact ⟨rfl, rfl⟩
  | cons e l ih =>
    obtain ⟨he, hl⟩ := List.forall_mem_cons.1 h
    obtain ⟨h₁, h₂⟩ := ih hl (s := s.bindCode e.1 e.2)
    obtain ⟨h₃, h₄⟩ := bindCode_codeOf_other s (c := e.2) he
    exact ⟨h₁.trans h₃, h₂.trans h₄⟩

/-- Each symbol of a list without repetition is bound to its code. -/
theorem bindCodes_same {l : List (Byte × List Bool)} {s : State} (hs : s.codeSized) (hsym : ∀ e ∈ l, e.1.toNat < s.limit)
    (hnodup : (l.map Prod.fst).Nodup) (hlen : ∀ e ∈ l, e.2.length ≤ 255) :
    ∀ e ∈ l, (s.bindCodes l).codeLenAt e.1.toNat = e.2.length ∧ (s.bindCodes l).codeOf e.1.toNat = e.2 := by
  induction l generalizing s with
  | nil => simp
  | cons e l ih =>
    obtain ⟨hsym₀, hsym⟩ := List.forall_mem_cons.1 hsym
    obtain ⟨hlen₀, hlen⟩ := List.forall_mem_cons.1 hlen
    obtain ⟨hnew, hnodup⟩ := List.nodup_cons.1 hnodup
    refine List.forall_mem_cons.2 ⟨?_, ih (bindCode_codeSized hs _ _) hsym hnodup hlen⟩
    have hother : ∀ x ∈ l, e.1.toNat ≠ x.1.toNat := fun x hx h =>
      hnew (List.mem_map.2 ⟨x, hx, (BitVec.eq_of_toNat_eq h).symm⟩)
    obtain ⟨h₁, h₂⟩ := bindCodes_other hother (s := s.bindCode e.1 e.2)
    obtain ⟨h₃, h₄⟩ := bindCode_codeOf_same s (hs.1 ▸ hsym₀) (hs.2 ▸ hsym₀) hlen₀
    exact ⟨h₁.trans h₃, h₂.trans h₄⟩

/-! ### The greatest length -/

/-- MAXLEN holds the greatest CODE_LEN, which is a byte (43_code_table.md R174). -/
theorem toNat_greatestLen (s : State) : (BitVec.ofNat 8 s.greatestLen).toNat = s.greatestLen := by
  have hmax (l : List (BitVec 8)) (m : Nat) (hm : m ≤ 255) : l.foldl (fun m x => max m x.toNat) m ≤ 255 := by
    induction l generalizing m with
    | nil => exact hm
    | cons x l ih =>
      exact ih _ (max_le hm (Nat.lt_succ_iff.1 x.isLt))
  exact toNat_ofNat8 (Nat.lt_succ_of_le (hmax s.tables.codeLen 0 (by omega)))

/-! ### A table filled from empty -/

theorem clearCodes_codeSized (s : State) : s.clearCodes.codeSized := by simp [State.codeSized]

theorem clearCodes_codeLenAt (s : State) (i : Nat) : s.clearCodes.codeLenAt i = 0 := by
  simp only [State.codeLenAt, State.clearCodes_tables_codeLen, List.getD_eq_getElem?_getD, List.getElem?_replicate]
  split <;> rfl

section

variable {s : State} {l : List (Byte × List Bool)} (hread : Params.readableEntries s.build l)

include hread

/-- What a cleared table binds after the entries: exactly their codes, to exactly their symbols. -/
theorem bindCodes_clear_same {e : Byte × List Bool} (he : e ∈ l) :
    (s.clearCodes.bindCodes l).codeLenAt e.1.toNat = e.2.length ∧ (s.clearCodes.bindCodes l).codeOf e.1.toNat = e.2 := by
  obtain ⟨hsym, hnodup, hlen⟩ := hread
  refine bindCodes_same (clearCodes_codeSized s) (fun e he => (hsym e he).1) hnodup (fun e he => ?_) e he
  have := maxCodeLen_le s.build
  exact (hlen e he).2.trans (by omega)

theorem bindCodes_clear_codeLenAt_ne_zero {i : Nat} (hi : i < s.limit) :
    (s.clearCodes.bindCodes l).codeLenAt i ≠ 0 ↔ BitVec.ofNat 8 i ∈ l.map Prod.fst := by
  have hi' : i < 256 := Nat.lt_of_lt_of_le hi (limit_le s.build)
  constructor
  · intro hne
    by_contra hnot
    refine hne ((bindCodes_other fun e he h => hnot ?_).1.trans (clearCodes_codeLenAt s i))
    exact List.mem_map.2 ⟨e, he, (byte_eq_ofNat_iff hi').2 h.symm⟩
  · intro hmem
    obtain ⟨e, he, hei⟩ := List.mem_map.1 hmem
    have hlen := (bindCodes_clear_same hread he).1
    rw [hei, toNat_ofNat8 hi'] at hlen
    rw [hlen]
    exact Nat.one_le_iff_ne_zero.1 (hread.2.2 e he).1

theorem bindCodes_clear_entries : (s.clearCodes.bindCodes l).entries = l := by
  unfold State.entries
  rw [bindCodes_order, State.clearCodes_tables_order, List.nil_append, List.map_map]
  refine (List.map_congr_left fun e he => ?_).trans (List.map_id l)
  exact Prod.ext rfl (bindCodes_clear_same hread he).2

/-- Bound symbols are those of entries. -/
theorem exists_entry_of_bound {i : Nat} (hi : i ∈ (s.clearCodes.bindCodes l).boundSymbols) :
    ∃ e ∈ l, e.1.toNat = i ∧ (s.clearCodes.bindCodes l).codeOf i = e.2 := by
  have hlimit : (s.clearCodes.bindCodes l).limit = s.limit :=
    congrArg (fun u => u.limit) (bindCodes_sansCodes s.clearCodes l)
  simp only [State.boundSymbols, List.mem_filter, List.mem_range, decide_eq_true_eq, hlimit] at hi
  obtain ⟨e, he, hei⟩ := List.mem_map.1 ((bindCodes_clear_codeLenAt_ne_zero hread hi.1).1 hi.2)
  have hi' : e.1.toNat = i := by rw [hei, toNat_ofNat8 (Nat.lt_of_lt_of_le hi.1 (limit_le s.build))]
  exact ⟨e, he, hi', hi' ▸ (bindCodes_clear_same hread he).2⟩

/-- Entries that do not clash leave a table in which no code begins another (43_code_table.md R175). -/
theorem bindCodes_clear_prefixFree (hclash : clashFree l) : (s.clearCodes.bindCodes l).prefixFree := by
  intro i hi j hj hij
  obtain ⟨x, hx, hxi, hci⟩ := exists_entry_of_bound hread hi
  obtain ⟨y, hy, hyj, hcj⟩ := exists_entry_of_bound hread hj
  have hxy : x ≠ y := by
    rintro rfl
    exact hij (hxi.symm.trans hyj)
  rw [hci, hcj]
  have hpair := List.pairwise_iff_getElem.1 hclash
  obtain ⟨m, hm, rfl⟩ := List.getElem_of_mem hx
  obtain ⟨n, hn, rfl⟩ := List.getElem_of_mem hy
  rcases Nat.lt_trichotomy m n with hlt | rfl | hlt
  · exact (hpair m n hm hn hlt).1
  · exact absurd rfl hxy
  · exact (hpair n m hn hm hlt).2

/-- The code table as `State.codesOk` describes it, in any state with the tables and the build of a cleared table after the
entries, and MAXLEN the greatest length. -/
theorem codesOk_of_entries {u : State} (hne : l ≠ []) (htables : u.tables = (s.clearCodes.bindCodes l).tables)
    (hbuild : u.build = s.build) (hmax : u.regs.maxLen = BitVec.ofNat 8 u.greatestLen) (hfree : u.prefixFree) :
    u.codesOk := by
  have hlimit : u.limit = s.limit := congrArg Params.limit hbuild
  have horder : u.tables.order = l.map Prod.fst := by
    rw [htables, bindCodes_order, State.clearCodes_tables_order, List.nil_append]
  have hlen (i : Nat) : u.codeLenAt i = (s.clearCodes.bindCodes l).codeLenAt i := by
    unfold State.codeLenAt
    rw [htables]
  refine ⟨hfree, ?_, ?_, fun b hb => ?_, fun i hi => ?_, fun i hi => ?_, ?_⟩
  · rw [horder]
    simpa using hne
  · rw [horder]
    exact hread.2.1
  · rw [horder] at hb
    obtain ⟨e, he, rfl⟩ := List.mem_map.1 hb
    rw [hbuild]
    exact hread.1 e he
  · rw [hlen, horder]
    exact bindCodes_clear_codeLenAt_ne_zero hread (hlimit ▸ hi)
  · rw [hlen, hbuild]
    by_cases hmem : BitVec.ofNat 8 i ∈ l.map Prod.fst
    · obtain ⟨e, he, hei⟩ := List.mem_map.1 hmem
      have hsame := (bindCodes_clear_same hread he).1
      rw [hei, toNat_ofNat8 (Nat.lt_of_lt_of_le (hlimit ▸ hi : i < s.limit) (limit_le s.build))] at hsame
      rw [hsame]
      exact (hread.2.2 e he).2
    · rw [not_not.1 ((bindCodes_clear_codeLenAt_ne_zero hread (hlimit ▸ hi)).not.2 hmem)]
      exact Nat.zero_le _
  · rw [hmax, toNat_greatestLen]

end

end Sys2Proof.Machine
end

section
/-! PROOFS. Code trees: the tree that NODE holds under an index, the code of each of its leaves, and that BUILD_TABLE's walk
binds these codes from left to right (43_code_table.md R170 to R172). -/

namespace Sys2Proof.Machine

open Sys2Proof.Config (Params)

/-! ### Code trees -/

/-- A binary tree with a symbol at each leaf. -/
inductive CodeTree where
  | leaf (sym : Byte)
  | node (left right : CodeTree)

namespace CodeTree

/-- The symbols from left to right. -/
def leaves : CodeTree → List Byte
  | leaf sym => [sym]
  | node l r => l.leaves ++ r.leaves

/-- The length of the longest path. -/
def height : CodeTree → Nat
  | leaf _ => 0
  | node l r => max l.height r.height + 1

/-- Each leaf with its path behind `p`, 0 for left and 1 for right (R171). -/
def codes : CodeTree → List Bool → List (Byte × List Bool)
  | leaf sym, p => [(sym, p)]
  | node l r, p => l.codes (p ++ [false]) ++ r.codes (p ++ [true])

/-- What the walk of R170 binds: the paths, or the code "0" for a single leaf (R172). -/
def table : CodeTree → List (Byte × List Bool)
  | leaf sym => [(sym, [false])]
  | node l r => (node l r).codes []

theorem codes_fst (t : CodeTree) (p : List Bool) : (t.codes p).map Prod.fst = t.leaves := by
  induction t generalizing p with
  | leaf sym => rfl
  | node l r hl hr => rw [codes, List.map_append, hl, hr, leaves]

/-- A tree has more leaves than a path has steps. -/
theorem height_lt_leaves (t : CodeTree) : t.height < t.leaves.length := by
  induction t with
  | leaf sym => simp [height, leaves]
  | node l r hl hr =>
    rw [height, leaves, List.length_append]
    omega

/-- Every code goes on from `p`, by at most the height. -/
theorem codes_extend (t : CodeTree) (p : List Bool) : ∀ e ∈ t.codes p, p <+: e.2 ∧ e.2.length ≤ p.length + t.height := by
  induction t generalizing p with
  | leaf sym => simp [codes]
  | node l r hl hr =>
    intro e he
    rw [height]
    rcases List.mem_append.1 he with he | he
    · obtain ⟨hpre, hlen⟩ := hl _ e he
      rw [List.length_append, List.length_singleton] at hlen
      exact ⟨(List.prefix_append p _).trans hpre, by omega⟩
    · obtain ⟨hpre, hlen⟩ := hr _ e he
      rw [List.length_append, List.length_singleton] at hlen
      exact ⟨(List.prefix_append p _).trans hpre, by omega⟩

/-- Two strings that part behind `p` do not begin one another. -/
theorem not_isPrefix_of_part {p x y : List Bool} {a b : Bool} (hab : a ≠ b) (hx : p ++ [a] <+: x) (hy : p ++ [b] <+: y) :
    ¬ x <+: y := by
  intro h
  have heq := List.prefix_of_prefix_length_le (hx.trans h) hy (by simp)
  have := heq.eq_of_length (by simp)
  simp [hab] at this

/-- No code begins another (R175). -/
theorem codes_clashFree (t : CodeTree) (p : List Bool) : clashFree (t.codes p) := by
  induction t generalizing p with
  | leaf sym => exact List.pairwise_singleton _ _
  | node l r hl hr =>
    refine List.pairwise_append.2 ⟨hl _, hr _, fun x hx y hy => ?_⟩
    have hx' := (codes_extend l _ x hx).1
    have hy' := (codes_extend r _ y hy).1
    exact ⟨not_isPrefix_of_part (by decide) hx' hy', not_isPrefix_of_part (by decide) hy' hx'⟩

theorem table_fst (t : CodeTree) : t.table.map Prod.fst = t.leaves := by
  cases t with
  | leaf sym => rfl
  | node l r => exact codes_fst _ _

theorem table_ne_nil (t : CodeTree) : t.table ≠ [] := by
  intro h
  have hfst := t.table_fst
  have hpos := t.height_lt_leaves
  rw [h, List.map_nil] at hfst
  rw [← hfst] at hpos
  cases hpos

theorem table_clashFree (t : CodeTree) : clashFree t.table := by
  cases t with
  | leaf sym => exact List.pairwise_singleton _ _
  | node l r => exact codes_clashFree _ _

/-- Codes have at least one bit, and fewer than there are leaves unless there is one leaf only (R175). -/
theorem table_length (t : CodeTree) :
    ∀ e ∈ t.table, 1 ≤ e.2.length ∧ e.2.length ≤ max 1 (t.leaves.length - 1) := by
  cases t with
  | leaf sym => simp [table]
  | node l r =>
    intro e he
    have hheight := (node l r).height_lt_leaves
    have hlen := (codes_extend _ _ e he).2
    rw [List.length_nil] at hlen
    refine ⟨?_, by omega⟩
    rcases List.mem_append.1 he with he | he
    · exact (Nat.le_refl 1).trans (codes_extend l _ e he).1.length_le
    · exact (Nat.le_refl 1).trans (codes_extend r _ e he).1.length_le

end CodeTree

/-! ### The tree under a node -/

/-- NODE holds the tree `t` under index `k`. -/
inductive Represents (nodes : List Node) : Nat → CodeTree → Prop where
  | leaf {k : Nat} {f : Word} {sym : Byte} (h : nodes[k]? = some (.leaf f sym)) : Represents nodes k (.leaf sym)
  | node {k : Nat} {f : Word} {l r : BitVec 9} {left right : CodeTree} (h : nodes[k]? = some (.internal f l r))
      (hl : Represents nodes l.toNat left) (hr : Represents nodes r.toNat right) : Represents nodes k (.node left right)

/-- Only one tree. -/
theorem Represents.unique {nodes : List Node} {k : Nat} {t t' : CodeTree} (h : Represents nodes k t)
    (h' : Represents nodes k t') : t = t' := by
  induction h generalizing t' with
  | leaf h =>
    cases h' with
    | leaf h' => rw [h] at h'; cases h'; rfl
    | node h' _ _ => rw [h] at h'; cases h'
  | node h _ _ ihl ihr =>
    cases h' with
    | leaf h' => rw [h] at h'; cases h'
    | node h' hl' hr' =>
      rw [h] at h'
      cases h'
      rw [ihl hl', ihr hr']

theorem nodeAt_of_getElem? {s : State} {k : Nat} {n : Node} (h : s.tables.nodes[k]? = some n) : s.nodeAt k = n := by
  rw [State.nodeAt, List.getD_eq_getElem?_getD, h]
  rfl

/-! ### The path register -/

/-- `p ++ (x)` in PATH (R171). -/
theorem setPath_bitString (s : State) {d : BitVec 8} (x : Bool) :
    bitString (d.toNat + 1) (s.setPath d x).dp.path = bitString d.toNat s.dp.path ++ [x] := by
  have hd := d.isLt
  have hbit (k : Nat) (hk : k ≤ d.toNat) :
      (s.setPath d x).dp.path.getLsbD k = if k = d.toNat then x else s.dp.path.getLsbD k := by
    cases x <;> simp [State.setPath, show k < 256 by omega] <;> grind
  rw [bitString, List.range_succ, List.map_append, List.map_singleton, hbit _ le_rfl, if_pos rfl]
  congr 1
  refine List.map_congr_left fun k hk => ?_
  have hlt := List.mem_range.1 hk
  rw [hbit k hlt.le, if_neg hlt.ne]

theorem take_bitString {m n : Nat} (h : m ≤ n) (v : BitVec 256) : (bitString n v).take m = bitString m v := by
  rw [bitString, ← List.map_take, List.take_range, min_eq_left h, bitString]

/-- PATH registers with the same first bits have the same fewer bits. -/
theorem bitString_eq_of_le {m n : Nat} {v w : BitVec 256} (h : bitString n v = bitString n w) (hmn : m ≤ n) :
    bitString m v = bitString m w := by
  rw [← take_bitString hmn v, ← take_bitString hmn w, h]

/-- The bits before `d` are those of `p`. -/
theorem setPath_bitString_low (s : State) (d : BitVec 8) (x : Bool) :
    bitString d.toNat (s.setPath d x).dp.path = bitString d.toNat s.dp.path := by
  rw [← take_bitString (Nat.le_succ _), setPath_bitString, List.take_append_of_le_length (by simp),
    List.take_of_length_le (by simp)]

/-! ### The walk -/

theorem traverse_leaf {room : Nat} {s : State} {n : BitVec 9} {d : BitVec 8} {stack : List (BitVec 9 × BitVec 8)}
    {f : Word} {sym : Byte} (hstack : s.dp.tstack = (n, d) :: stack) (hnode : s.nodeAt n.toNat = .leaf f sym) :
    traverse (room + 1) s = .ok (s.bindCode sym (bitString d.toNat s.dp.path)).popCall := by
  simp [traverse, hstack, hnode]

theorem traverse_internal {room : Nat} {s : State} {n : BitVec 9} {d : BitVec 8}
    {stack : List (BitVec 9 × BitVec 8)} {f : Word} {l r : BitVec 9} (hstack : s.dp.tstack = (n, d) :: stack)
    (hnode : s.nodeAt n.toNat = .internal f l r) :
    traverse (room + 1) s = (do
      let s ← traverse room ((s.setPath d false).pushCall l (d + 1))
      let s ← traverse room ((s.setPath d true).pushCall r (d + 1))
      return s.popCall) := by
  simp [traverse, hstack, hnode]

/-- Pushing a call with one more path bit writes the datapath registers alone. -/
theorem setPath_pushCall_eq (s : State) (d : BitVec 8) (x : Bool) (n : BitVec 9) (e : BitVec 8) :
    (s.setPath d x).pushCall n e
      = s.withDp { s.dp with tstack := (n, e) :: s.dp.tstack, path := (s.setPath d x).dp.path } := rfl

/-- Traverse on the tree of the top call binds the codes of its leaves from left to right, and returns from the call; the
path of the call stays in PATH (R171). -/
theorem traverse_represents {nodes : List Node} {k : Nat} {t : CodeTree} (ht : Represents nodes k t) {room : Nat}
    {s : State} {n : BitVec 9} {d : BitVec 8} {stack : List (BitVec 9 × BitVec 8)} (hnodes : s.tables.nodes = nodes)
    (hn : n.toNat = k) (hstack : s.dp.tstack = (n, d) :: stack) (hroom : t.height < room)
    (hdepth : d.toNat + t.height < 256) :
    ∃ path, traverse room s
        = .ok ((s.bindCodes (t.codes (bitString d.toNat s.dp.path))).withDp { s.dp with tstack := stack, path := path })
      ∧ bitString d.toNat path = bitString d.toNat s.dp.path := by
  induction ht generalizing room s n d stack with
  | leaf h =>
    obtain ⟨room, rfl⟩ : ∃ r, room = r + 1 := ⟨room - 1, by omega⟩
    subst hnodes hn
    refine ⟨s.dp.path, ?_, rfl⟩
    rw [traverse_leaf hstack (nodeAt_of_getElem? h)]
    simp only [State.popCall, State.bindCode_dp, hstack, List.tail_cons]
    rfl
  | @node k f l r left right h hl hr ihl ihr =>
    obtain ⟨room, rfl⟩ : ∃ r, room = r + 1 := ⟨room - 1, by omega⟩
    subst hnodes hn
    rw [CodeTree.height] at hroom hdepth
    have hd : (d + 1).toNat = d.toNat + 1 := by
      rw [BitVec.toNat_add, show (1 : BitVec 8).toNat = 1 from rfl, Nat.mod_eq_of_lt (by omega)]
    generalize hp : bitString d.toNat s.dp.path = p
    obtain ⟨v, hv, hpv⟩ := ihl (room := room) (s := (s.setPath d false).pushCall l (d + 1)) (d := d + 1) rfl rfl rfl
      (by omega) (by omega)
    rw [hd, State.pushCall_dp_path] at hv hpv
    have hpv' := (bitString_eq_of_le hpv (Nat.le_succ _)).trans (setPath_bitString_low s d false)
    rw [setPath_bitString, hp] at hv
    rw [hp] at hpv'
    generalize hu : State.withDp _ _ = u at hv
    have hupath : u.dp.path = v := by rw [← hu]; rfl
    have hunodes : u.tables.nodes = s.tables.nodes := by rw [← hu]; simp
    obtain ⟨w, hw, hpw⟩ := ihr (room := room) (s := (u.setPath d true).pushCall r (d + 1)) (d := d + 1) hunodes rfl rfl
      (by omega) (by omega)
    rw [hd, State.pushCall_dp_path] at hw hpw
    have hpw' := (bitString_eq_of_le hpw (Nat.le_succ _)).trans (setPath_bitString_low u d true)
    rw [setPath_bitString, hupath, hpv'] at hw
    rw [hupath, hpv'] at hpw'
    refine ⟨w, ?_, hpw'⟩
    rw [traverse_internal hstack (nodeAt_of_getElem? h), hv, ok_bind, hw, ok_bind, CodeTree.codes, bindCodes_append, ← hu]
    simp only [setPath_pushCall_eq, withDp_bindCodes, withDp_withDp, withDp_dp, State.setPath_dp_tstack, State.popCall,
      hstack, List.tail_cons]
    rfl

/-- BUILD_TABLE's walk fills a cleared table with the codes of the tree under ROOT (R170 to R172). -/
theorem walkTree_represents {s : State} {t : CodeTree} (ht : Represents s.tables.nodes s.tables.root.toNat t)
    (hheight : t.height ≤ s.build.maxCodeLen) :
    ∃ d, walkTree s = .ok ((s.bindCodes t.table).withDp d) := by
  unfold walkTree
  cases ht with
  | leaf h =>
    rw [nodeAt_of_getElem? h]
    exact ⟨s.dp, rfl⟩
  | @node _ f l r left right h hl hr =>
    rw [nodeAt_of_getElem? h]
    have hmax := maxCodeLen_le s.build
    obtain ⟨path, hwalk, -⟩ := traverse_represents (.node h hl hr) (room := s.build.maxCodeLen + 1)
      (s := s.withDp { s.dp with tstack := [(s.tables.root, 0)], path := 0 }) (d := 0) rfl rfl rfl (by omega)
      (by rw [show (0 : BitVec 8).toNat = 0 from rfl]; omega)
    rw [withDp_bindCodes] at hwalk
    exact ⟨_, hwalk⟩

end Sys2Proof.Machine
end

section
/-! PROOFS. The nodes not joined by any lower node form a forest, and its trees together have the leaves made so far. So the
tree under ROOT of a finished tree has every leaf once (42_tree_builder.md R154, 43_code_table.md R175). -/

namespace Sys2Proof.Machine

open Sys2Proof.Config (Params)

/-- The symbol of a leaf, as a list. -/
def Node.symbols : Node → List Byte
  | .leaf _ sym => [sym]
  | .internal _ _ _ => []

/-- A list without repetition, with some of its members taken to the front. -/
theorem perm_append_filter_not_mem {l c : List Nat} (hl : l.Nodup) (hc : c.Nodup) (hsub : ∀ j ∈ c, j ∈ l) :
    l.Perm (c ++ l.filter (fun j => !c.contains j)) := by
  have hnodup : (c ++ l.filter (fun j => !c.contains j)).Nodup := by
    refine List.nodup_append.2 ⟨hc, hl.filter _, fun a ha b hb hab => ?_⟩
    subst hab
    simp [ha] at hb
  refine (List.perm_ext_iff_of_nodup hl hnodup).2 fun j => ?_
  by_cases hj : j ∈ c
  · simp [hj, hsub j hj]
  · simp [hj]

/-- Every child of a node stands below it. -/
def childrenBelow (nodes : List Node) : Prop :=
  ∀ (i : Nat) (n : Node), nodes[i]? = some n → ∀ c ∈ n.children, c < i

section

variable {nodes : List Node} (hlow : childrenBelow nodes)

include hlow

/-- Under every node of a memory whose internal nodes stand behind their children there is a tree. -/
theorem exists_represents (k : Nat) (hk : k < nodes.length) : ∃ t, Represents nodes k t := by
  induction k using Nat.strong_induction_on with
  | _ k ih =>
    have hget := List.getElem?_eq_getElem hk
    generalize nodes[k] = n at hget
    have hchild := hlow k n hget
    cases n with
    | leaf f sym => exact ⟨_, .leaf hget⟩
    | internal f l r =>
      have hl : l.toNat < k := hchild _ (by simp [Node.children])
      have hr : r.toNat < k := hchild _ (by simp [Node.children])
      obtain ⟨left, hleft⟩ := ih _ hl (hl.trans hk)
      obtain ⟨right, hright⟩ := ih _ hr (hr.trans hk)
      exact ⟨_, .node hget hleft hright⟩

/-- Children of the first `i` nodes stand below `i`. -/
theorem child_lt_of_take {i c : Nat} (h : c ∈ (nodes.take i).flatMap Node.children) : c < i := by
  obtain ⟨n, hn, hc⟩ := List.mem_flatMap.1 h
  obtain ⟨j, hj, rfl⟩ := List.getElem_of_mem hn
  rw [List.length_take] at hj
  rw [List.getElem_take] at hc
  have := hlow j _ (List.getElem?_eq_getElem (by omega)) c hc
  omega

variable (hnodup : (nodes.flatMap Node.children).Nodup)

include hnodup

/-- Node `i` takes its children out of the forest and joins it itself. -/
theorem unjoined_succ {i : Nat} {n : Node} (hn : nodes[i]? = some n) :
    ∃ rest, (unjoined nodes i).Perm (n.children ++ rest) ∧ (unjoined nodes (i + 1)).Perm (i :: rest) := by
  obtain ⟨hi, hget⟩ := List.getElem?_eq_some_iff.1 hn
  have htake : nodes.take (i + 1) = nodes.take i ++ [n] := by rw [← hget, List.take_concat_get' _ _ hi]
  have hsplit : (nodes.take (i + 1)).flatMap Node.children = (nodes.take i).flatMap Node.children ++ n.children := by
    rw [htake, List.flatMap_append, List.flatMap_singleton]
  have htaken : ((nodes.take (i + 1)).flatMap Node.children).Nodup :=
    hnodup.sublist ((List.take_sublist _ _).flatMap _)
  rw [hsplit] at htaken
  obtain ⟨-, hc, hnew⟩ := List.nodup_append.1 htaken
  have hmem (m j : Nat) : j ∈ unjoined nodes m ↔ j < m ∧ j ∉ (nodes.take m).flatMap Node.children := by
    simp [unjoined]
  have hfree : ∀ j ∈ n.children, j ∈ unjoined nodes i := fun j hj =>
    (hmem i j).2 ⟨hlow i n hn j hj, fun h => hnew _ h _ hj rfl⟩
  refine ⟨_, perm_append_filter_not_mem (List.nodup_range.filter _) hc hfree, ?_⟩
  refine (List.perm_ext_iff_of_nodup (List.nodup_range.filter _) ?_).2 fun j => ?_
  · refine List.nodup_cons.2 ⟨fun h => ?_, (List.nodup_range.filter _).filter _⟩
    exact (lt_irrefl i) (lt_of_mem_unjoined (List.mem_of_mem_filter h))
  · have hself : i ∉ (nodes.take (i + 1)).flatMap Node.children := by
      rw [hsplit, List.mem_append]
      rintro (h | h)
      · exact lt_irrefl i (child_lt_of_take hlow h)
      · exact lt_irrefl i (hlow i n hn i h)
    have hrest : j ∈ (unjoined nodes i).filter (fun j => !n.children.contains j)
        ↔ (j < i ∧ j ∉ (nodes.take i).flatMap Node.children) ∧ j ∉ n.children := by
      rw [List.mem_filter, hmem]
      simp
    refine (hmem (i + 1) j).trans ?_
    rw [List.mem_cons, hrest]
    by_cases hj : j = i
    · subst hj
      simp [hself]
    · rw [hsplit, List.mem_append]
      have : j < i + 1 ↔ j < i := by omega
      tauto

/-- The trees of the forest together have the leaves made so far. -/
theorem forest_leaves {tree : Nat → CodeTree} (htree : ∀ k < nodes.length, Represents nodes k (tree k)) {i : Nat}
    (hi : i ≤ nodes.length) :
    ((unjoined nodes i).flatMap fun k => (tree k).leaves).Perm ((nodes.take i).flatMap Node.symbols) := by
  induction i with
  | zero => exact .refl _
  | succ i ih =>
    have hget := List.getElem?_eq_getElem (Nat.lt_of_succ_le hi)
    obtain ⟨rest, hbefore, hafter⟩ := unjoined_succ hlow hnodup hget
    have hnode : (tree i).leaves = nodes[i].children.flatMap (fun k => (tree k).leaves) ++ nodes[i].symbols := by
      have hrep := htree i (Nat.lt_of_succ_le hi)
      generalize htree_i : tree i = t at hrep
      generalize nodes[i] = n at hget
      cases hrep with
      | leaf h => rw [hget] at h; cases h; rfl
      | node h hl hr =>
        rw [hget] at h
        cases h
        have hchild := hlow i _ hget
        have hlen := Nat.lt_of_succ_le hi
        rw [CodeTree.leaves, hl.unique (htree _ ((hchild _ (by simp [Node.children])).trans hlen)),
          hr.unique (htree _ ((hchild _ (by simp [Node.children])).trans hlen))]
        simp [Node.children, Node.symbols]
    have htake : nodes.take (i + 1) = nodes.take i ++ [nodes[i]] := by
      rw [List.take_concat_get' _ _ (Nat.lt_of_succ_le hi)]
    rw [htake, List.flatMap_append, List.flatMap_singleton]
    have hmoved := (hbefore.flatMap_right fun k => (tree k).leaves).symm.trans (ih (Nat.le_of_succ_le hi))
    rw [List.flatMap_append] at hmoved
    refine (hafter.flatMap_right _).trans ?_
    rw [List.flatMap_cons, hnode, List.append_assoc]
    exact ((List.perm_append_comm.append_left _).trans (List.append_assoc _ _ _ ▸ .refl _)).trans (hmoved.append_right _)

end

/-! ### A finished tree -/

section

variable {s : State} (ht : s.treeOk)

include ht

/-- What node `i` of a finished tree is. -/
theorem treeOk_node {i : Nat} {n : Node} (hn : s.tables.nodes[i]? = some n) :
    (∃ k ∈ s.countedSymbols, n = s.leafOf k ∧ i < s.countedSymbols.length)
      ∨ ∃ f l r, n = .internal f l r ∧ l.toNat < i ∧ r.toNat < i ∧ s.countedSymbols.length ≤ i := by
  obtain ⟨-, -, hfirst, hmerged, -, -, -⟩ := ht
  rcases Nat.lt_or_ge i s.countedSymbols.length with hlt | hge
  · rw [← List.getElem?_take_of_lt hlt, hfirst, List.getElem?_map] at hn
    obtain ⟨k, hk, rfl⟩ := Option.map_eq_some_iff.1 hn
    exact .inl ⟨k, List.mem_of_getElem? hk, rfl, hlt⟩
  · obtain ⟨f, l, r, hnode, hl, hr, -⟩ := (mergedNode_iff (List.getElem?_eq_some_iff.1 hn).1.le).1
      (hmerged (n, i) (List.mem_zipIdx_iff_getElem?.2 hn) hge)
    exact .inr ⟨f, l, r, hnode, hl, hr, hge⟩

theorem childrenBelow_of_treeOk : childrenBelow s.tables.nodes := by
  intro i n hn c hc
  rcases treeOk_node ht hn with ⟨k, -, rfl, -⟩ | ⟨f, l, r, rfl, hl, hr, -⟩
  · cases hc
  · simp only [Node.children, List.mem_cons, List.not_mem_nil, or_false] at hc
    omega

/-- ROOT is the one node left unjoined. -/
theorem treeOk_unjoined : (unjoined s.tables.nodes s.tables.nodes.length).Perm [s.tables.root.toNat] := by
  obtain ⟨hpos, hlen, -, -, hroot, hchildren, -⟩ := ht
  refine (List.perm_ext_iff_of_nodup (List.nodup_range.filter _) (List.nodup_singleton _)).2 fun j => ?_
  simp only [List.take_length, List.mem_filter, List.mem_range, Bool.not_eq_true', List.contains_eq_mem,
    decide_eq_false_iff_not, hchildren.mem_iff, List.mem_singleton]
  omega

/-- The leaves of a finished tree are those of the counted symbols. -/
theorem treeOk_symbols : s.tables.nodes.flatMap Node.symbols = s.countedSymbols.map (BitVec.ofNat 8) := by
  have hrest : (s.tables.nodes.drop s.countedSymbols.length).flatMap Node.symbols = [] := by
    refine List.flatMap_eq_nil_iff.2 fun n hn => ?_
    obtain ⟨i, hi, rfl⟩ := List.getElem_of_mem hn
    rw [List.length_drop] at hi
    rw [List.getElem_drop]
    rcases treeOk_node ht (List.getElem?_eq_getElem (show s.countedSymbols.length + i < _ by omega)) with
      ⟨-, -, -, hlt⟩ | ⟨f, l, r, hnode, -⟩
    · omega
    · rw [hnode]
      rfl
  obtain ⟨-, -, hfirst, -⟩ := ht
  rw [← List.take_append_drop s.countedSymbols.length s.tables.nodes, List.flatMap_append, hrest, List.append_nil, hfirst,
    List.flatMap_map, ← List.flatMap_pure_eq_map]
  rfl

/-- The tree under ROOT has each counted symbol at one leaf. -/
theorem exists_tree_of_treeOk :
    ∃ t, Represents s.tables.nodes s.tables.root.toNat t ∧ t.leaves.Perm (s.countedSymbols.map (BitVec.ofNat 8)) := by
  have hlow := childrenBelow_of_treeOk ht
  have hnodup : (s.tables.nodes.flatMap Node.children).Nodup := ht.2.2.2.2.2.1.nodup_iff.2 List.nodup_range
  have hall (k : Nat) : ∃ t, k < s.tables.nodes.length → Represents s.tables.nodes k t := by
    by_cases hk : k < s.tables.nodes.length
    · obtain ⟨t, h⟩ := exists_represents hlow k hk
      exact ⟨t, fun _ => h⟩
    · exact ⟨.leaf 0, fun h => absurd h hk⟩
  choose tree htree using hall
  refine ⟨tree s.tables.root.toNat, htree _ ?_, ?_⟩
  · exact lt_of_mem_unjoined ((treeOk_unjoined ht).mem_iff.2 (by simp))
  · have hleaves := forest_leaves hlow hnodup htree le_rfl
    rw [List.take_length, treeOk_symbols ht] at hleaves
    have hroot := (treeOk_unjoined ht).flatMap_right fun k => (tree k).leaves
    rw [List.flatMap_singleton] at hroot
    exact hroot.symm.trans hleaves

end

end Sys2Proof.Machine
end

section
/-! PROOFS. What COUNT, BUILD_TREE, BUILD_TABLE, SERIALIZE and DECODE_PAYLOAD do to the results that the valid flags stand
for (`State.Current`): the tree is the Huffman tree of FREQ, and the table built from it binds the counted symbols
(42_tree_builder.md R152, R154; 43_code_table.md R173 to R175). -/

namespace Sys2Proof.Machine

open Sys2Proof.Config (Params)

/-! ### The table of a tree -/

/-- The counted symbols as bytes. -/
theorem ofNat_mem_countedSymbols {s : State} {i : Nat} (hi : i < s.limit) :
    BitVec.ofNat 8 i ∈ s.countedSymbols.map (BitVec.ofNat 8) ↔ 0 < s.freqAt i := by
  have hl := limit_le s.build
  have hi' : i < s.build.limit := hi
  rw [List.mem_map]
  constructor
  · rintro ⟨k, hk, hki⟩
    have hk' := mem_countedSymbols.1 hk
    have hlt : k < s.build.limit := hk'.1
    have heq := congrArg BitVec.toNat hki
    rw [toNat_ofNat8 (by omega), toNat_ofNat8 (by omega)] at heq
    exact heq ▸ hk'.2
  · exact fun hpos => ⟨i, mem_countedSymbols.2 ⟨hi, hpos⟩, rfl⟩

theorem countedSymbols_bytes_nodup (s : State) : (s.countedSymbols.map (BitVec.ofNat 8)).Nodup := by
  refine List.Nodup.map_on (fun i hi j hj hij => ?_) (List.nodup_range.filter _)
  have hl := limit_le s.build
  have hi' : i < s.build.limit := (mem_countedSymbols.1 hi).1
  have hj' : j < s.build.limit := (mem_countedSymbols.1 hj).1
  have heq := congrArg BitVec.toNat hij
  rwa [toNat_ofNat8 (by omega), toNat_ofNat8 (by omega)] at heq

section

variable {s : State} {t : CodeTree} (hc : s.counted) (ht : t.leaves.Perm (s.countedSymbols.map (BitVec.ofNat 8)))

include hc ht

/-- The codes of a tree of the counted symbols are entries that the parser would read. -/
theorem table_readable : Params.readableEntries s.build t.table := by
  have hmax := countedSymbols_length_le hc
  have hlimit := limit_cases s.build
  have hlen : t.leaves.length = s.countedSymbols.length := by rw [ht.length_eq, List.length_map]
  refine ⟨fun e he => ?_, ?_, fun e he => ?_⟩
  · have hmem : e.1 ∈ t.leaves := t.table_fst ▸ List.mem_map_of_mem he
    obtain ⟨i, hi, hie⟩ := List.mem_map.1 (ht.mem_iff.1 hmem)
    obtain ⟨hlt, hpos⟩ := mem_countedSymbols.1 hi
    obtain ⟨-, hsym, hfreq, -, -⟩ := hc
    rw [hfreq i hlt] at hpos
    exact hie ▸ hsym _ (List.count_pos_iff.1 hpos)
  · rw [t.table_fst, ht.nodup_iff]
    exact countedSymbols_bytes_nodup s
  · obtain ⟨h₁, h₂⟩ := t.table_length e he
    unfold Params.nMax at hmax
    unfold Params.maxCodeLen
    exact ⟨h₁, by omega⟩

end

/-- BUILD_TABLE on a finished tree fills a cleared table with the codes of a tree of the counted symbols. -/
theorem buildTableBody_table {s u : State} (ht : s.treeOk) (hmax : s.countedSymbols.length ≤ s.build.nMax)
    (hu : buildTableBody s = .ok u) :
    ∃ (t : CodeTree) (d : Datapath), t.leaves.Perm (s.countedSymbols.map (BitVec.ofNat 8))
      ∧ u = buildTableResults (((s.enterPhase .traverse).clearCodes.bindCodes t.table).withDp d) := by
  obtain ⟨v, hwalk, rfl⟩ := buildTableBody_ok hu
  obtain ⟨t, hrep, hleaves⟩ := exists_tree_of_treeOk ht
  have hheight : t.height ≤ s.build.maxCodeLen := by
    have hlt := t.height_lt_leaves
    have hlimit := limit_cases s.build
    rw [hleaves.length_eq, List.length_map] at hlt
    unfold Params.nMax at hmax
    unfold Params.maxCodeLen
    omega
  obtain ⟨d, hd⟩ := walkTree_represents (s := (s.enterPhase .traverse).clearCodes) hrep hheight
  rw [hd] at hwalk
  cases hwalk
  exact ⟨t, d, hleaves, rfl⟩

/-- The codes that BUILD_TABLE leaves: legal, of the counted symbols, and with their number of bits in PAYLOAD_BITS. -/
theorem buildTableBody_codes {s u : State} (ht : s.treeOk) (hc : s.counted) (hu : buildTableBody s = .ok u) :
    u.codesOk ∧ u.tables.order.Perm (s.countedSymbols.map (BitVec.ofNat 8))
      ∧ u.regs.payloadBits = BitVec.ofNat 32 u.bitCount := by
  obtain ⟨t, d, hleaves, rfl⟩ := buildTableBody_table ht (countedSymbols_length_le hc) hu
  have hread : Params.readableEntries (s.enterPhase .traverse).build t.table := table_readable hc hleaves
  have hbuild := congrArg (fun u => u.build) (bindCodes_sansCodes (s.enterPhase .traverse).clearCodes t.table)
  refine ⟨codesOk_of_entries hread t.table_ne_nil rfl hbuild rfl
    (bindCodes_clear_prefixFree hread t.table_clashFree), ?_, rfl⟩
  show ((s.enterPhase .traverse).clearCodes.bindCodes t.table).tables.order.Perm _
  rw [bindCodes_order, State.clearCodes_tables_order, List.nil_append, t.table_fst]
  exact hleaves

/-- What BUILD_TABLE keeps: FREQ, UNIQUE, FREQ_VALID, and the tree. -/
theorem buildTableBody_keeps {s u : State} (hu : buildTableBody s = .ok u) :
    u.tables.freq = s.tables.freq ∧ u.build = s.build ∧ u.regs.unique = s.regs.unique
      ∧ u.status.freqValid = s.status.freqValid
      ∧ (s.treeOk → s.huffman → s.countedSymbols.length = s.regs.unique.toNat →
        u.treeOk ∧ u.huffman ∧ u.countedSymbols.length = u.regs.unique.toNat) := by
  obtain ⟨v, htable, rfl⟩ := buildTableBody_ok hu
  obtain ⟨cl, cb, o, d, rfl, -, -⟩ := exists_of_sansCodes (walkTree_sansCodes htable)
  exact ⟨rfl, rfl, rfl, rfl, fun ht hh hunique => ⟨ht, hh, hunique⟩⟩

/-- What IN_MEM holds depends on IN_MEM and IN_LEN alone. -/
theorem holds_congr {s u : State} (hin : ∀ a < s.regs.inLen.toNat, u.inByte a = s.inByte a)
    (hlen : u.regs.inLen = s.regs.inLen) {ofs : Nat} {bytes : List Byte} (h : s.holds ofs bytes) :
    u.holds ofs bytes := by
  obtain ⟨hfits, hbytes⟩ := h
  refine ⟨by rwa [hlen], Eq.trans (List.map_congr_left fun k hk => hin _ ?_) hbytes⟩
  have := List.mem_range.1 hk
  omega

/-! ### The stages -/

/-- Without a tree, a table or a header there are no results to be current. -/
theorem current_of_noResults {s : State} (ht : s.status.treeValid = false) (hc : s.status.tableValid = false)
    (hh : s.status.hdrValid = false) : s.Current :=
  ⟨by simp [ht], by simp [hc], by simp [hc], by simp [hh]⟩

/-- A parsed header excludes current counts (47_control.md R268). -/
theorem freqValid_of_hdrValid {t : Status} (h : t.coherent) (hh : t.hdrValid = true) : t.freqValid = false := by
  cases hf : t.freqValid with
  | false => rfl
  | true => exact hh.symm.trans (h.2.1 (h.1 hh) hf).2

section

variable {s u : State} (h : DataInv s) (hcur : s.Current)

theorem countBody_current (hu : countBody s = .ok u) : u.Current := by
  obtain ⟨-, t, -, rfl⟩ := countBody_ok hu
  exact current_of_noResults rfl rfl rfl

include h

theorem buildTreeBody_current (hf : s.status.freqValid = true) (hu : buildTreeBody s = .ok u) : u.Current := by
  obtain ⟨htree, hhuffman, -, ns, r, hp, rfl⟩ := buildTreeBody_ok_of_counted h hf hu
  exact ⟨fun _ => ⟨htree, hhuffman, countedSymbols_length_eq_unique (h.counted hf) h.sized.1⟩, by simp, by simp, by simp⟩

include hcur

theorem buildTableBody_current (ht : s.status.treeValid = true) (hu : buildTableBody s = .ok u) : u.Current := by
  have hf := h.coherent.2.2 ht
  have hc := h.counted hf
  have hu' := buildTableBody_dataInv h ht hu
  obtain ⟨htree, hhuffman, hunique⟩ := hcur.tree ht
  obtain ⟨hfreq, hbuild, huniq, hflags, hkeeps⟩ := buildTableBody_keeps hu
  have hlimit : u.limit = s.limit := congrArg Params.limit hbuild
  have hfreqAt (i : Nat) : u.freqAt i = s.freqAt i := by rw [State.freqAt, hfreq]; rfl
  have hcodes := buildTableBody_codes htree hc hu
  have huf : u.status.freqValid = true := hflags.trans hf
  refine ⟨fun _ => hkeeps htree hhuffman hunique, fun _ => hcodes.1, fun _ _ => ⟨fun i hi => ?_, ?_, ?_, ?_⟩, fun hh => ?_⟩
  · rw [hfreqAt, ← ofNat_mem_countedSymbols (hlimit ▸ hi), ← hcodes.2.1.mem_iff]
    exact hcodes.1.2.2.2.2.1 i hi
  · rw [hcodes.2.1.length_eq, List.length_map, huniq, hunique]
  · exact bitCount_eq_payload_length (hu'.counted huf)
  · exact hcodes.2.2
  · rw [freqValid_of_hdrValid hu'.coherent hh] at huf
    cases huf

/-- Output and datapath registers apart, nothing changes. -/
theorem emits_current (he : Emits s u) : u.Current := by
  have hin := he.inByte
  obtain ⟨m, d, rfl⟩ := exists_of_sansOutput he.outside
  refine ⟨hcur.tree, hcur.codes, fun ht hf => ?_, fun hh => ?_⟩
  · obtain ⟨hbound, hlen, hbits, hpayload⟩ := hcur.built ht hf
    refine ⟨hbound, hlen, ?_, hpayload⟩
    rw [input_congr hin rfl (inLen_le h.build (h.counted hf).1)]
    exact hbits
  · obtain ⟨hlenOk, hunique, htotal, hholds, hofs⟩ := hcur.parsed hh
    refine ⟨hlenOk, hunique, htotal, ?_, hofs⟩
    exact holds_congr (fun a ha => hin a (ha.trans_le (inLen_le h.build hlenOk))) rfl hholds

theorem serializeBody_current (hu : serializeBody s = .ok u) : u.Current := by
  obtain ⟨t, v, ht, hv, rfl⟩ := serializeBody_ok hu
  have d₀ : DataInv (s.enterPhase .emitHeader) := ⟨h.build, h.coherent, h.sized, h.mem, h.counted, h.tree⟩
  have c₀ : (s.enterPhase .emitHeader).Current := ⟨hcur.tree, hcur.codes, hcur.built, hcur.parsed⟩
  have d₁ := emits_dataInv d₀ ht
  have c₁ := emits_current d₀ c₀ ht
  have d₂ : DataInv (t.enterPhase .emitPayload) := ⟨d₁.build, d₁.coherent, d₁.sized, d₁.mem, d₁.counted, d₁.tree⟩
  have c₂ : (t.enterPhase .emitPayload).Current := ⟨c₁.tree, c₁.codes, c₁.built, c₁.parsed⟩
  have c₃ := emits_current d₂ c₂ hv
  exact ⟨c₃.tree, c₃.codes, c₃.built, c₃.parsed⟩

/-- DECODE_PAYLOAD overwrites PAYLOAD_BITS, which belongs to a table built from counts; but a parsed header excludes
these. -/
theorem decodePayloadBody_current (hh : s.status.hdrValid = true) (hu : decodePayloadBody s = .ok u) : u.Current := by
  have hnofreq := freqValid_of_hdrValid (decodePayloadBody_dataInv h hu).coherent
  obtain ⟨t, ht, rfl⟩ := decodePayloadBody_ok hu
  have d₀ : DataInv (s.enterPhase .decode) := ⟨h.build, h.coherent, h.sized, h.mem, h.counted, h.tree⟩
  have c₀ : (s.enterPhase .decode).Current := ⟨hcur.tree, hcur.codes, hcur.built, hcur.parsed⟩
  have c₁ := emits_current d₀ c₀ ht
  have hflags : t.status = s.status := congrArg (fun v => v.status) ht.outside
  have hhdr : (decodeResults t).status.hdrValid = true := (congrArg Status.hdrValid hflags).trans hh
  exact ⟨c₁.tree, c₁.codes, fun _ hf => absurd hf (by rw [hnofreq hhdr]; decide), c₁.parsed⟩

end

end Sys2Proof.Machine
end

section
/-! PROOFS. What the parser has read when it ends well: the container begins with the header of the table it leaves
(45_parser.md R210 to R216). Each part of the parser moves RD_PTR over the bytes it has read, and binds codes. -/

namespace Sys2Proof.Machine

open Sys2Proof.Config (Params)

/-! ### Bytes in IN_MEM -/

theorem holds_nil {s : State} {ofs : Nat} (h : ofs ≤ s.regs.inLen.toNat) : s.holds ofs [] := ⟨h, rfl⟩

theorem holds_append {s : State} {ofs : Nat} {x y : List Byte} (hx : s.holds ofs x) (hy : s.holds (ofs + x.length) y) :
    s.holds ofs (x ++ y) := by
  obtain ⟨-, hx⟩ := hx
  obtain ⟨hfits, hy⟩ := hy
  refine ⟨by rw [List.length_append]; omega, ?_⟩
  rw [List.length_append, List.range_add, List.map_append, List.map_map, hx]
  congr 1
  refine Eq.trans (List.map_congr_left fun k _ => ?_) hy
  show s.inByte (ofs + (x.length + k)) = s.inByte (ofs + x.length + k)
  rw [Nat.add_assoc]

theorem holds_singleton {s : State} {ofs : Nat} (h : ofs < s.regs.inLen.toNat) : s.holds ofs [s.inByte ofs] := ⟨h, rfl⟩

theorem holds_cons {s : State} {ofs : Nat} {b : Byte} {l : List Byte} (hlt : ofs < s.regs.inLen.toNat)
    (hb : s.inByte ofs = b) (h : s.holds (ofs + 1) l) : s.holds ofs (b :: l) :=
  holds_append (x := [b]) (hb ▸ holds_singleton hlt) h

/-! ### RD_PTR -/

/-- `s` with RD_PTR `n` bytes further. -/
def State.skip (n : Nat) (s : State) : State := s.withDp { s.dp with rdPtr := s.dp.rdPtr + BitVec.ofNat 32 n }

section

variable (s : State)

theorem readNext_eq_skip : s.readNext.2 = s.skip 1 := rfl

theorem skip_skip (m n : Nat) : (s.skip m).skip n = s.skip (m + n) := by
  unfold State.skip
  rw [withDp_withDp, withDp_dp, BitVec.add_assoc, ← BitVec.ofNat_add]

theorem skip_bindCode (n : Nat) (sym : Byte) (c : List Bool) : (s.skip n).bindCode sym c = (s.bindCode sym c).skip n := rfl

theorem skip_bindCodes (n : Nat) (l : List (Byte × List Bool)) : (s.skip n).bindCodes l = (s.bindCodes l).skip n := by
  induction l generalizing s with
  | nil => rfl
  | cons e l ih => exact ih (s.bindCode e.1 e.2)

theorem skip_withDp_zero (d : Datapath) (n : Nat) :
    (s.withDp { d with rdPtr := 0 }).skip n = s.withDp { d with rdPtr := BitVec.ofNat 32 n } := by
  show s.withDp { d with rdPtr := 0#32 + BitVec.ofNat 32 n } = _
  rw [BitVec.zero_add]

/-- Inside the container RD_PTR does not wrap. -/
theorem skip_rdPtr {n : Nat} (h : s.dp.rdPtr.toNat + n ≤ s.regs.inLen.toNat) :
    (s.skip n).dp.rdPtr.toNat = s.dp.rdPtr.toNat + n := by
  have hlt := s.regs.inLen.isLt
  unfold State.skip
  rw [withDp_dp, BitVec.toNat_add, BitVec.toNat_ofNat, Nat.mod_eq_of_lt (show n < 2 ^ 32 by omega),
    Nat.mod_eq_of_lt (by omega)]

end

/-! ### One entry -/

/-- ParseCode has read the rest of a code and its terminator, and binds the whole code (R213). -/
theorem parseCode_reads {sym : Byte} {n : Nat} {c : List Bool} {s u : State} (h : parseCode sym n c s = .ok u)
    (hc : c.length ≤ s.build.maxCodeLen) :
    ∃ c', c ++ c' ≠ [] ∧ (c ++ c').length ≤ s.build.maxCodeLen
      ∧ s.holds s.dp.rdPtr.toNat (c'.map codeChar ++ [Config.terminator])
      ∧ u = (s.bindCode sym (c ++ c')).skip (c'.length + 1) := by
  induction n generalizing c s with
  | zero => cases h
  | succ n ih =>
    obtain ⟨hlt, ⟨hterm, hne, rfl⟩ | ⟨x, hx, hlen, h⟩⟩ := parseCode_ok h
    · refine ⟨[], by simpa using hne, by simpa using hc, ?_, ?_⟩
      · exact holds_cons hlt hterm (holds_nil hlt)
      · rw [List.append_nil]
        rfl
    · obtain ⟨c', hne, hmax, hholds, hu⟩ := ih h (by rw [List.length_append]; exact hlen)
      rw [readNext_eq_skip, skip_rdPtr s hlt] at hholds
      refine ⟨x :: c', by simp, by simpa using hmax, holds_cons hlt hx hholds, ?_⟩
      rw [hu, readNext_eq_skip, List.append_assoc, List.singleton_append, List.length_cons,
        Nat.add_comm (c'.length + 1) 1, skip_bindCode, skip_skip]

/-- The bytes of one entry. -/
theorem entryBytes_length (e : Byte × List Bool) : (entryBytes e).length = e.2.length + 2 := by
  simp [entryBytes]

/-- One entry of the header: a symbol of the alphabet not bound before, with a code of legal length (R212, R213). -/
theorem parseEntry_reads {s t v : State} {sym : Byte} {n : Nat} (hstart : parseEntryStart s = .ok (some sym, t))
    (hcode : parseCode sym n [] t = .ok v) :
    Params.symbol s.build sym ∧ s.codeLenAt sym.toNat = 0
      ∧ ∃ c, 1 ≤ c.length ∧ c.length ≤ s.build.maxCodeLen ∧ s.holds s.dp.rdPtr.toNat (entryBytes (sym, c))
        ∧ v = (s.bindCode sym c).skip (entryBytes (sym, c)).length := by
  obtain ⟨hlt, rfl, ⟨hr, -⟩ | ⟨hr, hsen, hsym, hfree⟩⟩ := parseEntryStart_ok hstart
  · cases hr
  · obtain rfl := Option.some.inj hr
    obtain ⟨c, hne, hmax, hholds, hv⟩ := parseCode_reads hcode (Nat.zero_le _)
    rw [List.nil_append] at hne hmax hv
    rw [readNext_eq_skip, skip_rdPtr s hlt] at hholds
    rw [readNext_eq_skip, skip_bindCode, skip_skip, Nat.add_comm 1, ← entryBytes_length (_, c)] at hv
    exact ⟨⟨hsym, hsen⟩, hfree, c, List.length_pos_of_ne_nil hne, hmax, holds_cons hlt rfl hholds, hv⟩

/-! ### All entries -/

/-- The entry loop has read entries that it could bind one by one, and the sentinel (R210, R212). -/
theorem parseEntries_reads {n : Nat} {s u : State} (hs : s.codeSized) (h : parseEntries n s = .ok u) :
    ∃ l, Params.readableEntries s.build l ∧ (∀ e ∈ l, s.codeLenAt e.1.toNat = 0)
      ∧ s.holds s.dp.rdPtr.toNat (l.flatMap entryBytes ++ [Config.sentinel])
      ∧ u = (s.bindCodes l).skip (l.flatMap entryBytes ++ [Config.sentinel]).length := by
  induction n generalizing s with
  | zero => cases h
  | succ n ih =>
    rcases parseEntries_ok h with hstart | ⟨sym, t, v, hstart, hcode, hrest⟩
    · obtain ⟨hlt, rfl, ⟨-, hsen⟩ | ⟨hr, -⟩⟩ := parseEntryStart_ok hstart
      · exact ⟨[], ⟨by simp, by simp, by simp⟩, by simp, holds_cons hlt hsen (holds_nil hlt), rfl⟩
      · cases hr
    · obtain ⟨hsym, hfree, c, hpos, hmax, hbytes, rfl⟩ := parseEntry_reads hstart hcode
      have hrd := skip_rdPtr (s.bindCode sym c) hbytes.1
      obtain ⟨l, ⟨hlsym, hlnodup, hllen⟩, hfresh, hlholds, rfl⟩ :=
        ih (s := (s.bindCode sym c).skip (entryBytes (sym, c)).length) (bindCode_codeSized hs sym c) hrest
      have hbound : (s.bindCode sym c).codeLenAt sym.toNat = c.length := by
        have := maxCodeLen_le s.build
        exact (bindCode_codeOf_same s (hs.1 ▸ hsym.1) (hs.2 ▸ hsym.1) (by omega)).1
      have hnew : ∀ e ∈ l, e.1.toNat ≠ sym.toNat := by
        intro e he heq
        have hzero : (s.bindCode sym c).codeLenAt e.1.toNat = 0 := hfresh e he
        rw [heq, hbound] at hzero
        omega
      refine ⟨(sym, c) :: l, ⟨List.forall_mem_cons.2 ⟨hsym, hlsym⟩, List.nodup_cons.2 ⟨fun hmem => ?_, hlnodup⟩,
        List.forall_mem_cons.2 ⟨⟨hpos, hmax⟩, hllen⟩⟩, List.forall_mem_cons.2 ⟨hfree, fun e he => ?_⟩, ?_, ?_⟩
      · obtain ⟨e, he, hes⟩ := List.mem_map.1 hmem
        exact hnew e he (congrArg BitVec.toNat hes)
      · exact (bindCode_codeOf_other s (hnew e he)).1.symm.trans (hfresh e he)
      · rw [hrd] at hlholds
        rw [List.flatMap_cons, List.append_assoc]
        exact holds_append hbytes hlholds
      · rw [skip_bindCodes, skip_skip, List.flatMap_cons, List.append_assoc, List.length_append (as := entryBytes _)]
        rfl

/-! ### The counts -/

/-- A count field read is the field of the number read (20_memory.md R72). -/
theorem countBytes_le32 (b₀ b₁ b₂ b₃ : Byte) : countBytes (le32 b₀ b₁ b₂ b₃) = [b₀, b₁, b₂, b₃] := by
  have h₀ := b₀.isLt
  have h₁ := b₁.isLt
  have h₂ := b₂.isLt
  have h₃ := b₃.isLt
  have hbyte {n : Nat} {b : Byte} (h : n % 256 = b.toNat) : BitVec.ofNat 8 n = b :=
    BitVec.eq_of_toNat_eq ((BitVec.toNat_ofNat n 8).trans h)
  simp only [countBytes, le32, List.range_succ, List.range_zero, List.nil_append, List.map_cons, List.map_nil,
    List.cons_append, List.cons.injEq, and_true]
  exact ⟨hbyte (by omega), hbyte (by omega), hbyte (by omega), hbyte (by omega)⟩

theorem inCount_lt (s : State) (p : Nat) : s.inCount p < 2 ^ 32 := by
  have h₀ := (s.inByte p).isLt
  have h₁ := (s.inByte (p + 1)).isLt
  have h₂ := (s.inByte (p + 2)).isLt
  have h₃ := (s.inByte (p + 3)).isLt
  unfold State.inCount le32
  omega

theorem holds_inCount {s : State} {p : Nat} (h : p + 4 ≤ s.regs.inLen.toNat) : s.holds p (countBytes (s.inCount p)) := by
  rw [State.inCount, countBytes_le32]
  exact ⟨h, rfl⟩

theorem countBytes_length (n : Nat) : (countBytes n).length = 4 := by simp [countBytes]

/-! ### PARSE_HEADER -/

/-- A table without a clash has no code that begins another (45_parser.md R215). -/
theorem prefixFree_of_prefixClash {s : State} (h : s.prefixClash = false) : s.prefixFree := by
  intro i hi j hj hij hpre
  have hclash : s.prefixClash = true := by
    rw [State.prefixClash, List.any_eq_true]
    refine ⟨i, hi, List.any_eq_true.2 ⟨j, hj, ?_⟩⟩
    simpa [hij] using hpre
  rw [h] at hclash
  cases hclash

/-- ParseCounts has read the two count fields (45_parser.md R214). -/
theorem parseCounts_reads {s v : State} {u t : Nat} (h : parseCounts s = .ok (u, t, v)) :
    u < 2 ^ 32 ∧ t < 2 ^ 32 ∧ s.holds s.dp.rdPtr.toNat (countBytes u ++ countBytes t) ∧ v = s.skip 8 := by
  obtain ⟨hfits, rfl, rfl, rfl⟩ := parseCounts_ok h
  refine ⟨inCount_lt _ _, inCount_lt _ _, holds_append (holds_inCount (by omega)) ?_, rfl⟩
  rw [countBytes_length]
  exact holds_inCount (by omega)

theorem headerBytes_eq (l : List (Byte × List Bool)) (u t : Nat) :
    headerBytes l u t = (l.flatMap entryBytes ++ [Config.sentinel]) ++ (countBytes u ++ countBytes t) := by
  simp [headerBytes]

/-- PARSE_HEADER has read a header: the entries of the table it leaves, and the counts in UNIQUE and TOTAL (R216). -/
theorem parseHeaderBody_reads {s w : State} (hw : parseHeaderBody s = .ok w) :
    s.lenOk ∧ ∃ l u t, Params.readableEntries s.build l ∧ l.length = u ∧ u ≠ 0 ∧ t ≠ 0 ∧ u < 2 ^ 32 ∧ t < 2 ^ 32
      ∧ s.holds 0 (headerBytes l u t) ∧ w.prefixFree
      ∧ w = parseCommit u t (((s.enterPhase .parseHeader).clearCodes.bindCodes l).withDp
        { s.dp with rdPtr := BitVec.ofNat 32 (headerBytes l u t).length }) := by
  obtain ⟨hguard, v, u, t, v', hv, hcounts, hcheck, rfl⟩ := parseHeaderBody_ok hw
  obtain ⟨l, hread, -, hentries, rfl⟩ := parseEntries_reads
    (s := (s.enterPhase .parseHeader).clearCodes.withDp { s.dp with rdPtr := 0 }) (clearCodes_codeSized _) hv
  rw [withDp_bindCodes] at hcounts
  obtain ⟨hu32, ht32, hcholds, rfl⟩ := parseCounts_reads hcounts
  obtain ⟨hpos, hu, ht, hclash, -⟩ := headerCheck_ok hcheck
  have hregs := bindCodes_regs (s.enterPhase .parseHeader).clearCodes l
  have horder : ((s.enterPhase .parseHeader).clearCodes.bindCodes l).tables.order = l.map Prod.fst := by
    rw [bindCodes_order, State.clearCodes_tables_order, List.nil_append]
  have hlength : u = l.length := hu.trans ((congrArg List.length horder).trans (List.length_map _))
  have hrd := skip_rdPtr (((s.enterPhase .parseHeader).clearCodes.bindCodes l).withDp { s.dp with rdPtr := 0 })
    (hentries.1.trans_eq (congrArg (fun r => r.inLen.toNat) hregs.symm))
  have hend : (headerBytes l u t).length = (l.flatMap entryBytes ++ [Config.sentinel]).length + 8 := by
    rw [headerBytes_eq, List.length_append, List.length_append (as := countBytes u), countBytes_length,
      countBytes_length]
  refine ⟨lenOk_of_lengthGuard hguard, l, u, t, hread, hlength.symm, hu ▸ hpos, ht, hu32, ht32, ?_,
    prefixFree_of_prefixClash hclash, ?_⟩
  · rw [hrd] at hcholds
    rw [headerBytes_eq]
    refine holds_append hentries (holds_congr (fun a _ => ?_) ?_ hcholds)
    · exact (bindCodes_inByte (s.enterPhase .parseHeader).clearCodes l a).symm
    · exact (congrArg Regs.inLen hregs).symm
  · rw [skip_skip, hend, skip_withDp_zero]

/-- PARSE_HEADER leaves the table of the header in IN_MEM. -/
theorem parseHeaderBody_current {s w : State} (hw : parseHeaderBody s = .ok w) : w.Current := by
  obtain ⟨hlenOk, l, u, t, hread, hlength, hu, ht, hu32, ht32, hholds, hfree, rfl⟩ := parseHeaderBody_reads hw
  have hne : l ≠ [] := List.ne_nil_of_length_pos (by omega)
  have hin := congrArg Regs.inLen (bindCodes_regs (s.enterPhase .parseHeader).clearCodes l)
  have hbuild := bindCodes_build (s.enterPhase .parseHeader).clearCodes l
  have hinByte := bindCodes_inByte (s.enterPhase .parseHeader).clearCodes l
  refine ⟨fun h => (nomatch h),
    fun _ => codesOk_of_entries (s := s.enterPhase .parseHeader) hread hne rfl hbuild rfl hfree,
    fun _ h => (nomatch h), fun _ => ?_⟩
  show _ ∧ (BitVec.ofNat 32 u).toNat = ((s.enterPhase .parseHeader).clearCodes.bindCodes l).tables.order.length
    ∧ 1 ≤ (BitVec.ofNat 32 t).toNat
    ∧ State.holds _ 0 (headerBytes ((s.enterPhase .parseHeader).clearCodes.bindCodes l).entries
      (BitVec.ofNat 32 u).toNat (BitVec.ofNat 32 t).toNat)
    ∧ (BitVec.ofNat 32 (headerBytes l u t).length).toNat
      = (headerBytes ((s.enterPhase .parseHeader).clearCodes.bindCodes l).entries
        (BitVec.ofNat 32 u).toNat (BitVec.ofNat 32 t).toNat).length
  have hfits : (headerBytes l u t).length < 2 ^ 32 := by
    have hin := s.regs.inLen.isLt
    have hheader := hholds.1
    omega
  rw [toNat_ofNat32 hu32, toNat_ofNat32 ht32, toNat_ofNat32 hfits,
    bindCodes_clear_entries (s := s.enterPhase .parseHeader) hread, bindCodes_order]
  refine ⟨?_, by simpa using hlength.symm, by omega, holds_congr (fun a _ => hinByte a) hin hholds, rfl⟩
  exact ⟨hlenOk.1.trans_eq (congrArg BitVec.toNat hin.symm),
    (congrArg BitVec.toNat hin).trans_le (hlenOk.2.trans_eq (congrArg Params.inMax hbuild.symm))⟩

end Sys2Proof.Machine
end

section
/-! PROOFS. Every kind of event keeps `State.Current`, given the invariant; so every step does. -/

namespace Sys2Proof.Machine

/-- The stages keep the data and what the valid flags say of it. -/
theorem dataCurrent_keptByStages : KeptByStages (fun s => DataInv s ∧ s.Current) where
  count h hu := ⟨countBody_dataInv h.1 hu, countBody_current hu⟩
  buildTree h hf hu := ⟨buildTreeBody_dataInv h.1 hf hu, buildTreeBody_current h.1 hf hu⟩
  buildTable h ht hu := ⟨buildTableBody_dataInv h.1 ht hu, buildTableBody_current h.1 h.2 ht hu⟩
  serialize h hu := ⟨serializeBody_dataInv h.1 hu, serializeBody_current h.1 h.2 hu⟩
  parseHeader h hu := ⟨parseHeaderBody_dataInv h.1 hu, parseHeaderBody_current hu⟩
  decodePayload h hh hu := ⟨decodePayloadBody_dataInv h.1 hu, decodePayloadBody_current h.1 h.2 hh hu⟩

/-- Only a write to IN_LEN or to a byte of IN_MEM changes what a result depends on, and it clears the valid flags
(47_control.md R268). -/
theorem idleWrite_current {s : State} (h : s.Current) (t : Target) (v : Word) : (s.idleWrite t v).Current := by
  by_cases ht : t.ignoresWrites = true
  · rwa [idleWrite_of_ignoresWrites ht]
  · cases t with
    | register r => cases r with
      | inLen => exact current_of_noFlags rfl
      | cmd => exact h
      | status => exact ⟨h.tree, h.codes, h.built, h.parsed⟩
      | outCap => exact ⟨h.tree, h.codes, h.built, h.parsed⟩
      | intEn => exact ⟨h.tree, h.codes, h.built, h.parsed⟩
      | _ => exact absurd rfl ht
    | inByte a => exact current_of_noFlags rfl
    | _ => exact absurd rfl ht

/-- Every kind of event keeps the invariant together with what the valid flags say. -/
theorem invCurrent_keptByEvents : KeptByEvents (fun s => s.Inv ∧ s.Current) where
  env s e k h := ⟨inv_keptByEvents.env s e k h.1, h.2.tree, h.2.codes, h.2.built, h.2.parsed⟩
  write s size addr v h hidle := ⟨inv_keptByEvents.write s size addr v h.1 hidle, idleWrite_current h.2 _ v⟩
  nop s h hidle := ⟨inv_keptByEvents.nop s h.1 hidle, h.2.tree, h.2.codes, h.2.built, h.2.parsed⟩
  immediate s op kind sub h hidle :=
    ⟨inv_keptByEvents.immediate s op kind sub h.1 hidle, h.2.tree, h.2.codes, h.2.built, h.2.parsed⟩
  accept s op h hidle hbody hpre :=
    ⟨inv_keptByEvents.accept s op h.1 hidle hbody hpre, h.2.tree, h.2.codes, h.2.built, h.2.parsed⟩
  reset s h := ⟨inv_keptByEvents.reset s h.1, current_of_noFlags rfl⟩
  complete s t body h hbusy hbody ht := by
    refine ⟨inv_keptByEvents.complete s t body h.1 hbusy hbody ht, ?_⟩
    obtain ⟨-, hrunning, hdata⟩ := inv_iff.1 h.1
    rcases finish_cases ht with ⟨u, hu, rfl⟩ | ⟨r, -, rfl⟩
    · obtain ⟨-, hcur⟩ := dataCurrent_keptByStages.body hbody (hrunning.1 hbusy).2.1 ⟨hdata, h.2⟩ hu
      exact ⟨hcur.tree, hcur.codes, hcur.built, hcur.parsed⟩
    · exact current_of_noFlags rfl

/-- Settles O60: the results are kept by every kind of event; by a completion because each stage, on current results of
the stages before it, leaves a Huffman tree of the counts, a table with the codes of that tree, or the table that the
header in IN_MEM lists. -/
theorem stepKeepsResultsCurrent : Obligations.StepKeepsResultsCurrent := fun _ _ hs hc h =>
  (invCurrent_keptByEvents.step ⟨hs, hc⟩ h).2

end Sys2Proof.Machine
end

section
/-! PROOFS. No pseudocode of a busy command ends in a fault of the model, given the data of the invariant: a merge finds two
entries in the heap, and a tree of the shape that the invariant keeps is no deeper than TSTACK (41_priority_queue.md R133,
R136; 10_state.md R48; 42_tree_builder.md R154). -/

namespace Sys2Proof.Machine

/-- The pseudocode ends well or raises; it does not fault. -/
def NoFault {α : Type} (x : Except Halt α) : Prop := ∀ f, x ≠ .error (.fault f)

namespace NoFault

variable {α β : Type}

theorem ok (a : α) : NoFault (.ok a : Except Halt α) := fun _ h => nomatch h

theorem raise (kind : ErrKind) (sub pos : Nat) : NoFault (Machine.raise kind sub pos : Except Halt α) :=
  fun _ h => nomatch h

theorem bind {x : Except Halt α} {f : α → Except Halt β} (hx : NoFault x) (hf : ∀ a, x = .ok a → NoFault (f a)) :
    NoFault (x >>= f) := fun e h =>
  (bind_error h).elim (hx e) fun ⟨a, ha, h⟩ => hf a ha e h

theorem ite {c : Prop} [Decidable c] {x y : Except Halt α} (hx : c → NoFault x) (hy : ¬ c → NoFault y) :
    NoFault (if c then x else y) := by
  split
  · exact hx ‹_›
  · exact hy ‹_›

theorem foldlM {f : State → α → Run} (h : ∀ s x, NoFault (f s x)) (l : List α) (s : State) :
    NoFault (l.foldlM f s) := by
  induction l generalizing s with
  | nil => exact ok s
  | cons x l ih => exact bind (h s x) fun t _ => ih t

end NoFault

/-! ### Checks that raise or pass -/

theorem lengthGuard_noFault (s : State) : NoFault (lengthGuard s) :=
  .ite (fun _ => .raise _ _ _) fun _ => .ite (fun _ => .raise _ _ _) fun _ => .ok _

theorem serializeCapCheck_noFault (s : State) : NoFault (serializeCapCheck s) :=
  .ite (fun _ => .raise _ _ _) fun _ => .ok _

theorem decodeCapCheck_noFault (s : State) : NoFault (decodeCapCheck s) :=
  .ite (fun _ => .raise _ _ _) fun _ => .ok _

theorem headerCheck_noFault (ps u t : Nat) (s : State) : NoFault (headerCheck ps u t s) :=
  .ite (fun _ => .raise _ _ _) fun _ => .ite (fun _ => .raise _ _ _) fun _ => .ite (fun _ => .raise _ _ _) fun _ =>
    .ite (fun _ => .raise _ _ _) fun _ => .ite (fun _ => .raise _ _ _) fun _ => .ok _

/-! ### COUNT and SERIALIZE -/

theorem countByte_noFault (s : State) (i : Nat) : NoFault (countByte s i) :=
  .ite (fun _ => .raise _ _ _) fun _ => .ite (fun _ => .raise _ _ _) fun _ => .ok _

theorem countBody_noFault (s : State) : NoFault (countBody s) :=
  .bind (lengthGuard_noFault _) fun _ _ => .bind (.foldlM countByte_noFault _ _) fun _ _ => .ok _

theorem serializeBody_noFault (s : State) : NoFault (serializeBody s) :=
  .bind (serializeCapCheck_noFault _) fun _ _ => .ok _

/-! ### BUILD_TREE -/

/-- HeapExtractMin of a heap that is not empty (41_priority_queue.md R133). -/
theorem extractMin_noFault {s : State} (h : 0 < s.tables.heap.length) : NoFault s.extractMin := by
  obtain ⟨m, rest, hheap⟩ := List.exists_cons_of_length_pos h
  rw [State.extractMin, hheap]
  exact .ok _

/-- MergeStep of two or more entries (42_tree_builder.md R152). -/
theorem mergeStep_noFault {s : State} (h : 1 < s.tables.heap.length) : NoFault (mergeStep s) := by
  refine .bind (extractMin_noFault (by omega)) fun (a, t) ha => ?_
  obtain ⟨h', hextract, rfl⟩ := extractMin_ok ha
  have hlen : h'.length + 1 = s.tables.heap.length := Heap.extractMin_length hextract
  exact .bind (extractMin_noFault (by rw [withHeap_heap]; omega)) fun _ _ => .ok _

theorem mergeLoop_noFault (n : Nat) (s : State) : NoFault (mergeLoop n s) := by
  induction n generalizing s with
  | zero => exact .ok s
  | succ n ih => exact .ite (fun h => .bind (mergeStep_noFault h) fun t _ => ih t) fun _ => .ok s

theorem buildTreeBody_noFault (s : State) : NoFault (buildTreeBody s) :=
  .bind (mergeLoop_noFault _ _) fun _ _ => .ok _

/-! ### BUILD_TABLE -/

section

variable {n : Nat} {nodes : List Node} (hshape : ∀ q ∈ nodes.zipIdx, shapedNode n q.2 q.1 = true)

include hshape

theorem childrenBelow_of_shapedNode : childrenBelow nodes := by
  intro i x hi c hc
  have hx := hshape (x, i) (List.mem_zipIdx_iff_getElem?.2 hi)
  cases x with
  | leaf f sym => cases hc
  | internal f l r =>
    simp only [shapedNode, Bool.and_eq_true, decide_eq_true_eq] at hx
    simp only [Node.children, List.mem_cons, List.not_mem_nil, or_false] at hc
    omega

/-- With `n` leaves below the internal nodes, the tree under node `k` is at most `k + 1 − n` deep. -/
theorem Represents.height_le {k : Nat} {t : CodeTree} (ht : Represents nodes k t) : t.height ≤ k + 1 - n := by
  induction ht with
  | leaf => exact Nat.zero_le _
  | @node k f l r left right hk hl hr ihl ihr =>
    have hx := hshape (.internal f l r, k) (List.mem_zipIdx_iff_getElem?.2 hk)
    simp only [shapedNode, Bool.and_eq_true, decide_eq_true_eq] at hx
    rw [CodeTree.height]
    omega

end

/-- Under ROOT there is a tree that TSTACK can walk (10_state.md R48). -/
theorem exists_represents_of_treeShape {p : Config.Params} {t : Tables} (h : t.treeShape p) :
    ∃ c, Represents t.nodes t.root.toNat c ∧ c.height ≤ p.maxCodeLen := by
  obtain ⟨n, hn, hlen, hroot, hshape⟩ := h
  obtain ⟨c, hc⟩ := exists_represents (childrenBelow_of_shapedNode hshape) _ hroot
  have hheight := hc.height_le hshape
  refine ⟨c, hc, ?_⟩
  rw [Config.Params.nMax] at hn
  rw [Config.Params.maxCodeLen]
  omega

theorem buildTableBody_noFault {s : State} (h : s.tables.treeShape s.build) : NoFault (buildTableBody s) := by
  obtain ⟨c, hc, hheight⟩ := exists_represents_of_treeShape h
  obtain ⟨d, hwalk⟩ := walkTree_represents (s := (s.enterPhase .traverse).clearCodes) hc hheight
  rw [buildTableBody, hwalk, ok_bind]
  exact .ok _

/-! ### PARSE_HEADER -/

theorem parseEntryStart_noFault (s : State) : NoFault (parseEntryStart s) :=
  .ite (fun _ => .raise _ _ _) fun _ => .ite (fun _ => .ok _) fun _ => .ite (fun _ => .raise _ _ _) fun _ =>
    .ite (fun _ => .raise _ _ _) fun _ => .ok _

theorem parseCode_noFault (sym : Byte) (n : Nat) (c : List Bool) (s : State) : NoFault (parseCode sym n c s) := by
  induction n generalizing c s with
  | zero => exact .raise _ _ _
  | succ n ih =>
    exact .ite (fun _ => .raise _ _ _) fun _ =>
      .ite (fun _ => .ite (fun _ => .raise _ _ _) fun _ => .ok _) fun _ =>
        .ite (fun _ => .ite (fun _ => .raise _ _ _) fun _ => ih _ _) fun _ => .raise _ _ _

theorem parseEntries_noFault (n : Nat) (s : State) : NoFault (parseEntries n s) := by
  induction n generalizing s with
  | zero => exact .raise _ _ _
  | succ n ih =>
    refine .bind (parseEntryStart_noFault s) fun (r, t) _ => ?_
    cases r with
    | none => exact .ok t
    | some sym => exact .bind (parseCode_noFault _ _ _ _) fun u _ => ih u

theorem parseCounts_noFault (s : State) : NoFault (parseCounts s) := .ite (fun _ => .raise _ _ _) fun _ => .ok _

theorem parseHeaderBody_noFault (s : State) : NoFault (parseHeaderBody s) :=
  .bind (lengthGuard_noFault _) fun _ _ => .bind (parseEntries_noFault _ _) fun _ _ =>
    .bind (parseCounts_noFault _) fun _ _ => .bind (headerCheck_noFault _ _ _ _) fun _ _ => .ok _

/-! ### DECODE_PAYLOAD -/

theorem fetchBit_noFault (s : State) : NoFault (fetchBit s) := .ite (fun _ => .raise _ _ _) fun _ => .ok _

theorem matchStep_noFault (x : Bool) (a : Nat) (s : State) : NoFault (matchStep x a s) := by
  refine .ite (fun _ => .raise _ _ _) fun _ => ?_
  cases (s.growCandidate x).matchSymbol with
  | none => exact .ok _
  | some sym => exact .ok _

theorem decodeLoop_noFault (n : Nat) (s : State) : NoFault (decodeLoop n s) := by
  induction n generalizing s with
  | zero =>
    unfold decodeLoop
    exact .ite (fun _ => .raise _ _ _) fun _ => .ok s
  | succ n ih =>
    unfold decodeLoop
    exact .ite (fun _ => .bind (fetchBit_noFault s) fun _ _ => .bind (matchStep_noFault _ _ _) fun u _ => ih u)
      fun _ => .ok s

theorem decodePayloadBody_noFault (s : State) : NoFault (decodePayloadBody s) :=
  .bind (decodeCapCheck_noFault _) fun _ _ => .bind (decodeLoop_noFault _ _) fun _ _ => .ok _

/-! ### Every busy command -/

/-- COMPRESS walks the tree that its own second stage leaves (47_control.md R266). -/
theorem compressBody_noFault {s : State} (h : DataInv s) : NoFault (compressBody s) := by
  refine .bind (countBody_noFault s) fun s₁ h₁ => .bind (buildTreeBody_noFault s₁) fun s₂ h₂ => ?_
  have d₂ : DataInv s₂ := buildTreeBody_dataInv (countBody_dataInv h h₁) (countBody_freqValid h₁) h₂
  exact .bind (buildTableBody_noFault (d₂.tree (buildTreeBody_treeValid h₂))) fun s₃ _ => serializeBody_noFault s₃

theorem bodyOf_noFault {op : BitVec 4} {body : State → Run} {s : State} (hbody : bodyOf op = some body)
    (hpre : prereq op s.status = 0) (h : DataInv s) : NoFault (body s) := by
  obtain ⟨-, htree, -⟩ := prereq_eq_zero hpre
  unfold bodyOf at hbody
  split at hbody
  all_goals cases hbody
  case h_1 => exact compressBody_noFault h
  case h_2 => exact .bind (parseHeaderBody_noFault s) fun t _ => decodePayloadBody_noFault t
  case h_3 => exact countBody_noFault s
  case h_4 => exact buildTreeBody_noFault s
  case h_5 hop => exact buildTableBody_noFault (h.tree (htree (BitVec.eq_of_toNat_eq hop)))
  case h_6 => exact serializeBody_noFault s
  case h_7 => exact parseHeaderBody_noFault s
  case h_8 => exact decodePayloadBody_noFault s

end Sys2Proof.Machine
end

section
/-! PROOFS. In a state of the invariant every event gives a next state (20_memory.md R65). -/

namespace Sys2Proof.Machine

/-- Pseudocode that does not fault comes to one of its two ends. -/
theorem finish_next {r : Run} (h : NoFault r) (s : State) : ∃ t, finish r s = .next t := by
  match r with
  | .ok u => exact ⟨_, finish_ok u s⟩
  | .error (.raised e) => exact ⟨_, finish_raised e s⟩
  | .error (.fault f) => exact absurd rfl (h f)

section

variable {s : State} (h : s.Inv)

include h

/-- The running command completes (47_control.md R262, R263). -/
theorem completeRunning_next (hbusy : s.status.busy = true) : ∃ t, completeRunning s = .next t := by
  obtain ⟨-, hrunning, hdata⟩ := inv_iff.1 h
  obtain ⟨hbody, hpre, -⟩ := hrunning.1 hbusy
  obtain ⟨body, hbody⟩ := Option.isSome_iff_exists.1 hbody
  rw [completeRunning, hbody]
  exact finish_next (bodyOf_noFault hbody hpre hdata) s

/-- A busy command at its CMD write: ignored, refused for a missing prerequisite, or run to its end (R260 to R264). -/
theorem runCommand_next {op : BitVec 4} {body : State → Run} (hbody : bodyOf op = some body) :
    ∃ t, runCommand op body s = .next t := by
  cases hbusy : s.status.busy with
  | true => exact ⟨s, runCommand_busy _ _ hbusy⟩
  | false =>
    by_cases hpre : prereq op (request op s).status = 0
    · have hacc := inv_keptByEvents.accept s op h hbusy (by rw [hbody]; rfl) hpre
      rw [runCommand_run _ _ hbusy hpre]
      exact finish_next (bodyOf_noFault (s := accept op (request op s)) hbody hpre (inv_iff.1 hacc).2.2) _
    · exact ⟨_, runCommand_sequenceError _ _ hbusy hpre⟩

theorem exec_next (i : Instr) : ∃ t, exec i s = .next t := by
  by_cases hreset : i = .softReset
  · rw [hreset]
    exact ⟨_, rfl⟩
  · by_cases hnop : i = .nop
    · rw [hnop, exec, execNop]
      split <;> exact ⟨_, rfl⟩
    · obtain ⟨body, hbody⟩ := bodyOf_isSome hnop hreset
      rw [exec_eq_runCommand hbody]
      exact runCommand_next h hbody

/-- A CMD write, which completes its command at once, leaves it busy, or names none (47_control.md R260). -/
theorem onCmdWrite_next (v : Word) : ∃ t, onCmdWrite v s = .next t := by
  unfold onCmdWrite
  split
  · rename_i i _
    cases hacc : acceptFor (s.env.latencies.headD 0) i s with
    | none => rw [startCommand_other hacc]; exact exec_next h i
    | some a =>
      rw [startCommand_accepted hacc]
      split
      · exact exec_next (inv_keptByEvents.env s _ s.freeIdx h) i
      · exact ⟨_, rfl⟩
  · exact ⟨_, rfl⟩

theorem hostEvent_next (op : HostOp) : ∃ t, hostEvent op s = .next t := by
  cases op with
  | write size addr v =>
    by_cases ht : target s.build size addr = .register .cmd
    · rw [hostEvent, hostWrite, ht]
      exact onCmdWrite_next h v
    · exact ⟨_, hostWrite_other ht⟩
  | read size addr => exact ⟨_, rfl⟩
  | poll addr mask value =>
    rw [hostEvent]
    dsimp only
    split <;> exact ⟨_, rfl⟩
  | hwReset => exact ⟨_, rfl⟩

end

/-- Settles O59: of the three kinds of event only a command can fault, and in a state of the invariant its heap has the
entries it extracts and its tree the depth that TSTACK holds. -/
theorem stepNeverStops : Obligations.StepNeverStops := by
  intro s h
  rcases advance_cases s with ⟨hbusy, -, he⟩ | ⟨-, -, he⟩ | ⟨-, op, rest, -, he⟩
  · rw [step, he]
    exact completeRunning_next h hbusy
  · exact ⟨_, he⟩
  · rw [step, he]
    exact hostEvent_next (inv_keptByEvents.env s.tick _ s.tick.freeIdx (inv_keptByEvents.tick h)) op

end Sys2Proof.Machine
end

section
/-! PROOFS. Every step keeps memory in its canonical form (20_memory.md R62; log entry 3), and the build. -/

namespace Sys2Proof.Machine

theorem memOk_keptByEvents (p : Config.Params) : KeptByEvents (fun s => s.memOk ∧ s.build = p) where
  env _ _ _ h := h
  write s size addr v h _ := by
    cases ht : target s.build size addr with
    | register r => cases r <;> exact h
    | inByte a => exact ⟨inWrite_memOk h.1 (target_eq_inByte ht).2 _, h.2⟩
    | _ => exact h
  nop _ h _ := h
  immediate _ _ _ _ h _ := h
  accept _ _ h _ _ _ := h
  reset s h := ⟨forgetOut_memOk h.1 s.build.outMax s.freeIdx, h.2⟩
  complete s t body h _ hbody ht := by
    rcases finish_cases ht with ⟨u, hu, rfl⟩ | ⟨r, -, rfl⟩
    · have hframe := bodyOf_frame hbody hu
      exact ⟨hframe.memOk h.1, hframe.build.trans h.2⟩
    · exact ⟨forgetOut_memOk h.1 s.cap s.freeIdx, h.2⟩

/-- Settles O56: every kind of event stores at an address of its buffer, forgets, or leaves memory as it is. -/
theorem stepKeepsMemoryCanonical : Obligations.StepKeepsMemoryCanonical := fun s _ _ hmem h =>
  (memOk_keptByEvents s.build).step ⟨hmem, rfl⟩ h

end Sys2Proof.Machine
end

section
/-! PROOFS. The CMD write while BUSY (20_memory.md R66), and the step that takes a CMD write (R77). -/

namespace Sys2Proof.Machine

variable {s : State}

/-- While BUSY no CMD write is an acceptance. -/
theorem acceptFor_busy (n : Nat) (i : Instr) (h : s.status.busy = true) : acceptFor n i s = none := by
  simp [acceptFor, h]

/-- While BUSY SOFT_RESET alone has an effect (47_control.md R269). -/
theorem exec_busy (i : Instr) (h : s.status.busy = true) :
    exec i s = if i = .softReset then .next (resetAction s) else .next s := by
  by_cases hreset : i = .softReset
  · rw [if_pos hreset, hreset]; rfl
  · rw [if_neg hreset]
    by_cases hnop : i = .nop
    · rw [hnop, exec, execNop, if_pos h]
    · obtain ⟨body, hbody⟩ := bodyOf_isSome hnop hreset
      rw [exec_eq_runCommand hbody, runCommand_busy _ _ h]

/-- The value of a CMD write that resets (30_encoding.md R81). -/
theorem onCmdWrite_busy (v : Word) (h : s.status.busy = true) :
    onCmdWrite v s = if opField v = 0xF then .next (resetAction s) else .next s := by
  have hreset : decode v = .ok .softReset ↔ opField v = 0xF := Laws.Encoding.softReset v
  unfold onCmdWrite
  split
  · rename_i i hdecode
    rw [startCommand_other (acceptFor_busy _ i h), exec_busy i h]
    rw [hdecode] at hreset
    simp only [Except.ok.injEq] at hreset
    simp only [hreset]
  · rename_i op hdecode
    rw [hdecode] at hreset
    rw [illegalCommand, if_pos h, if_neg fun e => nomatch hreset.2 e]

/-- Settles O12: only a 4-byte write to 0x08 reaches CMD, and there only OP 0xF has an effect. -/
theorem busyIgnoresHostWrites : Obligations.BusyIgnoresHostWrites := by
  intro s size addr v hbusy
  by_cases hcmd : size = 4 ∧ addr = 0x08
  · obtain ⟨rfl, rfl⟩ := hcmd
    exact (onCmdWrite_busy v hbusy).trans (if_congr (by simp [opField]) rfl rfl)
  · rw [hostWrite_other fun ht => hcmd (target_eq_register ht), if_pos hbusy, if_neg fun h => hcmd ⟨h.1, h.2.1⟩]

/-- Settles O4: the step hands the CMD write's value to OnCmdWrite, and the latency list is as before. -/
theorem stepRunsTheWrittenCommand : Obligations.StepRunsTheWrittenCommand := by
  intro s v i rest hdue hhost hdecode s₁
  have hlatencies : s₁.env.latencies = s.env.latencies := State.tick_env_latencies s
  have hstep : step s = startCommand i s₁ := by
    have hwrite : step s = onCmdWrite v s₁ := by
      rw [step, advance, if_neg hdue, hhost]
      rfl
    rw [hwrite, onCmdWrite, hdecode]
  rw [hstep, ← hlatencies]
  cases hacc : acceptFor (s₁.env.latencies.headD 0) i s₁ with
  | none => exact startCommand_other hacc
  | some a => exact startCommand_accepted hacc

end Sys2Proof.Machine
end

section
/-! PROOFS. Reads while BUSY, the side effect of reads, and writes to the input (20_memory.md R67, R69). -/

namespace Sys2Proof.Machine

/-- The phase that a read while BUSY shows is one of the running command's (10_state.md R26). -/
theorem shownPhase_mem {s : State} (h : (bodyOf s.curOp).isSome = true) : s.shownPhase ∈ phasesOf s.curOp := by
  have hpos : 0 < (phasesOf s.curOp).length := List.length_pos_of_mem (headD_phasesOf_mem h)
  have hlt := Nat.mod_lt (Config.freeBits .phaseChoice s.freeIdx 8).toNat hpos
  rw [State.shownPhase, List.getD_eq_getElem _ _ hlt]
  exact List.getElem_mem hlt

/-- The fields of the STATUS word that are wider than a bit (10_state.md R24). -/
theorem Status.word_fields (t : Status) (ph : BitVec 4) :
    (t.word ph).extractLsb' 4 4 = t.errCode ∧ (t.word ph).extractLsb' 8 4 = ph
      ∧ (t.word ph).extractLsb' 12 4 = 0 ∧ (t.word ph).extractLsb' 20 12 = 0 := by
  refine ⟨field_eq fun i hi => ?_, field_eq fun i hi => ?_, field_eq fun i hi => ?_, field_eq fun i hi => ?_⟩
  all_goals
    rw [Status.word_getLsbD]
    interval_cases i <;> rfl

/-- Settles O45: STATUS reads its fixed fields (R24), and PHASE as one of the running command's. -/
theorem busyStatusRead : Obligations.BusyStatusRead := by
  intro s hbusy hbody
  have hread : s.readValue 4 0x0C = s.busyStatus := if_pos hbusy
  rw [hread, State.busyStatus]
  obtain ⟨hcode, hphase, hlow, hhigh⟩ := Status.word_fields _ s.shownPhase.code
  exact ⟨Status.word_getLsbD _ _ 0, Status.word_getLsbD _ _ 1, Status.word_getLsbD _ _ 2, Status.word_getLsbD _ _ 3,
    hcode, hlow, hhigh, s.shownPhase, shownPhase_mem hbody, hphase⟩

/-- Settles O47: the write reaches IN_LEN or its byte of IN_MEM; the two buffers have no address in common. -/
theorem inputWritesClearTheValidFlags : Obligations.InputWritesClearTheValidFlags := by
  intro s v hs hp
  refine ⟨hostWrite_register (r := .inLen) hs (by decide), fun a ha => ?_⟩
  obtain ⟨-, hin, -, -⟩ := wellFormed_bounds hp
  have ht := target_inByte hp ha
  refine ⟨(s.inWrite a (v.setWidth 8)).inputChanged, ?_, rfl, s.inWrite_inByte_same a _,
    fun a' _ hne => s.inWrite_inByte_other hne _, fun a' _ => s.inWrite_outByte _ (ha.trans_le hin) a'⟩
  rw [hostWrite_other (by rw [ht]; exact nofun), ht, if_neg (by simp [hs])]
  rfl

/-- Settles O49: only the epoch of free values moves on, while BUSY, and the record grows. -/
theorem readsHaveNoSideEffect : Obligations.ReadsHaveNoSideEffect := by
  intro s size addr
  refine ⟨_, rfl, ?_⟩
  cases hbusy : s.status.busy with
  | true => simp [State.afterRead, hbusy]
  | false => simp [State.afterRead, hbusy]

end Sys2Proof.Machine
end

section
/-! PROOFS. What COUNT, BUILD_TREE, BUILD_TABLE and PARSE_HEADER leave unchanged when they complete (20_memory.md R71). -/

namespace Sys2Proof.Machine

/-- A busy command that sets DONE ran its pseudocode to the end (47_control.md R263). -/
theorem exec_done {i : Instr} {body : State → Run} {s t : State} (hbody : bodyOf i.opcode = some body) (hidle : s.idle)
    (hdone : t.status.done = true) (h : exec i s = .next t) :
    ∃ u, body (accept i.opcode (request i.opcode s)) = .ok u ∧ t = successCommit u := by
  rw [exec_eq_runCommand hbody] at h
  rcases runCommand_cases h with ⟨hbusy, -⟩ | ⟨-, -, rfl⟩ | ⟨-, -, h⟩
  · exact absurd (hidle.symm.trans hbusy) (by decide)
  · cases hdone
  · rcases finish_cases h with hend | ⟨e, -, rfl⟩
    · exact hend
    · cases hdone

/-- BUILD_TREE writes NODE, HEAP, ROOT and its results, whatever FREQ holds (42_tree_builder.md R150). -/
theorem buildTreeBody_eq {s u : State} (hu : buildTreeBody s = .ok u) :
    ∃ ns r hp, u = buildTreeResults { s.enterPhase .merge with
      tables := { s.tables with nodes := ns, root := r, heap := hp } } := by
  obtain ⟨t, ht, rfl⟩ := buildTreeBody_ok hu
  have hload := congrArg (fun v => v.enterPhase .merge) (heapLoad_sansTree (s.enterPhase .heapLoad))
  obtain ⟨ns, r, hp, rfl⟩ := exists_of_sansTree (s := s.enterPhase .merge) ((mergeLoop_sansTree ht).trans hload)
  exact ⟨ns, _, hp, rfl⟩

/-- Settles O27: each stage is an equation that names the tables and registers it writes; memory is not among them. -/
theorem stageCommandsFrame : Obligations.StageCommandsFrame := by
  intro s t hidle hdone
  have hsame {i : Instr} (hi : i ≠ .softReset) (h : exec i s = .next t) : s.sameInput t :=
    (commandsNeverWriteTheInput i s t h).2.2 hi
  refine ⟨fun h => ⟨hsame (by decide) h, ?_⟩, fun h => ⟨hsame (by decide) h, ?_⟩, fun h => ⟨hsame (by decide) h, ?_⟩,
    fun h => ⟨hsame (by decide) h, ?_⟩⟩
  · obtain ⟨u, hu, rfl⟩ := exec_done (i := .count) rfl hidle hdone h
    obtain ⟨-, v, hv, rfl⟩ := countBody_ok hu
    obtain ⟨f, rfl⟩ := exists_of_sansCounts (foldlM_keeps countByte_sansCounts hv)
    exact ⟨fun _ => rfl, rfl, rfl⟩
  · obtain ⟨u, hu, rfl⟩ := exec_done (i := .buildTree) rfl hidle hdone h
    obtain ⟨ns, r, hp, rfl⟩ := buildTreeBody_eq hu
    exact ⟨fun _ => rfl, rfl, rfl, rfl, rfl, rfl⟩
  · obtain ⟨u, hu, rfl⟩ := exec_done (i := .buildTable) rfl hidle hdone h
    obtain ⟨v, hv, rfl⟩ := buildTableBody_ok hu
    obtain ⟨cl, cb, o, d, rfl, -, -⟩ := exists_of_sansCodes (walkTree_sansCodes hv)
    exact ⟨fun _ => rfl, rfl, rfl, rfl, rfl, rfl⟩
  · obtain ⟨u, hu, rfl⟩ := exec_done (i := .parseHeader) rfl hidle hdone h
    obtain ⟨-, v, n, m, v', hv, hcounts, -, rfl⟩ := parseHeaderBody_ok hu
    obtain ⟨-, -, -, rfl⟩ := parseCounts_ok hcounts
    obtain ⟨cl, cb, o, d, rfl, -, -⟩ := exists_of_sansCodes (parseEntries_sansCodes hv)
    exact ⟨fun _ => rfl, rfl, rfl⟩

end Sys2Proof.Machine
end

section
/-! PROOFS. The decoder and the encoder (30_encoding.md R80 to R82), and the CMD write of a reserved opcode
(47_control.md R260, R270). -/

namespace Sys2Proof.Machine

/-- The reserved bits and the OP field make up the CMD value (R80). -/
theorem extractLsb'_append_opField (v : Word) : v.extractLsb' 4 28 ++ opField v = v := by
  rw [opField, BitVec.extractLsb'_append_extractLsb'_eq_extractLsb' (by decide), BitVec.extractLsb'_eq_self]

/-- The decoder ignores bits [31:4] (R81). -/
theorem decode_append (hi : BitVec 28) (op : BitVec 4) : decode (hi ++ op) = decodeOp op := by
  have hfield : opField (hi ++ op) = op := BitVec.extractLsb'_append_eq_right
  rw [decode, hfield]

theorem decode_encodeWith (hi : BitVec 28) (i : Instr) : decode (encodeWith hi i) = .ok i :=
  (decode_append hi i.opcode).trans ((Laws.Encoding.decodeOp_eq_ok _ i).2 rfl)

/-- Settles O2: a word is its reserved bits and its OP field, and the decoder names the command of that opcode. -/
theorem decodeAndEncodeAgree : Obligations.DecodeAndEncodeAgree := by
  refine ⟨decode_encodeWith, fun v i h => ⟨v.extractLsb' 4 28, ?_⟩⟩
  have hop : opField v = i.opcode := (Laws.Encoding.decodeOp_eq_ok _ i).1 h
  rw [encodeWith, ← hop, extractLsb'_append_opField]

/-- The reserved rows of the opcode map (R82). -/
theorem decodeOp_reserved {op : BitVec 4} (hlo : 9 ≤ op.toNat) (hhi : op.toNat ≤ 14) :
    decodeOp op = .error (.reservedOpcode op) := by
  revert op
  decide

/-- Settles O1: each row is the encoding of its command. -/
theorem decoderFollowsOpcodeMap : Obligations.DecoderFollowsOpcodeMap := fun hi =>
  ⟨decode_encodeWith hi .nop, decode_encodeWith hi .compress, decode_encodeWith hi .decompress,
    decode_encodeWith hi .count, decode_encodeWith hi .buildTree, decode_encodeWith hi .buildTable,
    decode_encodeWith hi .serialize, decode_encodeWith hi .parseHeader, decode_encodeWith hi .decodePayload,
    decode_encodeWith hi .softReset, fun op hlo hhi => (decode_append hi op).trans (decodeOp_reserved hlo hhi)⟩

/-- Settles O10: the CMD write hands the reserved opcode to `illegalCommand`, which looks at BUSY. -/
theorem reservedOpcodeIsIllegalCommand : Obligations.ReservedOpcodeIsIllegalCommand := by
  intro s v hlo hhi
  have hwrite : onCmdWrite v s = .next (illegalCommand (opField v) s) := by
    rw [onCmdWrite, decode, decodeOp_reserved hlo hhi]
  rw [hwrite, illegalCommand]
  refine ⟨fun hidle => ?_, fun hbusy => by rw [if_pos hbusy]⟩
  rw [if_neg (by simp [hidle])]
  rfl

end Sys2Proof.Machine
end

section
/-! PROOFS. WAIT (30_encoding.md R88): a POLL of STATUS for BUSY = 0 while the running command lasts and after its
completion. -/

namespace Sys2Proof.Machine

variable {s t : State} {rest : List HostOp}

/-- Either end of a busy command leaves the block idle and of the host's side clears `busyLeft` only
(47_control.md R263, 60_exceptions.md R284). -/
theorem finish_idle_env {op : BitVec 4} {body : State → Run} (hbody : bodyOf op = some body)
    (h : finish (body s) s = .next t) : t.idle ∧ t.env = { s.env with busyLeft := 0 } := by
  rcases finish_cases h with ⟨u, hu, rfl⟩ | ⟨r, -, rfl⟩
  · exact ⟨rfl, congrArg (fun e : Env => { e with busyLeft := 0 }) (bodyOf_frame hbody hu).env⟩
  · exact ⟨rfl, rfl⟩

theorem completeRunning_idle_env (h : completeRunning s = .next t) :
    t.idle ∧ t.env = { s.env with busyLeft := 0 } := by
  unfold completeRunning at h
  split at h
  · rename_i body hbody
    exact finish_idle_env hbody h
  · cases h

/-- STATUS shows BUSY in bit [0], whatever the block does (10_state.md R24, 20_memory.md R69). -/
theorem readValue_status_busy (s : State) : (s.readValue 4 Reg.status.addr).getLsbD 0 = s.status.busy := by
  cases hbusy : s.status.busy with
  | true =>
    have hread : s.readValue 4 Reg.status.addr = s.busyStatus := if_pos hbusy
    rw [hread]
    exact Status.word_getLsbD _ _ 0
  | false =>
    have hread : s.readValue 4 Reg.status.addr = s.idleReg .status := readValue_idleReg hbusy .status
    rw [hread]
    exact (Status.word_getLsbD _ _ 0).trans hbusy

/-- The POLL of WAIT matches exactly when the block is idle (R87, R88). -/
theorem wait_matches_iff (s : State) : s.readValue 4 Reg.status.addr &&& 1 = 0 ↔ s.idle := by
  have hmask : s.readValue 4 Reg.status.addr &&& 1#32 = (BitVec.ofBool s.status.busy).setWidth 32 := by
    rw [BitVec.and_one_eq_setWidth_ofBool_getLsbD, readValue_status_busy]
  refine (Eq.congr_left hmask).trans ?_
  rw [State.idle]
  cases s.status.busy <;> decide

/-- WAIT in an idle block: the host gets on, and nothing else changes. -/
theorem step_wait_idle (hidle : s.idle) (hhost : s.env.host = Script.wait ++ rest) :
    step s = .next { s with env := { s.env with host := rest } } := by
  have hpoll : step s = hostEvent (.poll Reg.status.addr 1 0) { s with env := { s.env with host := rest } } := by
    rw [step, advance, if_neg (by simp [hidle]), hhost, State.tick, if_neg (by simp [hidle])]
    rfl
  rw [hpoll]
  refine (if_pos ((wait_matches_iff _).2 hidle)).trans ?_
  rw [State.afterRead, if_neg (by simp [hidle])]

/-- WAIT before the running command's time has come: one event of that time passes, the host is still at WAIT, and the
read only moves the epoch of free values on. -/
theorem step_wait_busy {n : Nat} (hbusy : s.status.busy = true) (hleft : s.env.busyLeft = n + 1)
    (hhost : s.env.host = Script.wait ++ rest) :
    step s = .next { s with env := { s.env with busyLeft := n }, freeIdx := s.freeIdx + 1 } := by
  have hpoll : step s =
      hostEvent (.poll Reg.status.addr 1 0) { s with env := { s.env with busyLeft := n, host := rest } } := by
    rw [step, advance, if_neg (by simp [hleft]), hhost, State.tick, if_pos hbusy, hleft]
    rfl
  rw [hpoll]
  refine (if_neg fun h => ?_).trans ?_
  · exact absurd (hbusy.symm.trans ((wait_matches_iff _).1 h)) (by decide)
  · simp [State.afterRead, hbusy, hhost, Script.wait]

/-- The machine's run, one step at a time. -/
theorem run_succ (k : Nat) (h : step s = .next t) :
    Host.Core.run core (k + 1) s = Host.Core.run core k t := by
  have hstep : core.step s = .next t := h
  simp only [Host.Core.run, hstep]

/-- Settles O7, by induction on the events left: each is a POLL that does not match; then come the completion and the
POLL that matches. -/
theorem waitEndsAfterCompletion : Obligations.WaitEndsAfterCompletion := by
  intro n
  induction n with
  | zero =>
    intro s rest hinv hbusy hleft hhost
    obtain ⟨t, ht⟩ := completeRunning_next hinv hbusy
    obtain ⟨hidle, henv⟩ := completeRunning_idle_env ht
    have hwait := step_wait_idle (s := t) hidle (by rw [henv]; exact hhost)
    refine ⟨{ t with env := { t.env with host := rest } }, ?_, hidle, rfl, (congrArg Env.readLog henv :)⟩
    rw [run_succ 1 ((step_of_due s hbusy hleft).trans ht), run_succ 0 hwait]
    rfl
  | succ n ih =>
    intro s rest hinv hbusy hleft hhost
    rw [run_succ (n + 2) (step_wait_busy hbusy hleft hhost)]
    exact ih _ rest (inv_keptByEvents.env s _ _ hinv) hbusy rfl hhost

end Sys2Proof.Machine
end

section
/-! PROOFS. COUNT and its length guard (40_frequency_counter.md R111 to R114, 45_parser.md R211): the counts it completes
with, and the errors in which it and the commands that begin with it or with the guard end. -/

namespace Sys2Proof.Machine

open Sys2Proof.Config (Params)

variable {s u : State}

/-! ### The end of a command -/

/-- An idle block whose prerequisite holds runs the command's pseudocode (47_control.md R260 to R263). -/
theorem exec_runs {i : Instr} {body : State → Run} (hbody : bodyOf i.opcode = some body) (hidle : s.idle)
    (hpre : prereq i.opcode (request i.opcode s).status = 0) :
    exec i s = finish (body (accept i.opcode (request i.opcode s))) (accept i.opcode (request i.opcode s)) := by
  rw [exec_eq_runCommand hbody, runCommand_run _ _ hidle hpre]

/-- A raise is the report that the host sees (60_exceptions.md R284). -/
theorem finish_failsWith {r : Run} {kind : ErrKind} {sub pos : Nat} (h : r = raise kind sub pos) (s : State) :
    failsWith (finish r s) kind.code (BitVec.ofNat 4 sub) (BitVec.ofNat 32 pos) :=
  ⟨_, by rw [h, finish_raise], rfl, rfl, rfl, rfl, rfl, rfl⟩

/-! ### The length guard -/

/-- The guard passes a legal IN_LEN (R111). -/
theorem lengthGuard_of_lenOk (h : s.lenOk) : lengthGuard s = .ok () := by
  obtain ⟨hpos, hle⟩ := h
  rcases lengthGuard_spec s with ⟨h0, -⟩ | ⟨-, hgt, -⟩ | ⟨-, -, hok⟩
  · rw [h0] at hpos; cases hpos
  · omega
  · exact hok

theorem lengthGuard_empty (h : s.regs.inLen = 0) : lengthGuard s = raise .emptyInput 0 0 := if_pos h

theorem lengthGuard_tooLong (h : s.build.inMax < s.regs.inLen.toNat) : lengthGuard s = raise .capacityExceeded 1 0 := by
  rcases lengthGuard_spec s with ⟨h0, -⟩ | ⟨-, -, hraise⟩ | ⟨-, hle, -⟩
  · rw [h0] at h; cases h
  · exact hraise
  · omega

/-- Pseudocode that ends with the raise of the length guard when the guard raises. -/
def GuardsLength (body : State → Run) : Prop := ∀ s e, lengthGuard s = .error e → body s = .error e

theorem GuardsLength.bind {body : State → Run} (h : GuardsLength body) (rest : State → Run) :
    GuardsLength (fun s => body s >>= rest) := fun s e he => by
  show body s >>= rest = _
  rw [h s e he, error_bind]

theorem countBody_guardsLength : GuardsLength countBody := fun s e he => by
  have hguard : lengthGuard (s.enterPhase .count) = .error e := he
  rw [countBody, hguard, error_bind]

theorem parseHeaderBody_guardsLength : GuardsLength parseHeaderBody := fun s e he => by
  have hguard : lengthGuard (s.enterPhase .parseHeader) = .error e := he
  rw [parseHeaderBody, hguard, error_bind]

/-- The four commands that read IN_MEM from offset 0 need no valid flag and guard the length (R111, 45_parser.md R211,
47_control.md R264). -/
theorem bodyOf_guardsLength {i : Instr} (h : i = .count ∨ i = .compress ∨ i = .parseHeader ∨ i = .decompress) :
    ∃ body, bodyOf i.opcode = some body ∧ GuardsLength body ∧ ∀ t, prereq i.opcode t = 0 := by
  rcases h with rfl | rfl | rfl | rfl
  · exact ⟨_, rfl, countBody_guardsLength, fun _ => rfl⟩
  · exact ⟨_, rfl, countBody_guardsLength.bind _, fun _ => rfl⟩
  · exact ⟨_, rfl, parseHeaderBody_guardsLength, fun _ => rfl⟩
  · exact ⟨_, rfl, parseHeaderBody_guardsLength.bind _, fun _ => rfl⟩

/-- Settles O16: the guard comes first in the pseudocode of the four commands, and its two checks exclude each other. -/
theorem lengthGuardErrors : Obligations.LengthGuardErrors := by
  intro s i hidle hi
  obtain ⟨body, hbody, hguards, hpre⟩ := bodyOf_guardsLength hi
  rw [exec_runs hbody hidle (hpre _)]
  have hraises := hguards (accept i.opcode (request i.opcode s))
  exact ⟨fun h => finish_failsWith (hraises _ (lengthGuard_empty h)) _,
    fun h => finish_failsWith (hraises _ (lengthGuard_tooLong h)) _⟩

/-! ### The counting loop -/

/-- The loop runs to its end on bytes of the alphabet (R113). -/
theorem countLoop_of_symbols {l : List Nat} (h : ∀ i ∈ l, Params.symbol s.build (s.inByte i)) :
    ∃ t, l.foldlM countByte s = .ok t := by
  induction l generalizing s with
  | nil => exact ⟨s, rfl⟩
  | cons i l ih =>
    obtain ⟨⟨hlim, hsen⟩, hl⟩ := List.forall_mem_cons.1 h
    rw [List.foldlM_cons, countByte_ok hlim hsen, ok_bind]
    exact ih hl

/-- The loop raises at the first byte outside the alphabet (R113). -/
theorem countLoop_raises {l rest : List Nat} {k : Nat} (h : ∀ i ∈ l, Params.symbol s.build (s.inByte i))
    (hbad : s.limit ≤ (s.inByte k).toNat ∨ s.inByte k = Config.sentinel) :
    (l ++ k :: rest).foldlM countByte s
      = raise .unsupportedSymbol (if s.limit ≤ (s.inByte k).toNat then 1 else 2) k := by
  obtain ⟨t, ht⟩ := countLoop_of_symbols h
  obtain ⟨f, rfl⟩ := exists_of_sansCounts (foldlM_keeps countByte_sansCounts ht)
  rw [List.foldlM_append, ht, ok_bind, List.foldlM_cons,
    countByte_bad (s := { s with tables := { s.tables with freq := f } }) hbad, raise_bind]
  rfl

/-- The offsets below `n`, cut at `k`. -/
theorem range_split {k n : Nat} (h : k < n) : ∃ rest, List.range n = List.range k ++ k :: rest := by
  obtain ⟨m, rfl⟩ := Nat.exists_eq_add_of_lt h
  exact ⟨_, by rw [Nat.add_assoc, List.range_add, List.range_succ_eq_map]; rfl⟩

/-- Behind its guard COUNT is the loop from a cleared FREQ, and its results (R112). -/
theorem countBody_of_lenOk (h : s.lenOk) :
    countBody s = (List.range s.regs.inLen.toNat).foldlM countByte (s.enterPhase .count).clearFreq
      >>= fun t => .ok (countResults t) := by
  have hguard : lengthGuard (s.enterPhase .count) = .ok () := lengthGuard_of_lenOk h
  rw [countBody, hguard, ok_bind]
  rfl

/-! ### The errors of COUNT and COMPRESS -/

/-- COUNT reports the lowest offset whose byte is outside the alphabet (R112). -/
theorem countBody_raises {k : Nat} (hlen : s.lenOk) (hk : k < s.regs.inLen.toNat)
    (hbelow : ∀ j < k, Params.symbol s.build (s.inByte j))
    (hbad : s.limit ≤ (s.inByte k).toNat ∨ s.inByte k = Config.sentinel) :
    countBody s = raise .unsupportedSymbol (if s.limit ≤ (s.inByte k).toNat then 1 else 2) k := by
  obtain ⟨rest, hrange⟩ := range_split hk
  have hloop := countLoop_raises (s := (s.enterPhase .count).clearFreq) (rest := rest)
    (fun j hj => hbelow j (List.mem_range.1 hj)) hbad
  rw [countBody_of_lenOk hlen, hrange, hloop, raise_bind]
  rfl

/-- COMPRESS begins with the pseudocode of COUNT (47_control.md R266). -/
theorem exec_failsWith_of_countBody_raises {i : Instr} (hi : i = .count ∨ i = .compress) (hidle : s.idle) {kind : ErrKind}
    {sub pos : Nat} (h : countBody (accept i.opcode (request i.opcode s)) = raise kind sub pos) :
    failsWith (exec i s) kind.code (BitVec.ofNat 4 sub) (BitVec.ofNat 32 pos) := by
  rcases hi with rfl | rfl
  · rw [exec_runs (body := countBody) rfl hidle rfl]
    exact finish_failsWith h _
  · rw [exec_runs (body := compressBody) rfl hidle rfl]
    exact finish_failsWith (by rw [compressBody, h, raise_bind]) _

/-- Settles O17: the loop counts the bytes below the offset and raises there; 0x07 is below SYM_LIMIT, so it has the
subcause of its own. -/
theorem countReportsTheFirstBadByte : Obligations.CountReportsTheFirstBadByte := by
  intro s i k hidle hi hlen hk hbelow
  have hraises (sub : Nat) (hbad : s.limit ≤ (s.inByte k).toNat ∨ s.inByte k = Config.sentinel)
      (hsub : (if s.limit ≤ (s.inByte k).toNat then 1 else 2) = sub) :
      failsWith (exec i s) 2 (BitVec.ofNat 4 sub) (BitVec.ofNat 32 k) := by
    refine exec_failsWith_of_countBody_raises hi hidle (kind := .unsupportedSymbol) ?_
    rw [← hsub]
    exact countBody_raises (s := accept i.opcode (request i.opcode s)) hlen hk hbelow hbad
  refine ⟨fun hlim => hraises 1 (.inl hlim) (if_pos hlim), fun hsen => hraises 2 (.inr hsen) (if_neg ?_)⟩
  have hlimit : s.limit = 128 ∨ s.limit = 256 := limit_cases s.build
  rw [hsen, show (0x07 : Byte).toNat = 7 from rfl]
  omega

/-! ### The success of COUNT -/

theorem clearFreq_freqAt (s : State) (k : Nat) : s.clearFreq.freqAt k = 0 := by
  rw [State.freqAt, State.clearFreq_tables_freq, List.getD_eq_getElem?_getD,
    List.getElem?_getD_replicate_default_eq]
  rfl

/-- A COUNT that ends well leaves the counts of the input and has changed FREQ, PHASE and its results alone, whatever the
sizes of the build (R112). -/
theorem countBody_counts (hu : countBody s = .ok u) :
    u.counted ∧ u.tables.freq.length = u.limit
      ∧ ∃ f, u = countResults { s.enterPhase .count with tables := { s.tables with freq := f } } := by
  obtain ⟨hguard, t, ht, rfl⟩ := countBody_ok hu
  obtain ⟨f, rfl⟩ := exists_of_sansCounts (foldlM_keeps countByte_sansCounts ht)
  obtain ⟨hlen, hsym, hcount⟩ := countLoop_ok (by simp) ht
  replace hlen : f.length = s.build.limit := hlen
  refine ⟨⟨lenOk_of_lengthGuard hguard, List.forall_mem_map.2 hsym, fun k hk => ?_, ?_, rfl⟩, hlen, f, rfl⟩
  · have hle : s.input.count (BitVec.ofNat 8 k) ≤ s.regs.inLen.toNat :=
      List.count_le_length.trans (by simp [State.input])
    refine (hcount k hk).trans ?_
    rw [clearFreq_freqAt, Nat.zero_add]
    exact Nat.mod_eq_of_lt (hle.trans_lt (BitVec.isLt _))
  · have hdistinct : f.countP (fun n => n != 0) ≤ f.length := List.countP_le_length
    have hlimit := limit_le s.build
    exact toNat_ofNat32 (show f.countP (fun n => n != 0) < _ by omega)

/-- COUNT ends well on a legal length of bytes of the alphabet (R112, R113). -/
theorem countBody_of_symbols (hlen : s.lenOk) (hsym : ∀ b ∈ s.input, Params.symbol s.build b) :
    ∃ u, countBody s = .ok u := by
  obtain ⟨t, ht⟩ := countLoop_of_symbols (s := (s.enterPhase .count).clearFreq) (List.forall_mem_map.1 hsym)
  exact ⟨countResults t, by rw [countBody_of_lenOk hlen, ht, ok_bind]⟩

/-- UNIQUE is the number of symbols that occur in the input (R112). -/
theorem unique_eq_countP (hc : s.counted) (hlen : s.tables.freq.length = s.limit) :
    s.regs.unique.toNat = (List.range s.limit).countP (fun i => decide (0 < s.input.count (BitVec.ofNat 8 i))) := by
  rw [← countedSymbols_length_eq_unique hc hlen, State.countedSymbols, ← List.countP_eq_length_filter]
  obtain ⟨-, -, hfreq, -, -⟩ := hc
  exact List.countP_congr fun i hi => by rw [hfreq i (List.mem_range.1 hi)]

/-- Settles O14: the loop runs to its end on an input over the alphabet, and leaves the counts of the input. -/
theorem countCountsTheInput : Obligations.CountCountsTheInput := by
  intro s hidle hlen hsym
  obtain ⟨u, hu⟩ := countBody_of_symbols (s := accept 3 (request 3 s)) hlen hsym
  have hexec : exec .count s = .next (successCommit u) := by
    rw [exec_runs (body := countBody) rfl hidle rfl]
    exact congrArg (finish · _) hu
  obtain ⟨hc, hfreqLen, f, rfl⟩ := countBody_counts hu
  have hunique := unique_eq_countP hc hfreqLen
  obtain ⟨-, -, hfreq, -, htotal⟩ := hc
  exact ⟨_, hexec, ⟨rfl, rfl, rfl, rfl, rfl, rfl, rfl, rfl⟩, rfl, hfreqLen, hfreq, hunique, htotal, rfl, rfl, rfl, rfl⟩

/-- FREQ is 0 outside the alphabet (R114): past SYM_LIMIT there is no entry, and 0x07 is no byte of the input. -/
theorem freqAt_eq_zero_of_not_symbol (hc : s.counted) (hlen : s.tables.freq.length = s.limit) {b : Byte}
    (hb : ¬ Params.symbol s.build b) : s.freqAt b.toNat = 0 := by
  obtain ⟨-, hsym, hfreq, -, -⟩ := hc
  by_cases hlim : b.toNat < s.limit
  · rw [hfreq _ hlim, ofNat8_toNat]
    exact List.count_eq_zero.2 fun hmem => hb (hsym b hmem)
  · rw [State.freqAt, List.getD_eq_default _ _ (by omega)]
    rfl

/-- Settles O15: a COUNT that sets DONE leaves the counts of the input. -/
theorem countInvariants : Obligations.CountInvariants := by
  intro s t hidle h hdone
  obtain ⟨u, hu, rfl⟩ := exec_done (i := .count) rfl hidle hdone h
  obtain ⟨hc, hlen, -⟩ := countBody_counts hu
  have hunique := countedSymbols_length_eq_unique hc hlen
  have ⟨_, _, _, _, htotal⟩ := hc
  have hzero (b : Byte) (hb : ¬ Params.symbol u.build b) := freqAt_eq_zero_of_not_symbol hc hlen hb
  exact ⟨(sum_freq_eq_inLen hc hlen).trans (congrArg BitVec.toNat htotal.symm), htotal,
    hunique ▸ countedSymbols_ne_nil hc, hunique ▸ countedSymbols_length_le hc,
    hzero Config.sentinel fun hb => hb.2 rfl, hzero⟩

end Sys2Proof.Machine
end

section
/-! PROOFS. The statements of the priority queue (41_priority_queue.md R133, R137), from the laws of HeapInsert and
HeapExtractMin above. -/

namespace Sys2Proof.Machine

/-- Only the empty heap gives nothing (R133). -/
theorem Heap.extractMin_eq_none_iff {key : BitVec 9 → Nat} {h : Heap} : Heap.extractMin key h = none ↔ h = [] := by
  cases h with
  | nil => exact iff_of_true rfl rfl
  | cons m h => exact iff_of_false (Option.some_ne_none _) (List.cons_ne_nil m h)

/-- Settles O18: a sift restores the order of the one entry whose place is open, by swaps alone. -/
theorem heapOperationsKeepTheHeap : Obligations.HeapOperationsKeepTheHeap := by
  intro key h ho
  refine ⟨fun k => ⟨Heap.insert_ordered ho k, Heap.insert_perm k⟩, fun m h' he => ?_⟩
  obtain ⟨ho', hperm, -, -⟩ := Heap.extractMin_ok ho he
  exact ⟨ho', hperm⟩

/-- Settles O19: HeapExtractMin returns the entry at index 0, and keys only rise along the path from index 0 to an
entry. -/
theorem heapExtractReturnsTheLeast : Obligations.HeapExtractReturnsTheLeast := by
  intro key h ho
  refine ⟨Heap.extractMin_eq_none_iff, fun m h' he => ?_⟩
  obtain ⟨-, -, hfirst, hleast⟩ := Heap.extractMin_ok ho he
  exact ⟨hfirst, hleast⟩

end Sys2Proof.Machine
end

section
/-! PROOFS. BUILD_TREE completes whatever FREQ holds (42_tree_builder.md R150), and on counts as COUNT leaves them its
result is a Huffman tree (R152, R154). -/

namespace Sys2Proof.Machine

variable {s : State}

/-! ### Every merge ends well -/

/-- HeapExtractMin of a heap that is not empty gives an entry (41_priority_queue.md R133). -/
theorem Heap.exists_extractMin {h : Heap} (key : BitVec 9 → Nat) (hpos : 0 < h.length) :
    ∃ m h', Heap.extractMin key h = some (m, h') := by
  obtain ⟨m, rest, rfl⟩ := List.exists_cons_of_length_pos hpos
  exact ⟨m, _, rfl⟩

theorem State.extractMin_of_heap {m : BitVec 9} {h : Heap}
    (he : Heap.extractMin s.nodeKey s.tables.heap = some (m, h)) : s.extractMin = .ok (m, s.withHeap h) := by
  rw [State.extractMin, he]
  rfl

/-- MergeStep joins what two extractions give (R152). -/
theorem mergeStep_of_extractMin {a b : BitVec 9} {h₁ h₂ : Heap}
    (ha : Heap.extractMin s.nodeKey s.tables.heap = some (a, h₁)) (hb : Heap.extractMin s.nodeKey h₁ = some (b, h₂)) :
    mergeStep s = .ok ((s.withHeap h₂).addNode (.internal (BitVec.ofNat 32 (s.nodeKey a + s.nodeKey b)) a b)) := by
  rw [mergeStep, State.extractMin_of_heap ha, ok_bind]
  dsimp only
  rw [State.extractMin_of_heap (s := s.withHeap h₁) hb, ok_bind]
  rfl

theorem exists_mergeStep (h : 1 < s.tables.heap.length) : ∃ u, mergeStep s = .ok u := by
  obtain ⟨a, h₁, ha⟩ := Heap.exists_extractMin s.nodeKey (h := s.tables.heap) (by omega)
  have hlen := Heap.extractMin_length ha
  obtain ⟨b, h₂, hb⟩ := Heap.exists_extractMin s.nodeKey (h := h₁) (by omega)
  exact ⟨_, mergeStep_of_extractMin ha hb⟩

theorem exists_mergeLoop (n : Nat) (s : State) : ∃ u, mergeLoop n s = .ok u := by
  induction n generalizing s with
  | zero => exact ⟨s, rfl⟩
  | succ n ih =>
    rw [mergeLoop]
    split
    · rename_i h
      obtain ⟨t, ht⟩ := exists_mergeStep h
      rw [ht, ok_bind]
      exact ih t
    · exact ⟨s, rfl⟩

theorem exists_buildTreeBody (s : State) : ∃ u, buildTreeBody s = .ok u := by
  obtain ⟨t, ht⟩ := exists_mergeLoop (heapLoad (s.enterPhase .heapLoad)).tables.heap.length
    ((heapLoad (s.enterPhase .heapLoad)).enterPhase .merge)
  exact ⟨buildTreeResults t.takeRoot, by rw [buildTreeBody, ht, ok_bind]; rfl⟩

/-! ### The command -/

/-- BUILD_TREE of an idle block with FREQ_VALID = 1 runs its pseudocode to the end (47_control.md R263, R264). -/
theorem exec_buildTree (hidle : s.idle) (hfreq : s.status.freqValid = true) :
    ∃ u, buildTreeBody (accept 4 (request 4 s)) = .ok u ∧ exec .buildTree s = .next (successCommit u) := by
  obtain ⟨u, hu⟩ := exists_buildTreeBody (accept 4 (request 4 s))
  have hpre : prereq 4 (request 4 s).status = 0 := if_pos hfreq
  refine ⟨u, hu, ?_⟩
  rw [exec_runs (i := .buildTree) (body := buildTreeBody) rfl hidle hpre]
  exact congrArg (finish · _) hu

/-- Settles O20: the merging loop always ends well, and what it writes besides the tree does not depend on FREQ. -/
theorem buildTreeCompletes : Obligations.BuildTreeCompletes := by
  intro s hidle hfreq
  obtain ⟨u, hu, hexec⟩ := exec_buildTree hidle hfreq
  obtain ⟨ns, r, hp, rfl⟩ := buildTreeBody_eq hu
  exact ⟨_, hexec, ⟨rfl, rfl, rfl, rfl, rfl, rfl, rfl, rfl⟩, rfl, rfl, rfl, by simp [hfreq]⟩

/-- Settles O21: the merging loop keeps a forest whose nodes above the leaves each join the two least of their time
(`Merging`), and its end is the tree; FREQ adds up to TOTAL, which fits a register. -/
theorem buildTreeBuildsAHuffmanTree : Obligations.BuildTreeBuildsAHuffmanTree := by
  refine ⟨fun s hidle hfreq hlen hpos hunique htotal => ?_, fun s a b h₁ h₂ ha hb =>
    ⟨_, mergeStep_of_extractMin ha hb, rfl, rfl, rfl⟩⟩
  obtain ⟨u, hu, hexec⟩ := exec_buildTree hidle hfreq
  have hcount : s.countedSymbols.length = s.regs.unique.toNat := (countedSymbols_length hlen).trans hunique.symm
  obtain ⟨htree, hhuffman, -, ns, r, hp, rfl⟩ :=
    buildTreeBody_tree (s := accept 4 (request 4 s)) hlen (hpos.trans_eq hcount.symm) (htotal.trans_lt (BitVec.isLt _)) hu
  have ⟨_, hnodes, _, _, _, _, hroot⟩ := htree
  exact ⟨_, hexec, ⟨rfl, rfl, rfl, rfl, rfl, rfl, rfl, rfl⟩, htree, hhuffman, rfl,
    hcount ▸ hnodes, hroot.trans htotal⟩

end Sys2Proof.Machine
end

section
/-! PROOFS. A code table that is exactly a list of entries (`State.tableIs`): its lengths, its bound symbols, its codes;
and the greatest length (43_code_table.md R173 to R175). -/

namespace Sys2Proof.Machine

open Sys2Proof.Config (Params)

/-! ### The greatest length -/

theorem greatestLen_eq_max? (s : State) : s.greatestLen = (s.tables.codeLen.map BitVec.toNat).max?.getD 0 := by
  rw [State.greatestLen, ← List.foldl_map (f := BitVec.toNat) (g := max), List.foldl_max, Nat.zero_max]

theorem codeLenAt_eq_getD (s : State) (i : Nat) : s.codeLenAt i = (s.tables.codeLen.map BitVec.toNat).getD i 0 :=
  (List.getD_map s.tables.codeLen 0 BitVec.toNat).symm

/-- MAXLEN is at least every CODE_LEN (R174). -/
theorem codeLenAt_le_greatestLen (s : State) (i : Nat) : s.codeLenAt i ≤ s.greatestLen := by
  rw [codeLenAt_eq_getD, greatestLen_eq_max?]
  by_cases hi : i < (s.tables.codeLen.map BitVec.toNat).length
  · rw [List.getD_eq_getElem _ _ hi]
    exact List.le_max?_getD_of_mem (List.getElem_mem hi)
  · rw [List.getD_eq_default _ _ (not_lt.1 hi)]
    exact Nat.zero_le _

/-- MAXLEN is one of the CODE_LEN (R174). -/
theorem exists_codeLenAt_eq_greatestLen {s : State} (h : s.codeSized) :
    ∃ i < s.limit, s.codeLenAt i = s.greatestLen := by
  have hne : s.tables.codeLen.map BitVec.toNat ≠ [] := by
    have hlimit : 0 < s.build.limit := by have := limit_cases s.build; omega
    rw [← List.length_pos_iff, List.length_map, h.1]
    exact hlimit
  obtain ⟨m, hm⟩ := Option.ne_none_iff_exists'.1 (List.max?_eq_none_iff.not.2 hne)
  obtain ⟨i, hi, him⟩ := List.getElem_of_mem (List.max?_mem hm)
  refine ⟨i, by rwa [List.length_map, h.1] at hi, ?_⟩
  rw [codeLenAt_eq_getD, greatestLen_eq_max?, hm, List.getD_eq_getElem _ _ hi, him, Option.getD_some]

/-! ### Entries that a table can hold -/

theorem mem_boundSymbols {u : State} {i : Nat} : i ∈ u.boundSymbols ↔ u.bound i := by simp [State.boundSymbols]

/-- Entries that a code table can hold: symbols below SYM_LIMIT, each once, with codes of legal length. A header's
entries (`Params.readableEntries`) also leave 0x07 out. -/
structure TableEntries (p : Params) (l : List (Byte × List Bool)) : Prop where
  symbol : ∀ e ∈ l, e.1.toNat < p.limit
  nodup : (l.map Prod.fst).Nodup
  length : ∀ e ∈ l, 1 ≤ e.2.length ∧ e.2.length ≤ p.maxCodeLen

section

variable {u : State} {l : List (Byte × List Bool)}

/-- A cleared table is exactly the entries bound in it (R173). -/
theorem bindCodes_clear_tableIs (hl : TableEntries u.build l) : (u.clearCodes.bindCodes l).tableIs l := by
  have hmax := maxCodeLen_le u.build
  have hlen : ∀ e ∈ l, e.2.length ≤ 255 := fun e he => (hl.length e he).2.trans (by omega)
  refine ⟨by rw [bindCodes_order]; rfl, fun e he => ?_, fun i hi hbound => ?_⟩
  · exact (bindCodes_same (clearCodes_codeSized u) hl.symbol hl.nodup hlen e he).2
  · have hi' : i < 256 := Nat.lt_of_lt_of_le hi (limit_le _)
    by_contra hnot
    refine hbound ((bindCodes_other fun e he h => hnot ?_).1.trans (clearCodes_codeLenAt u i))
    exact List.mem_map.2 ⟨e, he, (byte_eq_ofNat_iff hi').2 h.symm⟩

variable (h : u.tableIs l)

include h

theorem tableIs_codeLenAt {e : Byte × List Bool} (he : e ∈ l) : u.codeLenAt e.1.toNat = e.2.length := by
  obtain ⟨-, hcode, -⟩ := h
  rw [← hcode e he, State.codeOf, bitString_length]

/-- A bound symbol has an entry, and its code. -/
theorem exists_entry_of_tableIs {i : Nat} (hi : u.bound i) : ∃ e ∈ l, e.1.toNat = i ∧ u.codeOf i = e.2 := by
  obtain ⟨-, hcode, honly⟩ := h
  obtain ⟨hlt, hne⟩ := hi
  obtain ⟨e, he, hei⟩ := List.mem_map.1 (honly i hlt hne)
  have hi' : e.1.toNat = i := (byte_eq_ofNat_iff (Nat.lt_of_lt_of_le hlt (limit_le u.build))).1 hei
  exact ⟨e, he, hi', hi' ▸ hcode e he⟩

theorem tableIs_order_length : u.tables.order.length = l.length := by
  obtain ⟨horder, -, -⟩ := h
  rw [horder, List.length_map]

/-- When the entries do not clash, no code of the table begins another (R175, first property). -/
theorem tableIs_prefixFree (hclash : clashFree l) : u.prefixFree := by
  intro i hi j hj hij
  obtain ⟨x, hx, rfl, hcx⟩ := exists_entry_of_tableIs h (mem_boundSymbols.1 hi)
  obtain ⟨y, hy, rfl, hcy⟩ := exists_entry_of_tableIs h (mem_boundSymbols.1 hj)
  rw [hcx, hcy]
  have hsymm : Std.Symm fun x y : Byte × List Bool => ¬ x.2 <+: y.2 ∧ ¬ y.2 <+: x.2 := ⟨fun _ _ hxy => hxy.symm⟩
  exact (hclash.forall hx hy fun hxy => hij (by rw [hxy])).1

variable (hl : TableEntries u.build l)

include hl

/-- The symbol of an entry is bound. -/
theorem tableIs_bound {e : Byte × List Bool} (he : e ∈ l) : u.bound e.1.toNat := by
  refine ⟨hl.symbol e he, ?_⟩
  rw [tableIs_codeLenAt h he]
  exact Nat.one_le_iff_ne_zero.1 (hl.length e he).1

/-- The symbols with a code are those of the entries (R175, fourth property). -/
theorem tableIs_codeLenAt_ne_zero {i : Nat} (hi : i < u.limit) :
    u.codeLenAt i ≠ 0 ↔ BitVec.ofNat 8 i ∈ l.map Prod.fst := by
  have ⟨_, _, honly⟩ := h
  refine ⟨honly i hi, fun hmem => ?_⟩
  obtain ⟨e, he, hei⟩ := List.mem_map.1 hmem
  obtain ⟨-, hne⟩ := tableIs_bound h hl he
  rwa [hei, toNat_ofNat8 (Nat.lt_of_lt_of_le hi (limit_le u.build))] at hne

/-- Each bound symbol is that of one entry. -/
theorem tableIs_boundSymbols : u.boundSymbols.Perm (l.map fun e => e.1.toNat) := by
  have hnodup : (l.map fun e => e.1.toNat).Nodup := by
    rw [← Function.comp_def, ← List.map_map]
    exact hl.nodup.map fun _ _ => BitVec.eq_of_toNat_eq
  have hbound : u.boundSymbols.Nodup := List.nodup_range.filter _
  refine (List.perm_ext_iff_of_nodup hbound hnodup).2 fun i => ?_
  rw [mem_boundSymbols, List.mem_map]
  constructor
  · intro hi
    obtain ⟨e, he, hei, -⟩ := exists_entry_of_tableIs h hi
    exact ⟨e, he, hei⟩
  · rintro ⟨e, he, rfl⟩
    exact tableIs_bound h hl he

/-- A sum over the bound symbols of a function of the code length is the sum over the entries. -/
theorem tableIs_sum_boundSymbols (f : Nat → Nat) :
    (u.boundSymbols.map fun i => f (u.codeLenAt i)).sum = (l.map fun e => f e.2.length).sum := by
  rw [((tableIs_boundSymbols h hl).map _).sum_eq, List.map_map]
  exact congrArg List.sum (List.map_congr_left fun e he => congrArg f (tableIs_codeLenAt h he))

end

end Sys2Proof.Machine
end

section
/-! PROOFS. BUILD_TABLE binds each leaf of the tree under ROOT to its path (43_code_table.md R170 to R175): that it
completes and with which table, and what the properties of that table owe to the tree. -/

namespace Sys2Proof.Machine

open Sys2Proof.Config (Params)

/-! ### Completeness of a code tree -/

namespace CodeTree

/-- A tree of two or more leaves is no leaf alone: its table is its paths (R171, R172). -/
theorem table_eq_codes {t : CodeTree} (h : 2 ≤ t.leaves.length) : t.table = t.codes [] := by
  cases t with
  | leaf sym => exact absurd h (by simp [leaves])
  | node l r => rfl

/-- An infinite bit string that begins with the path to a node leads on from there to a leaf (R175, third property). -/
theorem exists_code_of_stream (t : CodeTree) (stream : Nat → Bool) (n : Nat) :
    ∃ e ∈ t.codes ((List.range n).map stream), e.2 = (List.range e.2.length).map stream := by
  induction t generalizing n with
  | leaf sym => exact ⟨_, List.mem_singleton_self _, by simp⟩
  | node l r hl hr =>
    have hnext : (List.range n).map stream ++ [stream n] = (List.range (n + 1)).map stream := by
      rw [List.range_succ, List.map_append, List.map_singleton]
    rw [codes]
    cases hbit : stream n with
    | false =>
      obtain ⟨e, he, heq⟩ := hl (n + 1)
      exact ⟨e, List.mem_append_left _ (by rwa [← hbit, hnext]), heq⟩
    | true =>
      obtain ⟨e, he, heq⟩ := hr (n + 1)
      exact ⟨e, List.mem_append_right _ (by rwa [← hbit, hnext]), heq⟩

/-- The Kraft sum of the paths behind `p` is what `p` alone takes: each node shares it between its children (R175, third
property). -/
theorem kraft_sum_codes (t : CodeTree) (p : List Bool) {m : Nat} (h : p.length + t.height ≤ m) :
    ((t.codes p).map fun e => 2 ^ (m - e.2.length)).sum = 2 ^ (m - p.length) := by
  induction t generalizing p with
  | leaf sym => simp [codes]
  | node l r hl hr =>
    rw [height] at h
    have hhalf : m - p.length = m - (p.length + 1) + 1 := by omega
    rw [codes, List.map_append, List.sum_append, hl _ (by simp; omega), hr _ (by simp; omega), List.length_append,
      List.length_append, List.length_singleton, List.length_singleton, hhalf, pow_succ, Nat.mul_two]

end CodeTree

/-- The recursive walk of NODE gives the paths of the tree there, when its fuel is more than the height (R171). -/
theorem leafCodes_of_represents {nodes : List Node} {k : Nat} {t : CodeTree} (ht : Represents nodes k t) {fuel : Nat}
    (hfuel : t.height < fuel) (p : List Bool) : leafCodes nodes fuel k p = t.codes p := by
  induction ht generalizing fuel p with
  | leaf h =>
    obtain ⟨fuel, rfl⟩ := Nat.exists_eq_add_one_of_ne_zero (Nat.ne_zero_of_lt hfuel)
    rw [leafCodes, h, CodeTree.codes]
  | node h hl hr ihl ihr =>
    obtain ⟨fuel, rfl⟩ := Nat.exists_eq_add_one_of_ne_zero (Nat.ne_zero_of_lt hfuel)
    rw [CodeTree.height] at hfuel
    rw [leafCodes, h, CodeTree.codes, ← ihl (fuel := fuel) (by omega), ← ihr (fuel := fuel) (by omega)]

/-! ### The end of BUILD_TABLE -/

/-- Where BUILD_TABLE of `s` ends when its walk binds `l` and leaves the datapath registers `d` (R170). -/
def State.afterBuildTable (s : State) (l : List (Byte × List Bool)) (d : Datapath) : State :=
  successCommit (buildTableResults (((accept 5 (request 5 s)).clearCodes.bindCodes l).withDp d))

section

variable {s : State}

/-- BUILD_TABLE of an idle block with TREE_VALID = 1 walks the tree under ROOT to the end (R170 to R172). -/
theorem exec_buildTable (hidle : s.idle) (hvalid : s.status.treeValid = true) {t : CodeTree}
    (ht : Represents s.tables.nodes s.tables.root.toNat t) (hheight : t.height ≤ s.build.maxCodeLen) :
    ∃ d, exec .buildTable s = .next (s.afterBuildTable t.table d) := by
  obtain ⟨d, hwalk⟩ := walkTree_represents (s := ((accept 5 (request 5 s)).enterPhase .traverse).clearCodes) ht hheight
  have hpre : prereq 5 (request 5 s).status = 0 := if_pos hvalid
  refine ⟨d, ?_⟩
  rw [exec_runs (i := .buildTable) (body := buildTableBody) rfl hidle hpre]
  have hbody : buildTableBody (accept 5 (request 5 s))
      = .ok (buildTableResults (((accept 5 (request 5 s)).clearCodes.bindCodes t.table).withDp d)) := by
    rw [buildTableBody, hwalk, ok_bind]
    rfl
  exact congrArg (finish · _) hbody

variable (s) (l : List (Byte × List Bool)) (d : Datapath)

/-- What the end keeps of `s`, and what it writes besides the code table (R170, R174; 47_control.md R263, R268). -/
theorem afterBuildTable_spec :
    let u := s.afterBuildTable l d
    u.completed ∧ u.regs.cmdOp = 5
      ∧ u.status.flags = (s.status.freqValid, s.status.treeValid, true, s.status.hdrValid)
      ∧ u.build = s.build ∧ u.codeSized
      ∧ u.regs.payloadBits = BitVec.ofNat 32 ((List.range s.limit).map fun i => s.freqAt i * u.codeLenAt i).sum := by
  obtain ⟨cl, cb, o, d', heq, hcl, hcb⟩ := exists_of_sansCodes
    (bindCodes_sansCodes (accept 5 (request 5 s)).clearCodes l)
  rw [State.afterBuildTable, heq]
  exact ⟨⟨rfl, rfl, rfl, rfl, rfl, rfl, rfl, rfl⟩, rfl, rfl, rfl,
    ⟨hcl.trans List.length_replicate, hcb.trans List.length_replicate⟩, rfl⟩

/-- MAXLEN is the greatest CODE_LEN (R174). -/
theorem afterBuildTable_maxLen : (s.afterBuildTable l d).regs.maxLen.toNat = (s.afterBuildTable l d).greatestLen :=
  toNat_greatestLen (s.afterBuildTable l d)

variable {l}

/-- The table is the entries that the walk binds. -/
theorem afterBuildTable_tableIs (hl : TableEntries s.build l) : (s.afterBuildTable l d).tableIs l :=
  bindCodes_clear_tableIs (u := accept 5 (request 5 s)) hl

end

/-! ### Any tree shape -/

/-- Settles O22: TSTACK holds the walk of any tree of the shape, and the results are read off the table it leaves. -/
theorem buildTableCompletes : Obligations.BuildTableCompletes := by
  intro s hidle hvalid hshape
  obtain ⟨t, ht, hheight⟩ := exists_represents_of_treeShape hshape
  obtain ⟨d, hexec⟩ := exec_buildTable hidle hvalid ht hheight
  obtain ⟨hdone, hop, hflags, -, hsized, hbits⟩ := afterBuildTable_spec s t.table d
  obtain ⟨i, hi, hlen⟩ := exists_codeLenAt_eq_greatestLen hsized
  rw [hvalid] at hflags
  refine ⟨_, hexec, hdone, hop, hflags, fun j _ => ?_, ⟨i, hi.trans_le (limit_le _), ?_⟩, hbits⟩
  · rw [afterBuildTable_maxLen]
    exact codeLenAt_le_greatestLen _ j
  · rw [afterBuildTable_maxLen, hlen]

/-- Settles O23: the walk of a leaf alone binds its symbol to "0"; no other symbol has a code, so MAXLEN is 1. -/
theorem singleLeafGetsCodeZero : Obligations.SingleLeafGetsCodeZero := by
  intro s f sym hidle hvalid hroot hsym
  obtain ⟨d, hexec⟩ := exec_buildTable hidle hvalid (.leaf hroot) (Nat.zero_le _)
  have hentries : TableEntries s.build [(sym, [false])] := by
    have hmax : 1 ≤ s.build.maxCodeLen := by
      have := limit_cases s.build
      unfold Params.maxCodeLen
      omega
    exact ⟨List.forall_mem_singleton.2 hsym, List.nodup_singleton _, by simpa using hmax⟩
  have htable := afterBuildTable_tableIs s d hentries
  have hone := tableIs_codeLenAt htable (List.mem_singleton_self _)
  obtain ⟨hdone, -, -, -, hsized, -⟩ := afterBuildTable_spec s [(sym, [false])] d
  refine ⟨_, hexec, hdone, htable, hone, BitVec.eq_of_toNat_eq ?_⟩
  obtain ⟨i, hi, hlen⟩ := exists_codeLenAt_eq_greatestLen hsized
  have hle := codeLenAt_le_greatestLen (s.afterBuildTable [(sym, [false])] d) sym.toNat
  rw [hone, List.length_singleton] at hle
  obtain ⟨e, he, rfl, -⟩ := exists_entry_of_tableIs htable ⟨hi, by omega⟩
  rw [List.mem_singleton.1 he, hone] at hlen
  exact (afterBuildTable_maxLen s _ d).trans hlen.symm

/-! ### A finished tree -/

/-- The table of a tree of the counted symbols is one that a code table can hold, when these are at most NMAX. -/
theorem table_entries {s : State} {t : CodeTree} (hmax : s.countedSymbols.length ≤ s.build.nMax)
    (hleaves : t.leaves.Perm (s.countedSymbols.map (BitVec.ofNat 8))) : TableEntries s.build t.table := by
  have hlimit := limit_cases s.build
  refine ⟨fun e he => ?_, ?_, fun e he => ?_⟩
  · have hmem : e.1 ∈ t.leaves := t.table_fst ▸ List.mem_map_of_mem he
    obtain ⟨i, hi, hie⟩ := List.mem_map.1 (hleaves.mem_iff.1 hmem)
    have hlt : i < s.build.limit := (mem_countedSymbols.1 hi).1
    rwa [← hie, toNat_ofNat8 (hlt.trans_le (limit_le _))]
  · rw [t.table_fst, hleaves.nodup_iff]
    exact countedSymbols_bytes_nodup s
  · obtain ⟨hpos, hlen⟩ := t.table_length e he
    rw [hleaves.length_eq, List.length_map] at hlen
    unfold Params.nMax at hmax
    unfold Params.maxCodeLen
    exact ⟨hpos, by omega⟩

/-- On a finished tree of at most NMAX leaves BUILD_TABLE completes, and its table is that of the tree under ROOT, whose
leaves are the counted symbols (R170 to R173). -/
theorem exec_buildTable_of_treeOk {s : State} (hidle : s.idle) (hvalid : s.status.treeValid = true) (htree : s.treeOk)
    (hmax : s.countedSymbols.length ≤ s.build.nMax) :
    ∃ t u, Represents s.tables.nodes s.tables.root.toNat t ∧ t.leaves.Perm (s.countedSymbols.map (BitVec.ofNat 8))
      ∧ t.height ≤ s.build.maxCodeLen ∧ exec .buildTable s = .next u ∧ u.completed ∧ u.build = s.build
      ∧ TableEntries u.build t.table ∧ u.tableIs t.table := by
  obtain ⟨t, ht, hleaves⟩ := exists_tree_of_treeOk htree
  have hheight : t.height ≤ s.build.maxCodeLen := by
    have hlt := t.height_lt_leaves
    rw [hleaves.length_eq, List.length_map] at hlt
    unfold Params.nMax at hmax
    unfold Params.maxCodeLen
    omega
  obtain ⟨d, hexec⟩ := exec_buildTable hidle hvalid ht hheight
  obtain ⟨hdone, -, -, hbuild, -⟩ := afterBuildTable_spec s t.table d
  have hentries := table_entries hmax hleaves
  exact ⟨t, _, ht, hleaves, hheight, hexec, hdone, hbuild, hbuild ▸ hentries, afterBuildTable_tableIs s d hentries⟩

/-- Settles O24: the table is that of the tree under ROOT, and the recursive walk of NODE gives the same paths. -/
theorem buildTableBindsLeavesToTheirPaths : Obligations.BuildTableBindsLeavesToTheirPaths := by
  intro s hidle hvalid htree htwo hmax
  obtain ⟨t, u, ht, hleaves, hheight, hexec, hdone, -, -, htable⟩ :=
    exec_buildTable_of_treeOk hidle hvalid htree hmax
  have hpaths := t.table_eq_codes (by rwa [hleaves.length_eq, List.length_map])
  refine ⟨u, hexec, hdone, ?_⟩
  rwa [leafCodes_of_represents ht (Nat.lt_succ_of_le hheight), ← hpaths]

/-- Settles O25: no path of a tree begins another, none has as many steps as there are leaves, and the leaves are the
counted symbols. -/
theorem builtTableIsPrefixFree : Obligations.BuiltTableIsPrefixFree := by
  intro s hidle hvalid htree hmax
  obtain ⟨t, u, -, hleaves, -, hexec, hdone, hbuild, hentries, htable⟩ :=
    exec_buildTable_of_treeOk hidle hvalid htree hmax
  have hlen : t.leaves.length = s.countedSymbols.length := by rw [hleaves.length_eq, List.length_map]
  refine ⟨u, hexec, hdone, tableIs_prefixFree htable t.table_clashFree, fun i hi => ?_, fun i hi => ?_, ?_⟩
  · obtain ⟨e, he, rfl, -⟩ := exists_entry_of_tableIs htable hi
    rw [tableIs_codeLenAt htable he, ← hlen]
    exact (t.table_length e he).2
  · rw [← ofNat_mem_countedSymbols hi, ← hleaves.mem_iff, ← t.table_fst]
    exact tableIs_codeLenAt_ne_zero htable hentries (hi.trans_eq (congrArg Params.limit hbuild).symm)
  · rw [tableIs_order_length htable, ← List.length_map Prod.fst, t.table_fst, hlen]

/-- Settles O26: an infinite bit string leads from ROOT to a leaf, and each internal node shares its part of the Kraft
sum between its children. -/
theorem builtTableIsComplete : Obligations.BuiltTableIsComplete := by
  intro s hidle hvalid htree htwo hmax
  obtain ⟨t, u, -, hleaves, hheight, hexec, hdone, -, hentries, htable⟩ :=
    exec_buildTable_of_treeOk hidle hvalid htree hmax
  have hpaths := t.table_eq_codes (by rwa [hleaves.length_eq, List.length_map])
  refine ⟨u, hexec, hdone, fun stream => ?_, ?_⟩
  · obtain ⟨e, he, hstream⟩ := t.exists_code_of_stream stream 0
    have he' : e ∈ t.table := hpaths ▸ he
    refine ⟨e.1.toNat, tableIs_bound htable hentries he', ?_⟩
    have ⟨_, hcode, _⟩ := htable
    rw [hcode e he', tableIs_codeLenAt htable he', ← hstream]
  · rw [tableIs_sum_boundSymbols htable hentries (fun n => 2 ^ (s.build.maxCodeLen - n)), hpaths]
    exact t.kraft_sum_codes [] (by simpa using hheight)

end Sys2Proof.Machine
end

section
/-! PROOFS. Bytes written to OUT_MEM one behind another, and SERIALIZE's header as the list of bytes that
30_encoding.md R90 gives (44_serializer.md R192 to R194). -/

namespace Sys2Proof.Machine

/-! ### A list of bytes in OUT_MEM -/

/-- `s` after stores of `bytes` to OUT_MEM from offset `a` on. -/
def State.outWrites (s : State) (a : Nat) : List Byte → State
  | [] => s
  | b :: bytes => (s.outWrite a b).outWrites (a + 1) bytes

section

variable (s : State) (a : Nat)

theorem outWrites_emits (bytes : List Byte) : Emits s (s.outWrites a bytes) := by
  induction bytes generalizing s a with
  | nil => exact .refl s
  | cons b bytes ih => exact (outWrite_emits s a b).trans (ih _ _)

theorem outWrites_append (x y : List Byte) : s.outWrites a (x ++ y) = (s.outWrites a x).outWrites (a + x.length) y := by
  induction x generalizing s a with
  | nil => rfl
  | cons b x ih =>
    rw [List.cons_append, State.outWrites, ih, State.outWrites, List.length_cons, Nat.add_right_comm, Nat.add_assoc]

@[simp] theorem withDp_outWrite (d : Datapath) (b : Byte) : (s.withDp d).outWrite a b = (s.outWrite a b).withDp d := by
  simp only [State.outWrite, apply_ite (State.withDp d)]
  rfl

@[simp] theorem withDp_outWrites (d : Datapath) (bytes : List Byte) :
    (s.withDp d).outWrites a bytes = (s.outWrites a bytes).withDp d := by
  induction bytes generalizing s a with
  | nil => rfl
  | cons b bytes ih => rw [State.outWrites, withDp_outWrite, ih, State.outWrites]

@[simp] theorem outWrites_dp (bytes : List Byte) : (s.outWrites a bytes).dp = s.dp := by
  induction bytes generalizing s a with
  | nil => rfl
  | cons b bytes ih => rw [State.outWrites, ih, State.outWrite_dp]

variable {s a}

/-- The bytes outside the range stay. -/
theorem outWrites_outByte_other {bytes : List Byte} {k : Nat} (h : k < a ∨ a + bytes.length ≤ k) :
    (s.outWrites a bytes).outByte k = s.outByte k := by
  induction bytes generalizing s a with
  | nil => rfl
  | cons b bytes ih =>
    rw [List.length_cons] at h
    rw [State.outWrites, ih (by omega), State.outWrite_outByte_other s (by omega)]

/-- The bytes written are read back. -/
theorem outWrites_outByte {bytes : List Byte} (h : a + bytes.length ≤ s.build.outMax) :
    (List.range bytes.length).map (fun k => (s.outWrites a bytes).outByte (a + k)) = bytes := by
  induction bytes generalizing s a with
  | nil => rfl
  | cons b bytes ih =>
    rw [List.length_cons] at h
    have hfirst : ((s.outWrite a b).outWrites (a + 1) bytes).outByte a = b :=
      (outWrites_outByte_other (.inl (Nat.lt_succ_self a))).trans (State.outWrite_outByte_same s (by omega) b)
    have hrest := ih (s := s.outWrite a b) (a := a + 1) (by rw [State.outWrite_build]; omega)
    rw [List.length_cons, List.range_succ_eq_map, List.map_cons, List.map_map, State.outWrites]
    refine congrArg₂ List.cons hfirst (Eq.trans (List.map_congr_left fun k _ => ?_) hrest)
    show State.outByte _ (a + (k + 1)) = State.outByte _ (a + 1 + k)
    rw [Nat.add_assoc, Nat.add_comm 1]

end

/-! ### What the emitters leave alone -/

namespace Emits

variable {s u : State} (h : Emits s u)

include h

theorem regs : u.regs = s.regs := congrArg (fun v => v.regs) h.outside
theorem tables : u.tables = s.tables := congrArg (fun v => v.tables) h.outside
theorem build : u.build = s.build := congrArg (fun v => v.build) h.outside

theorem codeOf (i : Nat) : u.codeOf i = s.codeOf i := by
  simp only [State.codeOf, State.codeLenAt, State.codeBitsAt, h.tables]

theorem payloadOf (input : List Byte) : u.payloadOf input = s.payloadOf input := by
  simp only [State.payloadOf, h.codeOf]

/-- The input, within the IN_MEM window (20_memory.md R62). -/
theorem input (hlen : s.regs.inLen.toNat ≤ 2 ^ 28) : u.input = s.input :=
  input_congr h.inByte (congrArg Regs.inLen h.regs) hlen

end Emits

/-- A loop whose round is a loop of emitters over a list that emitters do not change is one loop. -/
theorem foldl_eq_foldl_flatMap {α β : Type} {f : State → α → State} {e : State → β → State} {g : State → α → List β}
    (hf : ∀ s x, f s x = (g s x).foldl e s) (he : ∀ s y, Emits s (e s y)) {l : List α} {s : State}
    (hg : ∀ u, Emits s u → ∀ x ∈ l, g u x = g s x) : l.foldl f s = (l.flatMap (g s)).foldl e s := by
  induction l generalizing s with
  | nil => rfl
  | cons x l ih =>
    have hround : Emits s (f s x) := hf s x ▸ Emits.foldl he (g s x) s
    have hsame : ∀ y ∈ l, g (f s x) y = g s y := fun y hy => hg _ hround y (List.mem_cons_of_mem x hy)
    have hkept : ∀ u, Emits (f s x) u → ∀ y ∈ l, g u y = g (f s x) y := fun u hu y hy =>
      (hg u (hround.trans hu) y (List.mem_cons_of_mem x hy)).trans (hsame y hy).symm
    rw [List.foldl_cons, ih hkept, List.flatMap_congr hsame, List.flatMap_cons, List.foldl_append, hf]

/-! ### EmitByte -/

/-- EmitByte stores at WR_PTR and moves it on (R192). -/
theorem emitByte_eq (s : State) (b : Byte) :
    emitByte s b = (s.outWrite s.dp.wrPtr.toNat b).withDp { s.dp with wrPtr := s.dp.wrPtr + 1 } := by
  rw [emitByte, State.outWrite_dp]
  rfl

/-- Emitting bytes one by one stores them from WR_PTR on and moves it behind them. -/
theorem foldl_emitByte {bytes : List Byte} {s : State} {n : Nat} (hn : s.dp.wrPtr = BitVec.ofNat 32 n)
    (h : n + bytes.length < 2 ^ 32) : bytes.foldl emitByte s
      = (s.outWrites n bytes).withDp { s.dp with wrPtr := BitVec.ofNat 32 (n + bytes.length) } := by
  induction bytes generalizing s n with
  | nil =>
    rw [List.length_nil, Nat.add_zero, ← hn]
    rfl
  | cons b bytes ih =>
    rw [List.length_cons] at h
    have hnext : s.dp.wrPtr + 1 = BitVec.ofNat 32 (n + 1) := hn ▸ (BitVec.ofNat_add n 1).symm
    have hfirst : emitByte s b = (s.outWrite n b).withDp { s.dp with wrPtr := BitVec.ofNat 32 (n + 1) } := by
      rw [emitByte_eq, hnext, hn, toNat_ofNat32 (by omega)]
    rw [List.foldl_cons, hfirst, ih (n := n + 1) rfl (by omega), withDp_outWrites, withDp_dp, withDp_withDp,
      List.length_cons, Nat.add_assoc, Nat.add_comm 1, State.outWrites]

/-! ### The header -/

/-- EmitEntry emits the entry of its symbol (R193). -/
theorem emitEntry_eq (s : State) (sym : Byte) :
    emitEntry s sym = (entryBytes (sym, s.codeOf sym.toNat)).foldl emitByte s := by
  simp [emitEntry, entryBytes, List.foldl_map]

/-- Byte `j` of a register as EmitCounts takes it is that of its number (R194, 20_memory.md R72). -/
theorem byteOf_eq (v : Word) (j : Nat) : byteOf v j = BitVec.ofNat 8 (v.toNat / 256 ^ j) := by
  refine BitVec.eq_of_toNat_eq ?_
  rw [byteOf, BitVec.extractLsb'_toNat, BitVec.toNat_ofNat, Nat.shiftRight_eq_div_pow, Nat.pow_mul]

/-- EmitCounts emits the sentinel and the two count fields (R194). -/
theorem emitCounts_eq (s : State) : emitCounts s
    = (Config.sentinel :: (countBytes s.regs.unique.toNat ++ countBytes s.regs.total.toNat)).foldl emitByte s := by
  simp only [emitCounts, countBytes, List.foldl_cons, List.foldl_append, List.foldl_map, byteOf_eq]

/-- The header is emitted from offset 0 (R190). -/
theorem emitHeader_eq (s : State) : emitHeader s
    = (headerBytes s.entries s.regs.unique.toNat s.regs.total.toNat).foldl emitByte
        (s.withDp { s.dp with wrPtr := 0 }) := by
  have hentries : s.tables.order.foldl emitEntry (s.withDp { s.dp with wrPtr := 0 })
      = (s.entries.flatMap entryBytes).foldl emitByte (s.withDp { s.dp with wrPtr := 0 }) := by
    rw [foldl_eq_foldl_flatMap emitEntry_eq emitByte_emits fun u hu b _ => by rw [hu.codeOf], State.entries,
      List.flatMap_map]
    rfl
  have hregs := (Emits.foldl emitByte_emits (s.entries.flatMap entryBytes) (s.withDp { s.dp with wrPtr := 0 })).regs
  rw [← hentries] at hregs
  show emitCounts (s.tables.order.foldl emitEntry (s.withDp { s.dp with wrPtr := 0 })) = _
  rw [emitCounts_eq, hregs, headerBytes, List.foldl_append, ← hentries]
  rfl

end Sys2Proof.Machine
end

section
/-! PROOFS. The bit packer (44_serializer.md R195 to R197): a bit string packed into an empty accumulator and flushed is
emitted as the bytes of `packedBytes`, eight bits to a byte (30_encoding.md R94). -/

namespace Sys2Proof.Machine

/-! ### Bits as a number -/

/-- The number whose binary digits are `bits`, the first the highest. -/
def bitsValue (bits : List Bool) : Nat := bits.foldl (fun acc x => 2 * acc + x.toNat) 0

theorem bitsValue_concat (bits : List Bool) (x : Bool) : bitsValue (bits ++ [x]) = 2 * bitsValue bits + x.toNat :=
  List.foldl_append

theorem bitsValue_append_replicate (bits : List Bool) (m : Nat) :
    bitsValue (bits ++ List.replicate m false) = bitsValue bits * 2 ^ m := by
  induction m with
  | zero => simp
  | succ m ih =>
    rw [List.replicate_succ', ← List.append_assoc, bitsValue_concat, ih, Bool.toNat_false, pow_succ]
    ring

/-! ### Packed bytes -/

theorem packedByte_eq (bits : List Bool) (j : Nat) :
    packedByte bits j = BitVec.ofNat 8 (bitsValue ((List.range 8).map fun k => bits.getD (8 * j + k) false)) := by
  rw [packedByte, bitsValue, List.foldl_map]

/-- A partial byte has its bits on the high end and zeros below. -/
theorem packedByte_partial {bits : List Bool} (h : bits.length ≤ 8) :
    packedByte bits 0 = BitVec.ofNat 8 (bitsValue bits) <<< (8 - bits.length) := by
  have hpad : (List.range 8).map (fun k => bits.getD (8 * 0 + k) false)
      = bits ++ List.replicate (8 - bits.length) false := by
    refine List.ext_getElem (by simp; omega) fun k h₁ _ => ?_
    rw [List.getElem_map, List.getElem_range, Nat.mul_zero, Nat.zero_add, List.getElem_append]
    split
    · exact List.getD_eq_getElem _ _ _
    · rw [List.getElem_replicate]
      exact List.getD_eq_default _ _ (by omega)
  rw [packedByte_eq, hpad, bitsValue_append_replicate]
  refine BitVec.eq_of_toNat_eq ?_
  rw [BitVec.toNat_ofNat, BitVec.toNat_shiftLeft, BitVec.toNat_ofNat, Nat.shiftLeft_eq, Nat.mod_mul_mod]

theorem packedByte_full {bits : List Bool} (h : bits.length = 8) : packedByte bits 0 = BitVec.ofNat 8 (bitsValue bits) := by
  rw [packedByte_partial h.le, h, Nat.sub_self, BitVec.shiftLeft_zero]

theorem packedBytes_length (bits : List Bool) : (packedBytes bits).length = (bits.length + 7) / 8 := by
  simp [packedBytes]

/-- At most one byte. -/
theorem packedBytes_partial {bits : List Bool} (hpos : bits ≠ []) (h : bits.length ≤ 8) :
    packedBytes bits = [packedByte bits 0] := by
  have := List.length_pos_of_ne_nil hpos
  rw [packedBytes, show (bits.length + 7) / 8 = 1 by omega]
  rfl

/-- The first eight bits are the first byte. -/
theorem packedBytes_append {x : List Bool} (h : x.length = 8) (y : List Bool) :
    packedBytes (x ++ y) = packedByte x 0 :: packedBytes y := by
  have hlen : ((x ++ y).length + 7) / 8 = (y.length + 7) / 8 + 1 := by rw [List.length_append]; omega
  rw [packedBytes, hlen, List.range_succ_eq_map, List.map_cons, List.map_map]
  refine congrArg₂ List.cons ?_ (List.map_congr_left fun j _ => ?_)
  · rw [packedByte_eq, packedByte_eq]
    refine congrArg (fun l => BitVec.ofNat 8 (bitsValue l)) (List.map_congr_left fun k hk => ?_)
    have := List.mem_range.1 hk
    exact List.getD_append _ _ _ _ (by omega)
  · show packedByte (x ++ y) (j + 1) = packedByte y j
    rw [packedByte_eq, packedByte_eq]
    refine congrArg (fun l => BitVec.ofNat 8 (bitsValue l)) (List.map_congr_left fun k _ => ?_)
    rw [List.getD_append_right _ _ _ _ (by omega)]
    congr 1
    omega

/-! ### PackBit -/

/-- One more bit at the low end (R196). -/
theorem shiftLeft_or_ofBool (v : Nat) (x : Bool) :
    BitVec.ofNat 8 v <<< 1 ||| (BitVec.ofBool x).setWidth 8 = BitVec.ofNat 8 (2 * v + x.toNat) := by
  have hshift : BitVec.ofNat 8 (2 * v) = BitVec.ofNat 8 v <<< 1 := by
    refine BitVec.eq_of_toNat_eq ?_
    rw [BitVec.toNat_shiftLeft, BitVec.toNat_ofNat, BitVec.toNat_ofNat, Nat.shiftLeft_eq, Nat.mod_mul_mod, pow_one,
      Nat.mul_comm]
  have hbit : (BitVec.ofBool x).setWidth 8 = BitVec.ofNat 8 x.toNat := by cases x <;> rfl
  have hor : 2 * v + x.toNat = 2 * v ||| x.toNat := by
    rw [← pow_one 2, Nat.mul_comm, ← Nat.shiftLeft_eq, Nat.shiftLeft_add_eq_or_of_lt (Bool.toNat_lt x)]
  rw [hor, BitVec.ofNat_or, hshift, hbit]

section

variable {s : State}

/-- PackBit with room left in the accumulator (R196). -/
theorem packBit_lt (x : Bool) (h : s.dp.accN.toNat < 7) : packBit s x = s.withDp { s.dp with
    acc := s.dp.acc <<< 1 ||| (BitVec.ofBool x).setWidth 8, accN := BitVec.ofNat 3 (s.dp.accN.toNat + 1) } := by
  rw [packBit]
  exact if_neg (by omega)

/-- PackBit of the eighth bit emits the byte (R196). -/
theorem packBit_eighth (x : Bool) (h : s.dp.accN.toNat = 7) :
    packBit s x = (emitByte s (s.dp.acc <<< 1 ||| (BitVec.ofBool x).setWidth 8)).withDp
      { (emitByte s (s.dp.acc <<< 1 ||| (BitVec.ofBool x).setWidth 8)).dp with acc := 0, accN := 0 } := by
  rw [packBit]
  exact if_pos (by omega)

/-- Flush of an empty accumulator (R197). -/
theorem flushBits_empty (h : s.dp.accN = 0) : flushBits s = s := if_neg (by rw [h]; decide)

/-- Flush of a partial byte (R197). -/
theorem flushBits_partial (h : 0 < s.dp.accN.toNat) :
    flushBits s = (emitByte s (s.dp.acc <<< (8 - s.dp.accN.toNat))).withDp
      { (emitByte s (s.dp.acc <<< (8 - s.dp.accN.toNat))).dp with acc := 0, accN := 0 } := if_pos h

variable (hacc : s.dp.acc = 0) (hn : s.dp.accN = 0)

include hacc hn

theorem withDp_emptied : s.withDp { s.dp with acc := 0, accN := 0 } = s := by
  rw [← hacc, ← hn]
  rfl

/-- What a partly filled accumulator leaves behind when a byte is emitted from it. -/
theorem emitByte_emptied (a : BitVec 8) (n : BitVec 3) (b : Byte) :
    let t := emitByte (s.withDp { s.dp with acc := a, accN := n }) b
    t.withDp { t.dp with acc := 0, accN := 0 } = emitByte s b := by
  intro t
  have ht : t.withDp { t.dp with acc := 0, accN := 0 }
      = (emitByte s b).withDp { (emitByte s b).dp with acc := 0, accN := 0 } := by
    simp only [t, emitByte_eq, withDp_outWrite, withDp_dp, withDp_withDp]
  rw [ht, withDp_emptied (by rwa [emitByte_dp_acc]) (by rwa [emitByte_dp_accN])]

/-- Fewer than eight bits stay in the accumulator. -/
theorem foldl_packBit_lt {bits : List Bool} (h : bits.length < 8) : bits.foldl packBit s
    = s.withDp { s.dp with acc := BitVec.ofNat 8 (bitsValue bits), accN := BitVec.ofNat 3 bits.length } := by
  induction bits using List.reverseRecOn with
  | nil =>
    exact (withDp_emptied hacc hn).symm
  | append_singleton bits x ih =>
    rw [List.length_append, List.length_singleton] at h
    have hlen : (BitVec.ofNat 3 bits.length).toNat = bits.length := by
      rw [BitVec.toNat_ofNat, Nat.mod_eq_of_lt (by omega)]
    rw [List.foldl_concat, ih (by omega), packBit_lt x (by rw [withDp_dp, hlen]; omega), withDp_withDp, withDp_dp, hlen,
      shiftLeft_or_ofBool, bitsValue_concat, List.length_append, List.length_singleton]

/-- Eight bits are emitted as one byte, and the accumulator is empty again (R196). -/
theorem foldl_packBit_eight {bits : List Bool} (h : bits.length = 8) :
    bits.foldl packBit s = emitByte s (packedByte bits 0) := by
  rcases List.eq_nil_or_concat bits with rfl | ⟨first, x, rfl⟩
  · cases h
  · rw [List.concat_eq_append] at h ⊢
    have hseven : first.length = 7 := by simpa using h
    rw [List.foldl_concat, foldl_packBit_lt hacc hn (by omega), packBit_eighth x (by rw [withDp_dp, hseven]; rfl),
      emitByte_emptied hacc hn, withDp_dp, shiftLeft_or_ofBool, ← bitsValue_concat, ← packedByte_full h]

/-- A bit string packed and flushed is emitted as its packed bytes (30_encoding.md R94). -/
theorem flushBits_foldl_packBit (bits : List Bool) :
    flushBits (bits.foldl packBit s) = (packedBytes bits).foldl emitByte s := by
  induction hlen : bits.length using Nat.strong_induction_on generalizing bits s with
  | _ n ih =>
    subst hlen
    rcases Nat.lt_or_ge bits.length 8 with hlt | hge
    · rw [foldl_packBit_lt hacc hn hlt]
      by_cases hnil : bits = []
      · subst hnil
        rw [flushBits_empty rfl]
        exact withDp_emptied hacc hn
      · have hpos := List.length_pos_of_ne_nil hnil
        have haccN : (BitVec.ofNat 3 bits.length).toNat = bits.length := by
          rw [BitVec.toNat_ofNat, Nat.mod_eq_of_lt (by omega)]
        rw [packedBytes_partial hnil hlt.le, packedByte_partial hlt.le, flushBits_partial (by rwa [withDp_dp, haccN]),
          emitByte_emptied hacc hn, withDp_dp, haccN]
        rfl
    · obtain ⟨x, y, rfl, hx⟩ : ∃ x y, bits = x ++ y ∧ x.length = 8 :=
        ⟨bits.take 8, bits.drop 8, (List.take_append_drop 8 bits).symm, List.length_take_of_le hge⟩
      rw [List.foldl_append, foldl_packBit_eight hacc hn hx, packedBytes_append hx, List.foldl_cons]
      exact ih y.length (by rw [List.length_append]; omega) (by rwa [emitByte_dp_acc]) (by rwa [emitByte_dp_accN]) y rfl

end

/-- Settles O30: seven bits stay in the accumulator, the eighth emits them; a partial byte is shifted up to the top. -/
theorem packerFillsBytesFromTheTop : Obligations.PackerFillsBytesFromTheTop := by
  refine fun s => ⟨flushBits_empty, fun b₀ b₁ b₂ b₃ b₄ b₅ b₆ b₇ hacc hn => ?_, fun n hpos hle hn => ?_⟩
  · have hbyte (b₀ b₁ b₂ b₃ b₄ b₅ b₆ b₇ : Bool) : packedByte [b₀, b₁, b₂, b₃, b₄, b₅, b₆, b₇] 0
        = BitVec.ofBool b₀ ++ BitVec.ofBool b₁ ++ BitVec.ofBool b₂ ++ BitVec.ofBool b₃
          ++ BitVec.ofBool b₄ ++ BitVec.ofBool b₅ ++ BitVec.ofBool b₆ ++ BitVec.ofBool b₇ := by
      revert b₀ b₁ b₂ b₃ b₄ b₅ b₆ b₇
      decide
    rw [foldl_packBit_eight hacc hn rfl, hbyte]
  · refine ⟨s.dp.acc <<< (8 - n), ?_, fun k hk => ?_, fun k hk => ?_⟩
    · rw [flushBits_partial (by omega), hn]
      rfl
    · simp [hk]
    · simp; omega

end Sys2Proof.Machine
end

section
/-! PROOFS. SERIALIZE writes the container of 30_encoding.md R90 and OUT_LEN (44_serializer.md R190 to R195, R198), or ends
in CapacityExceeded before its first byte (R191). -/

namespace Sys2Proof.Machine

/-! ### The container -/

/-- The header of the code table and the counts of `s` (30_encoding.md R90). -/
def State.header (s : State) : List Byte := headerBytes s.entries s.regs.unique.toNat s.regs.total.toNat

/-- The header, and the packed codes of the input. -/
def State.container (s : State) : List Byte := s.header ++ packedBytes (s.payloadOf s.input)

theorem headerBytes_length (l : List (Byte × List Bool)) (u t : Nat) :
    (headerBytes l u t).length = 9 + (l.map fun e => 2 + e.2.length).sum := by
  have hentries : (l.flatMap entryBytes).length = (l.map fun e => 2 + e.2.length).sum := by
    rw [List.length_flatMap]
    exact congrArg List.sum (List.map_congr_left fun e _ => by rw [entryBytes_length, Nat.add_comm])
  rw [headerBytes_eq, List.length_append, List.length_append, List.length_append, countBytes_length, countBytes_length,
    hentries, List.length_singleton]
  omega

/-- The length that SerializeCapCheck computes is the container's (R191, R198). -/
theorem containerLen_eq {s : State} (hbits : s.bitCount = (s.payloadOf s.input).length) :
    s.containerLen = s.container.length := by
  rw [State.containerLen, State.container, State.header, List.length_append, headerBytes_length, packedBytes_length, hbits,
    State.entries, List.map_map]
  simp [Function.comp_def, State.codeOf]

/-! ### Header and payload in OUT_MEM -/

theorem enterPhase_outWrites (s : State) (p : Phase) (a : Nat) (bytes : List Byte) :
    (s.outWrites a bytes).enterPhase p = (s.enterPhase p).outWrites a bytes := by
  induction bytes generalizing s a with
  | nil => rfl
  | cons b bytes ih =>
    have hone : (s.outWrite a b).enterPhase p = (s.enterPhase p).outWrite a b := by
      simp only [State.outWrite, apply_ite (State.enterPhase · p)]
      rfl
    rw [State.outWrites, ih, hone, State.outWrites]

/-- The payload is emitted from WR_PTR on (R190, R195). -/
theorem emitPayload_eq {s : State} (hlen : s.regs.inLen.toNat ≤ 2 ^ 28) : emitPayload s
    = (packedBytes (s.payloadOf s.input)).foldl emitByte (s.withDp { s.dp with acc := 0, accN := 0 }) := by
  have hbits : (List.range s.regs.inLen.toNat).foldl packSymbol (s.withDp { s.dp with acc := 0, accN := 0 })
      = (s.payloadOf s.input).foldl packBit (s.withDp { s.dp with acc := 0, accN := 0 }) := by
    rw [State.payloadOf, State.input, List.flatMap_map]
    refine foldl_eq_foldl_flatMap (fun _ _ => rfl) packBit_emits fun u hu i hi => ?_
    rw [hu.codeOf, hu.inByte i ((List.mem_range.1 hi).trans_le hlen)]
  rw [← flushBits_foldl_packBit rfl rfl, ← hbits]
  rfl

/-- The header fills OUT_MEM from offset 0 on (R190, R193, R194). -/
theorem emitHeader_outWrites {s : State} (h : s.header.length < 2 ^ 32) : emitHeader s
    = (s.outWrites 0 s.header).withDp { s.dp with wrPtr := BitVec.ofNat 32 s.header.length } := by
  have hemit : emitHeader s = s.header.foldl emitByte (s.withDp { s.dp with wrPtr := 0 }) := emitHeader_eq s
  rw [hemit, foldl_emitByte (n := 0) rfl (by omega), Nat.zero_add, withDp_outWrites, withDp_withDp, withDp_dp]

/-- The payload goes on behind the bytes written before (R190, R195). -/
theorem emitPayload_outWrites {s : State} (hlen : s.regs.inLen.toNat ≤ 2 ^ 28) {bytes : List Byte} (d : Datapath)
    (h : bytes.length + (packedBytes (s.payloadOf s.input)).length < 2 ^ 32) :
    emitPayload ((s.outWrites 0 bytes).withDp { d with wrPtr := BitVec.ofNat 32 bytes.length })
      = (s.outWrites 0 (bytes ++ packedBytes (s.payloadOf s.input))).withDp
        { d with
          wrPtr := BitVec.ofNat 32 (bytes ++ packedBytes (s.payloadOf s.input)).length, acc := 0, accN := 0 } := by
  have hemits : Emits s ((s.outWrites 0 bytes).withDp { d with wrPtr := BitVec.ofNat 32 bytes.length }) :=
    (outWrites_emits s 0 bytes).withDp _
  rw [emitPayload_eq (by rwa [hemits.regs]), hemits.input hlen, hemits.payloadOf, withDp_withDp, withDp_dp,
    foldl_emitByte (n := bytes.length) rfl h, withDp_outWrites, withDp_withDp, withDp_dp, outWrites_append, Nat.zero_add,
    List.length_append]

/-- Where SERIALIZE's pseudocode ends: the container in OUT_MEM from offset 0 on, its length in OUT_LEN, and an empty
accumulator. -/
def State.afterSerialize (s : State) : State :=
  serializeResults (((s.enterPhase .emitPayload).outWrites 0 s.container).withDp
    { s.dp with wrPtr := BitVec.ofNat 32 s.container.length, acc := 0, accN := 0 })

theorem afterSerialize_build (s : State) : s.afterSerialize.build = s.build :=
  (outWrites_emits (s.enterPhase .emitPayload) 0 s.container).build

section

variable {s : State} (hbuild : s.build.wellFormed = true) (hlen : s.regs.inLen.toNat ≤ 2 ^ 28)
  (hbits : s.bitCount = (s.payloadOf s.input).length) (hfits : s.containerLen ≤ s.cap)

include hbuild hbits hfits

theorem container_length_le : s.container.length ≤ s.build.outMax ∧ s.container.length ≤ 2 ^ 28 := by
  obtain ⟨-, -, -, hout⟩ := wellFormed_bounds hbuild
  have hcap : s.cap ≤ s.build.outMax := Nat.min_le_right _ _
  rw [← containerLen_eq hbits]
  exact ⟨hfits.trans hcap, (hfits.trans hcap).trans hout⟩

include hlen

/-- A container that fits is written (R190, R191). -/
theorem serializeBody_of_fits : serializeBody s = .ok s.afterSerialize := by
  obtain ⟨-, hmax⟩ := container_length_le hbuild hbits hfits
  have hcheck : serializeCapCheck (s.enterPhase .emitHeader) = .ok () := if_neg (Nat.not_lt.2 hfits)
  have hlength : s.container.length = s.header.length + (packedBytes (s.payloadOf s.input)).length := List.length_append
  have hheader : emitHeader (s.enterPhase .emitHeader)
      = ((s.enterPhase .emitHeader).outWrites 0 s.header).withDp
        { s.dp with wrPtr := BitVec.ofNat 32 s.header.length } :=
    emitHeader_outWrites (s := s.enterPhase .emitHeader) (show s.header.length < 2 ^ 32 by omega)
  have hphase : (((s.enterPhase .emitHeader).outWrites 0 s.header).withDp
        { s.dp with wrPtr := BitVec.ofNat 32 s.header.length }).enterPhase .emitPayload
      = ((s.enterPhase .emitPayload).outWrites 0 s.header).withDp
        { s.dp with wrPtr := BitVec.ofNat 32 s.header.length } :=
    congrArg (State.withDp _) (enterPhase_outWrites (s.enterPhase .emitHeader) .emitPayload 0 s.header)
  have hpayload := emitPayload_outWrites (s := s.enterPhase .emitPayload) hlen (bytes := s.header) s.dp
    (show s.header.length + (packedBytes (s.payloadOf s.input)).length < 2 ^ 32 by omega)
  rw [serializeBody, hcheck, ok_bind, hheader, hphase, hpayload]
  rfl

omit hlen in
/-- What SERIALIZE's pseudocode writes, and what it keeps (R190). -/
theorem afterSerialize_spec :
    let u := s.afterSerialize
    u.outHolds s.container ∧ (∀ a, s.container.length ≤ a → u.outByte a = s.outByte a)
      ∧ u.regs = { s.regs with outLen := BitVec.ofNat 32 s.container.length }
      ∧ u.status = s.status ∧ u.tables = s.tables := by
  obtain ⟨hmax, -⟩ := container_length_le hbuild hbits hfits
  have hemits := outWrites_emits (s.enterPhase .emitPayload) 0 s.container
  refine ⟨?_, fun a ha => outWrites_outByte_other (.inr (by rwa [Nat.zero_add])), ?_, ?_, hemits.tables⟩
  · have hbytes := outWrites_outByte (s := s.enterPhase .emitPayload) (a := 0) (bytes := s.container)
      (by rwa [Nat.zero_add])
    simp only [Nat.zero_add] at hbytes
    exact hbytes
  · exact congrArg (fun v => { v.regs with outLen := BitVec.ofNat 32 s.container.length }) hemits.outside
  · exact congrArg (fun v => v.status) hemits.outside

end

/-! ### The command -/

/-- SERIALIZE of an idle block with current counts and a code table runs its pseudocode (47_control.md R264). -/
theorem exec_serialize {s : State} (hidle : s.idle) (hfreq : s.status.freqValid = true)
    (htable : s.status.tableValid = true) :
    exec .serialize s = finish (serializeBody (accept 6 (request 6 s))) (accept 6 (request 6 s)) := by
  have hpre : prereq 6 (request 6 s).status = 0 := (if_pos hfreq).trans (if_pos htable)
  exact exec_runs (i := .serialize) (body := serializeBody) rfl hidle hpre

/-- A busy command that runs to its end completes without an error report (47_control.md R263). -/
theorem successCommit_completed {op : BitVec 4} {s u : State} (h : BodyFrame (accept op (request op s)) u) :
    (successCommit u).completed :=
  ⟨rfl, rfl, h.err, congrArg (fun v => v.status.errCode) h.outward, congrArg (fun v => v.regs.errSub) h.outward,
    congrArg (fun v => v.regs.errPos) h.outward, rfl, rfl⟩

/-- Settles O29: header and payload are emitted as the bytes of the container, and the length check has its length. -/
theorem serializeWritesTheContainer : Obligations.SerializeWritesTheContainer := by
  intro s hidle hfreq htable hbuild hlen hbits hfits container
  have hbody := serializeBody_of_fits (s := accept 6 (request 6 s)) hbuild hlen hbits hfits
  have hexec := exec_serialize hidle hfreq htable
  rw [hbody, finish_ok] at hexec
  obtain ⟨hholds, hother, hregs, hstatus, htables⟩ :=
    afterSerialize_spec (s := accept 6 (request 6 s)) hbuild hbits hfits
  obtain ⟨-, -, hsame⟩ := commandsNeverWriteTheInput .serialize s _ hexec
  have hflags := congrArg Status.flags hstatus
  exact ⟨_, hexec, successCommit_completed (serializeBody_frame hbody), hholds, hregs, hflags, htables,
    hsame (by decide), hother⟩

end Sys2Proof.Machine
end

section
/-! PROOFS. The capacity check (44_serializer.md R191, 46_decoder.md R241, 47_control.md R266). What COUNT, BUILD_TREE and
BUILD_TABLE leave in the tables depends on the input, the build and the tables alone, so COMPRESS checks the same length as
SERIALIZE does behind the three stages. -/

namespace Sys2Proof.Machine

/-! ### Tables as a function of tables -/

/-- `r` with the build and the tables of `s`. -/
def State.carry (r s : State) : State := { r with build := s.build, tables := s.tables }

section

variable (r s : State)

theorem carry_eq_self {s' : State} (hbuild : s'.build = s.build) (htables : s'.tables = s.tables) : s'.carry s = s' := by
  rw [State.carry, ← hbuild, ← htables]

@[simp] theorem carry_tables : (r.carry s).tables = s.tables := rfl
@[simp] theorem carry_nodeKey : (r.carry s).nodeKey = s.nodeKey := rfl

theorem bindCodes_carry (l : List (Byte × List Bool)) : (r.carry s).bindCodes l = r.carry (s.bindCodes l) :=
  List.foldl_hom (State.carry r) fun _ _ => rfl

theorem loadSymbol_carry (i : Nat) : loadSymbol (r.carry s) i = r.carry (loadSymbol s i) := by
  simp only [loadSymbol, apply_ite (State.carry r)]
  rfl

theorem heapLoad_carry : heapLoad (r.carry s) = r.carry (heapLoad s) :=
  List.foldl_hom (State.carry r) (init := { s with tables := { s.tables with heap := [], nodes := [] } })
    (loadSymbol_carry r)

theorem extractMin_carry : (r.carry s).extractMin = (fun p => (p.1, r.carry p.2)) <$> s.extractMin := by
  unfold State.extractMin
  rw [carry_nodeKey, carry_tables]
  cases Heap.extractMin s.nodeKey s.tables.heap <;> rfl

theorem addNode_carry (n : Node) : (r.carry s).addNode n = r.carry (s.addNode n) := rfl

theorem mergeStep_carry : mergeStep (r.carry s) = State.carry r <$> mergeStep s := by
  simp [mergeStep, extractMin_carry, addNode_carry]

theorem mergeLoop_carry (n : Nat) : mergeLoop n (r.carry s) = State.carry r <$> mergeLoop n s := by
  induction n generalizing s with
  | zero => rfl
  | succ n ih => simp [mergeLoop, mergeStep_carry, ih]

end

section

variable {s s' u u' : State} (hbuild : s'.build = s.build) (htables : s'.tables = s.tables)

include hbuild htables

/-- COUNT of the same input leaves the same tables (40_frequency_counter.md R112). -/
theorem countBody_tables_congr (hinput : s'.input = s.input) (hu : countBody s = .ok u) (hu' : countBody s' = .ok u') :
    u'.tables = u.tables := by
  obtain ⟨⟨-, -, hcount, -, -⟩, hlen, f, rfl⟩ := countBody_counts hu
  obtain ⟨⟨-, -, hcount', -, -⟩, hlen', f', rfl⟩ := countBody_counts hu'
  have hlimit : s'.limit = s.limit := congrArg Config.Params.limit hbuild
  have hmap : f'.map (·.toNat) = f.map (·.toNat) := by
    refine (freq_eq_map hlen').trans (Eq.trans ?_ (freq_eq_map hlen).symm)
    show (List.range s'.limit).map _ = (List.range s.limit).map _
    rw [hlimit]
    refine List.map_congr_left fun i hi => ?_
    have hi := List.mem_range.1 hi
    exact (hcount' i (hlimit ▸ hi)).trans ((congrArg (List.count _) hinput).trans (hcount i hi).symm)
  have hfreq : f' = f := List.map_injective_iff.2 (fun _ _ => BitVec.eq_of_toNat_eq) hmap
  show { s'.tables with freq := f' } = { s.tables with freq := f }
  rw [hfreq, htables]

/-- BUILD_TREE leaves the same tables whatever stands outside them (42_tree_builder.md R150). -/
theorem buildTreeBody_tables_congr (hu : buildTreeBody s = .ok u) (hu' : buildTreeBody s' = .ok u') :
    u'.tables = u.tables := by
  obtain ⟨t, ht, rfl⟩ := buildTreeBody_ok hu
  obtain ⟨t', ht', rfl⟩ := buildTreeBody_ok hu'
  have hload : heapLoad (s'.enterPhase .heapLoad) = (s'.enterPhase .heapLoad).carry (heapLoad (s.enterPhase .heapLoad)) := by
    rw [← heapLoad_carry]
    exact congrArg heapLoad (carry_eq_self (s.enterPhase .heapLoad) (s' := s'.enterPhase .heapLoad) hbuild htables).symm
  have hmerge : (heapLoad (s'.enterPhase .heapLoad)).enterPhase .merge
      = (s'.enterPhase .merge).carry ((heapLoad (s.enterPhase .heapLoad)).enterPhase .merge) := by
    rw [hload]
    rfl
  rw [hmerge, mergeLoop_carry, hload, carry_tables, ht] at ht'
  cases ht'
  rfl

/-- BUILD_TABLE on a finished tree completes and leaves the same tables whatever stands outside them (43_code_table.md
R170). -/
theorem exists_buildTableBody_congr (ht : s.treeOk) (hmax : s.countedSymbols.length ≤ s.build.nMax)
    (hu : buildTableBody s = .ok u) : ∃ u', buildTableBody s' = .ok u' ∧ u'.tables = u.tables := by
  obtain ⟨v, hv, rfl⟩ := buildTableBody_ok hu
  obtain ⟨t, hrep, hleaves⟩ := exists_tree_of_treeOk ht
  have hheight : t.height ≤ s.build.maxCodeLen := by
    have hlt := t.height_lt_leaves
    rw [hleaves.length_eq, List.length_map] at hlt
    unfold Config.Params.nMax at hmax
    unfold Config.Params.maxCodeLen
    omega
  obtain ⟨d, hwalk⟩ := walkTree_represents (s := (s.enterPhase .traverse).clearCodes) hrep hheight
  rw [hwalk] at hv
  cases hv
  have hclear : (s'.enterPhase .traverse).clearCodes = (s'.enterPhase .traverse).carry (s.enterPhase .traverse).clearCodes :=
    congrArg State.clearCodes (carry_eq_self (s.enterPhase .traverse) (s' := s'.enterPhase .traverse) hbuild htables).symm
  obtain ⟨d', hwalk'⟩ := walkTree_represents
    (s := (s'.enterPhase .traverse).carry (s.enterPhase .traverse).clearCodes) hrep hheight
  refine ⟨_, by rw [buildTableBody, hclear, hwalk', ok_bind]; rfl, ?_⟩
  rw [bindCodes_carry]
  rfl

end

/-! ### The three stages before SERIALIZE -/

/-- A BUILD_TREE on current counts leaves them current, and a finished tree (42_tree_builder.md R154). -/
theorem buildTreeBody_of_counted {s u : State} (hc : s.counted) (hlen : s.tables.freq.length = s.limit)
    (hu : buildTreeBody s = .ok u) : u.treeOk ∧ u.counted ∧ u.tables.freq.length = u.limit
      ∧ u.countedSymbols.length ≤ u.build.nMax := by
  have hsum : (s.tables.freq.map (·.toNat)).sum < 2 ^ 32 := by
    rw [sum_freq_eq_inLen hc hlen]
    exact BitVec.isLt _
  obtain ⟨htree, -, -, ns, r, hp, rfl⟩ := buildTreeBody_tree hlen (countedSymbols_ne_nil hc) hsum hu
  exact ⟨htree, hc, hlen, countedSymbols_length_le hc⟩

/-- A command's pseudocode leaves the capacity alone (10_state.md R31). -/
theorem BodyFrame.cap {s u : State} (h : BodyFrame s u) : u.cap = s.cap := by
  obtain ⟨-, -, hcap, -, hbuild, -⟩ := h.sameInput
  rw [State.cap, hcap, hbuild, State.cap]

/-- COMPRESS reaches SERIALIZE with the tables that COUNT, BUILD_TREE and BUILD_TABLE leave one after another
(47_control.md R266). -/
theorem exists_compressBody_eq {s a b c : State} (hidle : s.idle) (ha : exec .count s = .next a)
    (hadone : a.status.done = true) (hb : exec .buildTree a = .next b) (hbdone : b.status.done = true)
    (hc : exec .buildTable b = .next c) (hcdone : c.status.done = true) :
    ∃ v, compressBody (accept 1 (request 1 s)) = serializeBody v ∧ v.build = c.build ∧ v.tables = c.tables
      ∧ v.cap = c.cap := by
  obtain ⟨u₁, h₁, rfl⟩ := exec_done (i := .count) rfl hidle hadone ha
  obtain ⟨u₂, h₂, rfl⟩ := exec_done (i := .buildTree) rfl rfl hbdone hb
  obtain ⟨u₃, h₃, rfl⟩ := exec_done (i := .buildTable) rfl rfl hcdone hc
  have f₁ := countBody_frame h₁
  have f₂ := buildTreeBody_frame h₂
  have f₃ := buildTableBody_frame h₃
  have ⟨hcounted, hlen, f, hu₁⟩ := countBody_counts h₁
  obtain ⟨htree, -, -, hmax⟩ := buildTreeBody_of_counted (s := accept 4 (request 4 (successCommit u₁))) hcounted hlen h₂
  obtain ⟨hlenOk, hsym, -⟩ := hcounted
  rw [hu₁] at hlenOk hsym
  obtain ⟨v₁, e₁⟩ := countBody_of_symbols (s := accept 1 (request 1 s)) hlenOk hsym
  obtain ⟨v₂, e₂⟩ := exists_buildTreeBody v₁
  have g₁ := countBody_frame e₁
  have g₂ := buildTreeBody_frame e₂
  have t₁ := countBody_tables_congr (s := accept 3 (request 3 s)) (s' := accept 1 (request 1 s)) rfl rfl rfl h₁ e₁
  have b₁ : v₁.build = u₁.build := g₁.build.trans f₁.build.symm
  have t₂ := buildTreeBody_tables_congr (s := accept 4 (request 4 (successCommit u₁))) b₁ t₁ h₂ e₂
  have b₂ : v₂.build = u₂.build := g₂.build.trans (b₁.trans f₂.build.symm)
  obtain ⟨v₃, e₃, t₃⟩ := exists_buildTableBody_congr (s := accept 5 (request 5 (successCommit u₂))) b₂ t₂ htree hmax h₃
  have g₃ := buildTableBody_frame e₃
  refine ⟨v₃, by rw [compressBody, e₁, ok_bind, e₂, ok_bind, e₃, ok_bind], g₃.build.trans (b₂.trans f₃.build.symm), t₃, ?_⟩
  have hcap : u₃.cap = s.cap := f₃.cap.trans (f₂.cap.trans f₁.cap)
  exact (g₃.cap.trans (g₂.cap.trans g₁.cap)).trans hcap.symm

/-! ### The errors -/

theorem serializeBody_tooLong {s : State} (h : s.cap < s.containerLen) :
    serializeBody s = raise .capacityExceeded 2 0 := by
  have hcheck : serializeCapCheck (s.enterPhase .emitHeader) = raise .capacityExceeded 2 0 := if_pos h
  rw [serializeBody, hcheck, raise_bind]

theorem decodePayloadBody_tooLong {s : State} (h : s.cap < s.regs.total.toNat) :
    decodePayloadBody s = raise .capacityExceeded 3 0 := by
  have hcheck : decodeCapCheck (s.enterPhase .decode) = raise .capacityExceeded 3 0 := if_pos h
  rw [decodePayloadBody, hcheck, raise_bind]

/-- Settles O28: the check comes before the first byte, and COMPRESS makes it on the tables of its first three stages. -/
theorem capacityIsCheckedFirst : Obligations.CapacityIsCheckedFirst := by
  intro s hidle
  refine ⟨fun hfreq htable hlong => ?_, fun hhdr hlong => ?_, fun a b c ha hadone hb hbdone hc hcdone hlong => ?_⟩
  · rw [exec_serialize hidle hfreq htable]
    exact finish_failsWith (serializeBody_tooLong (s := accept 6 (request 6 s)) hlong) _
  · have hpre : prereq 8 (request 8 s).status = 0 := if_pos hhdr
    rw [exec_runs (i := .decodePayload) (body := decodePayloadBody) rfl hidle hpre]
    exact finish_failsWith (decodePayloadBody_tooLong (s := accept 8 (request 8 s)) hlong) _
  · obtain ⟨v, hbody, hbuild, htables, hcap⟩ := exists_compressBody_eq hidle ha hadone hb hbdone hc hcdone
    have hlong' : v.cap < v.containerLen := by
      rw [hcap, ← carry_eq_self c hbuild htables]
      exact hlong
    rw [exec_runs (i := .compress) (body := compressBody) rfl hidle rfl]
    exact finish_failsWith (hbody.trans (serializeBody_tooLong hlong')) _

end Sys2Proof.Machine
end

section
/-! PROOFS. The parser reads a legal header to its end (45_parser.md R210 to R216): what `parseHeaderBody_reads` says of a
PARSE_HEADER that ends well, the other way round. Each part of the parser goes over the bytes that IN_MEM holds at RD_PTR. -/

namespace Sys2Proof.Machine

open Sys2Proof.Config (Params)

/-! ### Bytes in IN_MEM, taken apart -/

section

variable {s : State} {ofs : Nat}

theorem holds_of_append {x y : List Byte} (h : s.holds ofs (x ++ y)) : s.holds ofs x ∧ s.holds (ofs + x.length) y := by
  obtain ⟨hfits, hbytes⟩ := h
  rw [List.length_append] at hfits
  rw [List.length_append, List.range_add, List.map_append, List.map_map] at hbytes
  obtain ⟨hx, hy⟩ := List.append_inj hbytes (by simp)
  refine ⟨⟨by omega, hx⟩, by omega, Eq.trans (List.map_congr_left fun k _ => ?_) hy⟩
  exact congrArg s.inByte (Nat.add_assoc _ _ _)

theorem holds_of_cons {b : Byte} {l : List Byte} (h : s.holds ofs (b :: l)) :
    ofs < s.regs.inLen.toNat ∧ s.inByte ofs = b ∧ s.holds (ofs + 1) l := by
  obtain ⟨⟨hlt, hb⟩, hl⟩ := holds_of_append (x := [b]) h
  exact ⟨hlt, (List.singleton_injective hb :), hl⟩

/-- Byte `k` of what IN_MEM holds. -/
theorem holds_getElem {bytes : List Byte} (h : s.holds ofs bytes) {k : Nat} (hk : k < bytes.length) :
    s.inByte (ofs + k) = bytes[k] := by
  have hbytes := List.getElem_of_eq h.2.symm hk
  rw [hbytes, List.getElem_map, List.getElem_range]

/-- A count field is read as its number (20_memory.md R72). -/
theorem inCount_of_holds {n : Nat} (h : s.holds ofs (countBytes n)) (hn : n < 2 ^ 32) : s.inCount ofs = n := by
  have hbyte (j : Nat) (hj : j < 4) : (s.inByte (ofs + j)).toNat = n / 256 ^ j % 256 := by
    rw [holds_getElem h (by rwa [countBytes_length])]
    simp [countBytes]
  have h₀ := hbyte 0 (by omega)
  have h₁ := hbyte 1 (by omega)
  have h₂ := hbyte 2 (by omega)
  have h₃ := hbyte 3 (by omega)
  rw [Nat.add_zero] at h₀
  rw [State.inCount, le32, h₀, h₁, h₂, h₃]
  omega

end

/-! ### One entry -/

section

variable {s : State}

theorem atEnd_of_lt (h : s.dp.rdPtr.toNat < s.regs.inLen.toNat) : s.atEnd = false :=
  decide_eq_false (Nat.not_le.2 h)

/-- ParseEntryStart at the sentinel (R212). -/
theorem parseEntryStart_sentinel (h : s.dp.rdPtr.toNat < s.regs.inLen.toNat)
    (hb : s.inByte s.dp.rdPtr.toNat = Config.sentinel) : parseEntryStart s = .ok (none, s.skip 1) := by
  rw [parseEntryStart, atEnd_of_lt h]
  exact if_pos hb

/-- ParseEntryStart at a symbol of the alphabet that has no code yet (R212). -/
theorem parseEntryStart_symbol (h : s.dp.rdPtr.toNat < s.regs.inLen.toNat) {sym : Byte}
    (hb : s.inByte s.dp.rdPtr.toNat = sym) (hsym : Params.symbol s.build sym) (hfree : s.codeLenAt sym.toNat = 0) :
    parseEntryStart s = .ok (some sym, s.skip 1) := by
  obtain ⟨hlimit, hsen⟩ := hsym
  subst hb
  rw [parseEntryStart, atEnd_of_lt h]
  exact (if_neg hsen).trans ((if_neg (Nat.not_le.2 hlimit)).trans (if_neg (not_not.2 hfree)))

/-- ParseCode at the terminator binds the code (R213). -/
theorem parseCode_terminator {sym : Byte} {n : Nat} {c : List Bool} (h : s.dp.rdPtr.toNat < s.regs.inLen.toNat)
    (hb : s.inByte s.dp.rdPtr.toNat = Config.terminator) (hc : c ≠ []) :
    parseCode sym (n + 1) c s = .ok ((s.skip 1).bindCode sym c) := by
  rw [parseCode, atEnd_of_lt h]
  exact (if_pos hb).trans (if_neg hc)

/-- ParseCode at a character of a code that is not too long (R213). -/
theorem parseCode_char {sym : Byte} {n : Nat} {c : List Bool} {x : Bool} (h : s.dp.rdPtr.toNat < s.regs.inLen.toNat)
    (hb : s.inByte s.dp.rdPtr.toNat = codeChar x) (hc : c.length < s.build.maxCodeLen) :
    parseCode sym (n + 1) c s = parseCode sym n (c ++ [x]) (s.skip 1) := by
  have hterm : codeChar x ≠ Config.terminator := by cases x <;> decide
  have hchar : codeChar x = Config.asciiZero ∨ codeChar x = Config.asciiOne := by cases x <;> decide
  have hbit : decide (codeChar x = Config.asciiOne) = x := by cases x <;> decide
  have hlen : ¬ s.build.maxCodeLen < (c ++ [x]).length := by
    rw [List.length_append]
    exact Nat.not_lt.2 hc
  rw [parseCode, atEnd_of_lt h]
  refine (if_neg Bool.false_ne_true).trans ((if_neg (hb ▸ hterm)).trans ((if_pos (hb ▸ hchar)).trans ?_))
  show (if s.build.maxCodeLen < (c ++ [decide (s.inByte s.dp.rdPtr.toNat = Config.asciiOne)]).length then _ else
    parseCode sym n (c ++ [decide (s.inByte s.dp.rdPtr.toNat = Config.asciiOne)]) (s.skip 1)) = _
  rw [hb, hbit, if_neg hlen]

/-- ParseCode reads the rest of a code up to its terminator and binds the whole code (R213). -/
theorem parseCode_of_holds {sym : Byte} {n : Nat} {c c' : List Bool} {s : State} (hn : c'.length < n)
    (hne : c ++ c' ≠ []) (hmax : (c ++ c').length ≤ s.build.maxCodeLen)
    (h : s.holds s.dp.rdPtr.toNat (c'.map codeChar ++ [Config.terminator])) :
    parseCode sym n c s = .ok ((s.bindCode sym (c ++ c')).skip (c'.length + 1)) := by
  induction c' generalizing n c s with
  | nil =>
    obtain ⟨n, rfl⟩ := Nat.exists_eq_add_one_of_ne_zero (Nat.ne_zero_of_lt hn)
    obtain ⟨hlt, hb, -⟩ := holds_of_cons h
    rw [List.append_nil] at hne ⊢
    exact parseCode_terminator hlt hb hne
  | cons x c' ih =>
    obtain ⟨n, rfl⟩ := Nat.exists_eq_add_one_of_ne_zero (Nat.ne_zero_of_lt hn)
    obtain ⟨hlt, hb, hrest⟩ := holds_of_cons h
    rw [List.length_cons] at hn
    rw [List.append_cons] at hmax ⊢
    have hlen : c.length < s.build.maxCodeLen := by
      rw [List.length_append, List.length_append, List.length_singleton] at hmax
      omega
    rw [parseCode_char hlt hb hlen, ih (s := s.skip 1) (by omega) (by simp) hmax
      (by rw [skip_rdPtr s (n := 1) hlt]; exact hrest), skip_bindCode, skip_skip, List.length_cons, Nat.add_comm 1]

/-- The parser reads one entry and binds it (R212, R213). -/
theorem parseEntry_of_holds {e : Byte × List Bool} {s : State} (hsym : Params.symbol s.build e.1)
    (hfree : s.codeLenAt e.1.toNat = 0) (hpos : 1 ≤ e.2.length) (hmax : e.2.length ≤ s.build.maxCodeLen)
    (h : s.holds s.dp.rdPtr.toNat (entryBytes e)) :
    parseEntryStart s = .ok (some e.1, s.skip 1)
      ∧ parseCode e.1 ((s.skip 1).regs.inLen.toNat - (s.skip 1).dp.rdPtr.toNat) [] (s.skip 1)
        = .ok ((s.bindCode e.1 e.2).skip (entryBytes e).length) := by
  obtain ⟨hlt, hb, hcode⟩ := holds_of_cons h
  have hrd := skip_rdPtr s (n := 1) hlt
  have hfits := hcode.1
  rw [List.length_append, List.length_map, List.length_singleton] at hfits
  refine ⟨parseEntryStart_symbol hlt hb hsym hfree, ?_⟩
  rw [parseCode_of_holds (s := s.skip 1) (c' := e.2) (by rw [hrd]; show _ < s.regs.inLen.toNat - _; omega)
    (List.ne_nil_of_length_pos (l := [] ++ e.2) hpos) hmax (by rw [hrd]; exact hcode), skip_bindCode, skip_skip, entryBytes_length,
    Nat.add_comm 1]
  rfl

/-! ### All entries -/

/-- The entry loop reads and binds entries that can be read one by one, up to the sentinel (R210). -/
theorem parseEntries_of_holds {l : List (Byte × List Bool)} {n : Nat} {s : State} (hs : s.codeSized)
    (hread : Params.readableEntries s.build l) (hfree : ∀ e ∈ l, s.codeLenAt e.1.toNat = 0) (hn : l.length < n)
    (h : s.holds s.dp.rdPtr.toNat (l.flatMap entryBytes ++ [Config.sentinel])) :
    parseEntries n s = .ok ((s.bindCodes l).skip (l.flatMap entryBytes ++ [Config.sentinel]).length) := by
  induction l generalizing n s with
  | nil =>
    obtain ⟨n, rfl⟩ := Nat.exists_eq_add_one_of_ne_zero (Nat.ne_zero_of_lt hn)
    obtain ⟨hlt, hb, -⟩ := holds_of_cons h
    rw [parseEntries, parseEntryStart_sentinel hlt hb]
    rfl
  | cons e l ih =>
    obtain ⟨n, rfl⟩ := Nat.exists_eq_add_one_of_ne_zero (Nat.ne_zero_of_lt hn)
    obtain ⟨hsym, hnodup, hlen⟩ := hread
    obtain ⟨hsym₀, hsym⟩ := List.forall_mem_cons.1 hsym
    obtain ⟨⟨hpos, hmax⟩, hlen⟩ := List.forall_mem_cons.1 hlen
    obtain ⟨hfree₀, hfree⟩ := List.forall_mem_cons.1 hfree
    obtain ⟨hnew, hnodup⟩ := List.nodup_cons.1 hnodup
    rw [List.flatMap_cons, List.append_assoc] at h
    obtain ⟨hentry, hrest⟩ := holds_of_append h
    obtain ⟨hstart, hcode⟩ := parseEntry_of_holds hsym₀ hfree₀ hpos hmax hentry
    have hfree' : ∀ x ∈ l, (s.bindCode e.1 e.2).codeLenAt x.1.toNat = 0 := fun x hx =>
      (bindCode_codeOf_other s fun hxe => hnew (List.mem_map.2 ⟨x, hx, BitVec.eq_of_toNat_eq hxe⟩)).1.trans (hfree x hx)
    have hnext := ih (s := (s.bindCode e.1 e.2).skip (entryBytes e).length) (n := n) (bindCode_codeSized hs e.1 e.2)
      ⟨hsym, hnodup, hlen⟩ hfree' (Nat.lt_of_succ_lt_succ hn)
      (by rw [skip_rdPtr (s.bindCode e.1 e.2) hentry.1]; exact hrest)
    rw [parseEntries, hstart, ok_bind]
    dsimp only
    rw [hcode, ok_bind, hnext, skip_bindCodes, skip_skip, List.flatMap_cons, List.append_assoc,
      List.length_append (as := entryBytes e)]
    rfl

end

/-! ### Counts and checks -/

/-- ParseCounts reads the two count fields (R214). -/
theorem parseCounts_of_holds {s : State} {u t : Nat} (hu : u < 2 ^ 32) (ht : t < 2 ^ 32)
    (h : s.holds s.dp.rdPtr.toNat (countBytes u ++ countBytes t)) : parseCounts s = .ok (u, t, s.skip 8) := by
  have hfits := h.1
  obtain ⟨h₁, h₂⟩ := holds_of_append h
  rw [List.length_append, countBytes_length, countBytes_length] at hfits
  rw [countBytes_length] at h₂
  rw [parseCounts, inCount_of_holds h₁ hu, inCount_of_holds h₂ ht]
  exact if_neg (Nat.not_lt.2 hfits)

/-- Codes of which none begins another do not clash (R215). -/
theorem prefixClash_of_prefixFree {s : State} (h : s.prefixFree) : s.prefixClash = false := by
  refine Bool.eq_false_iff.2 fun hclash => ?_
  obtain ⟨i, hi, hclash⟩ := List.any_eq_true.1 hclash
  obtain ⟨j, hj, hclash⟩ := List.any_eq_true.1 hclash
  simp only [Bool.and_eq_true, decide_eq_true_eq, List.isPrefixOf_iff_prefix] at hclash
  exact h i hi j hj hclash.1 hclash.2

/-- HeaderCheck passes a legal header (R215). -/
theorem headerCheck_of_legal {s : State} {ps u t : Nat} (hpos : s.tables.order ≠ []) (hu : u = s.tables.order.length)
    (ht : t ≠ 0) (hfree : s.prefixFree) (hcap : t ≤ s.cap) : headerCheck ps u t s = .ok () := by
  have hclash : ¬ s.prefixClash = true := by
    rw [prefixClash_of_prefixFree hfree]
    decide
  rw [headerCheck, if_neg (List.length_eq_zero_iff.not.2 hpos), if_neg (not_not.2 hu), if_neg ht, if_neg hclash,
    if_neg (Nat.not_lt.2 hcap)]

/-! ### PARSE_HEADER -/

/-- Entries, counts and checks make PARSE_HEADER (R210). -/
theorem parseHeaderBody_eq {s v v' : State} {u t : Nat} (hlen : s.lenOk)
    (hentries : parseEntries (s.regs.inLen.toNat + 1)
      ((s.enterPhase .parseHeader).clearCodes.withDp { s.dp with rdPtr := 0 }) = .ok v)
    (hcounts : parseCounts v = .ok (u, t, v')) (hcheck : headerCheck (v.dp.rdPtr.toNat - 1) u t v' = .ok ()) :
    parseHeaderBody s = .ok (parseCommit u t v') := by
  have hguard : lengthGuard (s.enterPhase .parseHeader) = .ok () := lengthGuard_of_lenOk hlen
  rw [parseHeaderBody, hguard, ok_bind]
  refine (congrArg (· >>= _) hentries).trans ?_
  show (parseCounts v >>= _) = _
  rw [hcounts, ok_bind]
  dsimp only
  rw [hcheck, ok_bind]
  rfl

/-- `s` with the table of a header's entries, in the phase of PARSE_HEADER. -/
def State.parsed (s : State) (l : List (Byte × List Bool)) : State := (s.enterPhase .parseHeader).clearCodes.bindCodes l

section

variable (s : State) (l : List (Byte × List Bool))

@[simp] theorem parsed_regs : (s.parsed l).regs = s.regs := bindCodes_regs _ l
@[simp] theorem parsed_build : (s.parsed l).build = s.build := bindCodes_build _ l
@[simp] theorem parsed_inByte (a : Nat) : (s.parsed l).inByte a = s.inByte a := bindCodes_inByte _ l a

theorem parsed_order : (s.parsed l).tables.order = l.map Prod.fst := by
  rw [State.parsed, bindCodes_order, State.clearCodes_tables_order, List.nil_append]

theorem parsed_cap : (s.parsed l).cap = s.cap := by
  rw [State.cap, parsed_regs, parsed_build, State.cap]

variable {s l}

theorem parsed_holds {ofs : Nat} {bytes : List Byte} (h : s.holds ofs bytes) : (s.parsed l).holds ofs bytes :=
  holds_congr (fun a _ => parsed_inByte s l a) (congrArg Regs.inLen (parsed_regs s l)) h

end

/-- Where PARSE_HEADER's pseudocode ends on the header of `l` and the total `t` (R216). -/
def State.afterParse (s : State) (l : List (Byte × List Bool)) (t : Nat) : State :=
  parseCommit l.length t
    ((s.parsed l).withDp { s.dp with rdPtr := BitVec.ofNat 32 (headerBytes l l.length t).length })

/-- PARSE_HEADER reads a legal header (R210). -/
theorem parseHeaderBody_of_header {s : State} {l : List (Byte × List Bool)} {t : Nat} (hlen : s.lenOk)
    (hl : Params.legalEntries s.build l) (ht : 1 ≤ t) (hcap : t ≤ s.cap) (h : s.holds 0 (headerBytes l l.length t)) :
    parseHeaderBody s = .ok (s.afterParse l t) := by
  obtain ⟨hne, hread, hclash⟩ := hl
  have hcount : l.length ≤ (l.map fun e => 2 + e.2.length).sum := by
    have := List.length_le_sum_of_one_le (l.map fun e => 2 + e.2.length) (List.forall_mem_map.2 fun e _ => by omega)
    rwa [List.length_map] at this
  have hfits := h.1
  rw [Nat.zero_add, headerBytes_length] at hfits
  have hin := s.regs.inLen.isLt
  have ht32 : t < 2 ^ 32 := hcap.trans_lt ((Nat.min_le_left _ _).trans_lt s.regs.outCap.isLt)
  rw [headerBytes_eq] at h
  obtain ⟨hentries, hcounts⟩ := holds_of_append h
  have hloop := parseEntries_of_holds (s := (s.enterPhase .parseHeader).clearCodes.withDp { s.dp with rdPtr := 0 })
    (n := s.regs.inLen.toNat + 1) (clearCodes_codeSized _) hread (fun e _ => clearCodes_codeLenAt _ _) (by omega) hentries
  rw [withDp_bindCodes] at hloop
  have hrd := skip_rdPtr ((s.parsed l).withDp { s.dp with rdPtr := 0 }) (parsed_holds (l := l) hentries).1
  have hend : (headerBytes l l.length t).length = (l.flatMap entryBytes ++ [Config.sentinel]).length + 8 := by
    rw [headerBytes_eq, List.length_append, List.length_append (as := countBytes _), countBytes_length,
      countBytes_length]
  have hread8 := parseCounts_of_holds (s := ((s.parsed l).withDp { s.dp with rdPtr := 0 }).skip _)
    (show l.length < 2 ^ 32 by omega) ht32 (by rw [hrd]; exact parsed_holds hcounts)
  rw [skip_skip, ← hend, skip_withDp_zero _ _ (headerBytes l l.length t).length] at hread8
  refine parseHeaderBody_eq hlen hloop hread8 (headerCheck_of_legal ?_ ?_ (Nat.one_le_iff_ne_zero.1 ht)
    (bindCodes_clear_prefixFree (s := s.enterPhase .parseHeader) hread hclash) (hcap.trans_eq (parsed_cap s l).symm))
  · rw [withDp_tables, parsed_order]
    simpa using hne
  · rw [withDp_tables, parsed_order, List.length_map]

end Sys2Proof.Machine
end

section
/-! PROOFS. The decoder reads the codes of TOTAL symbols to their end (46_decoder.md R240 to R246): bit by bit the candidate
grows into the code of the next symbol, and as no code begins another it matches nothing before. -/

namespace Sys2Proof.Machine

/-! ### The payload bits -/

theorem payloadBitList_length (s : State) :
    s.payloadBitList.length = 8 * (s.regs.inLen.toNat - s.regs.payloadOfs.toNat) := by simp [State.payloadBitList]

/-- The payload bits depend on IN_MEM, IN_LEN and PAYLOAD_OFS alone. -/
theorem Emits.payloadBitList {s u : State} (h : Emits s u) (hlen : s.regs.inLen.toNat ≤ 2 ^ 28) :
    u.payloadBitList = s.payloadBitList := by
  unfold State.payloadBitList
  rw [h.regs]
  refine List.map_congr_left fun q hq => ?_
  have := List.mem_range.1 hq
  rw [h.inByte _ (by omega)]

/-- A bit string that begins what is left of the payload, bit by bit. -/
theorem cons_isPrefix_drop {x : Bool} {c l : List Bool} {q : Nat} (h : x :: c <+: l.drop q) :
    l[q]? = some x ∧ c <+: l.drop (q + 1) := by
  obtain ⟨rest, hrest⟩ := h
  have hhead : (l.drop q)[0]? = some x := by rw [← hrest]; rfl
  rw [List.getElem?_drop, Nat.add_zero] at hhead
  refine ⟨hhead, rest, ?_⟩
  rw [← List.drop_drop, ← hrest]
  rfl

section

variable {s : State}

/-! ### The candidate -/

/-- `s` after FetchBit of the bit `x` and its append to the candidate (R242, R243). -/
def State.takeBit (s : State) (x : Bool) : State := (s.withDp { s.dp with q := s.dp.q + 1 }).growCandidate x

@[simp] theorem candidate_length : s.candidate.length = s.dp.candLen.toNat := bitString_length _ _

/-- The candidate grows at its end (R243). -/
theorem takeBit_candidate (x : Bool) (h : s.dp.candLen.toNat < 256) :
    (s.takeBit x).dp.candLen.toNat = s.dp.candLen.toNat + 1 ∧ (s.takeBit x).candidate = s.candidate ++ [x] := by
  have hlen : (s.takeBit x).dp.candLen.toNat = s.dp.candLen.toNat + 1 := by
    show (s.dp.candLen + 1).toNat = _
    rw [BitVec.toNat_add, show (1 : BitVec 9).toNat = 1 from rfl, Nat.mod_eq_of_lt (by omega)]
  have hd : (BitVec.ofNat 8 s.dp.candLen.toNat).toNat = s.dp.candLen.toNat := toNat_ofNat8 h
  have hpath := setPath_bitString (s.withDp { s.dp with path := s.dp.cand }) (d := BitVec.ofNat 8 s.dp.candLen.toNat) x
  simp only [State.setPath, hd] at hpath
  rw [State.candidate, hlen]
  exact ⟨rfl, hpath⟩

/-- A candidate that is the code of a bound symbol matches it (R243, R246). -/
theorem matchSymbol_of_code (hfree : s.prefixFree) {i : Nat} (hi : s.bound i) (hcand : s.candidate = s.codeOf i) :
    s.matchSymbol = some i := by
  have hlen := congrArg List.length hcand
  rw [candidate_length, State.codeOf, bitString_length] at hlen
  cases hm : s.matchSymbol with
  | none => exact absurd ⟨hlen.symm, hcand.symm⟩ (matchSymbol_none hm hi.1)
  | some j =>
    obtain ⟨hj, hjlen, hjcode⟩ := matchSymbol_some hm
    by_contra hne
    have hjb : s.bound j := ⟨hj, by rw [hjlen, hlen]; exact hi.2⟩
    refine hfree j (mem_boundSymbols.2 hjb) i (mem_boundSymbols.2 hi) (fun h => hne (congrArg some h)) ?_
    rw [hjcode, hcand]

/-- A candidate that is a proper part of the code of a bound symbol matches nothing (R243, 43_code_table.md R175). -/
theorem matchSymbol_of_part (hfree : s.prefixFree) {i : Nat} (hi : s.bound i) {c : List Bool} (hc : c ≠ [])
    (hcand : s.candidate ++ c = s.codeOf i) (hpos : s.candidate ≠ []) : s.matchSymbol = none := by
  cases hm : s.matchSymbol with
  | none => rfl
  | some j =>
    obtain ⟨hj, hjlen, hjcode⟩ := matchSymbol_some hm
    have hjb : s.bound j := ⟨hj, by rw [hjlen, ← candidate_length]; exact Nat.ne_zero_of_lt (List.length_pos_of_ne_nil hpos)⟩
    have hji : j ≠ i := by
      rintro rfl
      rw [hjcode] at hcand
      exact hc (List.append_right_eq_self.1 hcand)
    exact absurd ⟨c, hjcode ▸ hcand⟩ (hfree j (mem_boundSymbols.2 hjb) i (mem_boundSymbols.2 hi) hji)

/-! ### One round -/

/-- FetchBit of a bit of the payload (R242). -/
theorem fetchBit_of_getElem? {x : Bool} (h : s.payloadBitList[s.dp.q.toNat]? = some x) :
    ∃ a, fetchBit s = .ok (x, a, s.withDp { s.dp with q := s.dp.q + 1 }) := by
  obtain ⟨hlt, hx⟩ := List.getElem?_eq_some_iff.1 h
  have hin := hlt.trans_eq (payloadBitList_length s)
  rw [fetchBit_ok (by omega)]
  refine ⟨_, congrArg (fun y => Except.ok (y, _, _)) ?_⟩
  rw [← hx]
  simp [State.payloadBitList]

variable {n : Nat} {x : Bool} (hcount : s.dp.decCount.toNat < s.regs.total.toNat)
  (hbit : s.payloadBitList[s.dp.q.toNat]? = some x) (hmax : (s.takeBit x).dp.candLen.toNat ≤ s.regs.maxLen.toNat)

include hcount hbit hmax

/-- One round takes a bit, and emits the symbol that the candidate then matches, if any (R240, R243). -/
theorem decodeLoop_round : decodeLoop (n + 1) s
    = decodeLoop n ((s.takeBit x).matchSymbol.elim (s.takeBit x) (emitSymbol (s.takeBit x))) := by
  obtain ⟨a, hfetch⟩ := fetchBit_of_getElem? hbit
  have hstep : matchStep x a (s.withDp { s.dp with q := s.dp.q + 1 })
      = .ok ((s.takeBit x).matchSymbol.elim (s.takeBit x) (emitSymbol (s.takeBit x))) := by
    unfold matchStep
    refine (if_neg (Nat.not_lt.2 hmax)).trans ?_
    show (match (s.takeBit x).matchSymbol with | some sym => _ | none => _) = _
    cases (s.takeBit x).matchSymbol <;> rfl
  rw [decodeLoop, if_pos hcount]
  dsimp only
  rw [hfetch, ok_bind]
  dsimp only
  rw [hstep, ok_bind]

end

/-! ### One symbol -/

/-- EmitSymbol stores at DEC_COUNT and starts the next candidate (R244). -/
theorem emitSymbol_eq (s : State) (b : Byte) : emitSymbol s b.toNat = (s.outWrite s.dp.decCount.toNat b).withDp
    { s.dp with decCount := s.dp.decCount + 1, cand := 0, candLen := 0 } := by
  rw [emitSymbol, State.outWrite_dp, ofNat8_toNat]
  rfl

/-- What the decoder asks of the code table for a symbol: a code that MAXLEN does not exclude. -/
def State.decodes (s : State) (b : Byte) : Prop := s.bound b.toNat ∧ s.codeLenAt b.toNat ≤ s.regs.maxLen.toNat

/-- The rest of the code of a symbol takes the decoder to the symbol's emission (R243, R244). -/
theorem decodeLoop_symbol {s : State} {b : Byte} {c : List Bool} {n : Nat} (hfree : s.prefixFree) (hb : s.decodes b)
    (hlen : s.regs.inLen.toNat ≤ 2 ^ 28) (hcount : s.dp.decCount.toNat < s.regs.total.toNat) (hc : c ≠ [])
    (hcode : s.candidate ++ c = s.codeOf b.toNat) (hbits : c <+: s.payloadBitList.drop s.dp.q.toNat) :
    decodeLoop (n + c.length) s = decodeLoop n ((s.outWrite s.dp.decCount.toNat b).withDp { s.dp with
      q := s.dp.q + BitVec.ofNat 32 c.length, decCount := s.dp.decCount + 1, cand := 0, candLen := 0 }) := by
  induction c generalizing s with
  | nil => exact absurd rfl hc
  | cons x c ih =>
    obtain ⟨hbound, hmax⟩ := hb
    obtain ⟨hbit, hrest⟩ := cons_isPrefix_drop hbits
    have hlength := congrArg List.length hcode
    rw [List.length_append, candidate_length, List.length_cons, State.codeOf, bitString_length] at hlength
    have hmaxLen := s.regs.maxLen.isLt
    obtain ⟨hcandLen, hcand⟩ := takeBit_candidate x (s := s) (by omega)
    rw [List.length_cons, ← Nat.add_assoc, decodeLoop_round hcount hbit (by omega)]
    rw [List.append_cons, ← hcand] at hcode
    obtain ⟨v, hv⟩ : ∃ v, s.takeBit x
        = s.withDp { s.dp with q := s.dp.q + 1, cand := v, candLen := s.dp.candLen + 1 } := ⟨_, rfl⟩
    by_cases hlast : c = []
    · subst hlast
      rw [List.append_nil] at hcode
      rw [matchSymbol_of_code (s := s.takeBit x) hfree hbound hcode, Option.elim_some, emitSymbol_eq, hv, withDp_outWrite,
        withDp_withDp]
      rfl
    · rw [matchSymbol_of_part (s := s.takeBit x) hfree hbound hlast hcode (by rw [hcand]; simp)]
      have hq : (s.takeBit x).dp.q.toNat = s.dp.q.toNat + 1 := by
        have hlt := (List.getElem?_eq_some_iff.1 hbit).1
        rw [payloadBitList_length] at hlt
        rw [hv, withDp_dp, BitVec.toNat_add, show (1 : Word).toNat = 1 from rfl, Nat.mod_eq_of_lt (by omega)]
      have hadd : s.dp.q + 1 + BitVec.ofNat 32 c.length = s.dp.q + BitVec.ofNat 32 (c.length + 1) := by
        rw [BitVec.add_assoc, Nat.add_comm, BitVec.ofNat_add]
        rfl
      rw [Option.elim_none, ih (s := s.takeBit x) hfree ⟨hbound, hmax⟩ hlen hcount hlast hcode (by rw [hq]; exact hrest),
        hv, withDp_outWrite, withDp_withDp, withDp_dp, hadd]

/-! ### All symbols -/

/-- What the decoder reads is the same behind its own stores. -/
theorem Emits.decodes {s u : State} (h : Emits s u) {b : Byte} (hb : s.decodes b) : u.decodes b := by
  obtain ⟨m, d, rfl⟩ := exists_of_sansOutput h.outside
  exact hb

theorem Emits.prefixFree {s u : State} (h : Emits s u) (hfree : s.prefixFree) : u.prefixFree := by
  obtain ⟨m, d, rfl⟩ := exists_of_sansOutput h.outside
  exact hfree

theorem decodeLoop_end {s : State} (h : s.regs.total.toNat ≤ s.dp.decCount.toNat) (n : Nat) : decodeLoop n s = .ok s := by
  unfold decodeLoop
  exact if_neg (Nat.not_lt.2 h)

/-- The payload that begins with the codes of as many symbols as are left is decoded into these (R240). -/
theorem decodeLoop_symbols {symbols : List Byte} {s : State} {n : Nat} (hfree : s.prefixFree)
    (hsym : ∀ b ∈ symbols, s.decodes b) (hlen : s.regs.inLen.toNat ≤ 2 ^ 28) (hn : (s.payloadOf symbols).length ≤ n)
    (hcount : s.dp.decCount.toNat + symbols.length = s.regs.total.toNat) (hcand : s.dp.cand = 0)
    (hcandLen : s.dp.candLen = 0) (hbits : s.payloadOf symbols <+: s.payloadBitList.drop s.dp.q.toNat) :
    decodeLoop n s = .ok ((s.outWrites s.dp.decCount.toNat symbols).withDp { s.dp with
      q := s.dp.q + BitVec.ofNat 32 (s.payloadOf symbols).length, decCount := s.regs.total, cand := 0, candLen := 0 }) := by
  induction symbols generalizing s n with
  | nil =>
    have hend : s.dp.decCount = s.regs.total := BitVec.eq_of_toNat_eq hcount
    have hzero : s.dp.q + BitVec.ofNat 32 (s.payloadOf []).length = s.dp.q := BitVec.add_zero _
    rw [decodeLoop_end (by rw [hend]), hzero, ← hend, ← hcand, ← hcandLen]
    rfl
  | cons b symbols ih =>
    obtain ⟨hb, hsym⟩ := List.forall_mem_cons.1 hsym
    have hsplit : s.payloadOf (b :: symbols) = s.codeOf b.toNat ++ s.payloadOf symbols := List.flatMap_cons
    have hpos : 1 ≤ (s.codeOf b.toNat).length := by
      rw [State.codeOf, bitString_length]
      exact Nat.one_le_iff_ne_zero.2 hb.1.2
    rw [hsplit, List.length_append] at hn
    rw [List.length_cons] at hcount
    rw [hsplit] at hbits
    have hfirst := (List.prefix_append _ _).trans hbits
    have hrest : s.payloadOf symbols <+: s.payloadBitList.drop (s.dp.q.toNat + (s.codeOf b.toNat).length) := by
      obtain ⟨rest, h⟩ := hbits
      rw [← List.drop_drop, ← h, List.append_assoc, List.drop_left]
      exact List.prefix_append _ _
    have hroom := hfirst.length_le
    rw [List.length_drop, payloadBitList_length] at hroom
    have hq : (s.dp.q + BitVec.ofNat 32 (s.codeOf b.toNat).length).toNat
        = s.dp.q.toNat + (s.codeOf b.toNat).length := by
      rw [BitVec.toNat_add, BitVec.toNat_ofNat, Nat.mod_eq_of_lt (by omega), Nat.mod_eq_of_lt (by omega)]
    have hdec : (s.dp.decCount + 1).toNat = s.dp.decCount.toNat + 1 := by
      have := s.regs.total.isLt
      rw [BitVec.toNat_add, show (1 : Word).toNat = 1 from rfl, Nat.mod_eq_of_lt (by omega)]
    have hcandidate : s.candidate ++ s.codeOf b.toNat = s.codeOf b.toNat := by
      rw [State.candidate, hcandLen]
      rfl
    obtain ⟨m, rfl⟩ := Nat.exists_eq_add_of_le' ((Nat.le_add_right _ _).trans hn)
    have hemits : Emits s ((s.outWrite s.dp.decCount.toNat b).withDp { s.dp with
        q := s.dp.q + BitVec.ofNat 32 (s.codeOf b.toNat).length, decCount := s.dp.decCount + 1, cand := 0, candLen := 0 }) :=
      (outWrite_emits _ _ _).withDp _
    rw [decodeLoop_symbol hfree hb hlen (by omega) (List.ne_nil_of_length_pos hpos) hcandidate hfirst,
      ih (hemits.prefixFree hfree) (fun x hx => hemits.decodes (hsym x hx)) (by rwa [hemits.regs])
        (by rw [hemits.payloadOf]; omega) (by rw [hemits.regs, withDp_dp, hdec]; omega) rfl rfl
        (by rw [hemits.payloadOf, hemits.payloadBitList hlen, withDp_dp, hq]; exact hrest),
      hemits.payloadOf, hemits.regs, withDp_outWrites, withDp_withDp, withDp_dp, hdec, BitVec.add_assoc, ← BitVec.ofNat_add,
      ← List.length_append, ← hsplit]
    rfl

/-! ### DECODE_PAYLOAD -/

/-- Where DECODE_PAYLOAD's pseudocode ends on a payload that begins with the codes of `symbols`, TOTAL in number. -/
def State.afterDecode (s : State) (symbols : List Byte) : State :=
  decodeResults (((s.enterPhase .decode).outWrites 0 symbols).withDp { s.dp with
    q := BitVec.ofNat 32 (s.payloadOf symbols).length, decCount := s.regs.total, cand := 0, candLen := 0 })

theorem afterDecode_build (s : State) (symbols : List Byte) : (s.afterDecode symbols).build = s.build :=
  (outWrites_emits (s.enterPhase .decode) 0 symbols).build

section

variable {s : State} {symbols : List Byte} (hlength : symbols.length = s.regs.total.toNat)
  (hcap : s.regs.total.toNat ≤ s.cap)

include hlength hcap

/-- DECODE_PAYLOAD decodes it (R240). -/
theorem decodePayloadBody_of_codes (hfree : s.prefixFree) (hsym : ∀ b ∈ symbols, s.decodes b)
    (hlen : s.regs.inLen.toNat ≤ 2 ^ 28) (hbits : s.payloadOf symbols <+: s.payloadBitList) :
    decodePayloadBody s = .ok (s.afterDecode symbols) := by
  have hcheck : decodeCapCheck (s.enterPhase .decode) = .ok () := if_neg (Nat.not_lt.2 hcap)
  have hfuel := hbits.length_le
  rw [payloadBitList_length] at hfuel
  have hloop := decodeLoop_symbols (symbols := symbols)
    (s := (s.enterPhase .decode).withDp { s.dp with q := 0, decCount := 0, cand := 0, candLen := 0 })
    (n := 8 * (s.regs.inLen.toNat - s.regs.payloadOfs.toNat) + 1) hfree hsym hlen (hfuel.trans (Nat.le_succ _))
    (by rw [withDp_dp]; exact (Nat.zero_add _).trans hlength) rfl rfl hbits
  rw [decodePayloadBody, hcheck, ok_bind]
  refine (congrArg (· >>= _) hloop).trans ?_
  rw [ok_bind, withDp_outWrites, withDp_withDp, withDp_dp]
  have hzero : (0 : Word) + BitVec.ofNat 32 (s.payloadOf symbols).length = BitVec.ofNat 32 (s.payloadOf symbols).length :=
    BitVec.zero_add _
  show Except.ok (decodeResults (((s.enterPhase .decode).outWrites 0 symbols).withDp { s.dp with
    q := 0 + BitVec.ofNat 32 (s.payloadOf symbols).length, decCount := s.regs.total, cand := 0, candLen := 0 })) = _
  rw [hzero]
  rfl

/-- What DECODE_PAYLOAD's pseudocode writes, and what it keeps (R240). -/
theorem afterDecode_spec :
    let u := s.afterDecode symbols
    u.outHolds symbols ∧ (∀ a, symbols.length ≤ a → u.outByte a = s.outByte a)
      ∧ u.regs = { s.regs with
          outLen := s.regs.total, payloadBits := BitVec.ofNat 32 (s.payloadOf symbols).length }
      ∧ u.status = s.status ∧ u.tables = s.tables := by
  have hmax : s.cap ≤ s.build.outMax := Nat.min_le_right _ _
  have hemits := outWrites_emits (s.enterPhase .decode) 0 symbols
  refine ⟨?_, fun a ha => outWrites_outByte_other (.inr (by rwa [Nat.zero_add])), ?_, ?_, hemits.tables⟩
  · have hbytes := outWrites_outByte (s := s.enterPhase .decode) (a := 0) (bytes := symbols)
      (by rw [Nat.zero_add, hlength]; exact hcap.trans hmax)
    simp only [Nat.zero_add] at hbytes
    exact hbytes
  · exact congrArg (fun v => { v.regs with
      outLen := v.regs.total, payloadBits := BitVec.ofNat 32 (s.payloadOf symbols).length }) hemits.outside
  · exact congrArg (fun v => v.status) hemits.outside

end

end Sys2Proof.Machine
end

section
/-! PROOFS. DECOMPRESS of a container: a legal header, then the packed codes of some of its entries (47_control.md R267,
30_encoding.md R90, R94). -/

namespace Sys2Proof.Machine

open Sys2Proof.Config (Params)

/-! ### Packed bits read back -/

/-- The binary digits of `bitsValue`. -/
theorem bitsValue_testBit {bits : List Bool} {n k : Nat} (hn : bits.length = n) (h : k < n) :
    (bitsValue bits).testBit (n - 1 - k) = bits.getD k false := by
  subst hn
  have hfold : bitsValue bits = bits.reverse.foldr (fun (b : Bool) acc => b.toNat + 2 * acc) 0 := by
    rw [List.foldr_reverse, bitsValue]
    simp only [Nat.add_comm]
  rw [hfold, testBit_packed, List.getD_eq_getElem _ _ (by rw [List.length_reverse]; omega), List.getElem_reverse,
    List.getD_eq_getElem _ _ h]
  congr 1
  omega

/-- Bit 7 − k of a packed byte is its k-th bit (30_encoding.md R94). -/
theorem packedByte_getLsbD (bits : List Bool) (j : Nat) {k : Nat} (h : k < 8) :
    (packedByte bits j).getLsbD (7 - k) = bits.getD (8 * j + k) false := by
  have hdigit := bitsValue_testBit (bits := (List.range 8).map fun k => bits.getD (8 * j + k) false) (by simp) h
  rw [List.getD_eq_getElem _ _ (by simpa), List.getElem_map, List.getElem_range] at hdigit
  rw [packedByte_eq, BitVec.getLsbD_ofNat, ← hdigit, decide_eq_true (by omega), Bool.true_and]

/-- A bit string packed behind PAYLOAD_OFS begins the payload (46_decoder.md R242). -/
theorem isPrefix_payloadBitList {s : State} {bits : List Bool} (h : s.holds s.regs.payloadOfs.toNat (packedBytes bits)) :
    bits <+: s.payloadBitList := by
  have hfits := h.1
  rw [packedBytes_length] at hfits
  have hlen : bits.length ≤ s.payloadBitList.length := by
    rw [payloadBitList_length]
    omega
  refine List.prefix_iff_getElem.2 ⟨hlen, fun q hq => ?_⟩
  have hbyte := holds_getElem h (k := q / 8) (by rw [packedBytes_length]; omega)
  have hpacked := packedByte_getLsbD bits (q / 8) (k := q % 8) (by omega)
  rw [Nat.div_add_mod, List.getD_eq_getElem _ _ hq] at hpacked
  simp only [State.payloadBitList, List.getElem_map, List.getElem_range]
  rw [hbyte, ← hpacked]
  simp [packedBytes]

/-! ### The table of a header -/

theorem tableEntries_of_readable {p : Params} {l : List (Byte × List Bool)} (h : Params.readableEntries p l) :
    TableEntries p l :=
  ⟨fun e he => (h.1 e he).1, h.2.1, h.2.2⟩

/-- What the code table is depends on the tables and the build alone. -/
theorem tableIs_congr {u u' : State} {l : List (Byte × List Bool)} (hbuild : u'.build = u.build)
    (htables : u'.tables = u.tables) (h : u.tableIs l) : u'.tableIs l := by
  rw [← carry_eq_self u hbuild htables]
  exact h

/-- Two tables of the same entries have the same codes. -/
theorem tableIs_codeOf_eq {u u' : State} {l : List (Byte × List Bool)} (h : u.tableIs l) (h' : u'.tableIs l)
    (hlimit : u'.limit = u.limit) {i : Nat} (hi : i < u.limit) : u'.codeOf i = u.codeOf i := by
  obtain ⟨-, hcode, honly⟩ := h
  obtain ⟨-, hcode', honly'⟩ := h'
  by_cases hmem : BitVec.ofNat 8 i ∈ l.map Prod.fst
  · obtain ⟨e, he, hei⟩ := List.mem_map.1 hmem
    have hi' : e.1.toNat = i := (byte_eq_ofNat_iff (hi.trans_le (limit_le u.build))).1 hei
    rw [← hi', hcode e he, hcode' e he]
  · have hzero : u.codeLenAt i = 0 := not_not.1 fun h => hmem (honly i hi h)
    have hzero' : u'.codeLenAt i = 0 := not_not.1 fun h => hmem (honly' i (hlimit ▸ hi) h)
    rw [State.codeOf, State.codeOf, hzero, hzero']
    rfl

/-- The codes of entries of the table, in a row. -/
theorem payloadOf_picks {u : State} {l picks : List (Byte × List Bool)} (h : u.tableIs l) (hpicks : ∀ e ∈ picks, e ∈ l) :
    u.payloadOf (picks.map Prod.fst) = picks.flatMap Prod.snd := by
  obtain ⟨-, hcode, -⟩ := h
  rw [State.payloadOf, List.flatMap_map]
  exact List.flatMap_congr fun e he => hcode e (hpicks e he)

section

variable {s : State} {l picks : List (Byte × List Bool)} (hl : Params.legalEntries s.build l)

include hl

theorem afterParse_tableIs (t : Nat) : (s.afterParse l t).tableIs l :=
  bindCodes_clear_tableIs (u := s.enterPhase .parseHeader) (tableEntries_of_readable hl.2.1)

/-- The symbols of the header's entries can be decoded (45_parser.md R216). -/
theorem afterParse_decodes (t : Nat) {e : Byte × List Bool} (he : e ∈ l) : (s.afterParse l t).decodes e.1 := by
  have hentries : TableEntries (s.afterParse l t).build l := by
    show TableEntries (s.parsed l).build l
    rw [parsed_build]
    exact tableEntries_of_readable hl.2.1
  refine ⟨tableIs_bound (afterParse_tableIs hl t) hentries he, ?_⟩
  exact (codeLenAt_le_greatestLen _ _).trans_eq (toNat_greatestLen _).symm

/-- DECOMPRESS reads the header and decodes the payload behind it (47_control.md R267). -/
theorem decompressBody_of_container (hbuild : s.build.wellFormed = true) (hlen : s.lenOk)
    (hpicks : ∀ e ∈ picks, e ∈ l) (hpos : 1 ≤ picks.length) (hcap : picks.length ≤ s.cap)
    (h : s.holds 0 (headerBytes l l.length picks.length ++ packedBytes (picks.flatMap Prod.snd))) :
    decompressBody s = .ok ((s.afterParse l picks.length).afterDecode (picks.map Prod.fst)) := by
  obtain ⟨hheader, hpayload⟩ := holds_of_append h
  have htable := afterParse_tableIs hl picks.length
  have hcap32 : picks.length < 2 ^ 32 := hcap.trans_lt ((Nat.min_le_left _ _).trans_lt s.regs.outCap.isLt)
  have htotal : (s.afterParse l picks.length).regs.total.toNat = picks.length := toNat_ofNat32 hcap32
  have hofs : (s.afterParse l picks.length).regs.payloadOfs.toNat = (headerBytes l l.length picks.length).length := by
    have hfits := hheader.1
    have := s.regs.inLen.isLt
    exact toNat_ofNat32 (by omega)
  have hregs : (s.afterParse l picks.length).regs.inLen = s.regs.inLen :=
    show (s.parsed l).regs.inLen = s.regs.inLen by rw [parsed_regs]
  rw [Nat.zero_add] at hpayload
  have hbits : (s.afterParse l picks.length).payloadOf (picks.map Prod.fst)
      <+: (s.afterParse l picks.length).payloadBitList := by
    rw [payloadOf_picks htable hpicks]
    exact isPrefix_payloadBitList (by rw [hofs]; exact parsed_holds hpayload)
  rw [decompressBody, parseHeaderBody_of_header hlen hl hpos hcap hheader, ok_bind]
  refine decodePayloadBody_of_codes (by rw [htotal, List.length_map]) ?_ (tableIs_prefixFree htable hl.2.2)
    (List.forall_mem_map.2 fun e he => afterParse_decodes hl picks.length (hpicks e he))
    (by rw [hregs]; exact inLen_le hbuild hlen) hbits
  rw [htotal]
  exact hcap.trans_eq (parsed_cap s l).symm

/-- DECOMPRESS runs on a container from an idle state and ends well. -/
theorem exec_decompress (hidle : s.idle) (hbuild : s.build.wellFormed = true) (hlen : s.lenOk)
    (hpicks : ∀ e ∈ picks, e ∈ l) (hpos : 1 ≤ picks.length) (hcap : picks.length ≤ s.cap)
    (h : s.holds 0 (headerBytes l l.length picks.length ++ packedBytes (picks.flatMap Prod.snd))) :
    let u := ((accept 2 (request 2 s)).afterParse l picks.length).afterDecode (picks.map Prod.fst)
    exec .decompress s = .next (successCommit u) ∧ (successCommit u).completed := by
  have hbody := decompressBody_of_container (s := accept 2 (request 2 s)) hl hbuild hlen hpicks hpos hcap h
  have hexec := exec_runs (i := .decompress) (body := decompressBody) rfl hidle rfl
  rw [Instr.opcode, hbody, finish_ok] at hexec
  exact ⟨hexec, successCommit_completed (bodyOf_frame (op := 2) (body := decompressBody) rfl hbody)⟩

/-- What DECOMPRESS leaves: the symbols, the header's table, and the counts of both (R216, R240). -/
theorem afterContainer_spec (hpicks : ∀ e ∈ picks, e ∈ l) (hcap : picks.length ≤ s.cap) :
    let u := (s.afterParse l picks.length).afterDecode (picks.map Prod.fst)
    u.build = s.build ∧ u.tableIs l ∧ u.outHolds (picks.map Prod.fst)
      ∧ u.regs.outLen = BitVec.ofNat 32 picks.length ∧ u.regs.unique = BitVec.ofNat 32 l.length
      ∧ u.regs.total = BitVec.ofNat 32 picks.length
      ∧ u.regs.payloadBits = BitVec.ofNat 32 (picks.flatMap Prod.snd).length := by
  have hcap32 : picks.length < 2 ^ 32 := hcap.trans_lt ((Nat.min_le_left _ _).trans_lt s.regs.outCap.isLt)
  have htotal : (s.afterParse l picks.length).regs.total.toNat = picks.length := toNat_ofNat32 hcap32
  have htable := afterParse_tableIs hl picks.length
  have hfits : picks.length ≤ (s.afterParse l picks.length).cap := hcap.trans_eq (parsed_cap s l).symm
  obtain ⟨hout, -, hregs, -, htables⟩ := afterDecode_spec (s := s.afterParse l picks.length)
    (symbols := picks.map Prod.fst) (by rw [htotal, List.length_map]) (by rwa [htotal])
  have hbuild := afterDecode_build (s.afterParse l picks.length) (picks.map Prod.fst)
  refine ⟨hbuild.trans (parsed_build s l), tableIs_congr hbuild htables htable, hout, ?_⟩
  rw [hregs, payloadOf_picks htable hpicks]
  exact ⟨rfl, rfl, rfl, rfl⟩

end

end Sys2Proof.Machine
end

section
/-! PROOFS. The round trip (44_serializer.md R199): DECOMPRESS of the container that COMPRESS wrote gives the input, the code
table and the counts back. -/

namespace Sys2Proof.Machine

open Sys2Proof.Config (Params)

/-! ### What COMPRESS serializes -/

/-- The state behind the first three stages of COMPRESS from `s` (47_control.md R266): current counts, and a code table that
the parser would accept, with an entry for every byte of the input. -/
structure BuiltFrom (s c : State) : Prop where
  frame : BodyFrame s c
  counted : c.counted
  legal : Params.legalEntries c.build c.entries
  table : c.tableIs c.entries
  unique : c.entries.length = c.regs.unique.toNat
  symbols : ∀ b ∈ c.input, b ∈ c.tables.order
  payloadBits : c.regs.payloadBits = BitVec.ofNat 32 c.bitCount

/-- BUILD_TABLE keeps the counts and the input they are of. -/
theorem buildTableBody_counted {s u : State} (hcounted : s.counted) (hu : buildTableBody s = .ok u) :
    u.counted ∧ u.input = s.input := by
  obtain ⟨v, hwalk, rfl⟩ := buildTableBody_ok hu
  obtain ⟨cl, cb, o, d, rfl, -, -⟩ := exists_of_sansCodes (walkTree_sansCodes hwalk)
  exact ⟨hcounted, rfl⟩

/-- A byte of the input is a leaf of a tree of the counted symbols. -/
theorem mem_leaves_of_mem_input {s : State} {tree : CodeTree} (hcounted : s.counted)
    (hleaves : tree.leaves.Perm (s.countedSymbols.map (BitVec.ofNat 8))) {b : Byte} (hb : b ∈ s.input) :
    b ∈ tree.leaves := by
  obtain ⟨-, hsym, hfreq, -, -⟩ := hcounted
  have hlimit := (hsym b hb).1
  rw [hleaves.mem_iff, ← ofNat8_toNat b, ofNat_mem_countedSymbols hlimit, hfreq _ hlimit, ofNat8_toNat]
  exact List.count_pos_iff.2 hb

/-- BUILD_TABLE on a finished tree of current counts (43_code_table.md R170 to R175). -/
theorem buildTableBody_builtFrom {s t c : State} (hframe : BodyFrame s t) (hcounted : t.counted)
    (hlen : t.tables.freq.length = t.limit) (htree : t.treeOk) (hc : buildTableBody t = .ok c) : BuiltFrom s c := by
  have hframe' := hframe.trans (buildTableBody_frame hc)
  obtain ⟨hcounted', hinput⟩ := buildTableBody_counted hcounted hc
  obtain ⟨-, hbuild, hunique, -⟩ := buildTableBody_keeps hc
  obtain ⟨tree, d, hleaves, heq⟩ := buildTableBody_table htree (countedSymbols_length_le hcounted) hc
  have hread : Params.readableEntries t.build tree.table := table_readable hcounted hleaves
  have htable : c.tableIs tree.table :=
    heq ▸ bindCodes_clear_tableIs (u := t.enterPhase .traverse) (tableEntries_of_readable hread)
  have hentries : c.entries = tree.table := heq ▸ bindCodes_clear_entries (s := t.enterPhase .traverse) hread
  have horder : c.tables.order = tree.leaves := htable.1.trans tree.table_fst
  refine ⟨hframe', hcounted', ?_, by rwa [hentries], ?_, fun b hb => ?_, heq ▸ rfl⟩
  · rw [hentries, hbuild]
    exact ⟨tree.table_ne_nil, hread, tree.table_clashFree⟩
  · rw [hunique, ← countedSymbols_length_eq_unique hcounted hlen, State.entries, List.length_map, horder,
      hleaves.length_eq, List.length_map]
  · rw [horder]
    exact mem_leaves_of_mem_input hcounted hleaves (hinput ▸ hb)

/-- COMPRESS that ends well wrote the container of the state behind its first three stages (47_control.md R266). -/
theorem compressBody_ok {s u : State} (hu : compressBody s = .ok u) (hbuild : s.build.wellFormed = true) :
    ∃ c, BuiltFrom s c ∧ c.containerLen ≤ c.cap ∧ u = c.afterSerialize := by
  obtain ⟨a, ha, hu⟩ := bind_ok hu
  obtain ⟨b, hb, hu⟩ := bind_ok hu
  obtain ⟨c, hc, hu⟩ := bind_ok hu
  obtain ⟨hcounted, hlen, -⟩ := countBody_counts ha
  obtain ⟨htree, hcounted, hlen, -⟩ := buildTreeBody_of_counted hcounted hlen hb
  have hbuilt := buildTableBody_builtFrom ((countBody_frame ha).trans (buildTreeBody_frame hb)) hcounted hlen htree hc
  have hbuild' : c.build.wellFormed = true := by rwa [hbuilt.frame.build]
  have hfits : c.containerLen ≤ c.cap := by
    by_contra hlong
    rw [serializeBody_tooLong (not_le.1 hlong)] at hu
    cases hu
  refine ⟨c, hbuilt, hfits, ?_⟩
  rw [serializeBody_of_fits hbuild' (inLen_le hbuild' hbuilt.counted.1) (bitCount_eq_payload_length hbuilt.counted) hfits]
    at hu
  exact (Except.ok.inj hu).symm

/-! ### The round trip -/

/-- The input as a choice of entries of the table: each byte with its code. -/
def State.picks (c : State) : List (Byte × List Bool) := c.input.map fun b => (b, c.codeOf b.toNat)

theorem picks_fst (c : State) : c.picks.map Prod.fst = c.input := by
  rw [State.picks, List.map_map]
  exact List.map_id _

theorem picks_snd (c : State) : c.picks.flatMap Prod.snd = c.payloadOf c.input := by
  rw [State.picks, List.flatMap_map]
  rfl

theorem picks_length (c : State) : c.picks.length = c.regs.inLen.toNat := by simp [State.picks, State.input]

theorem ofNat_picks_length (c : State) : BitVec.ofNat 32 c.picks.length = c.regs.inLen := by
  rw [picks_length, BitVec.ofNat_toNat, BitVec.setWidth_eq]

section

variable {s c : State} (h : BuiltFrom s c)

include h

theorem BuiltFrom.mem_entries : ∀ e ∈ c.picks, e ∈ c.entries := by
  intro e he
  obtain ⟨b, hb, rfl⟩ := List.mem_map.1 he
  exact List.mem_map.2 ⟨b, h.symbols b hb, rfl⟩

theorem BuiltFrom.total : c.regs.total = c.regs.inLen := by
  obtain ⟨-, -, -, -, htotal⟩ := h.counted
  exact htotal

theorem BuiltFrom.picks_pos : 1 ≤ c.picks.length := by
  obtain ⟨⟨hpos, -⟩, -⟩ := h.counted
  rwa [picks_length]

/-- The container of the state is a header of its entries and their codes in the order of the input. -/
theorem BuiltFrom.container_eq : c.container
    = headerBytes c.entries c.entries.length c.picks.length ++ packedBytes (c.picks.flatMap Prod.snd) := by
  rw [State.container, State.header, h.unique, picks_length, picks_snd, h.total]

end

/-- An input that is a list of bytes stands in IN_MEM from offset 0 on. -/
theorem holds_of_input {v : State} {bytes : List Byte} (h : v.input = bytes) : v.holds 0 bytes := by
  have hlen : bytes.length = v.regs.inLen.toNat := by rw [← h]; simp [State.input]
  refine ⟨by omega, ?_⟩
  rw [hlen, ← h]
  simp [State.input]

/-- Settles O41: what COMPRESS wrote is a legal header and the codes of the input's bytes, which are entries of it. -/
theorem decompressInvertsCompress : Obligations.DecompressInvertsCompress := by
  intro s t v hidle hbuild hcompress hdone hvidle hvbuild hvlen hvinLen hvinput hvcap
  obtain ⟨u, hu, rfl⟩ := exec_done (i := .compress) rfl hidle hdone hcompress
  obtain ⟨c, hc, hfits, rfl⟩ := compressBody_ok hu hbuild
  have hcbuild : c.build = s.build := hc.frame.build
  have hcwf : c.build.wellFormed = true := hcbuild ▸ hbuild
  have hbits := bitCount_eq_payload_length hc.counted
  obtain ⟨hholds, -, hregs, -, htables⟩ := afterSerialize_spec hcwf hbits hfits
  have hinLen : c.regs.inLen = s.regs.inLen := hc.frame.inLen
  have hinput : c.input = s.input := input_congr hc.frame.inByte hinLen (hinLen ▸ inLen_le hcwf hc.counted.1)
  have hcontainer : v.input = c.container := by
    obtain ⟨-, hmax⟩ := container_length_le hcwf hbits hfits
    rw [hvinput, successCommit_regs, hregs, toNat_ofNat32 (show c.container.length < 2 ^ 32 by omega)]
    exact hholds
  have hlegal : Params.legalEntries v.build c.entries := (hcbuild.trans hvbuild.symm) ▸ hc.legal
  have hfitsV : c.picks.length ≤ v.cap := by rwa [picks_length, hinLen]
  obtain ⟨hexec, hcompleted⟩ := exec_decompress hlegal hvidle (hvbuild ▸ hbuild) hvlen hc.mem_entries hc.picks_pos hfitsV
    (hc.container_eq ▸ holds_of_input hcontainer)
  obtain ⟨hwbuild, hwtable, hwout, hwoutLen, hwunique, hwtotal, hwbits⟩ :=
    afterContainer_spec (s := accept 2 (request 2 v)) hlegal hc.mem_entries hfitsV
  have htable : c.afterSerialize.tableIs c.entries := tableIs_congr (afterSerialize_build c) htables hc.table
  have hlimit : c.afterSerialize.limit = s.limit := congrArg Params.limit ((afterSerialize_build c).trans hcbuild)
  have hwlimit := congrArg Params.limit (hwbuild.trans hvbuild)
  refine ⟨_, hexec, hcompleted, ?_, ?_, ?_, ?_, ?_, hwtable.1.trans htable.1.symm, fun i hi =>
    tableIs_codeOf_eq htable hwtable (hwlimit.trans hlimit.symm) (hlimit ▸ hi)⟩
  · rw [← hinput, ← picks_fst]
    exact hwout
  · rw [successCommit_regs, hwoutLen, ofNat_picks_length, hinLen]
  · rw [successCommit_regs, successCommit_regs, hwunique, hregs, hc.unique, BitVec.ofNat_toNat, BitVec.setWidth_eq]
  · rw [successCommit_regs, successCommit_regs, hwtotal, hregs, ofNat_picks_length, hc.total]
  · rw [successCommit_regs, successCommit_regs, hwbits, hregs, hc.payloadBits, hbits, picks_snd]

end Sys2Proof.Machine
end

section
/-! PROOFS. PARSE_HEADER behind entries that it has read without an error (45_parser.md R210 to R216): the table holds the
entries and RD_PTR stands behind them, whatever the container goes on with. From there the next byte decides: an entry's
start (R212), the next character of a code (R213), or behind the sentinel the counts and their checks (R214, R215). -/

namespace Sys2Proof.Machine

open Sys2Proof.Config (Params)

/-! ### The state behind the entries read -/

/-- PARSE_HEADER with the entries `l` bound and RD_PTR at offset `o`. -/
def State.parsedTo (s : State) (l : List (Byte × List Bool)) (o : Nat) : State :=
  (s.parsed l).withDp { s.dp with rdPtr := BitVec.ofNat 32 o }

section

variable (s : State) (l : List (Byte × List Bool)) (o : Nat)

@[simp] theorem parsedTo_regs : (s.parsedTo l o).regs = s.regs := parsed_regs s l
@[simp] theorem parsedTo_build : (s.parsedTo l o).build = s.build := parsed_build s l
@[simp] theorem parsedTo_limit : (s.parsedTo l o).limit = s.limit := congrArg Params.limit (parsed_build s l)
@[simp] theorem parsedTo_inByte (a : Nat) : (s.parsedTo l o).inByte a = s.inByte a := parsed_inByte s l a

@[simp] theorem parsedTo_inCount (p : Nat) : (s.parsedTo l o).inCount p = s.inCount p := by
  simp only [State.inCount, parsedTo_inByte]

theorem parsedTo_skip (n : Nat) : (s.parsedTo l o).skip n = s.parsedTo l (o + n) := by
  rw [State.skip, State.parsedTo, withDp_withDp, withDp_dp, ← BitVec.ofNat_add, State.parsedTo]

theorem parsedTo_bindCode (e : Byte × List Bool) :
    (s.parsedTo l o).bindCode e.1 e.2 = s.parsedTo (l ++ [e]) o := by
  rw [State.parsedTo, withDp_bindCode, State.parsed, State.parsedTo, State.parsed, bindCodes_append]
  rfl

variable {s l o}

theorem parsedTo_rdPtr (h : o ≤ s.regs.inLen.toNat) : (s.parsedTo l o).dp.rdPtr.toNat = o :=
  toNat_ofNat32 (h.trans_lt s.regs.inLen.isLt)

theorem parsedTo_holds {a : Nat} {bytes : List Byte} (h : s.holds a bytes) : (s.parsedTo l o).holds a bytes :=
  parsed_holds h

/-- What IN_MEM holds at RD_PTR. -/
theorem parsedTo_holds_rdPtr {bytes : List Byte} (h : s.holds o bytes) :
    (s.parsedTo l o).holds (s.parsedTo l o).dp.rdPtr.toNat bytes := by
  have hfits := h.1
  rw [parsedTo_rdPtr (by omega)]
  exact parsedTo_holds h

section

variable (hread : Params.readableEntries s.build l)

include hread

theorem parsedTo_tableIs : (s.parsedTo l o).tableIs l :=
  bindCodes_clear_tableIs (u := s.enterPhase .parseHeader) (tableEntries_of_readable hread)

/-- A symbol of the alphabet is bound when it has an entry. -/
theorem parsedTo_codeLenAt {sym : Byte} (hsym : sym.toNat < s.limit) :
    (s.parsedTo l o).codeLenAt sym.toNat ≠ 0 ↔ sym ∈ l.map Prod.fst := by
  have hbound := bindCodes_clear_codeLenAt_ne_zero (s := s.enterPhase .parseHeader) hread hsym
  rwa [ofNat8_toNat] at hbound

end

end

/-! ### Reading past entries -/

theorem readableEntries_append {p : Params} {l l' : List (Byte × List Bool)} :
    Params.readableEntries p (l ++ l') ↔ Params.readableEntries p l ∧ Params.readableEntries p l'
      ∧ (l.map Prod.fst).Disjoint (l'.map Prod.fst) := by
  simp only [Params.readableEntries, List.forall_mem_append, List.map_append, List.nodup_append']
  tauto

/-- Every entry has its bytes. -/
theorem length_le_length_entryBytes (l : List (Byte × List Bool)) : l.length ≤ (l.flatMap entryBytes).length := by
  rw [List.length_flatMap]
  have h := List.length_le_sum_of_one_le (l.map fun e => (entryBytes e).length)
    (List.forall_mem_map.2 fun e _ => by rw [entryBytes_length]; omega)
  rwa [List.length_map] at h

section

variable {s : State} {l : List (Byte × List Bool)}

/-- The entry loop takes one round for each entry, and binds it (R210). -/
theorem parseEntries_parsedTo (hread : Params.readableEntries s.build l) (h : s.holds 0 (l.flatMap entryBytes)) (n : Nat) :
    parseEntries (n + l.length) (s.parsedTo [] 0)
      = parseEntries n (s.parsedTo l (l.flatMap entryBytes).length) := by
  induction l using List.reverseRecOn generalizing n with
  | nil => rfl
  | append_singleton l e ih =>
    obtain ⟨hl, ⟨hsym, -, hlen⟩, hnew⟩ := readableEntries_append.1 hread
    rw [List.flatMap_append, List.flatMap_singleton] at h ⊢
    obtain ⟨hpast, hentry⟩ := holds_of_append h
    rw [Nat.zero_add] at hentry
    obtain ⟨hpos, hmax⟩ := hlen e (List.mem_singleton_self e)
    have hsym := hsym e (List.mem_singleton_self e)
    have hfree : (s.parsedTo l (l.flatMap entryBytes).length).codeLenAt e.1.toNat = 0 :=
      not_not.1 ((parsedTo_codeLenAt hl hsym.1).not.2 fun hmem => hnew hmem (List.mem_singleton_self _))
    obtain ⟨hstart, hcode⟩ := parseEntry_of_holds (s := s.parsedTo l (l.flatMap entryBytes).length)
      (by rwa [parsedTo_build]) hfree hpos (by rwa [parsedTo_build]) (parsedTo_holds_rdPtr hentry)
    rw [List.length_append, List.length_singleton, Nat.add_comm l.length, ← Nat.add_assoc, ih hl hpast, parseEntries, hstart,
      ok_bind]
    dsimp only
    rw [hcode, ok_bind, parsedTo_bindCode, parsedTo_skip, List.length_append]

/-- PARSE_HEADER behind the sentinel: the counts, the checks and the results (R214 to R216). -/
def parseTail (v : State) : Run := do
  let (u, t, w) ← parseCounts v
  headerCheck (v.dp.rdPtr.toNat - 1) u t w
  return parseCommit u t w

variable (hlen : s.lenOk) (hread : Params.readableEntries s.build l)

include hlen hread

/-- PARSE_HEADER goes on behind the entries it could read (R210, R211). -/
theorem parseHeaderBody_past_entries (h : s.holds 0 (l.flatMap entryBytes)) :
    ∃ n, parseHeaderBody s = parseEntries (n + 1) (s.parsedTo l (l.flatMap entryBytes).length) >>= parseTail := by
  have hguard : lengthGuard (s.enterPhase .parseHeader) = .ok () := lengthGuard_of_lenOk hlen
  have hcount := length_le_length_entryBytes l
  have hfits := h.1
  obtain ⟨n, hn⟩ : ∃ n, s.regs.inLen.toNat + 1 = n + 1 + l.length := ⟨s.regs.inLen.toNat - l.length, by omega⟩
  refine ⟨n, ?_⟩
  rw [parseHeaderBody, hguard, ok_bind, ← parseEntries_parsedTo hread h, ← hn]
  rfl

/-- PARSE_HEADER goes on behind the sentinel (R212). -/
theorem parseHeaderBody_past_sentinel (h : s.holds 0 (l.flatMap entryBytes ++ [Config.sentinel])) :
    parseHeaderBody s = parseTail (s.parsedTo l ((l.flatMap entryBytes).length + 1)) := by
  obtain ⟨hpast, hsen⟩ := holds_of_append h
  rw [Nat.zero_add] at hsen
  obtain ⟨n, hn⟩ := parseHeaderBody_past_entries hlen hread hpast
  obtain ⟨hlt, hb, -⟩ := holds_of_cons (parsedTo_holds_rdPtr (l := l) hsen)
  rw [hn, parseEntries, parseEntryStart_sentinel hlt hb, parsedTo_skip]
  rfl

/-- A raise behind the entries is the raise of PARSE_HEADER. -/
theorem parseHeaderBody_raise {kind : ErrKind} {sub pos : Nat} (h : s.holds 0 (l.flatMap entryBytes))
    (hraise : ∀ n, parseEntries (n + 1) (s.parsedTo l (l.flatMap entryBytes).length) = raise kind sub pos) :
    parseHeaderBody s = raise kind sub pos := by
  obtain ⟨n, hn⟩ := parseHeaderBody_past_entries hlen hread h
  rw [hn, hraise, raise_bind]

end

/-- A raise of the parser is the error of PARSE_HEADER and of DECOMPRESS, whose first stage it is (47_control.md R267). -/
theorem exec_failsWith_of_parse {s : State} {i : Instr} {kind : ErrKind} {sub pos : Nat} (hidle : s.idle)
    (hi : i = .parseHeader ∨ i = .decompress)
    (h : parseHeaderBody (accept i.opcode (request i.opcode s)) = raise kind sub pos) :
    failsWith (exec i s) kind.code (BitVec.ofNat 4 sub) (BitVec.ofNat 32 pos) := by
  rcases hi with rfl | rfl
  · rw [exec_runs (body := parseHeaderBody) rfl hidle rfl]
    exact finish_failsWith h _
  · rw [exec_runs (body := decompressBody) rfl hidle rfl]
    exact finish_failsWith (by rw [decompressBody, h, raise_bind]) _

theorem ofNat_inLen (s : State) : BitVec.ofNat 32 s.regs.inLen.toNat = s.regs.inLen := by
  rw [BitVec.ofNat_toNat, BitVec.setWidth_eq]

end Sys2Proof.Machine
end

section
/-! PROOFS. A legal header read by PARSE_HEADER (45_parser.md R216), and the errors of PARSE_HEADER and DECOMPRESS: at an
entry's start (R212), inside a code string (R213), and behind the sentinel (R214, R215). -/

namespace Sys2Proof.Machine

open Sys2Proof.Config (Params)

/-! ### A legal header -/

/-- MAXLEN of a table is the greatest length of its entries (R216). -/
theorem tableIs_greatestLen {u : State} {l : List (Byte × List Bool)} (h : u.tableIs l) (hs : u.codeSized) :
    u.greatestLen = (l.map (·.2.length)).foldl max 0 := by
  rw [List.foldl_max, Nat.zero_max]
  refine Nat.le_antisymm ?_ ?_
  · obtain ⟨i, hi, hmax⟩ := exists_codeLenAt_eq_greatestLen hs
    rw [← hmax]
    by_cases hzero : u.codeLenAt i = 0
    · omega
    · obtain ⟨e, he, -, hcode⟩ := exists_entry_of_tableIs h ⟨hi, hzero⟩
      have hlen := congrArg List.length hcode
      rw [State.codeOf, bitString_length] at hlen
      rw [hlen]
      exact List.le_max?_getD_of_mem (List.mem_map_of_mem he)
  · cases hm : (l.map (·.2.length)).max? with
    | none => exact Nat.zero_le _
    | some m =>
      obtain ⟨e, he, rfl⟩ := List.mem_map.1 (List.max?_mem hm)
      rw [Option.getD_some, ← tableIs_codeLenAt h he]
      exact codeLenAt_le_greatestLen u _

theorem bindCodes_codeSized {s : State} (h : s.codeSized) (l : List (Byte × List Bool)) : (s.bindCodes l).codeSized := by
  induction l generalizing s with
  | nil => exact h
  | cons e l ih => exact ih (bindCode_codeSized h e.1 e.2)

/-- Settles O31: the parser reads entries, counts and checks to their end, and writes its results. -/
theorem parseReadsALegalHeader : Obligations.ParseReadsALegalHeader := by
  intro s l t hidle hlen hl hpos hcap h
  have hbody := parseHeaderBody_of_header (s := accept 7 (request 7 s)) hlen hl hpos hcap h
  have hexec := exec_runs (i := .parseHeader) (body := parseHeaderBody) rfl hidle rfl
  rw [Instr.opcode, hbody, finish_ok] at hexec
  have htable := afterParse_tableIs (s := accept 7 (request 7 s)) hl t
  have hsized := bindCodes_codeSized (clearCodes_codeSized ((accept 7 (request 7 s)).enterPhase .parseHeader)) l
  have hmax := tableIs_greatestLen htable hsized
  have hfits := h.1
  have hcount := length_le_length_entryBytes l
  have hheader := congrArg List.length (headerBytes_eq l l.length t)
  rw [List.length_append, List.length_append] at hheader
  have hin := s.regs.inLen.isLt
  exact ⟨_, hexec, successCommit_completed (bodyOf_frame (op := 7) (body := parseHeaderBody) rfl hbody),
    congrArg Regs.cmdOp (parsed_regs (accept 7 (request 7 s)) l), htable, toNat_ofNat32 (by omega),
    toNat_ofNat32 (hcap.trans_lt ((Nat.min_le_left _ _).trans_lt s.regs.outCap.isLt)), toNat_ofNat32 (by omega),
    (toNat_greatestLen _).trans hmax, rfl, rfl⟩

/-! ### At an entry's start -/

section

variable {s : State} {o : Nat} (hrd : s.dp.rdPtr.toNat = o)

include hrd

/-- The container ends at an entry's start (R212). -/
theorem parseEntryStart_end (h : s.regs.inLen.toNat ≤ o) :
    parseEntryStart s = raise .corruptContainer 1 s.regs.inLen.toNat := by
  subst hrd
  exact if_pos (decide_eq_true h)

/-- A byte that no symbol has at an entry's start (R212). -/
theorem parseEntryStart_beyond (h : o < s.regs.inLen.toNat) (hb : s.limit ≤ (s.inByte o).toNat) :
    parseEntryStart s = raise .corruptContainer 5 o := by
  subst hrd
  have hsen : s.inByte s.dp.rdPtr.toNat ≠ Config.sentinel := by
    intro heq
    have hlimit := limit_cases s.build
    rw [heq, State.limit, show Config.sentinel.toNat = 7 from rfl] at hb
    omega
  rw [parseEntryStart, atEnd_of_lt h]
  exact (if_neg hsen).trans (if_pos hb)

/-- A symbol with a code at an entry's start (R212). -/
theorem parseEntryStart_bound (h : o < s.regs.inLen.toNat) (hsym : Params.symbol s.build (s.inByte o))
    (hbound : s.codeLenAt (s.inByte o).toNat ≠ 0) : parseEntryStart s = raise .corruptContainer 6 o := by
  subst hrd
  obtain ⟨hlimit, hsen⟩ := hsym
  rw [parseEntryStart, atEnd_of_lt h]
  exact (if_neg hsen).trans ((if_neg (Nat.not_le.2 hlimit)).trans (if_pos hbound))

end

/-- Settles O32: behind the entries ParseEntryStart raises, and its raise ends the entry loop. -/
theorem entryStartErrors : Obligations.EntryStartErrors := by
  intro s i l hidle hi hlen hread h o
  have hrd : ((accept i.opcode (request i.opcode s)).parsedTo l o).dp.rdPtr.toNat = o :=
    parsedTo_rdPtr ((Nat.zero_add o).symm.trans_le h.1)
  have hfails {sub pos : Nat}
      (hstart : parseEntryStart ((accept i.opcode (request i.opcode s)).parsedTo l o) = raise .corruptContainer sub pos) :
      failsWith (exec i s) 3 (BitVec.ofNat 4 sub) (BitVec.ofNat 32 pos) :=
    exec_failsWith_of_parse (kind := .corruptContainer) hidle hi <|
      parseHeaderBody_raise (s := accept i.opcode (request i.opcode s)) hlen hread h fun n => by
        rw [parseEntries, hstart, raise_bind]
  refine ⟨fun hend => ?_, fun hlt hb => ?_, fun hlt hb => ?_⟩
  · have hstart := parseEntryStart_end hrd (by rw [parsedTo_regs]; exact hend.symm.le)
    rw [parsedTo_regs] at hstart
    rw [← ofNat_inLen]
    exact hfails hstart
  · exact hfails (parseEntryStart_beyond hrd (by rwa [parsedTo_regs]) (by rwa [parsedTo_limit, parsedTo_inByte]))
  · obtain ⟨e, he, heb⟩ := List.mem_map.1 hb
    have hsym := heb ▸ hread.1 e he
    refine hfails (parseEntryStart_bound hrd (by rwa [parsedTo_regs]) (by rwa [parsedTo_build, parsedTo_inByte]) ?_)
    rw [parsedTo_inByte]
    exact (parsedTo_codeLenAt (s := accept i.opcode (request i.opcode s)) hread hsym.1).2 hb

/-! ### Inside a code string -/

/-- ParseCode reads characters of a code that is not too long (R213). -/
theorem parseCode_past {sym : Byte} {n : Nat} {c c' : List Bool} {s : State} (hmax : (c ++ c').length ≤ s.build.maxCodeLen)
    (h : s.holds s.dp.rdPtr.toNat (c'.map codeChar)) :
    parseCode sym (n + c'.length) c s = parseCode sym n (c ++ c') (s.skip c'.length) := by
  induction c' generalizing c s with
  | nil =>
    rw [List.append_nil, State.skip, List.length_nil, BitVec.add_zero]
    rfl
  | cons x c' ih =>
    obtain ⟨hlt, hb, hrest⟩ := holds_of_cons h
    rw [List.append_cons] at hmax ⊢
    have hlen : c.length < s.build.maxCodeLen := by
      rw [List.length_append, List.length_append, List.length_singleton] at hmax
      omega
    rw [List.length_cons, ← Nat.add_assoc, parseCode_char hlt hb hlen,
      ih (s := s.skip 1) hmax (by rw [skip_rdPtr s (n := 1) hlt]; exact hrest), skip_skip, Nat.add_comm 1]

section

variable {s : State} {sym : Byte} {n o : Nat} {c : List Bool} (hrd : s.dp.rdPtr.toNat = o)

include hrd

/-- The container ends inside a code string (R213). -/
theorem parseCode_end (h : s.regs.inLen.toNat ≤ o) :
    parseCode sym n c s = raise .corruptContainer 1 s.regs.inLen.toNat := by
  subst hrd
  cases n with
  | zero => rfl
  | succ n => exact if_pos (decide_eq_true h)

variable (h : o < s.regs.inLen.toNat)

include h

/-- A terminator where no character of the code has come (R213). -/
theorem parseCode_empty (hb : s.inByte o = Config.terminator) :
    parseCode sym (n + 1) [] s = raise .corruptContainer 3 o := by
  subst hrd
  rw [parseCode, atEnd_of_lt h]
  exact if_pos hb

/-- A byte that a code string has no use for (R213). -/
theorem parseCode_stray (hterm : s.inByte o ≠ Config.terminator) (hzero : s.inByte o ≠ Config.asciiZero)
    (hone : s.inByte o ≠ Config.asciiOne) : parseCode sym (n + 1) c s = raise .corruptContainer 2 o := by
  subst hrd
  rw [parseCode, atEnd_of_lt h]
  exact (if_neg hterm).trans (if_neg (not_or.2 ⟨hzero, hone⟩))

/-- A code character behind MAX_CODE_LEN of them (R213). -/
theorem parseCode_tooLong (hchar : s.inByte o = Config.asciiZero ∨ s.inByte o = Config.asciiOne)
    (hc : c.length = s.build.maxCodeLen) : parseCode sym (n + 1) c s = raise .corruptContainer 4 o := by
  subst hrd
  have hterm : s.inByte s.dp.rdPtr.toNat ≠ Config.terminator := by
    rcases hchar with hb | hb <;> rw [hb] <;> decide
  rw [parseCode, atEnd_of_lt h]
  refine (if_neg hterm).trans ((if_pos hchar).trans (if_pos ?_))
  rw [List.length_append, hc]
  exact Nat.lt_succ_self _

end

/-- The entry loop behind the entries, a new symbol and the first characters of its code is ParseCode there (R213). -/
theorem parseEntries_past_characters {s : State} {l : List (Byte × List Bool)} {sym : Byte} {c : List Bool} {o n : Nat}
    (hread : Params.readableEntries s.build l) (hsym : Params.symbol s.build sym) (hnew : sym ∉ l.map Prod.fst)
    (hmax : c.length ≤ s.build.maxCodeLen) (h : s.holds o (sym :: c.map codeChar)) :
    parseEntries (n + 1) (s.parsedTo l o)
      = parseCode sym (s.regs.inLen.toNat - (o + 1 + c.length)) c (s.parsedTo l (o + 1 + c.length)) >>= parseEntries n := by
  have hfits := h.1
  rw [List.length_cons, List.length_map] at hfits
  obtain ⟨hlt, hb, -⟩ := holds_of_cons (parsedTo_holds_rdPtr (l := l) h)
  obtain ⟨-, -, hchars⟩ := holds_of_cons h
  have hstart := parseEntryStart_symbol hlt hb (by rwa [parsedTo_build])
    (not_not.1 ((parsedTo_codeLenAt hread hsym.1).not.2 hnew))
  have hfuel : s.regs.inLen.toNat - (o + 1) = s.regs.inLen.toNat - (o + 1 + c.length) + c.length := by omega
  have hcode := parseCode_past (sym := sym) (n := s.regs.inLen.toNat - (o + 1 + c.length)) (c := []) (c' := c)
    (s := s.parsedTo l (o + 1)) (by rwa [parsedTo_build]) (parsedTo_holds_rdPtr hchars)
  rw [parseEntries, hstart, ok_bind]
  dsimp only
  rw [parsedTo_skip, parsedTo_regs, parsedTo_rdPtr (show o + 1 ≤ s.regs.inLen.toNat by omega), hfuel, hcode, parsedTo_skip,
    List.nil_append]

/-- Settles O33: behind the entries, the symbol and the characters ParseCode raises, and its raise ends the entry loop. -/
theorem codeStringErrors : Obligations.CodeStringErrors := by
  intro s i l sym c hidle hi hlen hread hsym hnew hmax h o
  obtain ⟨hpast, hchars⟩ := holds_of_append h
  rw [Nat.zero_add] at hchars
  have hfits := hchars.1
  rw [List.length_cons, List.length_map] at hfits
  have ho : o ≤ s.regs.inLen.toNat := by omega
  have hrd : ((accept i.opcode (request i.opcode s)).parsedTo l o).dp.rdPtr.toNat = o := parsedTo_rdPtr ho
  have hfails {sub pos : Nat} (hcode : parseCode sym (s.regs.inLen.toNat - o) c
        ((accept i.opcode (request i.opcode s)).parsedTo l o) = raise .corruptContainer sub pos) :
      failsWith (exec i s) 3 (BitVec.ofNat 4 sub) (BitVec.ofNat 32 pos) :=
    exec_failsWith_of_parse (kind := .corruptContainer) hidle hi <|
      parseHeaderBody_raise (s := accept i.opcode (request i.opcode s)) hlen hread hpast fun n => by
        have heq := parseEntries_past_characters (n := n) (s := accept i.opcode (request i.opcode s))
          hread hsym hnew hmax hchars
        exact heq.trans (congrArg (· >>= parseEntries n) hcode)
  have hfailsInside (hlt : o < s.regs.inLen.toNat) {sub : Nat} (hcode : ∀ n, parseCode sym (n + 1) c
        ((accept i.opcode (request i.opcode s)).parsedTo l o) = raise .corruptContainer sub o) :
      failsWith (exec i s) 3 (BitVec.ofNat 4 sub) (BitVec.ofNat 32 o) := by
    obtain ⟨n, hn⟩ := Nat.exists_eq_add_one_of_ne_zero (Nat.sub_ne_zero_of_lt hlt)
    exact hfails (hn ▸ hcode n)
  have hin (hlt : o < s.regs.inLen.toNat) :
      o < ((accept i.opcode (request i.opcode s)).parsedTo l o).regs.inLen.toNat := by rwa [parsedTo_regs]
  refine ⟨fun hend => ?_, fun hlt hb hc => ?_, fun hlt h0 h1 h2 => ?_, fun hlt hb hc => ?_⟩
  · have hcode := parseCode_end (sym := sym) (n := s.regs.inLen.toNat - o) (c := c) hrd
      (by rw [parsedTo_regs]; exact hend.symm.le)
    rw [parsedTo_regs] at hcode
    rw [← ofNat_inLen]
    exact hfails hcode
  · subst hc
    exact hfailsInside hlt fun _ => parseCode_empty hrd (hin hlt) (by rwa [parsedTo_inByte])
  · exact hfailsInside hlt fun _ => parseCode_stray hrd (hin hlt) (by rwa [parsedTo_inByte]) (by rwa [parsedTo_inByte])
      (by rwa [parsedTo_inByte])
  · exact hfailsInside hlt fun _ => parseCode_tooLong hrd (hin hlt) (by rwa [parsedTo_inByte]) (by rwa [parsedTo_build])

/-! ### Behind the sentinel -/

/-- Entries of a table in which no code begins another do not clash (R215). -/
theorem tableIs_clashFree {u : State} {l : List (Byte × List Bool)} (h : u.tableIs l) (hl : TableEntries u.build l)
    (hfree : u.prefixFree) : clashFree l := by
  have ⟨_, hcode, _⟩ := h
  have hprefix {x y : Byte × List Bool} (hx : x ∈ l) (hy : y ∈ l) (hxy : x.1 ≠ y.1) : ¬ x.2 <+: y.2 := by
    rw [← hcode x hx, ← hcode y hy]
    exact hfree _ (mem_boundSymbols.2 (tableIs_bound h hl hx)) _ (mem_boundSymbols.2 (tableIs_bound h hl hy))
      fun heq => hxy (BitVec.eq_of_toNat_eq heq)
  exact (List.pairwise_map.1 hl.nodup).imp_of_mem fun hx hy hxy => ⟨hprefix hx hy hxy, hprefix hy hx hxy.symm⟩

section

variable {s : State} {l : List (Byte × List Bool)} {o : Nat}

theorem parsedTo_order_length : (s.parsedTo l o).tables.order.length = l.length :=
  (congrArg List.length (parsed_order s l)).trans (List.length_map _)

theorem parsedTo_cap : (s.parsedTo l o).cap = s.cap := parsed_cap s l

/-- The table has a clash exactly when the entries have (R215). -/
theorem parsedTo_prefixClash (hread : Params.readableEntries s.build l) :
    (s.parsedTo l o).prefixClash = true ↔ ¬ clashFree l := by
  have htable := parsedTo_tableIs (o := o) hread
  constructor
  · intro hclash hfree
    rw [prefixClash_of_prefixFree (tableIs_prefixFree htable hfree)] at hclash
    cases hclash
  · intro hnot
    by_contra hclash
    refine hnot (tableIs_clashFree htable ?_ (prefixFree_of_prefixClash (Bool.eq_false_iff.2 hclash)))
    rw [parsedTo_build]
    exact tableEntries_of_readable hread

/-- ParseCounts inside the container reads the two counts (R214). -/
theorem parseCounts_of_fits (h : s.dp.rdPtr.toNat + 8 ≤ s.regs.inLen.toNat) :
    parseCounts s = .ok (s.inCount s.dp.rdPtr.toNat, s.inCount (s.dp.rdPtr.toNat + 4), s.skip 8) :=
  if_neg (Nat.not_lt.2 h)

/-- The container ends inside the counts (R214). -/
theorem parseTail_truncated (h : o ≤ s.regs.inLen.toNat) (hend : s.regs.inLen.toNat < o + 8) :
    parseTail (s.parsedTo l o) = raise .corruptContainer 7 s.regs.inLen.toNat := by
  have hcounts : parseCounts (s.parsedTo l o) = raise .corruptContainer 7 s.regs.inLen.toNat := by
    rw [parseCounts, parsedTo_regs, parsedTo_rdPtr h]
    exact if_pos hend
  rw [parseTail, hcounts, raise_bind]

/-- The counts are read, and the checks decide (R214, R215). -/
theorem parseTail_raise {kind : ErrKind} {sub pos : Nat} (hfits : o + 9 ≤ s.regs.inLen.toNat)
    (hcheck : headerCheck o (s.inCount (o + 1)) (s.inCount (o + 5)) (s.parsedTo l (o + 9)) = raise kind sub pos) :
    parseTail (s.parsedTo l (o + 1)) = raise kind sub pos := by
  have hrd : (s.parsedTo l (o + 1)).dp.rdPtr.toNat = o + 1 := parsedTo_rdPtr (by omega)
  have hcounts : parseCounts (s.parsedTo l (o + 1))
      = .ok (s.inCount (o + 1), s.inCount (o + 5), s.parsedTo l (o + 9)) := by
    rw [parseCounts_of_fits (by rw [hrd, parsedTo_regs]; omega), hrd, parsedTo_inCount, parsedTo_inCount, parsedTo_skip]
  rw [parseTail, hcounts, ok_bind, hrd]
  dsimp only
  rw [Nat.add_sub_cancel, hcheck, raise_bind]

end

/-- Settles O34: the counts are read and checked in the order of the clauses, on the table of the entries. -/
theorem headerCheckErrors : Obligations.HeaderCheckErrors := by
  intro s i l hidle hi hlen hread h ps u t at'
  have hfits := h.1
  rw [List.length_append, List.length_singleton, Nat.zero_add] at hfits
  have hfails {kind : ErrKind} {sub pos : Nat}
      (htail : parseTail ((accept i.opcode (request i.opcode s)).parsedTo l (ps + 1)) = raise kind sub pos) :
      failsWith (exec i s) kind.code (BitVec.ofNat 4 sub) (BitVec.ofNat 32 pos) :=
    exec_failsWith_of_parse hidle hi <|
      (parseHeaderBody_past_sentinel (s := accept i.opcode (request i.opcode s)) hlen hread h).trans htail
  refine ⟨fun hend => ?_, fun hcounts => ?_⟩
  · rw [← ofNat_inLen]
    exact hfails (parseTail_truncated hfits hend)
  · have hchecks {kind : ErrKind} {sub pos : Nat}
        (hcheck : headerCheck ps u t ((accept i.opcode (request i.opcode s)).parsedTo l (ps + 9)) = raise kind sub pos) :
        failsWith (exec i s) kind.code (BitVec.ofNat 4 sub) (BitVec.ofNat 32 pos) :=
      hfails (parseTail_raise hcounts hcheck)
    have hclash := parsedTo_prefixClash (s := accept i.opcode (request i.opcode s)) (o := ps + 9) hread
    have hne (hl : l ≠ []) : ¬ l.length = 0 := List.length_eq_zero_iff.not.2 hl
    simp only [headerCheck, parsedTo_order_length, parsedTo_cap, hclash] at hchecks
    refine ⟨fun hl => ?_, fun hl hu => ?_, fun hl hu ht => ?_, fun hl hu ht hnot => ?_, fun hl hu hfree ht => ?_⟩
    · exact hchecks (if_pos (List.length_eq_zero_iff.2 hl))
    · exact hchecks ((if_neg (hne hl)).trans (if_pos hu))
    · exact hchecks ((if_neg (hne hl)).trans ((if_neg (not_not.2 hu)).trans (if_pos ht)))
    · exact hchecks ((if_neg (hne hl)).trans ((if_neg (not_not.2 hu)).trans ((if_neg ht).trans (if_pos hnot))))
    · exact hchecks ((if_neg (hne hl)).trans ((if_neg (not_not.2 hu)).trans ((if_neg (by omega)).trans
        ((if_neg (not_not.2 hfree)).trans (if_pos ht)))))

end Sys2Proof.Machine
end

section
/-! PROOFS. DECODE_PAYLOAD of the codes of TOTAL symbols (46_decoder.md R240 to R245). -/

namespace Sys2Proof.Machine

/-- DECODE_PAYLOAD runs on a parsed header (47_control.md R264). -/
theorem exec_decodePayload {s : State} (hidle : s.idle) (hhdr : s.status.hdrValid = true) :
    exec .decodePayload s = finish (decodePayloadBody (accept 8 (request 8 s))) (accept 8 (request 8 s)) := by
  have hpre : prereq 8 (request 8 s).status = 0 := if_pos hhdr
  exact exec_runs (i := .decodePayload) (body := decodePayloadBody) rfl hidle hpre

/-- Settles O35: the decoder ends behind the codes, and its results are those of `State.afterDecode`. -/
theorem decodeWritesTheSymbols : Obligations.DecodeWritesTheSymbols := by
  intro s symbols hidle hhdr _ hlen hlength hcap hfree hsym _ hbits
  have hbody := decodePayloadBody_of_codes (s := accept 8 (request 8 s)) hlength hcap hfree hsym hlen hbits
  have hexec := exec_decodePayload hidle hhdr
  rw [hbody, finish_ok] at hexec
  obtain ⟨hholds, hother, hregs, hstatus, htables⟩ := afterDecode_spec (s := accept 8 (request 8 s)) hlength hcap
  obtain ⟨-, -, hsame⟩ := commandsNeverWriteTheInput .decodePayload s _ hexec
  have hflags := congrArg Status.flags hstatus
  exact ⟨_, hexec, successCommit_completed (decodePayloadBody_frame hbody), hholds, hregs, hflags, htables,
    hsame (by decide), hother⟩

end Sys2Proof.Machine
end

section
/-! PROOFS. The errors of the decoder (46_decoder.md R242, R243): behind the codes of fewer than TOTAL symbols a rest that no
code begins is read bit by bit into the candidate, until the container ends or the candidate is longer than MAXLEN. The
second stage of DECOMPRESS decodes from the same table and registers as DECODE_PAYLOAD behind PARSE_HEADER (R267). -/

namespace Sys2Proof.Machine

open Sys2Proof.Config (Params)

/-! ### The rest -/

/-- No code of the table begins these bits. -/
def State.unmatched (s : State) (bits : List Bool) : Prop := ∀ i, s.bound i → ¬ s.codeOf i <+: bits

/-- The error that a rest of `n` bits which no code begins ends in: the container is exhausted within MAXLEN bits, or bit
MAXLEN of the rest is one too many (R242, R243). -/
def Regs.restError (r : Regs) (n : Nat) : Run :=
  if n ≤ r.maxLen.toNat then raise .corruptContainer 12 r.inLen.toNat
  else raise .corruptContainer 13
    (r.payloadOfs.toNat + (8 * (r.inLen.toNat - r.payloadOfs.toNat) + r.maxLen.toNat - n) / 8)

section

variable {s : State}

/-- A candidate that begins bits which no code begins matches nothing (R243). -/
theorem matchSymbol_of_unmatched {bits : List Bool} (h : s.unmatched bits) (hcand : s.candidate <+: bits)
    (hpos : s.candidate ≠ []) : s.matchSymbol = none := by
  cases hm : s.matchSymbol with
  | none => rfl
  | some i =>
    obtain ⟨hi, hlen, hcode⟩ := matchSymbol_some hm
    have hne : s.codeLenAt i ≠ 0 := by
      rw [hlen, ← candidate_length]
      exact List.length_eq_zero_iff.not.2 hpos
    exact absurd (hcode ▸ hcand) (h i ⟨hi, hne⟩)

/-- A bit of the payload moves Q by one (R242). -/
theorem takeBit_q {x : Bool} (hlen : s.regs.inLen.toNat ≤ 2 ^ 28)
    (hq : s.dp.q.toNat < 8 * (s.regs.inLen.toNat - s.regs.payloadOfs.toNat)) :
    (s.takeBit x).dp.q.toNat = s.dp.q.toNat + 1 := by
  show (s.dp.q + 1).toNat = _
  rw [BitVec.toNat_add, show (1 : Word).toNat = 1 from rfl, Nat.mod_eq_of_lt (by omega)]

variable {n : Nat} (hcount : s.dp.decCount.toNat < s.regs.total.toNat)

include hcount

/-- The container ends before the next symbol does (R242). -/
theorem decodeLoop_exhausted (hq : 8 * (s.regs.inLen.toNat - s.regs.payloadOfs.toNat) ≤ s.dp.q.toNat) :
    decodeLoop n s = raise .corruptContainer 12 s.regs.inLen.toNat := by
  cases n with
  | zero => exact if_pos hcount
  | succ n =>
    rw [decodeLoop, if_pos hcount]
    dsimp only
    rw [fetchBit_end (by omega), raise_bind]

/-- One bit more than MAXLEN (R243). -/
theorem decodeLoop_noMatch (hq : s.dp.q.toNat < 8 * (s.regs.inLen.toNat - s.regs.payloadOfs.toNat))
    (hcandLen : s.dp.candLen.toNat = s.regs.maxLen.toNat) :
    decodeLoop (n + 1) s = raise .corruptContainer 13 (s.regs.payloadOfs.toNat + s.dp.q.toNat / 8) := by
  have hstep (x : Bool) (a : Nat) :
      matchStep x a (s.withDp { s.dp with q := s.dp.q + 1 }) = raise .corruptContainer 13 a := by
    have hmaxLen := s.regs.maxLen.isLt
    have htoo : s.regs.maxLen.toNat < (s.takeBit x).dp.candLen.toNat := by
      rw [(takeBit_candidate x (by omega)).1]
      omega
    exact if_pos htoo
  rw [decodeLoop, if_pos hcount]
  dsimp only
  rw [fetchBit_ok (by omega), ok_bind]
  exact (congrArg (· >>= _) (hstep _ _)).trans (raise_bind _ _ _ _)

end

/-- From a candidate on, bits which with it no code begins take the decoder to its error (R242, R243). -/
theorem decodeLoop_rest {bits : List Bool} {s : State} {n : Nat} (hlen : s.regs.inLen.toNat ≤ 2 ^ 28)
    (hcount : s.dp.decCount.toNat < s.regs.total.toNat) (hn : bits.length ≤ n)
    (hcandLen : s.dp.candLen.toNat ≤ s.regs.maxLen.toNat) (hbits : s.payloadBitList.drop s.dp.q.toNat = bits)
    (hrest : s.unmatched (s.candidate ++ bits)) :
    decodeLoop n s = s.regs.restError (s.dp.candLen.toNat + bits.length) := by
  induction bits generalizing s n with
  | nil =>
    have hq := List.drop_eq_nil_iff.1 hbits
    rw [payloadBitList_length] at hq
    rw [decodeLoop_exhausted hcount hq]
    exact (if_pos hcandLen).symm
  | cons x bits ih =>
    obtain ⟨n, rfl⟩ := Nat.exists_eq_add_one_of_ne_zero (Nat.ne_zero_of_lt hn)
    obtain ⟨hbit, -⟩ := cons_isPrefix_drop (x := x) (c := bits) (l := s.payloadBitList) (q := s.dp.q.toNat)
      (by rw [hbits])
    have hleft := congrArg List.length hbits
    rw [List.length_drop, payloadBitList_length, List.length_cons] at hleft
    have hq : s.dp.q.toNat < 8 * (s.regs.inLen.toNat - s.regs.payloadOfs.toNat) := by omega
    rcases hcandLen.eq_or_lt with hfull | hroom
    · rw [List.length_cons, decodeLoop_noMatch hcount hq hfull, Regs.restError, if_neg (by omega)]
      congr 3
      omega
    · have hmaxLen := s.regs.maxLen.isLt
      obtain ⟨hgrown, hcand⟩ := takeBit_candidate x (s := s) (by omega)
      have hrest' : s.unmatched ((s.takeBit x).candidate ++ bits) := by
        rwa [hcand, List.append_assoc]
      have hnone := matchSymbol_of_unmatched (s := s.takeBit x) hrest' (List.prefix_append _ _) (by rw [hcand]; simp)
      have hdrop : s.payloadBitList.drop (s.takeBit x).dp.q.toNat = bits := by
        rw [takeBit_q hlen hq, ← List.drop_drop, hbits]
        rfl
      rw [decodeLoop_round hcount hbit (hgrown.trans_le hroom), hnone, Option.elim_none,
        ih (s := s.takeBit x) hlen hcount (Nat.le_of_succ_le_succ hn) (hgrown.trans_le hroom) hdrop hrest', hgrown,
        List.length_cons, Nat.add_right_comm, Nat.add_assoc]
      rfl

/-! ### Symbols before the rest -/

theorem Emits.unmatched {s u : State} (h : Emits s u) {bits : List Bool} (hbits : s.unmatched bits) : u.unmatched bits := by
  obtain ⟨m, d, rfl⟩ := exists_of_sansOutput h.outside
  exact hbits

/-- One symbol decoded: stores and datapath registers apart nothing changes, and Q and DEC_COUNT move on (R243, R244). -/
theorem decodeLoop_nextSymbol {s : State} {b : Byte} (hfree : s.prefixFree) (hb : s.decodes b)
    (hlen : s.regs.inLen.toNat ≤ 2 ^ 28) (hcount : s.dp.decCount.toNat < s.regs.total.toNat) (hcandLen : s.dp.candLen = 0)
    (hbits : s.codeOf b.toNat <+: s.payloadBitList.drop s.dp.q.toNat) :
    ∃ u, (∀ n, decodeLoop (n + (s.codeOf b.toNat).length) s = decodeLoop n u) ∧ Emits s u
      ∧ u.dp.q.toNat = s.dp.q.toNat + (s.codeOf b.toNat).length ∧ u.dp.decCount.toNat = s.dp.decCount.toNat + 1
      ∧ u.dp.candLen = 0 := by
  have hpos : s.codeOf b.toNat ≠ [] := by
    rw [← List.length_pos_iff, State.codeOf, bitString_length]
    exact Nat.pos_of_ne_zero hb.1.2
  have hcand : s.candidate ++ s.codeOf b.toNat = s.codeOf b.toNat := by
    rw [State.candidate, hcandLen]
    rfl
  have hroom := hbits.length_le
  rw [List.length_drop, payloadBitList_length] at hroom
  have htotal := s.regs.total.isLt
  refine ⟨_, fun n => decodeLoop_symbol hfree hb hlen hcount hpos hcand hbits, (outWrite_emits _ _ _).withDp _, ?_, ?_, rfl⟩
  · rw [withDp_dp, BitVec.toNat_add, BitVec.toNat_ofNat, Nat.mod_eq_of_lt (by omega), Nat.mod_eq_of_lt (by omega)]
  · rw [withDp_dp, BitVec.toNat_add, show (1 : Word).toNat = 1 from rfl, Nat.mod_eq_of_lt (by omega)]

/-- The codes of fewer symbols than are left take the decoder to the rest (R240, R243). -/
theorem decodeLoop_symbols_rest {symbols : List Byte} {rest : List Bool} {s : State} {n : Nat} (hfree : s.prefixFree)
    (hsym : ∀ b ∈ symbols, s.decodes b) (hlen : s.regs.inLen.toNat ≤ 2 ^ 28)
    (hcount : s.dp.decCount.toNat + symbols.length < s.regs.total.toNat) (hn : (s.payloadOf symbols ++ rest).length ≤ n)
    (hcandLen : s.dp.candLen = 0) (hbits : s.payloadBitList.drop s.dp.q.toNat = s.payloadOf symbols ++ rest)
    (hrest : s.unmatched rest) : decodeLoop n s = s.regs.restError rest.length := by
  induction symbols generalizing s n with
  | nil =>
    have hempty : s.candidate = [] := by
      rw [State.candidate, hcandLen]
      rfl
    rw [decodeLoop_rest hlen hcount hn (by rw [hcandLen]; exact Nat.zero_le _) hbits (by rwa [hempty]), hcandLen]
    exact congrArg s.regs.restError (Nat.zero_add rest.length)
  | cons b symbols ih =>
    obtain ⟨hb, hsym⟩ := List.forall_mem_cons.1 hsym
    have hsplit : s.payloadOf (b :: symbols) = s.codeOf b.toNat ++ s.payloadOf symbols := List.flatMap_cons
    rw [List.length_cons] at hcount
    rw [hsplit, List.append_assoc] at hn hbits
    rw [List.length_append] at hn
    obtain ⟨m, rfl⟩ := Nat.exists_eq_add_of_le' ((Nat.le_add_right _ _).trans hn)
    obtain ⟨u, hloop, hemits, hq, hdec, hcandLen⟩ :=
      decodeLoop_nextSymbol hfree hb hlen (by omega) hcandLen (hbits ▸ List.prefix_append _ _)
    rw [hloop, ← hemits.regs]
    refine ih (hemits.prefixFree hfree) (fun x hx => hemits.decodes (hsym x hx)) (by rwa [hemits.regs])
      (by rw [hemits.regs, hdec]; omega) (by rw [hemits.payloadOf]; omega) hcandLen ?_ (hemits.unmatched hrest)
    rw [hemits.payloadOf, hemits.payloadBitList hlen, hq, ← List.drop_drop, hbits, List.drop_left]

/-- DECODE_PAYLOAD ends in the error of the rest (R240 to R243). -/
theorem decodePayloadBody_of_rest {s : State} {symbols : List Byte} {rest : List Bool}
    (hlen : s.regs.inLen.toNat ≤ 2 ^ 28) (hcount : symbols.length < s.regs.total.toNat) (hcap : s.regs.total.toNat ≤ s.cap)
    (hfree : s.prefixFree) (hsym : ∀ b ∈ symbols, s.decodes b) (hbits : s.payloadBitList = s.payloadOf symbols ++ rest)
    (hrest : s.unmatched rest) : decodePayloadBody s = s.regs.restError rest.length := by
  have hcheck : decodeCapCheck (s.enterPhase .decode) = .ok () := if_neg (Nat.not_lt.2 hcap)
  have hfuel := congrArg List.length hbits
  rw [payloadBitList_length] at hfuel
  have hloop := decodeLoop_symbols_rest
    (s := (s.enterPhase .decode).withDp { s.dp with q := 0, decCount := 0, cand := 0, candLen := 0 })
    (n := 8 * (s.regs.inLen.toNat - s.regs.payloadOfs.toNat) + 1) hfree hsym hlen ((Nat.zero_add _).trans_lt hcount)
    (hfuel.symm.le.trans (Nat.le_succ _)) rfl hbits hrest
  rw [decodePayloadBody, hcheck, ok_bind]
  refine (congrArg (· >>= _) hloop).trans ?_
  show (s.regs.restError rest.length >>= _) = _
  rw [Regs.restError]
  split <;> rfl

/-! ### The first stage of DECOMPRESS -/

/-- `s` with `op` in CMD and CUR_OP: the acceptances of PARSE_HEADER and DECOMPRESS differ in these alone. -/
def State.runAs (op : BitVec 4) (s : State) : State := { s with regs := { s.regs with cmdOp := op }, curOp := op }

theorem bindCodes_runAs (op : BitVec 4) (s : State) (l : List (Byte × List Bool)) :
    (s.runAs op).bindCodes l = (s.bindCodes l).runAs op :=
  List.foldl_hom (State.runAs op) fun _ _ => rfl

theorem afterParse_runAs (op : BitVec 4) (s : State) (l : List (Byte × List Bool)) (t : Nat) :
    (s.runAs op).afterParse l t = (s.afterParse l t).runAs op := by
  have hparsed : (s.runAs op).parsed l = (s.parsed l).runAs op :=
    bindCodes_runAs op (s.enterPhase .parseHeader).clearCodes l
  rw [State.afterParse, hparsed]
  rfl

/-- PARSE_HEADER that ends well leaves a TOTAL within the capacity (45_parser.md R215). -/
theorem parseHeaderBody_total_le {s w : State} (hw : parseHeaderBody s = .ok w) : w.regs.total.toNat ≤ s.cap := by
  have hframe := parseHeaderBody_frame hw
  obtain ⟨-, v, u, t, v', -, -, hcheck, rfl⟩ := parseHeaderBody_ok hw
  obtain ⟨-, -, -, -, hle⟩ := headerCheck_ok hcheck
  rw [← hframe.cap]
  exact (BitVec.toNat_ofNat t 32).trans_le ((Nat.mod_le _ _).trans hle)

/-- A PARSE_HEADER that ends well has read a legal header (45_parser.md R210 to R216). -/
theorem parseHeaderBody_legal {s w : State} (hw : parseHeaderBody s = .ok w) :
    s.lenOk ∧ ∃ l t, Params.legalEntries s.build l ∧ 1 ≤ t ∧ t ≤ s.cap ∧ s.holds 0 (headerBytes l l.length t)
      ∧ w = s.afterParse l t := by
  obtain ⟨hlen, l, u, t, hread, rfl, hne, ht, -, ht32, hheader, hfree, rfl⟩ := parseHeaderBody_reads hw
  have hentries : TableEntries (s.afterParse l t).build l := by
    show TableEntries (s.parsed l).build l
    rw [parsed_build]
    exact tableEntries_of_readable hread
  have htable : (s.afterParse l t).tableIs l :=
    bindCodes_clear_tableIs (u := s.enterPhase .parseHeader) (tableEntries_of_readable hread)
  have hcap := parseHeaderBody_total_le hw
  refine ⟨hlen, l, t, ⟨List.length_eq_zero_iff.not.1 hne, hread, tableIs_clashFree htable hentries hfree⟩,
    Nat.one_le_iff_ne_zero.2 ht, (toNat_ofNat32 ht32).symm.trans_le hcap, hheader, rfl⟩

/-- The pseudocode of PARSE_HEADER does the same whichever command runs it (47_control.md R267). -/
theorem parseHeaderBody_runAs {s w : State} (op : BitVec 4) (hw : parseHeaderBody s = .ok w) :
    parseHeaderBody (s.runAs op) = .ok (w.runAs op) := by
  obtain ⟨hlen, l, t, hl, hpos, hcap, hheader, rfl⟩ := parseHeaderBody_legal hw
  rw [← afterParse_runAs]
  exact parseHeaderBody_of_header (s := s.runAs op) hlen hl hpos hcap hheader

/-- Settles O36: the decoder reaches the rest with an empty candidate and ends in the rest's error, from the state that
PARSE_HEADER leaves and from the one that the first stage of DECOMPRESS leaves alike. -/
theorem decodeErrors : Obligations.DecodeErrors := by
  intro s symbols rest hidle hhdr _ hlen hcount hcap hfree hsym _ hbits hrest bothFail
  have hunmatched : s.unmatched rest := fun i hi => hrest i hi.1 hi.2
  have hfails {sub pos : Nat} (herr : s.regs.restError rest.length = raise .corruptContainer sub pos) :
      bothFail (BitVec.ofNat 4 sub) (BitVec.ofNat 32 pos) := by
    refine ⟨?_, fun s₀ hidle₀ hparse hdone => ?_⟩
    · have hbody := decodePayloadBody_of_rest (s := accept 8 (request 8 s)) hlen hcount hcap hfree hsym hbits hunmatched
      rw [exec_decodePayload hidle hhdr]
      exact finish_failsWith (hbody.trans herr) _
    · obtain ⟨u, hu, rfl⟩ := exec_done (i := .parseHeader) rfl hidle₀ hdone hparse
      have hbody := decodePayloadBody_of_rest (s := u.runAs 2) hlen hcount hcap hfree hsym hbits hunmatched
      have hstage : parseHeaderBody (accept 2 (request 2 s₀)) = .ok (u.runAs 2) := parseHeaderBody_runAs 2 hu
      rw [exec_runs (i := .decompress) (body := decompressBody) rfl hidle₀ rfl]
      refine finish_failsWith (kind := .corruptContainer) ?_ _
      show (parseHeaderBody (accept 2 (request 2 s₀)) >>= decodePayloadBody) = _
      rw [hstage, ok_bind]
      exact hbody.trans herr
  have hlength := congrArg List.length hbits
  rw [payloadBitList_length, List.length_append] at hlength
  refine ⟨fun hshort => ?_, fun hlong => ?_⟩
  · rw [← ofNat_inLen]
    exact hfails (if_pos hshort)
  · have hpos : (s.payloadOf symbols).length + s.regs.maxLen.toNat
        = 8 * (s.regs.inLen.toNat - s.regs.payloadOfs.toNat) + s.regs.maxLen.toNat - rest.length := by omega
    rw [hpos]
    exact hfails (if_neg (Nat.not_le.2 hlong))

end Sys2Proof.Machine
end

section
/-! PROOFS. The control commands NOP and SOFT_RESET, the prerequisites, and the CMD words of the spec's programs
(47_control.md R264, R265, R269, R270; 30_encoding.md R81). -/

namespace Sys2Proof.Machine

/-- Settles O3: each word is its reserved bits before the OP field of its command. -/
theorem commandWordsOfThePrograms : Obligations.CommandWordsOfThePrograms :=
  ⟨decode_encodeWith 0 .compress, decode_encodeWith 0 .decompress, decode_encodeWith 0xFFFFFFF .count,
    decode_encodeWith 0 .decodePayload, decode_encodeWith 0 .softReset,
    decodeOp_reserved (op := 0x9) (by decide) (by decide)⟩

/-- Settles O8: only BUSY decides whether NOP reports. -/
theorem nopSetsDoneOnly : Obligations.NopSetsDoneOnly :=
  fun _ => ⟨fun hidle => if_neg (ne_true_of_eq_false hidle), fun hbusy => if_pos hbusy⟩

/-- Settles O9: both resets are the reset action, which forgets OUT_MEM and leaves IN_MEM as it is. -/
theorem resetsGiveTheResetState : Obligations.ResetsGiveTheResetState := fun s =>
  ⟨resetAction s, rfl, rfl, rfl, rfl, rfl, rfl, rfl, rfl, rfl, rfl, fun _ ha => resetAction_inByte s ha, rfl, rfl, rfl, rfl⟩

/-- A busy command whose prerequisite fails with subcause `sub` reports it (47_control.md R264, R270). -/
theorem exec_sequenceError {i : Instr} {body : State → Run} {s : State} {sub : BitVec 4} (hbody : bodyOf i.opcode = some body)
    (hidle : s.idle) (hpre : prereq i.opcode (request i.opcode s).status = sub) (hsub : sub ≠ 0) :
    exec i s = .next (immediateError .sequenceError sub (request i.opcode s)) := by
  subst hpre
  rw [exec_eq_runCommand hbody, runCommand_sequenceError _ _ hidle hsub]

/-- Settles O11: the prerequisites are checked in order, and the first that fails gives the subcause. -/
theorem missingPrerequisiteIsSequenceError : Obligations.MissingPrerequisiteIsSequenceError := by
  intro s hidle report
  have hreport {i : Instr} {body : State → Run} {sub : BitVec 4} (hbody : bodyOf i.opcode = some body)
      (hpre : prereq i.opcode (request i.opcode s).status = sub) (hsub : sub ≠ 0) :
      exec i s = .next (report i.opcode sub) := exec_sequenceError hbody hidle hpre hsub
  refine ⟨fun hfreq => hreport rfl ?_ (by decide), fun htree => hreport rfl ?_ (by decide),
    fun hfreq => hreport rfl ?_ (by decide), fun hfreq htable => hreport rfl ?_ (by decide),
    fun hhdr => hreport rfl ?_ (by decide)⟩
  · exact if_neg (ne_true_of_eq_false hfreq)
  · exact if_neg (ne_true_of_eq_false htree)
  · exact if_neg (ne_true_of_eq_false hfreq)
  · exact (if_pos hfreq).trans (if_neg (ne_true_of_eq_false htable))
  · exact if_neg (ne_true_of_eq_false hhdr)

end Sys2Proof.Machine
end

section
/-! PROOFS. The time of a busy command with a silent host (70_reset_and_hazards.md R322). -/

namespace Sys2Proof.Machine

/-- A step of a busy block with time left and a silent host only lets time pass. -/
theorem step_silent {s : State} {n : Nat} (hbusy : s.status.busy = true) (hhost : s.env.host = [])
    (hleft : s.env.busyLeft = n + 1) : step s = .next { s with env := { s.env with busyLeft := n } } := by
  rcases advance_cases s with ⟨-, hdue, -⟩ | ⟨-, -, he⟩ | ⟨-, op, rest, hsome, -⟩
  · rw [hleft] at hdue
    cases hdue
  · rw [step, he, State.tick, if_pos hbusy, hleft, Nat.add_sub_cancel]
  · rw [hhost] at hsome
    cases hsome

/-- A run of one step is the step. -/
theorem run_one (s : State) : Host.Core.run core 1 s = step s := by
  have hstep : core.step s = step s := rfl
  simp only [Host.Core.run, hstep]
  cases step s <;> rfl

/-- Settles O6, by induction on the events left: each passes without an effect, and the step after them is the
completion. -/
theorem busyCommandCompletesInTime : Obligations.BusyCommandCompletesInTime := by
  intro n
  induction n with
  | zero =>
    intro s hbusy _ hleft
    have hsame : { s with env := { s.env with busyLeft := 0 } } = s := by rw [← hleft]
    rw [run_one, step_of_due s hbusy hleft, hsame]
  | succ n ih =>
    intro s hbusy hhost hleft
    rw [run_succ (n + 1) (step_silent hbusy hhost hleft)]
    exact ih _ hbusy hhost rfl

end Sys2Proof.Machine
end

section
/-! PROOFS. The error entry of a busy command (60_exceptions.md R283, R284). -/

namespace Sys2Proof.Machine

/-- The kinds of error, by code (30_encoding.md R83): a kind other than the two immediate ones has a code from 1 to 4. -/
theorem ErrKind.code_of_raised (k : ErrKind) (hillegal : k.code ≠ 5) (hsequence : k.code ≠ 6) :
    k.code = 1 ∨ k.code = 2 ∨ k.code = 3 ∨ k.code = 4 := by
  cases k with
  | illegalCommand => exact absurd rfl hillegal
  | sequenceError => exact absurd rfl hsequence
  | _ => decide

/-- A command that leaves ERR = 1 and no SequenceError was a busy command that raised, and left the error entry (47_control.md
R264, 60_exceptions.md R283). -/
theorem exec_raised {i : Instr} {s t : State} (hidle : s.idle) (h : exec i s = .next t) (herr : t.status.err = true)
    (hcode : t.status.errCode ≠ 6) : ∃ r, t = errorCommit r (accept i.opcode (request i.opcode s)) := by
  have hnop : i ≠ .nop := by
    rintro rfl
    rw [(nopSetsDoneOnly s).1 hidle] at h
    cases h
    cases herr
  have hreset : i ≠ .softReset := by
    rintro rfl
    cases h
    cases herr
  obtain ⟨body, hbody⟩ := bodyOf_isSome hnop hreset
  rw [exec_eq_runCommand hbody] at h
  rcases runCommand_cases h with ⟨hbusy, -⟩ | ⟨-, -, rfl⟩ | ⟨-, -, h⟩
  · exact absurd (hidle.symm.trans hbusy) (by decide)
  · exact absurd rfl hcode
  · rcases finish_cases h with ⟨u, hu, rfl⟩ | ⟨r, -, rfl⟩
    · have hframe := (bodyOf_frame hbody hu).err
      exact absurd (hframe.symm.trans herr) Bool.false_ne_true
    · exact ⟨r, rfl⟩

/-- Settles O13: the error entry writes each of these registers, and forgets OUT_MEM below cap alone. -/
theorem errorEntryOfBusyCommands : Obligations.ErrorEntryOfBusyCommands := by
  intro i s t hidle h herr hillegal hsequence
  obtain ⟨-, -, hsame⟩ := commandsNeverWriteTheInput i s t h
  obtain ⟨r, rfl⟩ := exec_raised hidle h herr hsequence
  have hreset : i ≠ .softReset := by
    rintro rfl
    cases h
  refine ⟨r.kind.code_of_raised hillegal hsequence, rfl, rfl, rfl, rfl, rfl, rfl, rfl, rfl, rfl, rfl, rfl, rfl,
    hsame hreset, fun a ha => ?_⟩
  exact State.forgetOut_outByte_outside (accept i.opcode (request i.opcode s)) _ ha

end Sys2Proof.Machine
end

section
/-! PROOFS. The valid flags and the running command are kept coherent by every step (47_control.md R262 to R264, R268). -/

namespace Sys2Proof.Machine

/-- The emitters leave STATUS alone. -/
theorem Emits.status {s u : State} (h : Emits s u) : u.status = s.status := congrArg (fun v => v.status) h.outside

/-- Each stage leaves coherent flags: it sets its own, and clears those of the results that it makes out of date
(47_control.md R268). -/
theorem coherent_keptByStages : KeptByStages (fun s => s.status.coherent) where
  count _ hu := by
    obtain ⟨-, t, -, rfl⟩ := countBody_ok hu
    simp [Status.coherent, countResults, Status.afterCount]
  buildTree _ hf hu := by
    obtain ⟨ns, r, hp, rfl⟩ := buildTreeBody_eq hu
    simp [Status.coherent, buildTreeResults, Status.afterBuildTree, hf]
  buildTable {s _} h ht hu := by
    obtain ⟨v, hwalk, rfl⟩ := buildTableBody_ok hu
    have hstatus : v.status = s.status := congrArg (fun v => v.status) (walkTree_sansCodes hwalk)
    have hfreq : s.status.freqValid = true := by
      obtain ⟨-, -, htree⟩ := h
      exact htree ht
    have hhdr : s.status.hdrValid = false := eq_false_of_ne_true fun hh =>
      absurd ((freqValid_of_hdrValid h hh).symm.trans hfreq) (by decide)
    simp [Status.coherent, buildTableResults, Status.afterBuildTable, hstatus, ht, hhdr, hfreq]
  serialize {s _} h hu := by
    obtain ⟨t, v, ht, hv, rfl⟩ := serializeBody_ok hu
    have hstatus : v.status = s.status := hv.status.trans ht.status
    show v.status.coherent
    rwa [hstatus]
  parseHeader _ hu := by
    obtain ⟨-, v, n, m, v', -, -, -, rfl⟩ := parseHeaderBody_ok hu
    simp [Status.coherent, parseCommit, Status.afterParse]
  decodePayload {s _} h _ hu := by
    obtain ⟨t, ht, rfl⟩ := decodePayloadBody_ok hu
    have hstatus : t.status = s.status := ht.status
    show t.status.coherent
    rwa [hstatus]

/-- Cleared flags are coherent. -/
theorem Status.coherent_of_noFlags {t : Status} (h : t.flags = (false, false, false, false)) : t.coherent := by
  simp only [Prod.mk.injEq] at h
  obtain ⟨-, ht, hc, hh⟩ := h
  simp [Status.coherent, ht, hc, hh]

/-- A write other than to CMD keeps the flags or clears them all. -/
theorem idleWrite_coherent {s : State} (h : s.status.coherent) (t : Target) (v : Word) :
    (s.idleWrite t v).status.coherent := by
  obtain ⟨-, -, -, -, hkept | hcleared⟩ := idleWrite_status s t v
  · simp only [Prod.mk.injEq] at hkept
    obtain ⟨hf, ht, hc, hh⟩ := hkept
    simpa only [Status.coherent, hf, ht, hc, hh] using h
  · exact Status.coherent_of_noFlags hcleared

/-- Every kind of event keeps the flags coherent and a running command one of the busy commands. -/
theorem coherentRunning_keptByEvents : KeptByEvents (fun s => s.status.coherent ∧ s.runningOk) where
  env _ _ _ h := h
  write s size addr v h hidle := by
    obtain ⟨hcoherent, -, hwaiting⟩ := h
    obtain ⟨hphase, hop⟩ := idleWrite_phase s (target s.build size addr) v
    obtain ⟨hphase₀, hop₀⟩ := hwaiting hidle
    exact ⟨idleWrite_coherent hcoherent _ v,
      runningOk_of_idle ((idleWrite_status s _ v).1.trans hidle) (hphase.trans hphase₀) (hop.trans hop₀)⟩
  nop _ h _ := h
  immediate _ _ _ _ h _ := h
  accept _ _ h _ hbody hpre :=
    ⟨h.1, fun _ => ⟨hbody, hpre, headD_phasesOf_mem hbody⟩, fun hb => absurd hb (by simp)⟩
  reset _ _ := ⟨Status.coherent_of_noFlags rfl, runningOk_of_idle rfl rfl rfl⟩
  complete s t body h hbusy hbody ht := by
    obtain ⟨hcoherent, hrunning, -⟩ := h
    obtain ⟨-, hpre, -⟩ := hrunning hbusy
    rcases finish_cases ht with ⟨u, hu, rfl⟩ | ⟨r, -, rfl⟩
    · have hkept := coherent_keptByStages.body hbody hpre hcoherent hu
      exact ⟨hkept, runningOk_of_idle rfl rfl rfl⟩
    · exact ⟨Status.coherent_of_noFlags rfl, runningOk_of_idle rfl rfl rfl⟩

/-- Settles O55: every kind of event keeps them; a completion because each stage leaves coherent flags. -/
theorem stepKeepsValidFlagsCoherent : Obligations.StepKeepsValidFlagsCoherent :=
  fun _ _ hcoherent hrunning h => coherentRunning_keptByEvents.step ⟨hcoherent, hrunning⟩ h

end Sys2Proof.Machine
end

section
/-! PROOFS. COMPRESS and DECOMPRESS give what their stages give one after another (47_control.md R266, R267). A stage of a
composite starts in a state that differs from the stage command's acceptance in what the pseudocode does not look at; what
each stage leaves of the rest depends on the rest alone. -/

namespace Sys2Proof.Machine

open Sys2Proof.Config (Params)

/-! ### What the pseudocode looks at -/

/-- The state without CMD, the phase, CUR_OP, the time left and the epoch of free values, and with the datapath registers
that `f` keeps. -/
def State.view (f : Datapath → Datapath) (s : State) : State :=
  { s with
    regs := { s.regs with cmdOp := 0 }
    phase := .idle
    curOp := 0
    dp := f s.dp
    freeIdx := 0
    env := { s.env with busyLeft := 0 } }

/-- None of the datapath registers: "each command writes them before it reads them" (U13). -/
def Datapath.noRegs (_ : Datapath) : Datapath := Datapath.powerUp

/-- WR_PTR. -/
def Datapath.writer (d : Datapath) : Datapath := { Datapath.powerUp with wrPtr := d.wrPtr }

/-- WR_PTR and the accumulator. -/
def Datapath.packer (d : Datapath) : Datapath := { Datapath.powerUp with wrPtr := d.wrPtr, acc := d.acc, accN := d.accN }

/-- The decoder's registers. -/
def Datapath.decoder (d : Datapath) : Datapath :=
  { Datapath.powerUp with cand := d.cand, candLen := d.candLen, decCount := d.decCount, q := d.q }

/-- The two states differ in nothing that the pseudocode looks at. -/
def State.alike (s s' : State) : Prop := s'.view Datapath.noRegs = s.view Datapath.noRegs

theorem State.alike_of_view {f : Datapath → Datapath} {s s' : State} (h : s'.view f = s.view f) : s.alike s' :=
  (congrArg (State.view Datapath.noRegs) h :)

namespace State.alike

variable {s s' : State} (h : s.alike s')

include h

theorem build : s'.build = s.build := congrArg (fun v => v.build) h
theorem tables : s'.tables = s.tables := congrArg (fun v => v.tables) h
theorem input : s'.input = s.input := (congrArg State.input h :)
theorem lenOk : s'.lenOk ↔ s.lenOk := iff_of_eq (congrArg State.lenOk h :)

theorem trans {s'' : State} (h' : s'.alike s'') : s.alike s'' := Eq.trans h' h

end State.alike

/-! ### COUNT, BUILD_TREE and BUILD_TABLE -/

section

variable {s s' u u' : State}

/-- What COUNT leaves of what the pseudocode looks at, given its tables; BUILD_TREE and BUILD_TABLE likewise. -/
theorem countBody_view (hu : countBody s = .ok u) :
    u.view Datapath.noRegs = countResults { s.view Datapath.noRegs with tables := u.tables } := by
  obtain ⟨-, -, f, rfl⟩ := countBody_counts hu
  rfl

theorem buildTreeBody_view (hu : buildTreeBody s = .ok u) :
    u.view Datapath.noRegs = buildTreeResults { s.view Datapath.noRegs with tables := u.tables } := by
  obtain ⟨ns, r, hp, rfl⟩ := buildTreeBody_eq hu
  rfl

theorem buildTableBody_view (hu : buildTableBody s = .ok u) :
    u.view Datapath.noRegs = buildTableResults { s.view Datapath.noRegs with tables := u.tables } := by
  obtain ⟨v, hwalk, rfl⟩ := buildTableBody_ok hu
  obtain ⟨cl, cb, o, d, rfl, -, -⟩ := exists_of_sansCodes (walkTree_sansCodes hwalk)
  rfl

/-- COUNT on a state alike ends well too, in a state alike. -/
theorem countBody_alike (h : s.alike s') (hu : countBody s = .ok u) : ∃ u', countBody s' = .ok u' ∧ u.alike u' := by
  obtain ⟨⟨hlen, hsym, -⟩, -, f, hf⟩ := countBody_counts hu
  rw [hf] at hlen hsym
  obtain ⟨u', hu'⟩ := countBody_of_symbols (h.lenOk.2 hlen) (by rw [h.input, h.build]; exact hsym)
  have htables := countBody_tables_congr h.build h.tables h.input hu hu'
  exact ⟨u', hu', by rw [State.alike, countBody_view hu, countBody_view hu', htables, h]⟩

theorem buildTreeBody_alike (h : s.alike s') (hu : buildTreeBody s = .ok u) :
    ∃ u', buildTreeBody s' = .ok u' ∧ u.alike u' := by
  obtain ⟨u', hu'⟩ := exists_buildTreeBody s'
  have htables := buildTreeBody_tables_congr h.build h.tables hu hu'
  exact ⟨u', hu', by rw [State.alike, buildTreeBody_view hu, buildTreeBody_view hu', htables, h]⟩

theorem buildTableBody_alike (h : s.alike s') (ht : s.treeOk) (hmax : s.countedSymbols.length ≤ s.build.nMax)
    (hu : buildTableBody s = .ok u) : ∃ u', buildTableBody s' = .ok u' ∧ u.alike u' := by
  obtain ⟨u', hu', htables⟩ := exists_buildTableBody_congr h.build h.tables ht hmax hu
  exact ⟨u', hu', by rw [State.alike, buildTableBody_view hu, buildTableBody_view hu', htables, h]⟩

end

/-! ### SERIALIZE -/

section

variable (f : Datapath → Datapath) (s : State)

/-- A write to OUT_MEM, seen through any view; below, the operations that read some of the datapath registers, each seen
through a view that keeps those. -/
theorem view_outWrite (a : Nat) (v : Byte) : (s.view f).outWrite a v = (s.outWrite a v).view f := by
  simp only [State.outWrite, apply_ite (State.view f)]
  rfl

theorem emitByte_view_writer (v : Byte) : emitByte (s.view .writer) v = (emitByte s v).view .writer := by
  simp only [emitByte, view_outWrite]
  rfl

theorem emitByte_view_packer (v : Byte) : emitByte (s.view .packer) v = (emitByte s v).view .packer := by
  simp only [emitByte, view_outWrite]
  rfl

theorem enterPhase_view (p : Phase) : (s.enterPhase p).view f = s.view f := rfl

theorem serializeResults_view : (serializeResults s).view .packer = serializeResults (s.view .packer) := rfl

theorem serializeCapCheck_view : serializeCapCheck (s.view f) = serializeCapCheck s := rfl

theorem emitHeader_view : (emitHeader s).view .writer = emitHeader (s.view .noRegs) := by
  rw [emitHeader_eq, emitHeader_eq, ← List.foldl_hom (State.view Datapath.writer) emitByte_view_writer]
  rfl

theorem packBit_view (x : Bool) : packBit (s.view .packer) x = (packBit s x).view .packer := by
  simp only [packBit, emitByte_view_packer, apply_ite (State.view _)]
  rfl

theorem packSymbol_view (i : Nat) : packSymbol (s.view .packer) i = (packSymbol s i).view .packer :=
  List.foldl_hom (State.view Datapath.packer) packBit_view

theorem flushBits_view : flushBits (s.view .packer) = (flushBits s).view .packer := by
  simp only [flushBits, emitByte_view_packer, apply_ite (State.view _)]
  rfl

theorem emitPayload_view : (emitPayload s).view .packer = emitPayload (s.view .writer) := by
  rw [emitPayload, ← flushBits_view, ← List.foldl_hom (State.view Datapath.packer) packSymbol_view]
  rfl

end

/-- Where SERIALIZE's pseudocode ends when the capacity is enough (R190). -/
def State.serialized (s : State) : State :=
  serializeResults (emitPayload ((emitHeader (s.enterPhase .emitHeader)).enterPhase .emitPayload))

theorem serializeBody_eq (s : State) : serializeBody s = serializeCapCheck s >>= fun _ => .ok s.serialized := rfl

/-- What SERIALIZE leaves is a function of what it looks at: it writes WR_PTR and the accumulator before it reads them. -/
theorem serialized_view (s : State) :
    s.serialized.view .packer = serializeResults (emitPayload (emitHeader (s.view .noRegs))) := by
  rw [State.serialized, serializeResults_view, emitPayload_view, enterPhase_view, emitHeader_view, enterPhase_view]

theorem serializeBody_alike {s s' u : State} (h : s.alike s') (hu : serializeBody s = .ok u) :
    ∃ u', serializeBody s' = .ok u' ∧ u.alike u' := by
  have hcheck : serializeCapCheck s' = serializeCapCheck s := by
    rw [← serializeCapCheck_view .noRegs, h, serializeCapCheck_view]
  rw [serializeBody_eq] at hu
  obtain ⟨⟨⟩, hfits, hu⟩ := bind_ok hu
  obtain rfl : s.serialized = u := Except.ok.inj hu
  refine ⟨s'.serialized, by rw [serializeBody_eq, hcheck, hfits, ok_bind], State.alike_of_view (f := .packer) ?_⟩
  rw [serialized_view, serialized_view, h]

/-! ### DECODE_PAYLOAD -/

section

variable (s : State)

theorem fetchBit_view :
    fetchBit (s.view .decoder) = (fun p => (p.1, p.2.1, p.2.2.view .decoder)) <$> fetchBit s := by
  simp only [fetchBit, payloadExhausted, map_ite]
  rfl

theorem emitSymbol_view (sym : Nat) : emitSymbol (s.view .decoder) sym = (emitSymbol s sym).view .decoder := by
  simp only [emitSymbol, view_outWrite]
  rfl

theorem growCandidate_view (x : Bool) : (s.view .decoder).growCandidate x = (s.growCandidate x).view .decoder := rfl

theorem matchStep_view (x : Bool) (a : Nat) :
    matchStep x a (s.view .decoder) = State.view .decoder <$> matchStep x a s := by
  have hmatch : ((s.growCandidate x).view .decoder).matchSymbol = (s.growCandidate x).matchSymbol := rfl
  simp only [matchStep, growCandidate_view, hmatch, map_ite]
  cases (s.growCandidate x).matchSymbol with
  | none => rfl
  | some sym =>
    simp only [emitSymbol_view]
    rfl

theorem decodeLoop_view (n : Nat) : decodeLoop n (s.view .decoder) = State.view .decoder <$> decodeLoop n s := by
  induction n generalizing s with
  | zero =>
    simp only [decodeLoop, map_ite]
    rfl
  | succ n ih =>
    simp only [decodeLoop, fetchBit_view, matchStep_view, ih, map_ite, bind_map_left, map_bind]
    rfl

end

/-- The decoding loop on states that agree in what the decoder looks at. -/
theorem decodeLoop_congr {n : Nat} {s s' t : State} (h : s'.view .decoder = s.view .decoder) (ht : decodeLoop n s = .ok t) :
    ∃ t', decodeLoop n s' = .ok t' ∧ t'.view .decoder = t.view .decoder := by
  have hmap : State.view .decoder <$> decodeLoop n s' = .ok (t.view .decoder) := by
    rw [← decodeLoop_view, h, decodeLoop_view, ht]
    rfl
  cases ht' : decodeLoop n s' with
  | error e => rw [ht'] at hmap; cases hmap
  | ok t' => rw [ht'] at hmap; exact ⟨t', rfl, Except.ok.inj hmap⟩

/-- DECODE_PAYLOAD's pseudocode enters its loop with its registers at 0 (R240). -/
def State.decodeStart (s : State) : State :=
  (s.enterPhase .decode).withDp { s.dp with q := 0, decCount := 0, cand := 0, candLen := 0 }

/-- Entering the loop, the decoder's registers do not matter. -/
theorem decodeStart_view (s : State) : s.decodeStart.view .decoder = s.view .noRegs := rfl

theorem decodeResults_view (s : State) : (decodeResults s).view .decoder = decodeResults (s.view .decoder) := rfl

theorem decodeCapCheck_view (s : State) : decodeCapCheck (s.view .noRegs) = decodeCapCheck s := rfl

theorem decodePayloadBody_eq (s : State) : decodePayloadBody s = decodeCapCheck s >>= fun _ =>
    decodeLoop (8 * (s.regs.inLen.toNat - s.regs.payloadOfs.toNat) + 1) s.decodeStart >>= fun t => .ok (decodeResults t) :=
  rfl

theorem decodePayloadBody_alike {s s' u : State} (h : s.alike s') (hu : decodePayloadBody s = .ok u) :
    ∃ u', decodePayloadBody s' = .ok u' ∧ u.alike u' := by
  have hcheck : decodeCapCheck s' = decodeCapCheck s := by
    rw [← decodeCapCheck_view, h, decodeCapCheck_view]
  have hbits : 8 * (s'.regs.inLen.toNat - s'.regs.payloadOfs.toNat) + 1
      = 8 * (s.regs.inLen.toNat - s.regs.payloadOfs.toNat) + 1 :=
    (congrArg (fun v : State => 8 * (v.regs.inLen.toNat - v.regs.payloadOfs.toNat) + 1) h :)
  rw [decodePayloadBody_eq] at hu
  obtain ⟨⟨⟩, hfits, hu⟩ := bind_ok hu
  obtain ⟨t, ht, hu⟩ := bind_ok hu
  obtain rfl : decodeResults t = u := Except.ok.inj hu
  obtain ⟨t', ht', hview⟩ := decodeLoop_congr (s' := s'.decodeStart) (by rw [decodeStart_view, decodeStart_view, h]) ht
  refine ⟨decodeResults t', by rw [decodePayloadBody_eq, hcheck, hfits, ok_bind, hbits, ht', ok_bind],
    State.alike_of_view (f := .decoder) ?_⟩
  rw [decodeResults_view, decodeResults_view, hview]

/-! ### From one stage to the next -/

/-- The acceptance of a stage's command from the state that the stage before left is alike to where that stage's pseudocode
ended: the completion and the CMD write change only what the pseudocode does not look at (47_control.md R260, R263). -/
theorem alike_accept_successCommit {op : BitVec 4} {s u : State} (h : BodyFrame (accept op (request op s)) u)
    (op' : BitVec 4) : (accept op' (request op' (successCommit u))).alike u := by
  have hsub : u.regs.errSub = 0 := congrArg (fun v => v.regs.errSub) h.outward
  have hpos : u.regs.errPos = 0 := congrArg (fun v => v.regs.errPos) h.outward
  have hbusy : u.status.busy = true := congrArg (fun v => v.status.busy) h.outward
  have hdone : u.status.done = false := h.done
  have herr : u.status.err = false := h.err
  have hcode : u.status.errCode = 0 := congrArg (fun v => v.status.errCode) h.outward
  have hregs : { u.regs with cmdOp := 0, errSub := 0, errPos := 0 } = { u.regs with cmdOp := 0 } := by
    simp [hsub, hpos]
  have hstatus : { u.status with busy := true, done := false, err := false, errCode := 0 } = u.status := by
    show _ = { u.status with
      busy := u.status.busy, done := u.status.done, err := u.status.err, errCode := u.status.errCode }
    rw [hbusy, hdone, herr, hcode]
  exact congrArg₂ (fun r t => { u.view .noRegs with regs := r, status := t }) hregs.symm hstatus.symm

/-- Alike ends of the pseudocode complete in the same state, but for CMD, the datapath registers and the epoch of free
values. -/
theorem successCommit_of_alike {u u' : State} (h : u.alike u') :
    { successCommit u' with
      regs := { (successCommit u').regs with cmdOp := (successCommit u).regs.cmdOp }
      dp := (successCommit u).dp
      freeIdx := (successCommit u).freeIdx } = successCommit u :=
  congrArg (fun v : State => { successCommit v with
    regs := { v.regs with cmdOp := u.regs.cmdOp }
    dp := (successCommit u).dp
    freeIdx := (successCommit u).freeIdx }) h

/-- A composite whose pseudocode ends alike to its last stage's leaves that stage's final state, but for what its CMD write
and its own course give (47_control.md R266, R267). -/
theorem exec_of_alike {i : Instr} {body : State → Run} {s u v : State} (hbody : bodyOf i.opcode = some body)
    (hidle : s.idle) (hpre : prereq i.opcode (request i.opcode s).status = 0)
    (hv : body (accept i.opcode (request i.opcode s)) = .ok v) (h : u.alike v) :
    ∃ t, exec i s = .next t ∧ t.regs.cmdOp = i.opcode
      ∧ { t with
          regs := { t.regs with cmdOp := (successCommit u).regs.cmdOp }
          dp := (successCommit u).dp
          freeIdx := (successCommit u).freeIdx } = successCommit u :=
  ⟨successCommit v, by rw [exec_runs hbody hidle hpre, hv, finish_ok],
    congrArg (fun w => w.regs.cmdOp) (bodyOf_frame hbody hv).outward, successCommit_of_alike h⟩

/-- Settles O37: stage by stage COMPRESS goes through states alike to those of the four commands. -/
theorem compressIsItsFourStages : Obligations.CompressIsItsFourStages := by
  intro s a b c d hidle ha hadone hb hbdone hc hcdone hd hddone
  obtain ⟨u₁, h₁, rfl⟩ := exec_done (i := .count) rfl hidle hadone ha
  obtain ⟨u₂, h₂, rfl⟩ := exec_done (i := .buildTree) rfl rfl hbdone hb
  obtain ⟨u₃, h₃, rfl⟩ := exec_done (i := .buildTable) rfl rfl hcdone hc
  obtain ⟨u₄, h₄, rfl⟩ := exec_done (i := .serialize) rfl rfl hddone hd
  obtain ⟨hcounted, hlen, -⟩ := countBody_counts h₁
  obtain ⟨htree, -, -, hmax⟩ := buildTreeBody_of_counted (s := accept 4 (request 4 (successCommit u₁))) hcounted hlen h₂
  obtain ⟨v₁, e₁, l₁⟩ := countBody_alike (s := accept 3 (request 3 s)) (s' := accept 1 (request 1 s)) rfl h₁
  obtain ⟨v₂, e₂, l₂⟩ := buildTreeBody_alike ((alike_accept_successCommit (countBody_frame h₁) 4).trans l₁) h₂
  obtain ⟨v₃, e₃, l₃⟩ :=
    buildTableBody_alike ((alike_accept_successCommit (buildTreeBody_frame h₂) 5).trans l₂) htree hmax h₃
  obtain ⟨v₄, e₄, l₄⟩ := serializeBody_alike ((alike_accept_successCommit (buildTableBody_frame h₃) 6).trans l₃) h₄
  have hbody : compressBody (accept 1 (request 1 s)) = .ok v₄ := by
    rw [compressBody, e₁, ok_bind, e₂, ok_bind, e₃, ok_bind, e₄]
  exact exec_of_alike (i := .compress) rfl hidle rfl hbody l₄

/-- Settles O38: the second stage of DECOMPRESS starts in a state alike to the acceptance of DECODE_PAYLOAD. -/
theorem decompressIsItsTwoStages : Obligations.DecompressIsItsTwoStages := by
  intro s a b hidle ha hadone hb hbdone
  obtain ⟨u₁, h₁, rfl⟩ := exec_done (i := .parseHeader) rfl hidle hadone ha
  obtain ⟨u₂, h₂, rfl⟩ := exec_done (i := .decodePayload) rfl rfl hbdone hb
  have hstage : parseHeaderBody (accept 2 (request 2 s)) = .ok (u₁.runAs 2) := parseHeaderBody_runAs 2 h₁
  obtain ⟨v, hv, halike⟩ := decodePayloadBody_alike (s' := u₁.runAs 2)
    (alike_accept_successCommit (parseHeaderBody_frame h₁) 8) h₂
  have hbody : decompressBody (accept 2 (request 2 s)) = .ok v := by
    rw [decompressBody, hstage, ok_bind, hv]
  exact exec_of_alike (i := .decompress) rfl hidle rfl hbody halike

end Sys2Proof.Machine
end

section
/-! PROOFS. With a capacity of 0 no command that checks it ends well (70_reset_and_hazards.md R315). -/

namespace Sys2Proof.Machine

/-! ### A command that cannot end well -/

/-- Pseudocode that neither faults nor ends well leaves an error report (60_exceptions.md R283). -/
theorem finish_reports_error {r : Run} (hfault : NoFault r) (hok : ∀ u, r ≠ .ok u) (s : State) :
    ∃ t, finish r s = .next t ∧ t.status.done = false ∧ t.status.err = true := by
  obtain ⟨t, ht⟩ := finish_next hfault s
  rcases finish_cases ht with ⟨u, hu, -⟩ | ⟨e, -, rfl⟩
  · exact absurd hu (hok u)
  · exact ⟨_, ht, rfl, rfl⟩

/-- An idle block answers a command whose pseudocode cannot end well with an error report, if only SequenceError (47_control.md
R264). -/
theorem exec_reports_error {i : Instr} {body : State → Run} {s : State} (hbody : bodyOf i.opcode = some body) (hidle : s.idle)
    (hfault : ∀ a, NoFault (body a))
    (hok : prereq i.opcode (request i.opcode s).status = 0 → ∀ u, body (accept i.opcode (request i.opcode s)) ≠ .ok u) :
    ∃ t, exec i s = .next t ∧ t.status.done = false ∧ t.status.err = true := by
  by_cases hpre : prereq i.opcode (request i.opcode s).status = 0
  · rw [exec_runs hbody hidle hpre]
    exact finish_reports_error (hfault _) (hok hpre) _
  · exact ⟨_, exec_sequenceError hbody hidle rfl hpre, rfl, rfl⟩

/-- COMPRESS never faults: its third stage walks the tree that the first two built (42_tree_builder.md R154). -/
theorem compressBody_noFault_of_stages (s : State) : NoFault (compressBody s) := by
  refine .bind (countBody_noFault s) fun a ha => .bind (buildTreeBody_noFault a) fun b hb => ?_
  obtain ⟨hcounted, hlen, -⟩ := countBody_counts ha
  obtain ⟨htree, -, -, hmax⟩ := buildTreeBody_of_counted hcounted hlen hb
  exact .bind (buildTableBody_noFault (treeShape_of_treeOk htree hmax)) fun c _ => serializeBody_noFault c

theorem decompressBody_noFault (s : State) : NoFault (decompressBody s) :=
  .bind (parseHeaderBody_noFault s) fun t _ => decodePayloadBody_noFault t

/-! ### No capacity -/

section

variable {s : State} (hcap : s.cap = 0)

include hcap

theorem serializeBody_ne_ok (u : State) : serializeBody s ≠ .ok u := by
  have hlong : s.cap < s.containerLen := by
    unfold State.containerLen
    omega
  rw [serializeBody_tooLong hlong]
  exact nofun

theorem compressBody_ne_ok (u : State) : compressBody s ≠ .ok u := by
  intro hu
  obtain ⟨a, ha, hu⟩ := bind_ok hu
  obtain ⟨b, hb, hu⟩ := bind_ok hu
  obtain ⟨c, hc, hu⟩ := bind_ok hu
  have hframe := (countBody_frame ha).trans ((buildTreeBody_frame hb).trans (buildTableBody_frame hc))
  exact serializeBody_ne_ok (hframe.cap.trans hcap) u hu

theorem parseHeaderBody_ne_ok (u : State) : parseHeaderBody s ≠ .ok u := by
  intro hu
  obtain ⟨-, l, t, -, hpos, hle, -⟩ := parseHeaderBody_legal hu
  omega

theorem decompressBody_ne_ok (u : State) : decompressBody s ≠ .ok u := by
  intro hu
  obtain ⟨a, ha, -⟩ := bind_ok hu
  exact parseHeaderBody_ne_ok hcap a ha

theorem decodePayloadBody_ne_ok (htotal : s.regs.total ≠ 0) (u : State) : decodePayloadBody s ≠ .ok u := by
  have hlong : s.cap < s.regs.total.toNat := by
    have hpos : s.regs.total.toNat ≠ 0 := fun h => htotal (BitVec.eq_of_toNat_eq h)
    omega
  rw [decodePayloadBody_tooLong hlong]
  exact nofun

end

/-- Settles O42: a container has at least nine bytes, and TOTAL of a header is at least 1. -/
theorem zeroCapacityCompletesNothing : Obligations.ZeroCapacityCompletesNothing := by
  intro s i hidle hcap hi htotal
  have hzero (op : BitVec 4) : (accept op (request op s)).cap = 0 := by
    show min s.regs.outCap.toNat s.build.outMax = 0
    rw [hcap]
    exact Nat.zero_min _
  rcases hi with rfl | rfl | rfl | rfl | rfl
  · exact exec_reports_error (body := serializeBody) rfl hidle serializeBody_noFault fun _ => serializeBody_ne_ok (hzero 6)
  · exact exec_reports_error (body := compressBody) rfl hidle compressBody_noFault_of_stages fun _ =>
      compressBody_ne_ok (hzero 1)
  · exact exec_reports_error (body := parseHeaderBody) rfl hidle parseHeaderBody_noFault fun _ =>
      parseHeaderBody_ne_ok (hzero 7)
  · refine exec_reports_error (body := decodePayloadBody) rfl hidle decodePayloadBody_noFault fun hpre => ?_
    obtain ⟨-, -, hhdr⟩ := prereq_eq_zero hpre
    exact decodePayloadBody_ne_ok (hzero 8) (htotal rfl (hhdr rfl))
  · exact exec_reports_error (body := decompressBody) rfl hidle decompressBody_noFault fun _ =>
      decompressBody_ne_ok (hzero 2)

end Sys2Proof.Machine
end

section
/-! PROOFS. COMPRESS of an input over the alphabet and DECOMPRESS of a container (47_control.md R266, R267): when the capacity
is enough they complete, with the container or with the symbols in OUT_MEM. -/

namespace Sys2Proof.Machine

open Sys2Proof.Config (Params)

/-! ### The stages before SERIALIZE -/

/-- BUILD_TABLE on a finished tree ends well (43_code_table.md R170). -/
theorem exists_buildTableBody {s : State} (ht : s.treeOk) (hmax : s.countedSymbols.length ≤ s.build.nMax) :
    ∃ u, buildTableBody s = .ok u := by
  obtain ⟨c, hrep, hheight⟩ := exists_represents_of_treeShape (treeShape_of_treeOk ht hmax)
  obtain ⟨d, hd⟩ := walkTree_represents (s := (s.enterPhase .traverse).clearCodes) hrep hheight
  exact ⟨_, by rw [buildTableBody, hd, ok_bind]; rfl⟩

/-- The counted symbols are the distinct bytes of the input (40_frequency_counter.md R112). -/
theorem countedSymbols_perm_dedup {s : State} (hc : s.counted) :
    (s.countedSymbols.map (BitVec.ofNat 8)).Perm s.input.dedup := by
  obtain ⟨-, hsym, hfreq, -, -⟩ := hc
  refine (List.perm_ext_iff_of_nodup (countedSymbols_bytes_nodup s) s.input.nodup_dedup).2 fun b => ?_
  have hmem (hlimit : b.toNat < s.limit) : b ∈ s.countedSymbols.map (BitVec.ofNat 8) ↔ b ∈ s.input.dedup := by
    have hcounted := ofNat_mem_countedSymbols hlimit
    rw [ofNat8_toNat, hfreq _ hlimit, ofNat8_toNat, List.count_pos_iff] at hcounted
    rw [hcounted, List.mem_dedup]
  refine ⟨fun h => (hmem ?_).1 h, fun h => (hmem (hsym b (List.mem_dedup.1 h)).1).2 h⟩
  obtain ⟨i, hi, rfl⟩ := List.mem_map.1 h
  have hlimit := (mem_countedSymbols.1 hi).1
  rwa [toNat_ofNat8 (hlimit.trans_le (limit_le s.build))]

/-- No code of a built table has more bits than the table has entries (43_code_table.md R175). -/
theorem buildTableBody_length_le {s c : State} (hcounted : s.counted) (htree : s.treeOk) (hc : buildTableBody s = .ok c) :
    ∀ e ∈ c.entries, e.2.length ≤ c.entries.length := by
  obtain ⟨tree, d, hleaves, rfl⟩ := buildTableBody_table htree (countedSymbols_length_le hcounted) hc
  have hread : Params.readableEntries s.build tree.table := table_readable hcounted hleaves
  have hentries := bindCodes_clear_entries (s := s.enterPhase .traverse) hread
  show ∀ e ∈ ((s.enterPhase .traverse).clearCodes.bindCodes tree.table).entries,
    e.2.length ≤ ((s.enterPhase .traverse).clearCodes.bindCodes tree.table).entries.length
  rw [hentries]
  intro e he
  have hlength : tree.table.length = tree.leaves.length := by rw [← tree.table_fst, List.length_map]
  have hpos := List.length_pos_of_mem he
  have := (tree.table_length e he).2
  omega

/-- What the first three stages of COMPRESS do on an input over the alphabet, besides `BuiltFrom`. -/
structure Compressible (s c : State) : Prop extends BuiltFrom s c where
  body : compressBody s = serializeBody c
  length_le : ∀ e ∈ c.entries, e.2.length ≤ c.entries.length
  entries_length : c.entries.length = c.input.dedup.length
  flags : c.status.flags = (true, true, true, false)
  payloadOfs : c.regs.payloadOfs = 0
  outByte : ∀ a, c.outByte a = s.outByte a

theorem exists_compressible {s : State} (hlen : s.lenOk) (hsym : ∀ b ∈ s.input, Params.symbol s.build b) :
    ∃ c, Compressible s c := by
  obtain ⟨a, ha⟩ := countBody_of_symbols hlen hsym
  obtain ⟨b, hb⟩ := exists_buildTreeBody a
  obtain ⟨hcounted, hfreq, -⟩ := countBody_counts ha
  obtain ⟨htree, hcounted, hfreq, hmax⟩ := buildTreeBody_of_counted hcounted hfreq hb
  obtain ⟨c, hc⟩ := exists_buildTableBody htree hmax
  have hbuilt := buildTableBody_builtFrom ((countBody_frame ha).trans (buildTreeBody_frame hb)) hcounted hfreq htree hc
  have hview := buildTableBody_view hc
  rw [buildTreeBody_view hb, countBody_view ha] at hview
  obtain ⟨-, horder, -⟩ := buildTableBody_codes htree hcounted hc
  obtain ⟨-, hinput⟩ := buildTableBody_counted hcounted hc
  refine ⟨c, hbuilt, ?_, buildTableBody_length_le hcounted htree hc, ?_, congrArg (fun v => v.status.flags) hview,
    congrArg (fun v => v.regs.payloadOfs) hview, fun a => congrArg (fun v => v.outByte a) hview⟩
  · rw [compressBody, ha, ok_bind, hb, ok_bind, hc, ok_bind]
  · rw [hinput, ← (countedSymbols_perm_dedup hcounted).length_eq, ← horder.length_eq, State.entries, List.length_map]

/-! ### COMPRESS -/

/-- The length of a bit string that picks entries is at most that of as many longest codes. -/
theorem length_flatMap_le {picks : List (Byte × List Bool)} {n : Nat} (h : ∀ e ∈ picks, e.2.length ≤ n) :
    (picks.flatMap Prod.snd).length ≤ picks.length * n := by
  rw [List.length_flatMap]
  have hsum := List.sum_le_card_nsmul (picks.map fun e => e.2.length) n (List.forall_mem_map.2 h)
  simpa using hsum

section

variable {s c : State} (h : Compressible s c)

include h

/-- The container is no longer than if each code had as many bits as there are entries (44_serializer.md R191). -/
theorem Compressible.containerLen_le : c.containerLen
    ≤ 9 + c.entries.length * (2 + c.entries.length) + (c.regs.inLen.toNat * c.entries.length + 7) / 8 := by
  have hheader := List.sum_le_card_nsmul (c.entries.map fun e => 2 + e.2.length) (2 + c.entries.length)
    (List.forall_mem_map.2 fun e he => Nat.add_le_add_left (h.length_le e he) 2)
  have hpayload := length_flatMap_le fun e he => h.length_le e (h.mem_entries e he)
  rw [picks_length] at hpayload
  rw [List.length_map, smul_eq_mul] at hheader
  rw [containerLen_eq (bitCount_eq_payload_length h.counted), h.container_eq, List.length_append, headerBytes_length,
    packedBytes_length]
  have hbytes := Nat.div_le_div_right (c := 8) (Nat.add_le_add_right hpayload 7)
  omega

theorem Compressible.inLen_le (hbuild : c.build.wellFormed = true) : c.regs.inLen.toNat ≤ 2 ^ 28 :=
  Machine.inLen_le hbuild h.counted.1

variable (hbuild : c.build.wellFormed = true) (hfits : c.containerLen ≤ c.cap)

include hbuild hfits

/-- SERIALIZE keeps the counts, the input they are of, and the table. -/
theorem Compressible.afterSerialize_keeps :
    c.afterSerialize.counted ∧ c.afterSerialize.tableIs c.entries ∧ c.afterSerialize.entries = c.entries
      ∧ c.afterSerialize.payloadOf c.input = c.payloadOf c.input := by
  have hbits := bitCount_eq_payload_length h.counted
  obtain ⟨-, -, hregs, -, htables⟩ := afterSerialize_spec hbuild hbits hfits
  have hbuild' := afterSerialize_build c
  have hinLen : c.afterSerialize.regs.inLen = c.regs.inLen := by rw [hregs]
  have hbody := serializeBody_of_fits hbuild (h.inLen_le hbuild) hbits hfits
  have hinput := input_congr (serializeBody_frame hbody).inByte hinLen (h.inLen_le hbuild)
  have hcarry : c.afterSerialize.carry c = c.afterSerialize := carry_eq_self c hbuild' htables
  refine ⟨counted_congr h.counted hinput hbuild' (congrArg Tables.freq htables) hinLen (by rw [hregs]) (by rw [hregs]),
    tableIs_congr hbuild' htables h.table, ?_, ?_⟩
  · rw [← hcarry]
    rfl
  · rw [← hcarry]
    rfl

/-- What SERIALIZE leaves in OUT_MEM, OUT_LEN and PAYLOAD_BITS (44_serializer.md R190, R198). -/
theorem Compressible.afterSerialize_output :
    c.afterSerialize.regs.outLen.toNat = c.container.length ∧ c.afterSerialize.outHolds c.container
      ∧ (∀ a, c.container.length ≤ a → c.afterSerialize.outByte a = s.outByte a)
      ∧ c.afterSerialize.regs.payloadBits.toNat = (c.payloadOf c.input).length := by
  have hbits := bitCount_eq_payload_length h.counted
  obtain ⟨hholds, hother, hregs, -, -⟩ := afterSerialize_spec hbuild hbits hfits
  obtain ⟨-, hmax⟩ := container_length_le hbuild hbits hfits
  have hlength := containerLen_eq hbits
  unfold State.containerLen at hlength
  refine ⟨?_, hholds, fun a ha => (hother a ha).trans (h.outByte a), ?_⟩
  · rw [hregs]
    exact toNat_ofNat32 (by omega)
  · rw [hregs, h.payloadBits, ← hbits]
    exact toNat_ofNat32 (by omega)

end

/-- Settles O39: the three stages leave a table whose codes have at most as many bits as the input has distinct bytes, so the
container fits. -/
theorem compressProducesAContainer : Obligations.CompressProducesAContainer := by
  intro s hidle hbuild hlen hsym u hcap
  obtain ⟨c, hc⟩ := exists_compressible (s := accept 1 (request 1 s)) hlen hsym
  have hcwf : c.build.wellFormed = true := by rwa [hc.frame.build]
  have hinLen : c.regs.inLen = s.regs.inLen := hc.frame.inLen
  have hinput : c.input = s.input := input_congr hc.frame.inByte hinLen (hinLen ▸ hc.inLen_le hcwf)
  have hu : c.entries.length = u := hc.entries_length.trans (by rw [hinput])
  have hfits : c.containerLen ≤ c.cap := by
    have hle := hc.containerLen_le
    rw [hu, hinLen] at hle
    exact (hle.trans hcap).trans_eq hc.frame.cap.symm
  have hbits := bitCount_eq_payload_length hc.counted
  have hbody : compressBody (accept 1 (request 1 s)) = .ok c.afterSerialize := by
    rw [hc.body, serializeBody_of_fits hcwf (hc.inLen_le hcwf) hbits hfits]
  have hexec : exec .compress s = .next (successCommit c.afterSerialize) := by
    rw [exec_runs (i := .compress) (body := compressBody) rfl hidle rfl]
    exact congrArg (finish · _) hbody
  have hframe := bodyOf_frame (op := 1) (body := compressBody) rfl hbody
  obtain ⟨-, -, hsame⟩ := commandsNeverWriteTheInput .compress s _ hexec
  obtain ⟨-, -, hregs, hstatus, -⟩ := afterSerialize_spec hcwf hbits hfits
  obtain ⟨hcounted, htable, hentries, hpayload⟩ := hc.afterSerialize_keeps hcwf hfits
  obtain ⟨houtLen, hholds, hother, hpayloadBits⟩ := hc.afterSerialize_output hcwf hfits
  obtain ⟨-, hread, hclash⟩ := hc.legal
  refine ⟨_, hexec, successCommit_completed hframe, congrArg (fun v => v.regs.cmdOp) hframe.outward,
    (congrArg Status.flags hstatus).trans hc.flags, hcounted, tableIs_prefixFree htable hclash, fun b hb => ?_, ?_, ?_, ?_,
    ?_, hsame (by decide)⟩
  · have hmem : (b, c.codeOf b.toNat) ∈ c.entries := List.mem_map.2 ⟨b, hc.symbols b (hinput ▸ hb), rfl⟩
    exact tableIs_bound htable ((afterSerialize_build c).symm ▸ tableEntries_of_readable hread) hmem
  · rw [successCommit_regs, hregs, ← hc.unique, hu]
  · rw [successCommit_regs, hregs, hc.payloadOfs]
  · rw [successCommit_regs, hpayloadBits, ← hpayload, hinput]
    rfl
  · intro container
    have hcontainer : container = c.container := by
      show headerBytes c.afterSerialize.entries u s.regs.inLen.toNat
        ++ packedBytes (c.afterSerialize.payloadOf s.input) = c.container
      rw [State.container, State.header, hentries, ← hinput, hpayload, hc.total, hinLen, ← hc.unique, hu]
    rw [hcontainer]
    exact ⟨houtLen, hholds, hother⟩

/-! ### DECOMPRESS -/

/-- A header lists no more entries than it has bytes, and a bit string has no more bits than its packed bytes hold. -/
theorem length_bounds_of_holds {s : State} {l picks : List (Byte × List Bool)} (hbuild : s.build.wellFormed = true)
    (hlen : s.lenOk) (h : s.holds 0 (headerBytes l l.length picks.length ++ packedBytes (picks.flatMap Prod.snd))) :
    l.length < 2 ^ 32 ∧ (picks.flatMap Prod.snd).length < 2 ^ 32 := by
  have hfits := h.1
  have hin := inLen_le hbuild hlen
  have hentries := length_le_length_entryBytes l
  rw [headerBytes_eq, List.length_append, List.length_append, List.length_append (bs := [Config.sentinel]),
    packedBytes_length] at hfits
  omega

/-- The state behind the header and the payload: OUT_MEM is written from offset 0 on alone, and the flags are
PARSE_HEADER's (47_control.md R268). -/
theorem afterContainer_keeps {s : State} {l picks : List (Byte × List Bool)} (hcap : picks.length ≤ s.cap) :
    let u := (s.afterParse l picks.length).afterDecode (picks.map Prod.fst)
    u.status.flags = (false, false, true, true) ∧ ∀ a, picks.length ≤ a → u.outByte a = s.outByte a := by
  have hcap32 : picks.length < 2 ^ 32 := hcap.trans_lt ((Nat.min_le_left _ _).trans_lt s.regs.outCap.isLt)
  have htotal : (s.afterParse l picks.length).regs.total.toNat = picks.length := toNat_ofNat32 hcap32
  have hfits : picks.length ≤ (s.afterParse l picks.length).cap := hcap.trans_eq (parsed_cap s l).symm
  obtain ⟨-, hother, -, hstatus, -⟩ := afterDecode_spec (s := s.afterParse l picks.length)
    (symbols := picks.map Prod.fst) (by rw [htotal, List.length_map]) (by rwa [htotal])
  refine ⟨(congrArg Status.flags hstatus).trans rfl, fun a ha => (hother a (by rwa [List.length_map])).trans ?_⟩
  exact congrArg (fun v => v.outByte a) (bindCodes_sansCodes (s.enterPhase .parseHeader).clearCodes l)

/-- Settles O40: the parser reads the header's entries, and the decoder the symbols that the payload picks among them. -/
theorem decompressDecodesAContainer : Obligations.DecompressDecodesAContainer := by
  intro s entries picks hidle hbuild hlen hlegal hpicks hpos hcap hholds
  have hbody := decompressBody_of_container (s := accept 2 (request 2 s)) hlegal hbuild hlen hpicks hpos hcap hholds
  have hframe := bodyOf_frame (op := 2) (body := decompressBody) rfl hbody
  obtain ⟨hexec, hcompleted⟩ := exec_decompress hlegal hidle hbuild hlen hpicks hpos hcap hholds
  obtain ⟨-, htable, hout, houtLen, hunique, htotal, hbits⟩ :=
    afterContainer_spec (s := accept 2 (request 2 s)) hlegal hpicks hcap
  obtain ⟨hflags, hother⟩ := afterContainer_keeps (s := accept 2 (request 2 s)) (l := entries) hcap
  obtain ⟨-, -, hsame⟩ := commandsNeverWriteTheInput .decompress s _ hexec
  obtain ⟨hentries32, hbits32⟩ := length_bounds_of_holds hbuild hlen hholds
  have hpicks32 : picks.length < 2 ^ 32 := hcap.trans_lt ((Nat.min_le_left _ _).trans_lt s.regs.outCap.isLt)
  refine ⟨_, hexec, hcompleted, congrArg (fun v => v.regs.cmdOp) hframe.outward, hflags, htable, hout, ?_, ?_, ?_, ?_,
    hother, hsame (by decide)⟩
  · rw [successCommit_regs, houtLen, toNat_ofNat32 hpicks32]
  · rw [successCommit_regs, hunique, toNat_ofNat32 hentries32]
  · rw [successCommit_regs, htotal, toNat_ofNat32 hpicks32]
  · rw [successCommit_regs, hbits, toNat_ofNat32 hbits32]

end Sys2Proof.Machine
end
